-- ==== Sys2Proof/Word.lean ====
section
/-!
DEFINITION. The bit-vector types of the ENGINE (R10: "all values in this spec are unsigned").
-/

namespace Sys2Proof

/-- `UInt8`: a byte on the SPI bus, a register address (P_ADDR_BITS = 8), a request tag. -/
abbrev Byte := BitVec 8

/-- `UInt16`: a register value, a mask, a header field, a byte count. -/
abbrev Word := BitVec 16

/-- `UInt32`: a bookkeeping counter, wrapping modulo 2^32 (R32). -/
abbrev Counter := BitVec 32

end Sys2Proof
end

