-- ==== Sys2Proof/Config.lean ====
section
/-!
DEFINITION. The configuration of the ENGINE: every constant of the spec is a parameter `P_*`
(00_scope.md R6, R8), held here as one field each. The reference configuration (R7) and the
well-formedness of a configuration (R9) are in Sys2Proof/Machine/Reference.lean. The free values
of the model (what the spec leaves open) are the constants without a body at the end.
-/

namespace Sys2Proof

/-- The two register access widths of R62. -/
inductive Width
  | w8
  | w16
  deriving DecidableEq, Repr

/-- A register reference: "a pair (address, width)" (R8). -/
structure Reg where
  addr : Byte
  width : Width
  deriving DecidableEq, Repr

/-- One entry `reg ← value` of a write list (R8, R135). -/
structure RegWrite where
  reg : Reg
  value : Word
  deriving DecidableEq, Repr

/-- P_CMD_LOW_BITS (R93). -/
inductive CmdLowBits
  | zero
  | addrLow
  deriving DecidableEq, Repr

/-- P_DATA_ENDIAN (R63). -/
inductive Endian
  | little
  | big
  deriving DecidableEq, Repr

/-- P_ISR_CLEAR (R8, R274): how the chip clears its status bits. -/
inductive IsrClear
  | w1c
  | onRead
  deriving DecidableEq, Repr

/-- Where the write of P_TX_FRAMELEN_REG stands. The spec says both: after the burst (R160, with R161's
"subsequent" and R225) and "just before the burst" (92 D21). Log entry 22. -/
inductive FramelenPlace
  | beforeBurst
  | afterBurst
  deriving DecidableEq, Repr

/-- P_VALID_REG as plain data. `unchecked` is the reference predicate of R8 (every even address
for 16 bits, every address for 8 bits); `listed` is any predicate, given by its registers. -/
inductive RegMap
  | unchecked
  | listed (regs : List Reg)
  deriving DecidableEq, Repr

/-- The implementation parameters of R8, one field for each row (P_MAC_REGS is three fields), and
`framelenPlace`, the one point on which the spec's own files leave two orders (log entry 22). -/
structure Config where
  /-- P_ADDR_BITS -/
  addrBits : Nat
  /-- P_VALID_REG -/
  validReg : RegMap
  /-- P_OP_RD -/
  opRd : BitVec 2
  /-- P_OP_WR -/
  opWr : BitVec 2
  /-- P_OP_RXQ -/
  opRxq : BitVec 2
  /-- P_OP_TXQ -/
  opTxq : BitVec 2
  /-- P_CMD_LOW_BITS -/
  cmdLowBits : CmdLowBits
  /-- P_DATA_ENDIAN -/
  dataEndian : Endian
  /-- P_DUMMY_TX -/
  dummyTx : Byte
  /-- P_RX_LEAD -/
  rxLead : Nat
  /-- P_RX_FIFO_HDR -/
  rxFifoHdr : Nat
  /-- P_RX_ALIGN -/
  rxAlign : Nat
  /-- P_RX_TRAILER -/
  rxTrailer : Nat
  /-- P_RX_HDR_STATUS_REG -/
  rxHdrStatusReg : Reg
  /-- P_RX_HDR_COUNT_REG -/
  rxHdrCountReg : Reg
  /-- P_RX_BC_MASK -/
  rxBcMask : Word
  /-- P_RX_VALID_BIT -/
  rxValidBit : Word
  /-- P_RX_REJECT_MASK -/
  rxRejectMask : Word
  /-- P_RX_MAX_FRAME -/
  rxMaxFrame : Nat
  /-- P_RXQ_SIZE -/
  rxqSize : Nat
  /-- P_RX_BUF -/
  rxBuf : Nat
  /-- P_RX_COUNT_REG -/
  rxCountReg : Reg
  /-- P_RX_MAX_PER_CALL -/
  rxMaxPerCall : Nat
  /-- P_RX_PRE -/
  rxPre : List RegWrite
  /-- P_RX_POST -/
  rxPost : List RegWrite
  /-- P_RX_RELEASE -/
  rxRelease : List RegWrite
  /-- P_TX_HDR_LEN -/
  txHdrLen : Nat
  /-- P_TX_ALIGN -/
  txAlign : Nat
  /-- P_PAD_BYTE -/
  padByte : Byte
  /-- P_TX_MIN_FRAME -/
  txMinFrame : Nat
  /-- P_TX_MAX_FRAME -/
  txMaxFrame : Nat
  /-- P_TX_SPACE_REG -/
  txSpaceReg : Reg
  /-- P_TX_SPACE_MASK -/
  txSpaceMask : Word
  /-- P_TXQ_SIZE -/
  txqSize : Nat
  /-- P_TXCW_IRQ_BIT -/
  txcwIrqBit : Option Word
  /-- P_TXCW_CSUM_BIT -/
  txcwCsumBit : Option Word
  /-- P_TXCW_FID_MASK -/
  txcwFidMask : Word
  /-- P_TX_BC_MASK -/
  txBcMask : Word
  /-- P_TX_PRE -/
  txPre : List RegWrite
  /-- P_TX_POST -/
  txPost : List RegWrite
  /-- P_TX_ENQUEUE -/
  txEnqueue : RegWrite
  /-- P_TX_FRAMELEN_REG -/
  txFramelenReg : Option Reg
  /-- Model: where the write of P_TX_FRAMELEN_REG stands. Log entry 22. -/
  framelenPlace : FramelenPlace
  /-- P_ISR_REG -/
  isrReg : Reg
  /-- P_IER_REG -/
  ierReg : Reg
  /-- P_ISR_LINK -/
  isrLink : Word
  /-- P_ISR_TX -/
  isrTx : Word
  /-- P_ISR_RX -/
  isrRx : Word
  /-- P_ISR_RXOVR -/
  isrRxovr : Word
  /-- P_ISR_CLEAR -/
  isrClear : IsrClear
  /-- P_RESET_WRITES -/
  resetWrites : List RegWrite
  /-- P_READY_REG -/
  readyReg : Reg
  /-- P_READY_MASK -/
  readyMask : Word
  /-- P_READY_VALUE -/
  readyValue : Word
  /-- P_RESET_POLL_MAX -/
  resetPollMax : Nat
  /-- P_MAC_REGS, first: MAC bytes 0 and 1 -/
  macReg01 : Reg
  /-- P_MAC_REGS, second: MAC bytes 2 and 3 -/
  macReg23 : Reg
  /-- P_MAC_REGS, third: MAC bytes 4 and 5 -/
  macReg45 : Reg
  /-- P_FILTER_REGS -/
  filterRegs : List Reg
  /-- P_THRESH_WRITES -/
  threshWrites : List RegWrite
  /-- P_CONFIG_TAIL -/
  configTail : List RegWrite
  /-- P_LINK_REG -/
  linkReg : Reg
  /-- P_LINK_UP_BIT -/
  linkUpBit : Word
  /-- P_LINK_100_BIT -/
  link100Bit : Word
  /-- P_LINK_FDX_BIT -/
  linkFdxBit : Word
  deriving DecidableEq, Repr

/-- FREE VALUE (R66: "`ok(in)` … or `fail`"): whether the transport fails the transaction of this
number. Log entry 4. -/
opaque Config.transportFails : Nat → Bool

/-- FREE VALUE (R66: "The bytes of `in` are a free draw of the CHIP"): byte `i` of what the chip
answers in the transaction of this number. Log entry 4. -/
opaque Config.chipByte (txn i : Nat) : Byte

/-- FREE VALUE (R64: "such a read returns a free draw"): byte `i` that a plain chip answers, after this many
transactions, to a read of another width than the write before it, with P_DATA_ENDIAN = big. No step reads
it. Log entry 30. -/
opaque Config.mixedWidthByte (txns i : Nat) : Byte

/-- FREE VALUE (R132: "the register may or may not hold `v` (free)"): byte `i` that a plain chip holds after the
register write of this transaction failed. No step reads it. Log entry 30. -/
opaque Config.byteAfterFailedWrite (txn i : Nat) : Byte

/-- FREE VALUE: what `x.rx_left : UInt8` (R27) holds when `min(fc, P_RX_MAX_PER_CALL)` exceeds 255;
the spec states no result there. Log entry 17. -/
opaque Config.rxLeftOverflow : Nat → Byte

/-- FREE VALUE: what `x.tx_written : UInt16` (R29) holds when the burst is longer than 65535
bytes; the spec states no result there. Log entry 18. -/
opaque Config.txWrittenOverflow : Nat → Word

end Sys2Proof
end

