-- ==== Sys2Proof/Machine/Lanes.lean ====
section
/-!
DEFINITION. The bit-field, byte-lane and byte-order helpers every layer uses: notation of R10 and
R11, the command word of R90 to R94, the FIFO command byte of R96, the data bytes of R63.
-/

namespace Sys2Proof

/-- The number of data bytes of a register access, `w / 8` (R69). -/
def Width.bytes : Width → Nat
  | .w8 => 1
  | .w16 => 2

/-- The width a request names as a number of bits; none where it is neither 8 nor 16 (R62). -/
def Width.ofBits? (bits : Byte) : Option Width :=
  if bits = 8 then some .w8 else if bits = 16 then some .w16 else none

/-- The number of bits of a width. -/
def Width.bits : Width → Byte
  | .w8 => 8
  | .w16 => 16

/-- The bits of a 16-bit value a register of this width can hold. -/
def Width.mask : Width → Word
  | .w8 => 0x00FF
  | .w16 => 0xFFFF

/-- `align_up(n, u)` (R10). -/
def alignUp (n u : Nat) : Nat := (n + u - 1) / u * u

/-- `v[7:0]`. -/
def lowByte (v : Word) : Byte := v.extractLsb' 0 8

/-- `v[15:8]`. -/
def highByte (v : Word) : Byte := v.extractLsb' 8 8

/-- The 16-bit value with this upper and this lower byte, `hi ‖ lo` (R10). -/
def wordOf (hi lo : Byte) : Word := hi ++ lo

/-- `le16` (R11). -/
def le16 (v : Word) : List Byte := [lowByte v, highByte v]

/-- `be16` (R11). -/
def be16 (v : Word) : List Byte := [highByte v, lowByte v]

/-- `enc16` (R11): the byte order of register data and header fields (R63). -/
def enc16 : Endian → Word → List Byte
  | .little, v => le16 v
  | .big, v => be16 v

/-- `dec16` (R11) of the first two bytes of a list (both present wherever it is used). -/
def dec16 (e : Endian) (bytes : List Byte) : Word :=
  let b0 := bytes.getD 0 0
  let b1 := bytes.getD 1 0
  match e with
  | .little => wordOf b1 b0
  | .big => wordOf b0 b1

/-- `data(w, v)` of R94: the bytes a register write carries. -/
def dataBytes (e : Endian) : Width → Word → List Byte
  | .w8, v => [lowByte v]
  | .w16, v => enc16 e v

/-- The value of the bytes a register read received (R94): 8 bits are zero-extended. -/
def readValue (e : Endian) : Width → List Byte → Word
  | .w8, bytes => (bytes.getD 0 0).setWidth 16
  | .w16, bytes => dec16 e bytes

/-- `a[7:2]`, the window of an address (R61). -/
def windowOf (a : Byte) : BitVec 6 := a.extractLsb' 2 6

/-- `a[1:0]`, the lane of an address (R61). -/
def laneOf (a : Byte) : BitVec 2 := a.extractLsb' 0 2

/-- R61: a 16-bit access requires `a[0] = 0`. -/
def aligned (a : Byte) : Width → Bool
  | .w8 => true
  | .w16 => !a.getLsbD 0

/-- Byte-enable assembly (R91). -/
def byteEnable (a : Byte) : Width → BitVec 4
  | .w8 => 0b0001#4 <<< (laneOf a).toNat
  | .w16 => 0b0011#4 <<< (laneOf a).toNat

/-- The width a byte-enable mask stands for; none for a reserved mask (R92). -/
def enabledWidth (be : BitVec 4) : Option Width :=
  if be = 0b0001 ∨ be = 0b0010 ∨ be = 0b0100 ∨ be = 0b1000 then some .w8
  else if be = 0b0011 ∨ be = 0b1100 then some .w16
  else none

/-- `lowlane(BE)` (R103): the index of the lowest set bit. -/
def lowLane (be : BitVec 4) : BitVec 2 :=
  if be.getLsbD 0 then 0 else if be.getLsbD 1 then 1 else if be.getLsbD 2 then 2 else 3

/-- `popcount(BE)` (R103): the number of lanes a mask enables. -/
def enabledLanes (be : BitVec 4) : Nat :=
  (be.getLsbD 0).toNat + (be.getLsbD 1).toNat + (be.getLsbD 2).toNat + (be.getLsbD 3).toNat

/-- The command low bits `C[3:0]` (R93). -/
def lowBits (a : Byte) : CmdLowBits → BitVec 4
  | .zero => 0
  | .addrLow => laneOf a ++ 0b00#2

/-- The register command word (R90): opcode, byte enables, window, low bits. -/
def commandWord (op : BitVec 2) (be : BitVec 4) (window : BitVec 6) (low : BitVec 4) : Word :=
  op ++ be ++ window ++ low

/-- `regcmd(op, a, w) = be16(C)` (R94): most significant command byte first (R65). -/
def regCommand (cfg : Config) (op : BitVec 2) (a : Byte) (w : Width) : List Byte :=
  be16 (commandWord op (byteEnable a w) (windowOf a) (lowBits a cfg.cmdLowBits))

/-- The FIFO command byte `F = op << 6` (R96). -/
def fifoCommand (op : BitVec 2) : Byte := op ++ 0b000000#6

/-- `d` padded with P_PAD_BYTE to P_TX_ALIGN: the data bytes of a TX burst (R98). -/
def txPadded (cfg : Config) (d : List Byte) : List Byte :=
  d ++ List.replicate (alignUp d.length cfg.txAlign - d.length) cfg.padByte

end Sys2Proof
end

