-- ==== Sys2Proof/Machine/Reference.lean ====
section
/-!
DEFINITION. The reference configuration (00_scope.md R7, column "ref" of R8), P_VALID_REG as a
predicate, and the well-formedness of a configuration (R9).
-/

namespace Sys2Proof

/-- `P_VALID_REG(a, w)`. The reference predicate is "true for every even a when w=16 and every a
when w=8 (no existence check)" (R8). -/
def RegMap.holds : RegMap → Byte → Width → Bool
  | .unchecked, a, w => aligned a w
  | .listed regs, a, w => regs.contains ⟨a, w⟩

/-- The reference configuration (R8). Every value is general knowledge, not in the source (R7).
Log entry 2. `framelenPlace` is no row of R8 and has no effect here, as there is no such register. -/
def Config.reference : Config where
  addrBits := 8
  validReg := .unchecked
  opRd := 0b00
  opWr := 0b01
  opRxq := 0b10
  opTxq := 0b11
  cmdLowBits := .zero
  dataEndian := .little
  dummyTx := 0x00
  rxLead := 4
  rxFifoHdr := 4
  rxAlign := 4
  rxTrailer := 4
  rxHdrStatusReg := ⟨0x7C, .w16⟩
  rxHdrCountReg := ⟨0x7E, .w16⟩
  rxBcMask := 0x0FFF
  rxValidBit := 0x8000
  rxRejectMask := 0x0017
  rxMaxFrame := 2000
  rxqSize := 12288
  rxBuf := 1996
  rxCountReg := ⟨0x9D, .w8⟩
  rxMaxPerCall := 8
  rxPre := [⟨⟨0x86, .w16⟩, 0x4000⟩, ⟨⟨0x82, .w16⟩, 0x0038⟩]
  rxPost := []
  rxRelease := [⟨⟨0x82, .w16⟩, 0x0030⟩]
  txHdrLen := 4
  txAlign := 4
  padByte := 0x00
  txMinFrame := 14
  txMaxFrame := 1514
  txSpaceReg := ⟨0x78, .w16⟩
  txSpaceMask := 0x1FFF
  txqSize := 6144
  txcwIrqBit := some 0x8000
  txcwCsumBit := none
  txcwFidMask := 0x003F
  txBcMask := 0x07FF
  txPre := [⟨⟨0x82, .w16⟩, 0x0038⟩]
  txPost := [⟨⟨0x82, .w16⟩, 0x0030⟩]
  txEnqueue := ⟨⟨0x80, .w16⟩, 0x0001⟩
  txFramelenReg := none
  framelenPlace := .afterBurst
  isrReg := ⟨0x92, .w16⟩
  ierReg := ⟨0x90, .w16⟩
  isrLink := 0x8000
  isrTx := 0x4000
  isrRx := 0x2000
  isrRxovr := 0x0800
  isrClear := .w1c
  resetWrites := [⟨⟨0x26, .w16⟩, 0x0001⟩, ⟨⟨0x26, .w16⟩, 0x0000⟩]
  readyReg := ⟨0xC0, .w16⟩
  readyMask := 0xFFF0
  readyValue := 0x8870
  resetPollMax := 10
  macReg01 := ⟨0x14, .w16⟩
  macReg23 := ⟨0x12, .w16⟩
  macReg45 := ⟨0x10, .w16⟩
  filterRegs := [⟨0x74, .w16⟩, ⟨0x76, .w16⟩]
  threshWrites := [⟨⟨0x9C, .w16⟩, 0x0001⟩]
  configTail := [⟨⟨0x84, .w16⟩, 0x4000⟩, ⟨⟨0x82, .w16⟩, 0x0030⟩, ⟨⟨0x70, .w16⟩, 0x000F⟩]
  linkReg := ⟨0xF8, .w16⟩
  linkUpBit := 0x0020
  link100Bit := 0x0400
  linkFdxBit := 0x0200

/-- Every register reference of a configuration (R9, last condition). -/
def Config.regs (c : Config) : List Reg :=
  [c.rxHdrStatusReg, c.rxHdrCountReg, c.rxCountReg, c.txSpaceReg, c.txEnqueue.reg, c.isrReg,
    c.ierReg, c.readyReg, c.macReg01, c.macReg23, c.macReg45, c.linkReg]
  ++ c.txFramelenReg.toList ++ c.filterRegs
  ++ (c.rxPre ++ c.rxPost ++ c.rxRelease ++ c.txPre ++ c.txPost ++ c.resetWrites
    ++ c.threshWrites ++ c.configTail).map RegWrite.reg

/-- A register reference satisfies the alignment rule of R61. -/
def Reg.aligned (r : Reg) : Bool := Sys2Proof.aligned r.addr r.width

/-- A mask of exactly one bit (R9: "single … bits"). -/
def singleBit (v : Word) : Bool := v != 0 && v &&& (v - 1) == 0

/-- The four status bits are single distinct bits (R9). -/
def Config.isrBitsOk (c : Config) : Bool :=
  [c.isrLink, c.isrTx, c.isrRx, c.isrRxovr].all singleBit
    && decide [c.isrLink, c.isrTx, c.isrRx, c.isrRxovr].Nodup

/-- R9: when a configuration is well formed. The first two conditions are R90 ("a configuration with
another address width … is refused") and R102 ("P_TX_HDR_LEN = 4 bytes"); the others are R9's own,
in its order, the last its alignment rule alone: that P_VALID_REG holds of the parameter registers is no
condition (R135 names the checks of REG_READ, R9 of those the alignment only). Log entry 13. -/
def Config.wellFormed (c : Config) : Bool :=
  c.addrBits == 8 && c.txHdrLen == 4
    && decide [c.opRd, c.opWr, c.opRxq, c.opTxq].Nodup
    && decide (1 ≤ c.rxAlign) && decide (1 ≤ c.txAlign)
    && decide (c.rxMaxFrame - c.rxTrailer ≤ c.rxBuf)
    && decide (1 ≤ c.rxMaxPerCall) && decide (1 ≤ c.resetPollMax)
    && decide (c.txMinFrame ≤ c.txMaxFrame) && decide (c.txMaxFrame ≤ c.txBcMask.toNat)
    && c.isrBitsOk && c.regs.all Reg.aligned

end Sys2Proof
end

