-- ==== Sys2Proof/Syntax.lean ====
section
/-!
DEFINITION. The instructions of the ENGINE: one constructor for each row of spec/opcode_table.json.
The first four rows are the wire frames of 30_encoding.md R90 to R98 (each is one SPI transaction);
the other thirteen are the requests of R110 ("An operation is the ENGINE's instruction", R12).
-/

namespace Sys2Proof

/-- The name of an instruction without its operands: the `op` of the sequencer position (R21). -/
inductive Op
  | spiRegRead
  | spiRegWrite
  | spiRxqRead
  | spiTxqWrite
  | regRead
  | regWrite
  | regRmw
  | fifoRead
  | fifoWrite
  | rxHdrParse
  | receive
  | txHdrBuild
  | transmit
  | reset
  | configure
  | linkStatus
  | serviceInterrupts
  deriving DecidableEq, Repr

/-- An instruction with its operands. A request keeps its fields as the caller gave them: a width
that is no register width, or a list of the wrong length, is refused by the request's own checks
(R111, R130, R180, R256), so it must be expressible here. -/
inductive Instr
  /-- SPI_REG_READ (R94): `be` = C[13:10], `window` = C[9:4], `low` = C[3:0]. -/
  | spiRegRead (be : BitVec 4) (window : BitVec 6) (low : BitVec 4)
  /-- SPI_REG_WRITE (R94): the same command fields and the data bytes as sent. -/
  | spiRegWrite (be : BitVec 4) (window : BitVec 6) (low : BitVec 4) (data : List Byte)
  /-- SPI_RXQ_READ (R97): `n` bytes are received after the command byte. -/
  | spiRxqRead (n : Nat)
  /-- SPI_TXQ_WRITE (R98): the bytes driven after the command byte, padding included. -/
  | spiTxqWrite (data : List Byte)
  /-- REG_READ (R130). -/
  | regRead (addr : Byte) (width : Byte)
  /-- REG_WRITE (R132). -/
  | regWrite (addr : Byte) (width : Byte) (value : Word)
  /-- REG_RMW (R134). -/
  | regRmw (addr : Byte) (width : Byte) (clr set : Word)
  /-- FIFO_READ (R150). -/
  | fifoRead (count : Word)
  /-- FIFO_WRITE (R160). -/
  | fifoWrite (data : List Byte)
  /-- RX_HDR_PARSE (R180). -/
  | rxHdrParse (hdr : List Byte)
  /-- RECEIVE (R195). -/
  | receive
  /-- TX_HDR_BUILD (R220). -/
  | txHdrBuild (irq csum : Bool) (fid len : Word)
  /-- TRANSMIT (R225). -/
  | transmit (frame : List Byte) (irq csum : Bool)
  /-- RESET (R250). -/
  | reset
  /-- CONFIGURE (R256). -/
  | configure (mac : List Byte) (filter : List Word) (imask : Word)
  /-- LINK_STATUS (R262). -/
  | linkStatus
  /-- SERVICE_INTERRUPTS (R270). -/
  | serviceInterrupts
  deriving DecidableEq, Repr

/-- The name of an instruction. -/
def Instr.op : Instr → Op
  | .spiRegRead _ _ _ => .spiRegRead
  | .spiRegWrite _ _ _ _ => .spiRegWrite
  | .spiRxqRead _ => .spiRxqRead
  | .spiTxqWrite _ => .spiTxqWrite
  | .regRead _ _ => .regRead
  | .regWrite _ _ _ => .regWrite
  | .regRmw _ _ _ _ => .regRmw
  | .fifoRead _ => .fifoRead
  | .fifoWrite _ => .fifoWrite
  | .rxHdrParse _ => .rxHdrParse
  | .receive => .receive
  | .txHdrBuild _ _ _ _ => .txHdrBuild
  | .transmit _ _ _ => .transmit
  | .reset => .reset
  | .configure _ _ _ => .configure
  | .linkStatus => .linkStatus
  | .serviceInterrupts => .serviceInterrupts

/-- What is handed to the ENGINE, as bytes: a request of the CALLER (R110: "a tag byte and named
fields"), or the bytes driven in one SPI transaction, from chip-select assertion to deassertion
(R99), read phase included. -/
inductive Submission
  | request (bytes : List Byte)
  | frame (bytes : List Byte)
  deriving DecidableEq, Repr

end Sys2Proof
end

