-- ==== Sys2Proof/WellFormed.lean ====
section
/-!
DEFINITION. When an instruction is well formed: its fields have the shape the spec gives them.
A request that is not well formed is refused by its own checks (R111, R62); a frame that is not well
formed is one no request emits (R92, R97, R98, R103): as an instruction of its own, a register frame of that
kind is refused and a burst of that length is driven as given (log entry 5).
-/

namespace Sys2Proof

/-- The fields of an instruction have the shape of its encoding: a byte-enable mask is legal (R92) and
the data as long as it says (R95); a burst is lead bytes and whole alignment units (R97, R98); a width
is 8 or 16 (R62); lists that stand for a fixed number of bytes or registers have that length (R110). -/
def Instr.wellFormed (cfg : Config) : Instr → Bool
  | .spiRegRead be _ _ => (enabledWidth be).isSome
  | .spiRegWrite be _ _ data => (enabledWidth be).any fun w => data.length == w.bytes
  | .spiRxqRead n => decide (cfg.rxLead ≤ n) && (n - cfg.rxLead) % cfg.rxAlign == 0
  | .spiTxqWrite data => data.length % cfg.txAlign == 0
  | .regRead _ width => (Width.ofBits? width).isSome
  | .regWrite _ width _ => (Width.ofBits? width).isSome
  | .regRmw _ width _ _ => (Width.ofBits? width).isSome
  | .fifoRead _ => true
  | .fifoWrite _ => true
  | .rxHdrParse hdr => hdr.length == 4
  | .receive => true
  | .txHdrBuild _ _ _ _ => true
  | .transmit _ _ _ => true
  | .reset => true
  | .configure mac filter _ => mac.length == 6 && filter.length == cfg.filterRegs.length
  | .linkStatus => true
  | .serviceInterrupts => true

end Sys2Proof
end

