-- ==== Sys2Proof/Decode.lean ====
section
/-!
DEFINITION. The decoder: total on any bytes, refusing by name; then the encoder, written from the same
tables. Requests: R110 and R111 (the bytes after the tag: log entry 3). Frames: R90 to R99 and R103.
The bus classification of R103 and the layout of an opcode-table word stand at the end.
-/

namespace Sys2Proof

/-- Why bytes are no instruction. -/
inductive DecodeError
  /-- A request with no tag byte (R110). -/
  | emptyRequest
  /-- A tag that is not in R110's table (R111). -/
  | unknownTag (tag : Byte)
  /-- The tag names this request and its fields have the wrong length or form (R111). -/
  | badFields (op : Op)
  /-- No byte between chip-select assertion and deassertion. -/
  | emptyFrame
  /-- The two opcode bits name no command (only where two opcode parameters are equal, R9). -/
  | unknownOpcode (first : Byte)
  /-- A register command of a wrong length (R95, R103). -/
  | frameLength (op : Op)
  /-- A FIFO command byte with `F[5:0] ≠ 0` (R96). -/
  | reservedFifoByte (first : Byte)
  deriving DecidableEq, Repr

/-- The request tags of R110. -/
def requestTags : List (Byte × Op) :=
  [(0x01, .regRead), (0x02, .regWrite), (0x03, .regRmw), (0x10, .fifoRead), (0x11, .fifoWrite),
    (0x20, .rxHdrParse), (0x21, .receive), (0x30, .txHdrBuild), (0x31, .transmit),
    (0x40, .reset), (0x41, .configure), (0x42, .linkStatus), (0x43, .serviceInterrupts)]

/-- A flag field: one byte, 0 or 1. -/
def flagOf? (b : Byte) : Option Bool :=
  if b = 0 then some false else if b = 1 then some true else none

/-- A list of 16-bit fields, each lower byte first. -/
def wordsOf? : List Byte → Option (List Word)
  | [] => some []
  | [_] => none
  | lo :: hi :: rest => (wordsOf? rest).map (wordOf hi lo :: ·)

/-- The fields of a request after its tag (R110), in the serialisation of log entry 3. -/
def fieldsOf? : Op → List Byte → Option Instr
  | .regRead, [a, w] => some (.regRead a w)
  | .regWrite, [a, w, v0, v1] => some (.regWrite a w (wordOf v1 v0))
  | .regRmw, [a, w, c0, c1, s0, s1] => some (.regRmw a w (wordOf c1 c0) (wordOf s1 s0))
  | .fifoRead, [m0, m1] => some (.fifoRead (wordOf m1 m0))
  | .fifoWrite, data => some (.fifoWrite data)
  | .rxHdrParse, hdr => some (.rxHdrParse hdr)
  | .receive, [] => some .receive
  | .txHdrBuild, [i, c, f0, f1, l0, l1] =>
    match flagOf? i, flagOf? c with
    | some irq, some csum => some (.txHdrBuild irq csum (wordOf f1 f0) (wordOf l1 l0))
    | _, _ => none
  | .transmit, i :: c :: frame =>
    match flagOf? i, flagOf? c with
    | some irq, some csum => some (.transmit frame irq csum)
    | _, _ => none
  | .reset, [] => some .reset
  | .configure, m0 :: m1 :: m2 :: m3 :: m4 :: m5 :: i0 :: i1 :: rest =>
    (wordsOf? rest).map fun filter => .configure [m0, m1, m2, m3, m4, m5] filter (wordOf i1 i0)
  | .linkStatus, [] => some .linkStatus
  | .serviceInterrupts, [] => some .serviceInterrupts
  | _, _ => none

/-- A request: a tag of R110's table and its fields (R111 refuses every other). -/
def decodeRequest : List Byte → Except DecodeError Instr
  | [] => .error .emptyRequest
  | tag :: fields =>
    match requestTags.lookup tag with
    | none => .error (.unknownTag tag)
    | some op =>
      match fieldsOf? op fields with
      | some i => .ok i
      | none => .error (.badFields op)

/-- A register command frame after its opcode bits: the fields of C (R90) and `data`, the bytes after
the command word, as many as C enables lanes (R95, R103). -/
def decodeRegFrame (cfg : Config) (b0 : Byte) : List Byte → Except DecodeError Instr
  | [] => .error (.frameLength (if b0.extractLsb' 6 2 = cfg.opRd then .spiRegRead else .spiRegWrite))
  | b1 :: data =>
    let c := wordOf b0 b1
    let be := c.extractLsb' 10 4
    let window := c.extractLsb' 4 6
    let low := c.extractLsb' 0 4
    if b0.extractLsb' 6 2 = cfg.opRd then
      if data.length = enabledLanes be then .ok (.spiRegRead be window low)
      else .error (.frameLength .spiRegRead)
    else
      if data.length = enabledLanes be then .ok (.spiRegWrite be window low data)
      else .error (.frameLength .spiRegWrite)

/-- A frame as driven on the bus, read phase included: "the first byte `b0` after chip-select
assertion selects the command by `b0[7:6]`" (R103). -/
def decodeFrame (cfg : Config) : List Byte → Except DecodeError Instr
  | [] => .error .emptyFrame
  | b0 :: rest =>
    let op := b0.extractLsb' 6 2
    if op = cfg.opRd ∨ op = cfg.opWr then decodeRegFrame cfg b0 rest
    else if op = cfg.opRxq then
      if b0.extractLsb' 0 6 = 0 then .ok (.spiRxqRead rest.length) else .error (.reservedFifoByte b0)
    else if op = cfg.opTxq then
      if b0.extractLsb' 0 6 = 0 then .ok (.spiTxqWrite rest) else .error (.reservedFifoByte b0)
    else .error (.unknownOpcode b0)

/-- The decoder. -/
def decode (cfg : Config) : Submission → Except DecodeError Instr
  | .request bytes => decodeRequest bytes
  | .frame bytes => decodeFrame cfg bytes

/-- A flag field. -/
def flagByte (b : Bool) : Byte := if b then 1 else 0

/-- The encoder: a request as its tag and fields (R110, log entry 3), a frame as the bytes driven on
the bus (R94, R97, R98), the read phase as P_DUMMY_TX bytes (R66). -/
def encode (cfg : Config) : Instr → Submission
  | .spiRegRead be window low =>
    .frame (be16 (commandWord cfg.opRd be window low)
      ++ List.replicate (enabledLanes be) cfg.dummyTx)
  | .spiRegWrite be window low data => .frame (be16 (commandWord cfg.opWr be window low) ++ data)
  | .spiRxqRead n => .frame (fifoCommand cfg.opRxq :: List.replicate n cfg.dummyTx)
  | .spiTxqWrite data => .frame (fifoCommand cfg.opTxq :: data)
  | .regRead a w => .request [0x01, a, w]
  | .regWrite a w v => .request ([0x02, a, w] ++ le16 v)
  | .regRmw a w clr set => .request ([0x03, a, w] ++ le16 clr ++ le16 set)
  | .fifoRead m => .request (0x10 :: le16 m)
  | .fifoWrite data => .request (0x11 :: data)
  | .rxHdrParse hdr => .request (0x20 :: hdr)
  | .receive => .request [0x21]
  | .txHdrBuild irq csum fid len =>
    .request ([0x30, flagByte irq, flagByte csum] ++ le16 fid ++ le16 len)
  | .transmit frame irq csum => .request (0x31 :: flagByte irq :: flagByte csum :: frame)
  | .reset => .request [0x40]
  | .configure mac filter imask => .request (0x41 :: (mac ++ le16 imask ++ filter.flatMap le16))
  | .linkStatus => .request [0x42]
  | .serviceInterrupts => .request [0x43]

/-- What a bus monitor makes of one frame (R103). -/
inductive WireClass
  | regRead (a : Byte) (w : Width)
  | regWrite (a : Byte) (w : Width) (data : List Byte)
  | rxBurst (n : Nat)
  | txBurst (data : List Byte)
  | reserved
  deriving DecidableEq, Repr

/-- `a = C[9:4] ‖ lowlane(BE)` (R103). -/
def frameAddress (window : BitVec 6) (be : BitVec 4) : Byte := window ++ lowLane be

/-- The wire decode of R103: the frame's command, or `reserved` for a reserved byte-enable mask, a
wrong length, or a FIFO command byte with `b0[5:0] ≠ 0`. -/
def wireDecode (cfg : Config) (bytes : List Byte) : WireClass :=
  match decodeFrame cfg bytes with
  | .ok (.spiRegRead be window _) =>
    match enabledWidth be with
    | some w => .regRead (frameAddress window be) w
    | none => .reserved
  | .ok (.spiRegWrite be window _ data) =>
    match enabledWidth be with
    | some w => .regWrite (frameAddress window be) w data
    | none => .reserved
  | .ok (.spiRxqRead n) => .rxBurst n
  | .ok (.spiTxqWrite data) => .txBurst data
  | _ => .reserved

/-- How many zero bytes stand for a request's fields when every field is zero and every open list is
empty (a fixed list, the MAC, the RX header, the two reference filter registers, is all zeros). -/
def zeroFields : Op → Nat
  | .regRead => 2
  | .regWrite => 4
  | .regRmw => 6
  | .fifoRead => 2
  | .rxHdrParse => 4
  | .txHdrBuild => 6
  | .transmit => 2
  | .configure => 12
  | _ => 0

/-- The submission whose first `nbits` bits are `w` as spec/opcode_table.json numbers them, every
further bit 0. The 16-bit rows are the command word C, its upper byte first (R65), with one zero byte
for each enabled lane; the 8-bit rows with bit 7 set are the FIFO command bytes (the RX burst with
its lead bytes); the others are request tags. Log entry 27. -/
def tableSubmission (nbits w : Nat) : Submission :=
  if nbits = 16 then
    let c : Word := BitVec.ofNat 16 w
    .frame (be16 c ++ List.replicate (enabledLanes (c.extractLsb' 10 4)) 0)
  else
    let b : Byte := BitVec.ofNat 8 w
    if b.getLsbD 7 then
      .frame (b :: List.replicate (if b.getLsbD 6 then 0 else Config.reference.rxLead) 0)
    else
      .request (b :: List.replicate (((requestTags.lookup b).map zeroFields).getD 0) 0)

/-- The instruction the decoder reads from a word of spec/opcode_table.json. -/
def decodeTableWord (nbits w : Nat) : Option Instr :=
  (decode Config.reference (tableSubmission nbits w)).toOption

end Sys2Proof
end

