-- ==== Sys2Proof/Machine/Memory.lean ====
section
/-!
DEFINITION. The memory the ENGINE itself holds: the staging buffer `x.stage` (R28, R60 d), as a list of
(address, byte) pairs in one canonical form. The other storage spaces of R60 are the CHIP's.
-/

namespace Sys2Proof.Machine

/-- The staging buffer: addresses strictly rising; an address that is not listed holds no defined
value (R28: "bytes beyond the last payload written hold no defined value"; R40: "unspecified" at
power-on). Log entry 15. -/
abbrev Memory := List Host.Cell

/-- What an unlisted address reads as: no defined value. -/
def Memory.unlisted : Option Byte := none

/-- The byte at an address; none where it holds no defined value. -/
def Memory.read : Memory → Nat → Option Byte
  | [], _ => Memory.unlisted
  | (a, b) :: rest, at' => if at' = a then some b else Memory.read rest at'

/-- The canonical form: strictly rising addresses, all at or above `low`. (No entry can equal what
an unlisted address reads as, which is no value.) -/
def Memory.risingFrom (low : Nat) : Memory → Bool
  | [] => true
  | (a, _) :: rest => decide (low ≤ a) && Memory.risingFrom (a + 1) rest

/-- The canonical form of a memory. -/
def Memory.wf (m : Memory) : Bool := Memory.risingFrom 0 m

/-- Every listed address lies below `size`. -/
def Memory.within (size : Nat) (m : Memory) : Bool := m.all fun cell => decide (cell.1 < size)

/-- The cells of bytes that stand at consecutive addresses. -/
def Memory.cellsFrom (low : Nat) : List Byte → Memory
  | [] => []
  | b :: rest => (low, b) :: Memory.cellsFrom (low + 1) rest

/-- `x.stage[0..p) <- payload` (R195): the buffer then holds the payload from address 0 on, and no byte
beyond it has a defined value (R28), so nothing of an earlier payload stays. -/
def Memory.store (_old : Memory) (payload : List Byte) : Memory := Memory.cellsFrom 0 payload

/-- `x.stage[low .. low + n)`: the bytes of that range that hold a value. -/
def Memory.readRange (m : Memory) (low : Nat) : Nat → List Byte
  | 0 => []
  | n + 1 => (m.read low).toList ++ Memory.readRange m (low + 1) n

end Sys2Proof.Machine
end

