-- ==== Sys2Proof/Machine/State.lean ====
section
/-!
DEFINITION. The state of the ENGINE (10_state.md R20 to R38) as plain data, the values it is made of,
the reasons a step can stop, and the state at power-on (R40).
-/

namespace Sys2Proof.Machine

/-- `x.pc : Seq` (R21): no operation in progress, or inside one, `k` sequencer steps in. -/
inductive Seq
  | ready
  | within (op : Op) (k : Nat)
  deriving DecidableEq, Repr

/-- `x.phase` (R22). -/
inductive Phase
  | unreset
  | reset
  | configured
  | desync
  deriving DecidableEq, Repr

/-- `x.rx_state` (R23). -/
inductive RxState
  | idle
  | headerPending
  | payloadPending
  | delivered
  deriving DecidableEq, Repr

/-- Where a transaction failed: "the register address or `FIFO` of the failing transaction" (R300). -/
inductive Site
  | register (addr : Byte)
  | fifo
  deriving DecidableEq, Repr

/-- The errors of R300, each with the info it records. They are values returned to the CALLER. -/
inductive Error
  /-- Code 1: an SPI transaction completed with `fail`. -/
  | busError (site : Site)
  /-- Code 2: the status word and declared count "at detection"; none where the phase is Desync. -/
  | fifoDesync (seen : Option (Word × Word))
  /-- Code 3: the space read and the space needed. -/
  | txBufferFull (space need : Nat)
  /-- Code 4: the frame's length. -/
  | frameTooLarge (len : Nat)
  /-- Code 5: the frame's length. -/
  | frameTooSmall (len : Nat)
  /-- Code 6: the last value read. -/
  | resetTimeout (last : Word)
  deriving DecidableEq, Repr

/-- The reasons the ENGINE refuses a request (R304); `reservedFrame` is the wire decoder's refusal of
a reserved frame (93 section 1, R92, R103). A refusal is recorded in the state, it stops nothing. -/
inductive Reason
  | badRequest
  | badWidth
  | misalignedRegister
  | invalidRegister
  | valueTooWide
  | emptyTransfer
  | transferTooLong
  | unsupportedFlag
  | notConfigured
  | notReset
  | reservedFrame
  deriving DecidableEq, Repr

/-- Why a received frame is rejected (R182). -/
inductive RejectCause
  | notValid
  | statusError
  | malformed
  deriving DecidableEq, Repr

/-- The verdict of `classify` (R182). -/
inductive Verdict
  | desync
  | reject (cause : RejectCause)
  | accept (len : Nat)
  deriving DecidableEq, Repr

/-- An RX Frame Descriptor (R185). -/
structure Descriptor where
  status : Word
  count : Word
  payload : List Byte
  deriving DecidableEq, Repr

/-- The speeds of R262, in Mb/s. -/
inductive Speed
  | mb10
  | mb100
  deriving DecidableEq, Repr

/-- The duplex modes of R262. -/
inductive Duplex
  | half
  | full
  deriving DecidableEq, Repr

/-- The result of LINK_STATUS (R262). -/
inductive Link
  | down
  | up (speed : Speed) (duplex : Duplex)
  deriving DecidableEq, Repr

/-- What a request returns to the CALLER (R12): a result, an error it raised, or its refusal. -/
inductive Result
  /-- A write, FIFO_WRITE, TRANSMIT, RESET, CONFIGURE: `ok`. -/
  | ok
  /-- REG_READ, SPI_REG_READ: the value read. -/
  | value (v : Word)
  /-- REG_RMW: `(old, new)` (R134). -/
  | replaced (old new : Word)
  /-- FIFO_READ, SPI_RXQ_READ, TX_HDR_BUILD: bytes. -/
  | bytes (data : List Byte)
  /-- RX_HDR_PARSE: `(status, count, verdict)` (R180). -/
  | header (status count : Word) (verdict : Verdict)
  /-- RECEIVE: `(frames, err)` (R195). -/
  | frames (out : List Descriptor) (err : Option Error)
  /-- LINK_STATUS (R262). -/
  | link (state : Link)
  /-- SERVICE_INTERRUPTS: `(snap, handled, frames, err)` (R270). -/
  | service (snap handled : Word) (out : List Descriptor) (err : Option Error)
  /-- The request raised an error (R308). -/
  | raised (e : Error)
  /-- The request was refused (R304). -/
  | refused (why : Reason)
  deriving DecidableEq, Repr

/-- One answer of transport and CHIP, fixed in advance: `fail`, or `ok` with these first bytes (a read
phase longer than `bytes` goes on with free bytes). Log entry 4. -/
inductive SpiAnswer
  | fail
  | ok (bytes : List Byte)
  deriving DecidableEq, Repr

/-- A completed SPI transaction as the bus shows it (R66): the bytes driven from chip-select assertion
to deassertion (command, data, then P_DUMMY_TX in the read phase), the bytes received in the read
phase, or none where the transport failed; and, of the ENGINE while it was in flight, the RX state
(R23) and whether a burst was open (R25). -/
structure Txn where
  driven : List Byte
  received : Option (List Byte)
  rxState : RxState
  burst : Bool
  deriving DecidableEq, Repr

/-- The reasons the ENGINE records as a fault (R35 `FaultReason`). No step ANSWERS with a fault: the fault
of R305 is recorded in State.fault and "the operation in progress is not cancelled" (log entry 9). -/
inductive Fault
  /-- Recorded by a request that arrives while an operation is in progress (R305). Safe: it is sticky
  and a state that holds it is never final (Sys2Proof/Safety.lean). -/
  | concurrentAccess
  deriving DecidableEq, Repr

/-- The reasons the MODEL has no step. (A refusal of the ENGINE, R304, is no such reason: it is a next
state with `refused` set and `Result.refused` returned.) -/
inductive Refusal
  /-- Raised by `exec` for an instruction without a meaning (there is none here). Safe. -/
  | notModelled (mnemonic : String)
  /-- Raised by `step` in a state whose configuration is not well formed: "A model refuses an
  ill-formed configuration" (R9). Safe. -/
  | illFormedConfiguration
  deriving DecidableEq, Repr

/-- The ENGINE state `x` (R20 to R36), then the model's own fields (log entry 16). -/
structure State where
  /-- The parameters (R6: "a model takes as an argument"); no step writes it. Log entry 2. -/
  cfg : Config
  /-- R21 -/
  pc : Seq
  /-- R22 -/
  phase : Phase
  /-- R23 -/
  rxState : RxState
  /-- R24 -/
  spiBusy : Bool
  /-- R25 -/
  burstOpen : Bool
  /-- R26 -/
  rxStatus : Word
  /-- R26 -/
  rxCount : Word
  /-- R27 -/
  rxLeft : Byte
  /-- R27 -/
  rxDone : Nat
  /-- R28 -/
  stage : Memory
  /-- R29 -/
  txWritten : Word
  /-- R30 -/
  txFid : Word
  /-- R31 -/
  snap : Word
  /-- R31 -/
  handled : Word
  /-- R32 -/
  txDoneEvents : Counter
  /-- R32 -/
  rxovrEvents : Counter
  /-- R32 -/
  linkEvents : Counter
  /-- R32 -/
  rxDelivered : Counter
  /-- R32 -/
  rxDropped : Counter
  /-- R33 -/
  pollCount : Nat
  /-- R34 -/
  refused : Bool
  /-- R35 -/
  fault : Option Fault
  /-- R36 -/
  gRxConsumed : Nat
  /-- R36 -/
  gFifoBursts : Nat
  /-- R36 -/
  gSpiTxns : Nat
  /-- Model: the submissions the CALLER has issued and the ENGINE has not taken, oldest first. -/
  inbox : List Submission
  /-- Model: one entry for each operation still to begin, next first: a second call site issues a request
  while that operation is in progress (R305). None listed: none arrives. Log entry 8. -/
  rivals : List Bool
  /-- Model: the answers of transport and CHIP that are fixed in advance, next first. -/
  script : List SpiAnswer
  /-- Model: every SPI transaction performed, oldest first. -/
  bus : List Txn
  /-- Model: what the last completed request returned. -/
  result : Option Result
  deriving DecidableEq, Repr

/-- Power-on (R40 column "power-on", R340), under the reference configuration (R7). -/
def State.reset : State where
  cfg := Config.reference
  pc := .ready
  phase := .unreset
  rxState := .idle
  spiBusy := false
  burstOpen := false
  rxStatus := 0
  rxCount := 0
  rxLeft := 0
  rxDone := 0
  stage := []
  txWritten := 0
  txFid := 0
  snap := 0
  handled := 0
  txDoneEvents := 0
  rxovrEvents := 0
  linkEvents := 0
  rxDelivered := 0
  rxDropped := 0
  pollCount := 0
  refused := false
  fault := none
  gRxConsumed := 0
  gFifoBursts := 0
  gSpiTxns := 0
  inbox := []
  rivals := []
  script := []
  bus := []
  result := none

end Sys2Proof.Machine
end

