-- ==== Sys2Proof/Machine/Ops.lean ====
section
/-!
DEFINITION. The named operations every meaning is built from: entering and ending a request, refusing
and raising (R304, R308), the single-owner rule (R305), admission by phase (R306), the SPI transaction
primitive (R66, R67) and the register and FIFO transfers over it (R94 to R98, R135).
-/

namespace Sys2Proof.Machine

/-! ## Sequencer position, ending a request -/

/-- The next sequencer position: "one step per SPI transaction or internal check" (R21). -/
def Seq.next : Seq → Seq
  | .ready => .ready
  | .within op k => .within op (k + 1)

/-- The sequencer position `n` steps on. -/
def Seq.skip : Seq → Nat → Seq
  | .ready, _ => .ready
  | .within op k, n => .within op (k + n)

/-- The ENGINE begins an operation (R21). -/
def State.enter (op : Op) (s : State) : State := { s with pc := .within op 0 }

/-- The sequencer passes a transaction or an internal check (R21). Log entry 14. -/
def State.advance (s : State) : State := { s with pc := s.pc.next }

/-- The sequencer passes `n` checks (R21). -/
def State.pass (n : Nat) (s : State) : State := { s with pc := s.pc.skip n }

/-- The operation returns: the position goes back to `Ready` (R21) and the CALLER has the result. -/
def State.leave (r : Result) (s : State) : State := { s with pc := .ready, result := some r }

/-- TAKING AN ERROR (R308): "raising an error saves nothing and vectors nowhere"; the position goes back
to `Ready` and the error is returned to the CALLER. There is no return from an error (R309). -/
def State.raise (e : Error) (s : State) : State := s.leave (.raised e)

/-- A refusal (R304): no transaction, no field changed except `refused`; `refused(reason)` is returned, and
the position is back at `Ready` (R21). -/
def State.refuse (why : Reason) (s : State) : State :=
  { s with pc := .ready, refused := true, result := some (.refused why) }

/-- A request that arrives while an operation is in progress (R305): the fault is recorded, and "the
operation in progress is not cancelled". -/
def State.concurrentAccess (s : State) : State := { s with fault := some .concurrentAccess }

/-- The single-owner rule for an operation the ENGINE begins (R305, R350): where a second call site issues a
request before the operation has returned, at whatever position, the fault is recorded and the operation
goes on. Nothing an operation does depends on the record, so it is made at once. Log entry 8. -/
def State.begun (s : State) : State :=
  { s with
    rivals := s.rivals.drop 1
    fault := if s.rivals.headD false then some .concurrentAccess else s.fault }

/-- An operation is in progress, "including while `x.spi_busy` or `x.burst_open` is true" (R305). -/
def State.occupied (s : State) : Bool := s.pc != .ready || s.spiBusy || s.burstOpen

/-- The code of an error (R300). -/
def Error.code : Error → Nat
  | .busError _ => 1
  | .fifoDesync _ => 2
  | .txBufferFull _ _ => 3
  | .frameTooLarge _ => 4
  | .frameTooSmall _ => 5
  | .resetTimeout _ => 6

/-! ## Admission -/

/-- The outcomes of the phase table (R306). -/
inductive Admission
  | admitted
  | refuse (why : Reason)
  | raise
  deriving DecidableEq, Repr

/-- The last row of the phase table (R306). -/
def admitFifo : Phase → Admission
  | .unreset => .refuse .notConfigured
  | .reset => .refuse .notConfigured
  | .configured => .admitted
  | .desync => .raise

/-- The CONFIGURE row of the phase table (R306). -/
def admitConfigure : Phase → Admission
  | .unreset => .refuse .notReset
  | .reset => .admitted
  | .configured => .refuse .notReset
  | .desync => .refuse .notReset

/-- The phase table (R306). The wire frames have no row: a transaction has no phase check (R135).
Log entry 5. -/
def admission : Op → Phase → Admission
  | .spiRegRead, _ => .admitted
  | .spiRegWrite, _ => .admitted
  | .spiRxqRead, _ => .admitted
  | .spiTxqWrite, _ => .admitted
  | .regRead, _ => .admitted
  | .regWrite, _ => .admitted
  | .regRmw, _ => .admitted
  | .linkStatus, _ => .admitted
  | .rxHdrParse, _ => .admitted
  | .txHdrBuild, _ => .admitted
  | .reset, _ => .admitted
  | .configure, p => admitConfigure p
  | .fifoRead, p => admitFifo p
  | .fifoWrite, p => admitFifo p
  | .receive, p => admitFifo p
  | .transmit, p => admitFifo p
  | .serviceInterrupts, p => admitFifo p

/-- The phase tests that stand in the request's own pseudocode (R150, R160); the other requests' phase
outcomes are R306's alone. -/
def phaseTests (op : Op) : Nat := if op = .fifoRead ∨ op = .fifoWrite then 2 else 0

/-- The first refusal check that applies, in the order listed (R307, point 3). -/
def firstRefusal : List (Bool × Reason) → Option Reason
  | [] => none
  | (applies, why) :: rest => if applies then some why else firstRefusal rest

/-! ## Running a body -/

/-- What a part of an operation gives: a value or the error it raised, and the state it leaves. -/
structure Ran (α : Type) where
  reply : Except Error α
  state : State

/-- The part that follows, unless an error was raised: "an error inside a composed part ends the whole
request" (R309). -/
def Ran.andThen {α β : Type} (x : Ran α) (f : α → State → Ran β) : Ran β :=
  match x.reply with
  | .error e => ⟨.error e, x.state⟩
  | .ok a => f a x.state

/-- A part that ends with a value. -/
def Ran.pure {α : Type} (a : α) (s : State) : Ran α := ⟨.ok a, s⟩

/-- A part that raises an error. -/
def Ran.throw {α : Type} (e : Error) (s : State) : Ran α := ⟨.error e, s⟩

/-- The end of a request: its result, or the error it raised. -/
def Ran.finish (x : Ran Result) : State :=
  match x.reply with
  | .ok r => x.state.leave r
  | .error e => x.state.raise e

/-- A request, outcome by outcome in the order of R307: the concurrency fault (R305), the phase outcome
(R306), the request's refusal checks (R304), then, those checks passed (R21), the body (validation errors,
then the errors of its transactions). -/
def perform (op : Op) (checks : List (Bool × Reason)) (body : State → Ran Result) (s : State) :
    State :=
  if s.occupied then s.concurrentAccess
  else
    let t := s.begun.enter op
    match admission op s.phase with
    | .refuse why => t.refuse why
    | .raise => t.raise (.fifoDesync none)
    | .admitted =>
      match firstRefusal checks with
      | some why => t.refuse why
      | none => (body (t.pass (phaseTests op + checks.length))).finish

/-! ## The SPI transaction primitive -/

/-- The `n` bytes received from byte `i` of transaction `txn` on: the bytes given, then free draws. -/
def received (txn : Nat) : (i n : Nat) → List Byte → List Byte
  | _, 0, _ => []
  | i, n + 1, [] => Config.chipByte txn i :: received txn (i + 1) n []
  | i, n + 1, b :: bytes => b :: received txn (i + 1) n bytes

/-- The answer to the `j`-th transaction from now on (0 is the next), with a read phase of `n` bytes:
`ok(in)` with `len(in) = n`, or none for `fail` (R66). Log entry 4. -/
def State.answer (s : State) (j n : Nat) : Option (List Byte) :=
  let txn := s.gSpiTxns + j
  match s.script[j]? with
  | some .fail => none
  | some (.ok bytes) => some (received txn 0 n bytes)
  | none => if Config.transportFails txn then none else some (received txn 0 n [])

/-- Issuing a transaction (R67). -/
def State.issue (burst : Bool) (s : State) : State :=
  { s with
    spiBusy := true
    burstOpen := burst || s.burstOpen
    gSpiTxns := s.gSpiTxns + 1
    gFifoBursts := if burst then s.gFifoBursts + 1 else s.gFifoBursts }

/-- Completion of a transaction, success or failure (R67). -/
def State.complete (s : State) : State := { s with spiBusy := false, burstOpen := false }

/-- The bus shows the transaction, and its answer is used up. -/
def State.record (x : Txn) (s : State) : State :=
  { s with script := s.script.drop 1, bus := s.bus ++ [x] }

/-- `SpiTxn(out, n)` (R66, R67): drive `out`, then `n` bytes of P_DUMMY_TX while receiving `n` bytes.
`burst` says whether it is a FIFO burst. The second component is the state after completion and after the
test of the answer, `if r = fail` (R130, R132, R150, R160): two steps of the position (R21, log entry 14). -/
def State.spiTxn (burst : Bool) (out : List Byte) (n : Nat) (s : State) :
    Option (List Byte) × State :=
  let answer := s.answer 0 n
  let flight := s.issue burst
  let shown : Txn :=
    ⟨out ++ List.replicate n s.cfg.dummyTx, answer, flight.rxState, flight.burstOpen⟩
  (answer, (flight.complete.record shown).pass 2)

/-- A transaction whose failure raises BusError at once: the ENGINE never retries (R68). -/
def spi (burst : Bool) (site : Site) (out : List Byte) (n : Nat) (s : State) : Ran (List Byte) :=
  match s.spiTxn burst out n with
  | (some bytes, t) => .pure bytes t
  | (none, t) => .throw (.busError site) t

/-! ## Register and FIFO transfers -/

/-- `RegRead(r)` (R135): the transaction of REG_READ, no request checks (R94). -/
def regRead (r : Reg) (s : State) : Ran Word :=
  (spi false (.register r.addr) (regCommand s.cfg s.cfg.opRd r.addr r.width) r.width.bytes s).andThen
    fun bytes t => .pure (readValue s.cfg.dataEndian r.width bytes) t

/-- `RegWrite(r, v)` (R135): the transaction of REG_WRITE, no request checks (R94). -/
def regWrite (r : Reg) (v : Word) (s : State) : Ran Unit :=
  (spi false (.register r.addr)
    (regCommand s.cfg s.cfg.opWr r.addr r.width ++ dataBytes s.cfg.dataEndian r.width v) 0 s).andThen
    fun _ t => .pure () t

/-- A write list: "issued as n RegWrite transactions in list order, stopping at the first failure"
(R135). -/
def writeList : List RegWrite → State → Ran Unit
  | [], s => .pure () s
  | w :: rest, s => (regWrite w.reg w.value s).andThen fun _ t => writeList rest t

/-- The RX burst for `m` bytes (R97): the lead bytes and the alignment fill are discarded. -/
def rxTransfer (m : Nat) (s : State) : Ran (List Byte) :=
  (spi true .fifo [fifoCommand s.cfg.opRxq] (s.cfg.rxLead + alignUp m s.cfg.rxAlign) s).andThen
    fun bytes t => .pure ((bytes.drop s.cfg.rxLead).take m) t

/-- The TX burst for data `d` (R98), padded to the alignment. -/
def txTransfer (d : List Byte) (s : State) : Ran Unit :=
  (spi true .fifo (fifoCommand s.cfg.opTxq :: txPadded s.cfg d) 0 s).andThen fun _ t => .pure () t

/-- The body of FIFO_READ without its request checks, `RxBurst(m)` (R150, R195): P_RX_PRE, the burst,
P_RX_POST. -/
def rxBurst (m : Nat) (s : State) : Ran (List Byte) :=
  (writeList s.cfg.rxPre s).andThen fun _ t =>
    (rxTransfer m t).andThen fun data u =>
      (writeList s.cfg.rxPost u).andThen fun _ v => .pure data v

/-- `x.tx_written : UInt16` (R29) for a burst of `n` bytes. Where `n` does not fit in 16 bits the spec
states no value: a free one. Log entry 18. -/
def txWrittenOf (n : Nat) : Word := if n < 65536 then BitVec.ofNat 16 n else Config.txWrittenOverflow n

/-- The write of the frame-length register with a burst's total (R160, R161), at the place the configuration
gives it, where there is such a register. Log entry 22. -/
def frameLengthWrites (cfg : Config) (place : FramelenPlace) (total : Word) : List RegWrite :=
  if cfg.framelenPlace = place then cfg.txFramelenReg.toList.map fun r => ⟨r, total⟩ else []

/-- The test `if P_TX_FRAMELEN_REG ≠ none` (R160) stands at that place alone. -/
def frameLengthTests (cfg : Config) (place : FramelenPlace) : Nat :=
  if cfg.framelenPlace = place then 1 else 0

/-- FIFO_WRITE's body up to its burst (R160): P_TX_PRE, the frame-length write where it stands "just before
the burst" (92 D21), the burst, which sets `tx_written`, to 0 where it fails. -/
def txBurstOpen (d : List Byte) (s : State) : Ran Unit :=
  let total := txWrittenOf (alignUp d.length s.cfg.txAlign)
  (writeList s.cfg.txPre s).andThen fun _ t =>
    (writeList (frameLengthWrites s.cfg .beforeBurst total)
      (t.pass (frameLengthTests s.cfg .beforeBurst))).andThen fun _ u =>
      let ran := txTransfer d u
      match ran.reply with
      | .ok _ => .pure () { ran.state with txWritten := total }
      | .error e => .throw e { ran.state with txWritten := 0 }

/-- The rest of FIFO_WRITE's body (R160): the frame-length write where it stands after the burst, of the total
tracked (R161), then P_TX_POST. -/
def txBurstClose (s : State) : Ran Unit :=
  writeList (frameLengthWrites s.cfg .afterBurst s.txWritten ++ s.cfg.txPost)
    (s.pass (frameLengthTests s.cfg .afterBurst))

end Sys2Proof.Machine
end

