-- ==== Sys2Proof/Machine/Operands.lean ====
section
/-!
DEFINITION. The operand forms of the requests and their refusal checks (R304), in the order the requests'
pseudocode lists them (R61, R62, R111, R130 to R134, R150, R160, R180, R220, R225, R256).
-/

namespace Sys2Proof.Machine

/-- The register an address and a width in bits name; a width that is neither 8 nor 16 names none, and
is refused before the register is used (R62). -/
def regOf (a width : Byte) : Reg := ⟨a, (Width.ofBits? width).getD .w8⟩

/-- The checks of REG_READ (R130). The reason of a bad width: log entry 11. -/
def regChecks (cfg : Config) (a width : Byte) : List (Bool × Reason) :=
  [((Width.ofBits? width).isNone, .badWidth),
    (width == 16 && a.getLsbD 0, .misalignedRegister),
    (!cfg.validReg.holds a (regOf a width).width, .invalidRegister)]

/-- An 8-bit access names a value with bits above bit 7 (R132, R134). -/
def tooWide (width : Byte) (v : Word) : Bool := width == 8 && highByte v != 0

/-- The checks of REG_WRITE (R132). -/
def regWriteChecks (cfg : Config) (a width : Byte) (v : Word) : List (Bool × Reason) :=
  regChecks cfg a width ++ [(tooWide width v, .valueTooWide)]

/-- The checks of REG_RMW (R134). -/
def regRmwChecks (cfg : Config) (a width : Byte) (clr set : Word) : List (Bool × Reason) :=
  regChecks cfg a width ++ [(tooWide width clr || tooWide width set, .valueTooWide)]

/-- The checks of FIFO_READ (R150), its phase tests apart. -/
def fifoReadChecks (cfg : Config) (m : Nat) : List (Bool × Reason) :=
  [(m == 0, .emptyTransfer),
    (decide (cfg.rxqSize < alignUp m cfg.rxAlign), .transferTooLong)]

/-- The checks of FIFO_WRITE (R160), its phase tests apart. -/
def fifoWriteChecks (cfg : Config) (data : List Byte) : List (Bool × Reason) :=
  [(data.length == 0, .emptyTransfer),
    (decide (cfg.txqSize < alignUp data.length cfg.txAlign), .transferTooLong)]

/-- The check of RX_HDR_PARSE (R180). -/
def rxHdrParseChecks (hdr : List Byte) : List (Bool × Reason) :=
  [(hdr.length != 4, .badRequest)]

/-- The checks of TRANSMIT (R225), its phase outcome apart, and the first of TX_HDR_BUILD (R220): a flag is
asked for whose control-word bit is `none`. -/
def flagChecks (cfg : Config) (irq csum : Bool) : List (Bool × Reason) :=
  [(irq && cfg.txcwIrqBit.isNone, .unsupportedFlag),
    (csum && cfg.txcwCsumBit.isNone, .unsupportedFlag)]

/-- The checks of TX_HDR_BUILD (R220). -/
def txHdrBuildChecks (cfg : Config) (irq csum : Bool) (len : Word) : List (Bool × Reason) :=
  flagChecks cfg irq csum ++ [(decide (cfg.txBcMask < len), .valueTooWide)]

/-- The check of CONFIGURE (R256), its phase outcome apart. -/
def configureChecks (cfg : Config) (mac : List Byte) (filter : List Word) : List (Bool × Reason) :=
  [(mac.length != 6 || filter.length != cfg.filterRegs.length, .badRequest)]

/-- The checks of a register frame: its byte-enable mask is reserved (R92, R103) or its data are not as long
as its mask says (R95, R103); P_VALID_REG does not hold of the address and the width it names (R46,
R358, 93 section 1). Log entry 5. -/
def regFrameChecks (cfg : Config) (be : BitVec 4) (window : BitVec 6) (dataLength : Nat) :
    List (Bool × Reason) :=
  [((enabledWidth be).isNone || dataLength != enabledLanes be, .reservedFrame),
    (!(enabledWidth be).any (cfg.validReg.holds (frameAddress window be)), .invalidRegister)]

end Sys2Proof.Machine
end

