-- ==== Sys2Proof/Machine/FifoTransfer.lean ====
section
/-!
DEFINITION. The FIFO Transfer Layer (41_fifo_transfer.md).
-/

namespace Sys2Proof.Machine

/-- FIFO_READ (R150). -/
def execFifoRead (count : Word) (s : State) : Host.Outcome State Fault Refusal :=
  .next (perform .fifoRead (fifoReadChecks s.cfg count.toNat) (fun t =>
    (rxBurst count.toNat t).andThen fun data u => .pure (.bytes data) u) s)

/-- FIFO_WRITE (R160): P_TX_PRE, the burst, the frame-length register, P_TX_POST (the place of the
frame-length write: log entry 22). -/
def execFifoWrite (data : List Byte) (s : State) : Host.Outcome State Fault Refusal :=
  .next (perform .fifoWrite (fifoWriteChecks s.cfg data) (fun t =>
    (txBurstOpen data t).andThen fun _ u => (txBurstClose u).andThen fun _ v => .pure .ok v) s)

end Sys2Proof.Machine
end

