-- ==== Sys2Proof/Machine/Flags.lean ====
section
/-!
DEFINITION. The status-like values the ENGINE computes (R37): the verdict on an RX header (R101, R182),
the TX control word (R102), the ready test (R8), the link state (R262), the interrupt status bits (R270).
-/

namespace Sys2Proof.Machine

/-- A status word has some bit of a mask set. -/
def anySet (v mask : Word) : Bool := v &&& mask != 0

/-- `classify(status, count)` (R182): the first verdict whose condition holds. -/
def classify (cfg : Config) (status count : Word) : Verdict :=
  if cfg.rxMaxFrame < count.toNat ∨ cfg.rxqSize < count.toNat then .desync
  else if !anySet status cfg.rxValidBit then .reject .notValid
  else if anySet status cfg.rxRejectMask then .reject .statusError
  else if count.toNat ≤ cfg.rxTrailer then .reject .malformed
  else .accept (count.toNat - cfg.rxTrailer)

/-- The control word of a TX header (R102): the flag bits and the frame id, all other bits 0. -/
def txControl (cfg : Config) (irq csum : Bool) (fid : Word) : Word :=
  (if irq then cfg.txcwIrqBit.getD 0 else 0) ||| (if csum then cfg.txcwCsumBit.getD 0 else 0)
    ||| (fid &&& cfg.txcwFidMask)

/-- The TX header (R102, R220): the control word, then the byte count. -/
def txHeader (cfg : Config) (irq csum : Bool) (fid len : Word) : List Byte :=
  enc16 cfg.dataEndian (txControl cfg irq csum fid) ++ enc16 cfg.dataEndian len

/-- "ready iff (v & MASK) = VALUE" (R8). -/
def readyIndicated (cfg : Config) (v : Word) : Bool := v &&& cfg.readyMask == cfg.readyValue

/-- The link state a PHY status value says (R262). -/
def linkOf (cfg : Config) (v : Word) : Link :=
  if !anySet v cfg.linkUpBit then .down
  else .up (if anySet v cfg.link100Bit then .mb100 else .mb10)
    (if anySet v cfg.linkFdxBit then .full else .half)

/-- REG_RMW's new value (R134): a bit in both masks ends set. -/
def rmwValue (w : Width) (old clr set : Word) : Word := ((old &&& ~~~clr) ||| set) &&& w.mask

/-- `x.rx_left : UInt8` (R27) for `n = min(fc, P_RX_MAX_PER_CALL)`. Where `n` does not fit in 8 bits the
spec states no value: a free one. Log entry 17. -/
def rxLeftOf (n : Nat) : Byte := if n < 256 then BitVec.ofNat 8 n else Config.rxLeftOverflow n

end Sys2Proof.Machine
end

