-- ==== Sys2Proof/Machine/RxPath.lean ====
section
/-!
DEFINITION. The RX Path (42_rx_path.md): the header parser and RECEIVE with its state machine.
-/

namespace Sys2Proof.Machine

/-- RX_HDR_PARSE (R180): a pure function of the four header bytes (R181). -/
def execRxHdrParse (hdr : List Byte) (s : State) : Host.Outcome State Fault Refusal :=
  .next (perform .rxHdrParse (rxHdrParseChecks hdr) (fun t =>
    let status := dec16 t.cfg.dataEndian hdr
    let count := dec16 t.cfg.dataEndian (hdr.drop 2) &&& t.cfg.rxBcMask
    .pure (.header status count (classify t.cfg status count)) t) s)

/-- What a part of RECEIVE gives: the frames it yields, the error it ends with, and the state. -/
structure Received where
  out : List Descriptor
  err : Option Error
  state : State

/-- The clean-up after an error (R201, 92 D46): `rx_state <- Idle`, `rx_left <- 0`. Log entry 20. -/
def State.rxCleanup (s : State) : State := { s with rxState := .idle, rxLeft := 0 }

/-- `Idle → HeaderPending` (R196). -/
def State.rxAwaitHeader (s : State) : State := { s with rxState := .headerPending }

/-- The header is latched (R26, R196). -/
def State.rxLatch (status count : Word) (s : State) : State :=
  { s with rxStatus := status, rxCount := count }

/-- A FIFO desynchronisation is detected (R190): phase Desync, no burst, no release; and the clean-up "on any
error" (92 D46). Log entry 20. -/
def State.rxDesync (s : State) : State :=
  { s with phase := .desync, rxState := .idle, rxLeft := 0 }

/-- `HeaderPending → PayloadPending` (R197). -/
def State.rxAwaitPayload (s : State) : State := { s with rxState := .payloadPending }

/-- The burst of a frame completed: its declared count is consumed (R36, R195). -/
def State.rxConsume (s : State) : State := { s with gRxConsumed := s.gRxConsumed + s.rxCount.toNat }

/-- `PayloadPending → Delivered` (R198): the payload is copied through the staging buffer. -/
def State.rxDeliver (payload : List Byte) (s : State) : State :=
  { s with
    stage := s.stage.store payload
    rxDelivered := s.rxDelivered + 1
    rxState := .delivered }

/-- A rejected frame is dropped; its state stays `PayloadPending` until its release (R198). -/
def State.rxDrop (s : State) : State := { s with rxDropped := s.rxDropped + 1 }

/-- `Delivered → Idle`, `PayloadPending → Idle` (R199): one frame fewer to process, one more done. -/
def State.rxRelease (s : State) : State :=
  { s with rxState := .idle, rxLeft := s.rxLeft - 1, rxDone := s.rxDone + 1 }

/-- The frame bytes without the in-FIFO header and without the trailer (R186). -/
def payloadOf (cfg : Config) (p : Nat) (data : List Byte) : List Byte :=
  (data.drop cfg.rxFifoHdr).take p

/-- The descriptor of the frame that was just delivered (R185): the payload is what the staging buffer
holds, the status word unmasked. -/
def State.descriptor (p : Nat) (s : State) : Descriptor :=
  ⟨s.rxStatus, s.rxCount, s.stage.readRange 0 p⟩

/-- Delivery or drop of a frame whose burst is complete: `accepted` is the payload length of an accepted
frame, none for a rejected one (R195, R198). -/
def settleFrame (accepted : Option Nat) (data : List Byte) (s : State) : List Descriptor × State :=
  match accepted with
  | some p =>
    let t := s.rxDeliver (payloadOf s.cfg p data)
    ([t.descriptor p], t)
  | none => ([], s.rxDrop)

/-- The rest of a frame once it is settled: the P_RX_RELEASE writes (R199). A frame already delivered is
still delivered where they fail (R201). -/
def releaseFrame (out : List Descriptor) (s : State) : Received :=
  let ran := writeList s.cfg.rxRelease s
  match ran.reply with
  | .error e => ⟨out, some e, ran.state.rxCleanup⟩
  | .ok _ => ⟨out, none, ran.state.rxRelease⟩

/-- A frame from `PayloadPending` on (R197 to R199): a burst of exactly the declared count with the
in-FIFO header, for an accepted and a rejected frame alike; the test that tells them apart. The frame counts
as consumed once `RxBurst` returns, its P_RX_POST writes included (R195; R36 says "whose burst completed"):
log entry 31. -/
def consumeFrame (accepted : Option Nat) (s : State) : Received :=
  let ran := rxBurst (s.cfg.rxFifoHdr + s.rxCount.toNat) s.rxAwaitPayload
  match ran.reply with
  | .error e => ⟨[], some e, ran.state.rxCleanup⟩
  | .ok data =>
    let settled := settleFrame accepted data ran.state.rxConsume.advance
    releaseFrame settled.1 settled.2

/-- A frame whose header is latched, after the test `if v = Desync`: a desynchronisation ends the request
(R190), else the frame is consumed (R197). -/
def judgeFrame (s : State) : Received :=
  match classify s.cfg s.rxStatus s.rxCount with
  | .desync => ⟨[], some (.fifoDesync (some (s.rxStatus, s.rxCount))), s.advance.rxDesync⟩
  | .accept p => consumeFrame (some p) s.advance
  | .reject _ => consumeFrame none s.advance

/-- One pass of RECEIVE's loop (R195): the header is read by two register reads, status then count
(R196). -/
def receiveFrame (s : State) : Received :=
  let ran := (regRead s.cfg.rxHdrStatusReg s.rxAwaitHeader).andThen fun st t =>
    (regRead s.cfg.rxHdrCountReg t).andThen fun bc u =>
      .pure () (u.rxLatch st (bc &&& s.cfg.rxBcMask))
  match ran.reply with
  | .error e => ⟨[], some e, ran.state.rxCleanup⟩
  | .ok _ => judgeFrame ran.state

/-- `while x.rx_left > 0` (R195, R200): `n` is `rx_left`; each pass begins with the test. -/
def receiveLoop : Nat → List Descriptor → State → Received
  | 0, out, s => ⟨out, none, s.advance⟩
  | n + 1, out, s =>
    let one := receiveFrame s.advance
    match one.err with
    | some e => ⟨out ++ one.out, some e, one.state⟩
    | none => receiveLoop n (out ++ one.out) one.state

/-- `x.rx_left <- min(fc, P_RX_MAX_PER_CALL); x.rx_done <- 0` (R195). -/
def State.rxBegin (fc : Word) (s : State) : State :=
  { s with rxLeft := rxLeftOf (min fc.toNat s.cfg.rxMaxPerCall), rxDone := 0 }

/-- The body of RECEIVE, without its phase check (R195, R270). -/
def receiveBody (s : State) : Received :=
  let ran := regRead s.cfg.rxCountReg s
  match ran.reply with
  | .error e => ⟨[], some e, ran.state.rxCleanup⟩
  | .ok fc =>
    let t := ran.state.rxBegin fc
    receiveLoop t.rxLeft.toNat [] t

/-- RECEIVE (R195): the frames delivered, with the error that ended it, if any. -/
def execReceive (s : State) : Host.Outcome State Fault Refusal :=
  .next (perform .receive [] (fun t =>
    let r := receiveBody t
    .pure (.frames r.out r.err) r.state) s)

end Sys2Proof.Machine
end

