-- ==== Sys2Proof/Machine/Lifecycle.lean ====
section
/-!
DEFINITION. The Controller Lifecycle and the interrupt/status handshake (44_lifecycle.md).
-/

namespace Sys2Proof.Machine

/-! ## RESET -/

/-- A RESET that raises an error leaves phase `Unreset` (R40, R250, 90 C9), phase `Desync` too, though D13 and
R302 have that phase last until a RESET succeeds. Log entry 32. -/
def State.resetFailed (s : State) : State := { s with phase := .unreset }

/-- The column "after RESET ok" of R40, with phase `Reset` (R250). -/
def State.afterReset (s : State) : State :=
  { s with
    phase := .reset
    rxState := .idle
    spiBusy := false
    burstOpen := false
    rxStatus := 0
    rxCount := 0
    rxLeft := 0
    rxDone := 0
    txWritten := 0
    txFid := 0
    snap := 0
    handled := 0
    pollCount := 0 }

/-- `x.poll_count <- 0`: this RESET has issued no ready read yet (R33, R40). -/
def State.pollBegin (s : State) : State := { s with pollCount := 0 }

/-- One more ready read was issued (R33, R40). -/
def State.polled (s : State) : State := { s with pollCount := s.pollCount + 1 }

/-- The bounded poll (R250, R252): the bound test, then at most `n` reads of P_READY_REG, each with its ready
test; `last` is the value read last. A read that fails is a ready read issued (R40). Log entry 19. -/
def pollReady : Nat → Word → State → Ran Unit
  | 0, last, s => .throw (.resetTimeout last) s.advance.resetFailed
  | n + 1, _, s =>
    let ran := regRead s.cfg.readyReg s.advance
    match ran.reply with
    | .error e => .throw e ran.state.polled.resetFailed
    | .ok v =>
      if readyIndicated s.cfg v then .pure () ran.state.polled.advance
      else pollReady n v ran.state.polled.advance

/-- The body of RESET (R250). -/
def resetBody (s : State) : Ran Result :=
  let ran := writeList s.cfg.resetWrites s.pollBegin
  match ran.reply with
  | .error e => .throw e ran.state.resetFailed
  | .ok _ =>
    (pollReady s.cfg.resetPollMax 0 ran.state).andThen fun _ t => .pure .ok t.afterReset

/-- RESET (R250). -/
def execReset (s : State) : Host.Outcome State Fault Refusal :=
  .next (perform .reset [] resetBody s)

/-! ## CONFIGURE -/

/-- The register writes of CONFIGURE in their order (R256, R257): the MAC address, the filters, the
interrupt mask, the thresholds, the tail. -/
def configureWrites (cfg : Config) (mac : List Byte) (filter : List Word) (imask : Word) :
    List RegWrite :=
  let pair (i : Nat) := wordOf (mac.getD i 0) (mac.getD (i + 1) 0)
  [⟨cfg.macReg01, pair 0⟩, ⟨cfg.macReg23, pair 2⟩, ⟨cfg.macReg45, pair 4⟩]
  ++ List.zipWith RegWrite.mk cfg.filterRegs filter
  ++ [⟨cfg.ierReg, imask⟩] ++ cfg.threshWrites ++ cfg.configTail

/-- CONFIGURE (R256). -/
def execConfigure (mac : List Byte) (filter : List Word) (imask : Word) (s : State) :
    Host.Outcome State Fault Refusal :=
  .next (perform .configure (configureChecks s.cfg mac filter) (fun t =>
    (writeList (configureWrites t.cfg mac filter imask) t).andThen fun _ u =>
      .pure .ok { u with phase := .configured }) s)

/-! ## LINK_STATUS -/

/-- LINK_STATUS (R262): one read, then the test of the link-up bit. -/
def execLinkStatus (s : State) : Host.Outcome State Fault Refusal :=
  .next (perform .linkStatus [] (fun t =>
    (regRead t.cfg.linkReg t).andThen fun v u => .pure (.link (linkOf t.cfg v)) u.advance) s)

/-! ## SERVICE_INTERRUPTS -/

/-- The snapshot is taken (R270, R271). -/
def State.snapshot (v : Word) (s : State) : State := { s with snap := v, handled := 0 }

/-- The link-change dispatch (R270). -/
def State.dispatchLink (s : State) : State :=
  if anySet s.snap s.cfg.isrLink then
    { s with linkEvents := s.linkEvents + 1, handled := s.handled ||| s.cfg.isrLink }
  else s

/-- The TX-done dispatch: TX-completion bookkeeping (R270, R272). -/
def State.dispatchTx (s : State) : State :=
  if anySet s.snap s.cfg.isrTx then
    { s with txDoneEvents := s.txDoneEvents + 1, handled := s.handled ||| s.cfg.isrTx }
  else s

/-- The RX overrun dispatch (R270). -/
def State.dispatchOverrun (s : State) : State :=
  if anySet s.snap s.cfg.isrRxovr then
    { s with rxovrEvents := s.rxovrEvents + 1, handled := s.handled ||| s.cfg.isrRxovr }
  else s

/-- The RX dispatch completed: its bit is handled (R270). -/
def State.handledRx (s : State) : State := { s with handled := s.handled ||| s.cfg.isrRx }

/-- The acknowledge (R274): exactly `handled`, only where it is not 0 and only under w1c. -/
def acknowledge (frames : List Descriptor) (s : State) : Ran Result :=
  let writes : List RegWrite :=
    if s.handled != 0 && s.cfg.isrClear == .w1c then [⟨s.cfg.isrReg, s.handled⟩] else []
  (writeList writes s.advance).andThen fun _ t => .pure (.service t.snap t.handled frames none) t

/-- The dispatches in the order of R273, each after the test of its bit, then the acknowledge; an error of
the RX dispatch ends the request with no acknowledge (R275). -/
def dispatchAll (s : State) : Ran Result :=
  let t := s.advance.dispatchLink.advance.dispatchTx.advance.dispatchOverrun.advance
  if anySet t.snap t.cfg.isrRx then
    let r := receiveBody t
    match r.err with
    | some e => .pure (.service r.state.snap r.state.handled r.out (some e)) r.state.advance
    | none => acknowledge r.out r.state.advance.handledRx
  else acknowledge [] t

/-- SERVICE_INTERRUPTS (R270): the status is read once (R271), then dispatched and acknowledged. -/
def execServiceInterrupts (s : State) : Host.Outcome State Fault Refusal :=
  .next (perform .serviceInterrupts [] (fun t =>
    (regRead t.cfg.isrReg t).andThen fun v u => dispatchAll (u.snapshot v)) s)

end Sys2Proof.Machine
end

