-- ==== Sys2Proof/Machine/RegisterAccess.lean ====
section
/-!
DEFINITION. The Register Access Layer (40_register_access.md).
-/

namespace Sys2Proof.Machine

/-- REG_READ (R130). -/
def execRegRead (addr width : Byte) (s : State) : Host.Outcome State Fault Refusal :=
  .next (perform .regRead (regChecks s.cfg addr width) (fun t =>
    (regRead (regOf addr width) t).andThen fun v u => .pure (.value v) u) s)

/-- REG_WRITE (R132). -/
def execRegWrite (addr width : Byte) (value : Word) (s : State) :
    Host.Outcome State Fault Refusal :=
  .next (perform .regWrite (regWriteChecks s.cfg addr width value) (fun t =>
    (regWrite (regOf addr width) value t).andThen fun _ u => .pure .ok u) s)

/-- REG_RMW (R134): a read, then always a write (92 D45), not atomic at the chip. -/
def execRegRmw (addr width : Byte) (clr set : Word) (s : State) :
    Host.Outcome State Fault Refusal :=
  .next (perform .regRmw (regRmwChecks s.cfg addr width clr set) (fun t =>
    let r := regOf addr width
    (regRead r t).andThen fun old u =>
      let new := rmwValue r.width old clr set
      (regWrite r new u).andThen fun _ v => .pure (.replaced old new) v) s)

end Sys2Proof.Machine
end

