-- ==== Sys2Proof/Machine/TxPath.lean ====
section
/-!
DEFINITION. The TX Path (43_tx_path.md): the header constructor and TRANSMIT.
-/

namespace Sys2Proof.Machine

/-- TX_HDR_BUILD (R220): a pure function, the four header bytes of R102. -/
def execTxHdrBuild (irq csum : Bool) (fid len : Word) (s : State) :
    Host.Outcome State Fault Refusal :=
  .next (perform .txHdrBuild (txHdrBuildChecks s.cfg irq csum len) (fun t =>
    .pure (.bytes (txHeader t.cfg irq csum fid len)) t) s)

/-- The data bytes a frame of `len` bytes needs in the TX FIFO (R227). -/
def txNeed (cfg : Config) (len : Nat) : Nat := alignUp (cfg.txHdrLen + len) cfg.txAlign

/-- The next frame id: "by one modulo `P_TXCW_FID_MASK + 1`" (R231, 92 D18). Log entry 23. -/
def fidAfter (cfg : Config) (fid : Word) : Word :=
  BitVec.ofNat 16 ((fid.toNat + 1) % (cfg.txcwFidMask.toNat + 1))

/-- `x.tx_fid` advances once the burst succeeded (R231). -/
def State.nextFid (s : State) : State := { s with txFid := fidAfter s.cfg s.txFid }

/-- TRANSMIT from the space check on: the header and the frame in one burst (R228), the frame id, the
burst's closing writes, the enqueue write (R229). -/
def transmitFrame (frame : List Byte) (irq csum : Bool) (s : State) : Ran Result :=
  let hdr := txHeader s.cfg irq csum s.txFid (BitVec.ofNat 16 frame.length)
  (txBurstOpen (hdr ++ frame) s).andThen fun _ t =>
    (txBurstClose t.nextFid).andThen fun _ u =>
      (regWrite s.cfg.txEnqueue.reg s.cfg.txEnqueue.value u).andThen fun _ v => .pure .ok v

/-- The body of TRANSMIT (R225): the length checks "before touching hardware" (R226), the space check
(R227), then the transfer. -/
def transmitBody (frame : List Byte) (irq csum : Bool) (s : State) : Ran Result :=
  if frame.length < s.cfg.txMinFrame then .throw (.frameTooSmall frame.length) (s.pass 1)
  else if s.cfg.txMaxFrame < frame.length then .throw (.frameTooLarge frame.length) (s.pass 2)
  else
    (regRead s.cfg.txSpaceReg (s.pass 2)).andThen fun raw t =>
      let space := (raw &&& s.cfg.txSpaceMask).toNat
      let need := txNeed s.cfg frame.length
      if space < need then .throw (.txBufferFull space need) t.advance
      else transmitFrame frame irq csum t.advance

/-- TRANSMIT (R225). -/
def execTransmit (frame : List Byte) (irq csum : Bool) (s : State) :
    Host.Outcome State Fault Refusal :=
  .next (perform .transmit (flagChecks s.cfg irq csum) (transmitBody frame irq csum) s)

end Sys2Proof.Machine
end

