-- ==== Sys2Proof/Machine/Wire.lean ====
section
/-!
DEFINITION. The four wire frames as instructions: each is the one SPI transaction its frame stands for
(R94, R97, R98). Log entry 5.
-/

namespace Sys2Proof.Machine

/-- The address a register frame's failure is reported with (R300). -/
def frameSite (be : BitVec 4) (window : BitVec 6) : Site := .register (frameAddress window be)

/-- SPI_REG_READ (R94): the command word out, the enabled lanes in; the data are decoded as R94 says. -/
def execSpiRegRead (be : BitVec 4) (window : BitVec 6) (low : BitVec 4) (s : State) :
    Host.Outcome State Fault Refusal :=
  .next (perform .spiRegRead (regFrameChecks s.cfg be window (enabledLanes be)) (fun t =>
    (spi false (frameSite be window) (be16 (commandWord t.cfg.opRd be window low))
      (enabledLanes be) t).andThen fun bytes u =>
        .pure (.value (readValue t.cfg.dataEndian ((enabledWidth be).getD .w8) bytes)) u) s)

/-- SPI_REG_WRITE (R94): the command word and the data bytes out. -/
def execSpiRegWrite (be : BitVec 4) (window : BitVec 6) (low : BitVec 4) (data : List Byte)
    (s : State) : Host.Outcome State Fault Refusal :=
  .next (perform .spiRegWrite (regFrameChecks s.cfg be window data.length) (fun t =>
    (spi false (frameSite be window) (be16 (commandWord t.cfg.opWr be window low) ++ data)
      0 t).andThen fun _ u => .pure .ok u) s)

/-- SPI_RXQ_READ (R97): one FIFO burst of `n` bytes in, the lead bytes discarded. An `n` that no request's
burst has (shorter than the lead, not aligned) is driven as given: a choice, log entry 5. -/
def execSpiRxqRead (n : Nat) (s : State) : Host.Outcome State Fault Refusal :=
  .next (perform .spiRxqRead [] (fun t =>
    (spi true .fifo [fifoCommand t.cfg.opRxq] n t).andThen fun bytes u =>
      .pure (.bytes (bytes.drop t.cfg.rxLead)) u) s)

/-- SPI_TXQ_WRITE (R98): one FIFO burst of these bytes out. Data as long as no request's burst is (empty, not
aligned) are driven as given: a choice, log entry 5. -/
def execSpiTxqWrite (data : List Byte) (s : State) : Host.Outcome State Fault Refusal :=
  .next (perform .spiTxqWrite [] (fun t =>
    (spi true .fifo (fifoCommand t.cfg.opTxq :: data) 0 t).andThen fun _ u => .pure .ok u) s)

end Sys2Proof.Machine
end

