-- ==== Sys2Proof/Machine/Dispatch.lean ====
section
/-!
DEFINITION. One arm for each row of spec/opcode_table.json.
-/

namespace Sys2Proof.Machine

def exec (i : Instr) (s : State) : Host.Outcome State Fault Refusal :=
  match i with
  | .spiRegRead be window low => Sys2Proof.Machine.execSpiRegRead be window low s
  | .spiRegWrite be window low data => Sys2Proof.Machine.execSpiRegWrite be window low data s
  | .spiRxqRead n => Sys2Proof.Machine.execSpiRxqRead n s
  | .spiTxqWrite data => Sys2Proof.Machine.execSpiTxqWrite data s
  | .regRead addr width => Sys2Proof.Machine.execRegRead addr width s
  | .regWrite addr width value => Sys2Proof.Machine.execRegWrite addr width value s
  | .regRmw addr width clr set => Sys2Proof.Machine.execRegRmw addr width clr set s
  | .fifoRead count => Sys2Proof.Machine.execFifoRead count s
  | .fifoWrite data => Sys2Proof.Machine.execFifoWrite data s
  | .rxHdrParse hdr => Sys2Proof.Machine.execRxHdrParse hdr s
  | .receive => Sys2Proof.Machine.execReceive s
  | .txHdrBuild irq csum fid len => Sys2Proof.Machine.execTxHdrBuild irq csum fid len s
  | .transmit frame irq csum => Sys2Proof.Machine.execTransmit frame irq csum s
  | .reset => Sys2Proof.Machine.execReset s
  | .configure mac filter imask => Sys2Proof.Machine.execConfigure mac filter imask s
  | .linkStatus => Sys2Proof.Machine.execLinkStatus s
  | .serviceInterrupts => Sys2Proof.Machine.execServiceInterrupts s

end Sys2Proof.Machine
end

