-- ==== Sys2Proof/Machine/Fetch.lean ====
section
/-!
DEFINITION. How the ENGINE takes what is handed to it: the next submission (R12, R77, R340), and what
becomes of bytes that are no instruction (R111, R103).
-/

namespace Sys2Proof.Machine

/-- The next submission, and the state without it; none where the CALLER has issued nothing. -/
def State.takeSubmission (s : State) : Option (Submission × State) :=
  match s.inbox with
  | [] => none
  | sub :: rest => some (sub, { s with inbox := rest })

/-- A submission put where it is taken next. -/
def State.submitNext (sub : Submission) (s : State) : State := { s with inbox := sub :: s.inbox }

/-- A submission that decodes to no instruction. A request that names no operation is refused
`BadRequest` (R111); one whose tag names an operation takes that operation's phase outcome first (R307,
log entry 12); a frame that the wire decode classifies as reserved is refused as such (R103). The
single-owner rule comes before all of them (R307). What names no operation begins none (log entry 8). -/
def refuseUndecoded (e : DecodeError) (s : State) : State :=
  let refuseFor (why : Reason) : State := if s.occupied then s.concurrentAccess else s.refuse why
  match e with
  | .emptyRequest => refuseFor .badRequest
  | .unknownTag _ => refuseFor .badRequest
  | .badFields op => perform op [(true, .badRequest)] (.pure .ok) s
  | .emptyFrame => refuseFor .reservedFrame
  | .unknownOpcode _ => refuseFor .reservedFrame
  | .frameLength _ => refuseFor .reservedFrame
  | .reservedFifoByte _ => refuseFor .reservedFrame

end Sys2Proof.Machine
end

