-- ==== Sys2Proof/Machine/Step.lean ====
section
/-!
DEFINITION. One step of the machine: the next submission is taken, decoded and performed whole (R12,
log entry 1). The host's fetch interface stands beside it.
-/

namespace Sys2Proof.Machine

/-- One step. A configuration that is not well formed is refused (R9); with no submission the ENGINE
"waits for a request" (R72, R340). -/
def step (s : State) : Host.Outcome State Fault Refusal :=
  if s.cfg.wellFormed then
    match s.takeSubmission with
    | none => .next s
    | some (sub, t) =>
      match decode s.cfg sub with
      | .ok i => exec i t
      | .error e => .next (refuseUndecoded e t)
  else .refused .illFormedConfiguration

/-- The instruction whose first bits are this word of spec/opcode_table.json, put where the next step
takes it. -/
def State.withFetchWord (s : State) (nbits w : Nat) : State :=
  s.submitNext (tableSubmission nbits w)

end Sys2Proof.Machine
end

