-- ==== Sys2Proof/Machine/Assembler.lean ====
section
/-!
DEFINITION. The textual form of requests, one per line (R115), and the pseudo-requests (R116). A line is
a list of characters; `assemble` gives its request, or none for a line that is not one. Log entry 25.
-/

namespace Sys2Proof.Machine

/-! ## Pseudo-requests (R116) -/

/-- `setbits16 A, M` = `rmw16 A, 0, M`; likewise 8 bits. -/
def setBits (w : Width) (a : Byte) (mask : Word) : Instr := .regRmw a w.bits 0 mask

/-- `clrbits16 A, M` = `rmw16 A, M, 0`; likewise 8 bits. -/
def clrBits (w : Width) (a : Byte) (mask : Word) : Instr := .regRmw a w.bits mask 0

/-- `ack M` = `wr16 P_ISR_REG.addr, M`. -/
def ackRequest (cfg : Config) (mask : Word) : Instr := .regWrite cfg.isrReg.addr Width.w16.bits mask

/-- `rdisr` = `rd16 P_ISR_REG.addr`. -/
def readIsrRequest (cfg : Config) : Instr := .regRead cfg.isrReg.addr Width.w16.bits

/-! ## Tokens -/

inductive Token
  | word (cs : List Char)
  | opens
  | closes
  | comma
  deriving DecidableEq, Repr

/-- A pending word, if it has any character, before the tokens that follow. -/
def pendingWord (acc : List Char) (rest : List Token) : List Token :=
  if acc.isEmpty then rest else .word acc.reverse :: rest

/-- The tokens of a line; `acc` is the word being read, last character first. -/
def tokens : (acc : List Char) → List Char → List Token
  | acc, [] => pendingWord acc []
  | acc, c :: rest =>
    if c = ' ' then pendingWord acc (tokens [] rest)
    else if c = '[' then pendingWord acc (.opens :: tokens [] rest)
    else if c = ']' then pendingWord acc (.closes :: tokens [] rest)
    else if c = ',' then pendingWord acc (.comma :: tokens [] rest)
    else tokens (c :: acc) rest

/-! ## Numbers -/

/-- A digit's value in a base up to 16. -/
def digit? (base : Nat) (c : Char) : Option Nat :=
  let n := c.toNat
  let v :=
    if 48 ≤ n ∧ n ≤ 57 then n - 48
    else if 97 ≤ n ∧ n ≤ 102 then n - 87
    else if 65 ≤ n ∧ n ≤ 70 then n - 55
    else 16
  if v < base then some v else none

/-- The number digits stand for, after the value read so far. -/
def digits? (base : Nat) : (value : Nat) → List Char → Option Nat
  | v, [] => some v
  | v, c :: rest =>
    match digit? base c with
    | some d => digits? base (v * base + d) rest
    | none => none

/-- "Numbers are decimal or `0x` hexadecimal" (R115). -/
def number? : List Char → Option Nat
  | [] => none
  | '0' :: 'x' :: c :: rest => digits? 16 0 (c :: rest)
  | cs => digits? 10 0 cs

/-- A number of at most this many bits. -/
def sized? (w : Nat) (cs : List Char) : Option (BitVec w) :=
  (number? cs).bind fun n => if n < 2 ^ w then some (BitVec.ofNat w n) else none

/-- A byte of a byte list: two hexadecimal digits, as in the worked examples of R160 and R180, or a
number. -/
def listByte? : List Char → Option Byte
  | [c, d] => (digits? 16 0 [c, d]).map (BitVec.ofNat 8)
  | cs => sized? 8 cs

/-- `0` or `1`. -/
def flag? (cs : List Char) : Option Bool :=
  match cs with
  | ['0'] => some false
  | ['1'] => some true
  | _ => none

/-- The parts of a word between separators `:`. -/
def splitColon : (acc : List Char) → List Char → List (List Char)
  | acc, [] => [acc.reverse]
  | acc, c :: rest => if c = ':' then acc.reverse :: splitColon [] rest else splitColon (c :: acc) rest

/-- "MAC is six hexadecimal bytes joined by `:`" (R115). -/
def mac? (cs : List Char) : Option (List Byte) :=
  let parts := splitColon [] cs
  if parts.length = 6 ∧ parts.all (·.length == 2) then
    parts.mapM fun part => (digits? 16 0 part).map (BitVec.ofNat 8)
  else none

/-- The elements of a list from one of them on, and the tokens after its `]`. -/
def elements? {α : Type} (item : List Char → Option α) :
    List Token → Option (List α × List Token)
  | .word cs :: .closes :: rest => (item cs).map fun x => ([x], rest)
  | .word cs :: .comma :: rest =>
    match item cs, elements? item rest with
    | some x, some (xs, after) => some (x :: xs, after)
    | _, _ => none
  | _ => none

/-- The elements of a list after its `[`, none where `]` follows at once, and the tokens after its `]`. -/
def list? {α : Type} (item : List Char → Option α) : List Token → Option (List α × List Token)
  | .closes :: rest => some ([], rest)
  | ts => elements? item ts

/-- An option `name=0` or `name=1`, where the tokens begin with it, else its default; the tokens after it. -/
def takeOption (name : List Char) (default : Bool) : List Token → Bool × List Token
  | .word cs :: rest =>
    if cs = name ++ ['=', '0'] then (false, rest)
    else if cs = name ++ ['=', '1'] then (true, rest)
    else (default, .word cs :: rest)
  | ts => (default, ts)

/-- The trailing options of `transmit`, by default `irq=1 csum=0` (R110), each at most once and in the order
R115 writes them. -/
def transmitOptions? (frame : List Byte) (ts : List Token) : Option Instr :=
  let irq := takeOption "irq".toList true ts
  let csum := takeOption "csum".toList false irq.2
  if csum.2.isEmpty then some (.transmit frame irq.1 csum.1) else none

/-! ## Lines -/

/-- The operands of a line that takes only numbers, separated by commas. -/
def operands? : List Token → Option (List (List Char))
  | [.word cs] => some [cs]
  | .word cs :: .comma :: rest => (operands? rest).map (cs :: ·)
  | _ => none

/-- A request whose operands are an address and masks or a value, `width` bits wide. -/
def registerLine? (op : Op) (width : Byte) : List (List Char) → Option Instr
  | [a] => if op = .regRead then (sized? 8 a).map (.regRead · width) else none
  | [a, v] =>
    match op, sized? 8 a, sized? 16 v with
    | .regWrite, some a', some v' => some (.regWrite a' width v')
    | _, _, _ => none
  | [a, c, s] =>
    match op, sized? 8 a, sized? 16 c, sized? 16 s with
    | .regRmw, some a', some c', some s' => some (.regRmw a' width c' s')
    | _, _, _, _ => none
  | _ => none

/-- A pseudo-request with an address and a mask. -/
def maskLine? (make : Byte → Word → Instr) : List (List Char) → Option Instr
  | [a, m] =>
    match sized? 8 a, sized? 16 m with
    | some a', some m' => some (make a' m')
    | _, _ => none
  | _ => none

/-- `txhdr IRQ, CSUM, FID, LEN`. -/
def txhdrLine? : List (List Char) → Option Instr
  | [i, c, f, l] =>
    match flag? i, flag? c, sized? 16 f, sized? 16 l with
    | some i', some c', some f', some l' => some (.txHdrBuild i' c' f' l')
    | _, _, _, _ => none
  | _ => none

/-- `fifo.wr [..]`, `rxhdr [..]`: one byte list and nothing after it. -/
def byteListLine? (make : List Byte → Instr) : List Token → Option Instr
  | .opens :: rest =>
    match list? listByte? rest with
    | some (bytes, []) => some (make bytes)
    | _ => none
  | _ => none

/-- `transmit [b0, ...]` and its options. -/
def transmitLine? : List Token → Option Instr
  | .opens :: rest =>
    (list? listByte? rest).bind fun (frame, after) => transmitOptions? frame after
  | _ => none

/-- `configure MAC, [F0, F1, ...], MASK`. -/
def configureLine? : List Token → Option Instr
  | .word m :: .comma :: .opens :: rest =>
    match mac? m, list? (sized? 16) rest with
    | some mac, some (filter, [.comma, .word mask]) => (sized? 16 mask).map (.configure mac filter ·)
    | _, _ => none
  | _ => none

/-- A line that is its name alone. -/
def bareLine? (i : Instr) (rest : List Token) : Option Instr := if rest.isEmpty then some i else none

/-- The request a name and the tokens after it stand for. -/
def lineOf? (cfg : Config) (name : List Char) (rest : List Token) : Option Instr :=
  if name = "rd8".toList then (operands? rest).bind (registerLine? .regRead 8)
  else if name = "rd16".toList then (operands? rest).bind (registerLine? .regRead 16)
  else if name = "wr8".toList then (operands? rest).bind (registerLine? .regWrite 8)
  else if name = "wr16".toList then (operands? rest).bind (registerLine? .regWrite 16)
  else if name = "rmw8".toList then (operands? rest).bind (registerLine? .regRmw 8)
  else if name = "rmw16".toList then (operands? rest).bind (registerLine? .regRmw 16)
  else if name = "setbits8".toList then (operands? rest).bind (maskLine? (setBits .w8))
  else if name = "setbits16".toList then (operands? rest).bind (maskLine? (setBits .w16))
  else if name = "clrbits8".toList then (operands? rest).bind (maskLine? (clrBits .w8))
  else if name = "clrbits16".toList then (operands? rest).bind (maskLine? (clrBits .w16))
  else if name = "ack".toList then
    match rest with
    | [.word m] => (sized? 16 m).map (ackRequest cfg)
    | _ => none
  else if name = "rdisr".toList then bareLine? (readIsrRequest cfg) rest
  else if name = "fifo.rd".toList then
    match rest with
    | [.word n] => (sized? 16 n).map .fifoRead
    | _ => none
  else if name = "fifo.wr".toList then byteListLine? .fifoWrite rest
  else if name = "rxhdr".toList then byteListLine? .rxHdrParse rest
  else if name = "receive".toList then bareLine? .receive rest
  else if name = "txhdr".toList then (operands? rest).bind txhdrLine?
  else if name = "transmit".toList then transmitLine? rest
  else if name = "reset".toList then bareLine? .reset rest
  else if name = "configure".toList then configureLine? rest
  else if name = "link".toList then bareLine? .linkStatus rest
  else if name = "service".toList then bareLine? .serviceInterrupts rest
  else none

/-- The request a line of text stands for (R115, R116). -/
def assemble (cfg : Config) (line : List Char) : Option Instr :=
  match tokens [] line with
  | .word name :: rest => lineOf? cfg name rest
  | _ => none

end Sys2Proof.Machine
end

