-- ==== Sys2Proof/Machine/PlainStorage.lean ====
section
/-!
DEFINITION. A CHIP whose registers are plain storage (95_test_vectors.md section 1, "Registers"): what
its registers hold after the transactions the bus shows. It is no part of the ENGINE: statements use it to
say what R133 and R64 say of such a chip. No step reads it. What R64 and R132 leave free is a free value.
Log entry 30.
-/

namespace Sys2Proof.Machine

/-- The byte addresses of a register, the lower lane first (R61). -/
def registerLanes (r : Reg) : List Byte :=
  match r.width with
  | .w8 => [r.addr]
  | .w16 => [r.addr, r.addr + 1]

/-- `n` bytes, each of them free. -/
def freeBytes (n : Nat) (draw : Nat → Byte) : List Byte := (List.range n).map draw

/-- A write of a plain register, with the bytes the chip then holds, in transfer order. -/
structure PlainWrite where
  reg : Reg
  data : List Byte
  deriving DecidableEq, Repr

/-- The write that transaction number `n` of the bus is, if it is one. Where it failed, whether it took effect
is free (R74, R132, R301; 93 section 1): so is each byte the chip then holds. -/
def plainWrite? (cfg : Config) (n : Nat) (x : Txn) : Option PlainWrite :=
  match wireDecode cfg x.driven with
  | .regWrite a w data =>
    some ⟨⟨a, w⟩, if x.received.isSome then data
      else freeBytes w.bytes (Config.byteAfterFailedWrite n)⟩
  | _ => none

/-- The writes among these transactions, `n` the number of the first, the newest first and then `older`. -/
def plainWrites (cfg : Config) : (n : Nat) → List Txn → (older : List PlainWrite) → List PlainWrite
  | _, [], older => older
  | n, x :: rest, older => plainWrites cfg (n + 1) rest ((plainWrite? cfg n x).toList ++ older)

/-- The byte at an address with P_DATA_ENDIAN = little, where the byte transferred first is the lower lane's
(R63, R64): that of the newest write which enables it, 0 at start. -/
def storedByte (a : Byte) : List PlainWrite → Byte
  | [] => 0
  | x :: older => (((registerLanes x.reg).zip x.data).lookup a).getD (storedByte a older)

/-- What a plain chip answers to a register read with P_DATA_ENDIAN = big (R64). The newest write that enables
one of the register's lanes decides: of the same register, its bytes (R133); of the other width, a free draw,
for "the model takes no position". All 0 at start. -/
def bigAnswer (txns : Nat) (writes : List PlainWrite) (r : Reg) : List Byte :=
  match writes.find? fun x => (registerLanes x.reg).any (registerLanes r).contains with
  | none => List.replicate r.width.bytes 0
  | some x => if x.reg = r then x.data else freeBytes r.width.bytes (Config.mixedWidthByte txns)

/-- What a plain chip answers to a register read after these transactions: the enabled lanes, in transfer
order. -/
def plainAnswer (cfg : Config) (bus : List Txn) (a : Byte) (w : Width) : List Byte :=
  let writes := plainWrites cfg 0 bus []
  match cfg.dataEndian with
  | .little => (registerLanes ⟨a, w⟩).map (storedByte · writes)
  | .big => bigAnswer bus.length writes ⟨a, w⟩

end Sys2Proof.Machine
end

