-- ==== Sys2Proof/Safety.lean ====
section
/-!
DEFINITION. What counts as a good state of the ENGINE, and the effect of a row of completed SPI
transactions, in the terms statements use.
-/

namespace Sys2Proof.Machine

/-! ## Good states -/

/-- No operation and no transaction is in progress, and the RX state machine is idle: `rx_state` "is
`Idle` whenever `x.pc = Ready`" (R23). The state between two requests. -/
def State.quiet (s : State) : Bool :=
  s.pc == .ready && s.rxState == .idle && !s.spiBusy && !s.burstOpen

/-- A final state: between requests and with no fault recorded. R305 "gives the faulted state no
successor that counts as a final state". -/
def State.final (s : State) : Bool := s.quiet && s.fault.isNone

/-- The staging buffer keeps its canonical form and lies inside its P_RX_BUF bytes (R28). -/
def State.stageOk (s : State) : Bool := s.stage.wf && s.stage.within s.cfg.rxBuf

/-- No transaction on the bus is one the wire decode of R103 classifies as reserved. -/
def State.busClean (s : State) : Bool :=
  s.bus.all fun x => wireDecode s.cfg x.driven != .reserved

/-! ## Completed transactions -/

/-- The bookkeeping of R67 for a row of transactions that were all issued and completed, from a state
with none in flight: the counters of R36, the bus, the answers used up. Nothing else of the state changes
but the position inside the operation, by the transaction and the test of its answer (R21). -/
def State.afterTxns (xs : List Txn) (s : State) : State :=
  { s with
    pc := s.pc.skip (2 * xs.length)
    gSpiTxns := s.gSpiTxns + xs.length
    gFifoBursts := s.gFifoBursts + xs.countP (·.burst)
    script := s.script.drop xs.length
    bus := s.bus ++ xs }

/-- The transaction of a register read that received `got` (R94), the RX state being `rx`. -/
def Txn.ofRead (cfg : Config) (rx : RxState) (r : Reg) (got : Option (List Byte)) : Txn :=
  ⟨regCommand cfg cfg.opRd r.addr r.width ++ List.replicate r.width.bytes cfg.dummyTx, got, rx, false⟩

/-- The transaction of a register write (R94). -/
def Txn.ofWrite (cfg : Config) (rx : RxState) (got : Option (List Byte)) (w : RegWrite) : Txn :=
  ⟨regCommand cfg cfg.opWr w.reg.addr w.reg.width ++ dataBytes cfg.dataEndian w.reg.width w.value,
    got, rx, false⟩

/-- The transactions of a write list (R135), all completed. -/
def Txn.ofWrites (cfg : Config) (rx : RxState) (ws : List RegWrite) : List Txn :=
  ws.map (Txn.ofWrite cfg rx (some []))

/-- The RX burst for `m` bytes (R97). -/
def Txn.ofRxBurst (cfg : Config) (rx : RxState) (m : Nat) (got : Option (List Byte)) : Txn :=
  ⟨fifoCommand cfg.opRxq :: List.replicate (cfg.rxLead + alignUp m cfg.rxAlign) cfg.dummyTx,
    got, rx, true⟩

/-- The TX burst for data `d` (R98): the command byte, `d`, then P_PAD_BYTE up to the alignment. -/
def Txn.ofTxBurst (cfg : Config) (rx : RxState) (d : List Byte) (got : Option (List Byte)) : Txn :=
  ⟨fifoCommand cfg.opTxq ::
    (d ++ List.replicate (alignUp d.length cfg.txAlign - d.length) cfg.padByte), got, rx, true⟩

/-- The number of bytes received in the read phase of a transaction; 0 where it failed. -/
def Txn.readLength (x : Txn) : Nat := (x.received.map List.length).getD 0

/-- Transport and CHIP answer the next transactions as `xs` shows them: the bytes received, or `fail`
(whether a transaction fails does not depend on its length). -/
def State.plays (s : State) (xs : List Txn) : Prop :=
  ∀ j x, xs[j]? = some x → s.answer j x.readLength = x.received

/-! ## Received frames -/

/-- What the CHIP answers for one received frame: the bytes of the status register, of the count
register, and of the burst (R195, R196). -/
structure SeenFrame where
  status : List Byte
  count : List Byte
  data : List Byte

/-- The frame's status word (R100). -/
def SeenFrame.statusWord (cfg : Config) (f : SeenFrame) : Word :=
  readValue cfg.dataEndian cfg.rxHdrStatusReg.width f.status

/-- The frame's declared count (R101). -/
def SeenFrame.declared (cfg : Config) (f : SeenFrame) : Word :=
  readValue cfg.dataEndian cfg.rxHdrCountReg.width f.count &&& cfg.rxBcMask

/-- The payload length of an accepted frame; none for any other (R182). -/
def SeenFrame.accepted (cfg : Config) (f : SeenFrame) : Option Nat :=
  match classify cfg (f.statusWord cfg) (f.declared cfg) with
  | .accept p => some p
  | .reject _ => none
  | .desync => none

/-- The descriptor of an accepted frame (R185): the burst less the lead bytes, the in-FIFO header and the
trailer (R186). -/
def SeenFrame.descriptor? (cfg : Config) (f : SeenFrame) : Option Descriptor :=
  (f.accepted cfg).map fun p =>
    ⟨f.statusWord cfg, f.declared cfg, (f.data.drop (cfg.rxLead + cfg.rxFifoHdr)).take p⟩

/-- The two header reads of a frame, status then count, in state HeaderPending (R196). -/
def SeenFrame.headerTxns (cfg : Config) (f : SeenFrame) : List Txn :=
  [Txn.ofRead cfg .headerPending cfg.rxHdrStatusReg (some f.status),
    Txn.ofRead cfg .headerPending cfg.rxHdrCountReg (some f.count)]

/-- The burst of a frame (R197), in state PayloadPending: the P_RX_PRE writes, one burst of the declared count
and the in-FIFO header, the P_RX_POST writes. -/
def SeenFrame.burstTxns (cfg : Config) (f : SeenFrame) : List Txn :=
  Txn.ofWrites cfg .payloadPending cfg.rxPre
    ++ Txn.ofRxBurst cfg .payloadPending (cfg.rxFifoHdr + (f.declared cfg).toNat) (some f.data)
      :: Txn.ofWrites cfg .payloadPending cfg.rxPost

/-- The transactions of one frame (R196 to R199): its header reads; its burst; then the P_RX_RELEASE
writes, in state Delivered for an accepted frame and PayloadPending for a rejected one. -/
def SeenFrame.txns (cfg : Config) (f : SeenFrame) : List Txn :=
  f.headerTxns cfg ++ f.burstTxns cfg
  ++ Txn.ofWrites cfg (if (f.accepted cfg).isSome then .delivered else .payloadPending) cfg.rxRelease

/-- The answers of the two header reads have the registers' lengths. -/
def SeenFrame.headerShaped (cfg : Config) (f : SeenFrame) : Prop :=
  f.status.length = cfg.rxHdrStatusReg.width.bytes ∧ f.count.length = cfg.rxHdrCountReg.width.bytes

/-- A frame RECEIVE processes whole: its answers have the lengths of its read phases, and its count is
plausible (its verdict is not Desync). -/
def SeenFrame.plausible (cfg : Config) (f : SeenFrame) : Prop :=
  f.headerShaped cfg ∧
  f.data.length
    = cfg.rxLead + alignUp (cfg.rxFifoHdr + (f.declared cfg).toNat) cfg.rxAlign ∧
  classify cfg (f.statusWord cfg) (f.declared cfg) ≠ .desync

/-- The transactions of a row of frames. -/
def SeenFrame.allTxns (cfg : Config) (fs : List SeenFrame) : List Txn := fs.flatMap (·.txns cfg)

/-- The descriptors of a row of frames. -/
def SeenFrame.descriptors (cfg : Config) (fs : List SeenFrame) : List Descriptor :=
  fs.filterMap (·.descriptor? cfg)

/-- The state after RECEIVE's loop processed these frames whole (R195 to R199), from between requests:
the bookkeeping of their transactions and, frame by frame, the latched header, the staging buffer, the
delivered or dropped counter, the consumed total, `rx_left` and `rx_done`. -/
def State.afterFrames (fs : List SeenFrame) (s : State) : State :=
  { s.afterTxns (SeenFrame.allTxns s.cfg fs) with
    rxStatus := (fs.getLast?.map (·.statusWord s.cfg)).getD s.rxStatus
    rxCount := (fs.getLast?.map (·.declared s.cfg)).getD s.rxCount
    rxLeft := s.rxLeft - BitVec.ofNat 8 fs.length
    rxDone := s.rxDone + fs.length
    stage := ((SeenFrame.descriptors s.cfg fs).getLast?.map
      fun d => Memory.cellsFrom 0 d.payload).getD s.stage
    rxDelivered := s.rxDelivered + BitVec.ofNat 32 (SeenFrame.descriptors s.cfg fs).length
    rxDropped := s.rxDropped
      + BitVec.ofNat 32 (fs.length - (SeenFrame.descriptors s.cfg fs).length)
    gRxConsumed := s.gRxConsumed + (fs.map fun f => (f.declared s.cfg).toNat).sum }

/-- The ENGINE is free to take a request (R305): nothing is in progress. -/
def State.free (s : State) : Prop := s.pc = .ready ∧ s.spiBusy = false ∧ s.burstOpen = false

end Sys2Proof.Machine
end

