-- ==== Sys2Proof/Certificates/Slice0/Obligations.lean ====
section
/-!
DEFINITION. The statements for the provers. Each docstring names the rules of spec/ it formalises. A row
of completed transactions is written `s.afterTxns xs` (Sys2Proof/Safety.lean: the bookkeeping of R67),
"transport and CHIP answer as `xs` shows" is `s.plays xs`, and `s.begun` (Sys2Proof/Machine/Ops.lean) is `s`
with an operation begun: the fault of R305 where another request arrives while that operation is in
progress, its arrival used up, nothing else (log entry 8). A next state is written out as the old state with
the fields that change, so each such statement is its frame as well: every other field, the staging buffer
among them, is unchanged.
-/

open Sys2Proof Sys2Proof.Machine

/-! ## Encoding -/

/-- Decode and encode agree, for every instruction, under every well-formed configuration (R90, R94, R96,
R103, R110; the bytes after a request's tag are the model's choice, log entry 3). -/
def Obligations.DecodeEncodeRoundTrip : Prop :=
  ∀ (cfg : Config) (i : Instr), cfg.wellFormed = true → i.wellFormed cfg = true →
    decode cfg (encode cfg i) = .ok i

/-- The fields of a register command word, bit for bit (R90, R91), and its two bytes, the most significant
first (R65, R94). -/
def Obligations.RegisterCommandLayout : Prop :=
  ∀ (cfg : Config) (op : BitVec 2) (a : Byte) (w : Width), (w = .w16 → a.getLsbD 0 = false) →
    ∃ c : Word,
      regCommand cfg op a w = [c.extractLsb' 8 8, c.extractLsb' 0 8] ∧
      c.extractLsb' 14 2 = op ∧
      (w = .w8 → c.extractLsb' 10 4 = 0b0001#4 <<< (a.extractLsb' 0 2).toNat) ∧
      (w = .w16 → c.extractLsb' 10 4 = 0b0011#4 <<< (a.extractLsb' 0 2).toNat ∧
        (c.extractLsb' 10 4 = 0b0011 ∨ c.extractLsb' 10 4 = 0b1100)) ∧
      c.extractLsb' 4 6 = a.extractLsb' 2 6 ∧
      (cfg.cmdLowBits = .zero → c.extractLsb' 0 4 = 0) ∧
      (cfg.cmdLowBits = .addrLow →
        c.extractLsb' 2 2 = a.extractLsb' 0 2 ∧ c.extractLsb' 0 2 = 0)

/-- A bus monitor reads the address and the width back from the ENGINE's register frames (R91, R94,
R103). -/
def Obligations.WireDecodeInvertsRegisterFrames : Prop :=
  ∀ (cfg : Config) (a : Byte) (w : Width) (data : List Byte), cfg.wellFormed = true →
    aligned a w = true → data.length = w.bytes →
    wireDecode cfg (regCommand cfg cfg.opRd a w ++ data) = .regRead a w ∧
    wireDecode cfg (regCommand cfg cfg.opWr a w ++ data) = .regWrite a w data

/-- What the wire decode classifies as reserved (R92, R95, R96, R103): a register command whose byte-enable
mask is none of the six legal ones or whose length is not two command bytes and one byte for each
lane (the one-byte frame among them), and a FIFO command byte with `b0[5:0] ≠ 0`. -/
def Obligations.ReservedFramesClassified : Prop :=
  ∀ (cfg : Config) (b0 b1 : Byte) (rest : List Byte), cfg.wellFormed = true →
    ((b0.extractLsb' 6 2 = cfg.opRd ∨ b0.extractLsb' 6 2 = cfg.opWr) →
      b0.extractLsb' 2 4 ∉ [0b0001#4, 0b0010#4, 0b0100#4, 0b1000#4, 0b0011#4, 0b1100#4] →
      wireDecode cfg (b0 :: b1 :: rest) = .reserved) ∧
    ((b0.extractLsb' 6 2 = cfg.opRd ∨ b0.extractLsb' 6 2 = cfg.opWr) →
      (b0.extractLsb' 2 4 ∈ [0b0001#4, 0b0010#4, 0b0100#4, 0b1000#4] → rest.length ≠ 1) →
      (b0.extractLsb' 2 4 ∈ [0b0011#4, 0b1100#4] → rest.length ≠ 2) →
      wireDecode cfg (b0 :: b1 :: rest) = .reserved) ∧
    ((b0.extractLsb' 6 2 = cfg.opRd ∨ b0.extractLsb' 6 2 = cfg.opWr) →
      wireDecode cfg [b0] = .reserved) ∧
    ((b0.extractLsb' 6 2 = cfg.opRxq ∨ b0.extractLsb' 6 2 = cfg.opTxq) →
      b0.extractLsb' 0 6 ≠ 0 → wireDecode cfg (b0 :: rest) = .reserved)

/-- A few words of the spec's encodings decode to the instructions they stand for (R110, R118; 95 3.1):
`rd16 0x92` on the wire, a write of RXQCR, both FIFO command bytes, and three requests. -/
def Obligations.WordsOfTheSpecDecode : Prop :=
  decode .reference (.frame [0x32, 0x40, 0x00, 0x00]) = .ok (.spiRegRead 0b1100 0b100100 0) ∧
  decode .reference (.frame [0x72, 0x00, 0x38, 0x00])
    = .ok (.spiRegWrite 0b1100 0b100000 0 [0x38, 0x00]) ∧
  decode .reference (.frame [0x80, 0, 0, 0, 0]) = .ok (.spiRxqRead 4) ∧
  decode .reference (.frame [0xC0, 1, 2, 3, 4]) = .ok (.spiTxqWrite [1, 2, 3, 4]) ∧
  decode .reference (.request [0x40]) = .ok .reset ∧
  decode .reference (.request [0x43]) = .ok .serviceInterrupts ∧
  decode .reference (.request [0x20, 0x00, 0x80, 0x40, 0x00])
    = .ok (.rxHdrParse [0x00, 0x80, 0x40, 0x00])

/-! ## The step -/

/-- A step runs the decoded instruction, the submission taken from the inbox (R12, R77). -/
def Obligations.StepRunsDecodedInstruction : Prop :=
  ∀ (s : State) (sub : Submission) (rest : List Submission) (i : Instr),
    s.cfg.wellFormed = true → s.inbox = sub :: rest → decode s.cfg sub = .ok i →
    step s = exec i { s with inbox := rest }

/-- With nothing submitted the ENGINE waits (R72: "after power-on it waits for a request"). -/
def Obligations.StepWaitsForRequest : Prop :=
  ∀ s : State, s.cfg.wellFormed = true → s.inbox = [] → step s = .next s

/-- R9: the conditions of a well-formed configuration. -/
def configConditions (c : Config) : Prop :=
  [c.opRd, c.opWr, c.opRxq, c.opTxq].Nodup ∧ 1 ≤ c.rxAlign ∧ 1 ≤ c.txAlign ∧
  c.rxMaxFrame - c.rxTrailer ≤ c.rxBuf ∧ 1 ≤ c.rxMaxPerCall ∧ 1 ≤ c.resetPollMax ∧
  c.txMinFrame ≤ c.txMaxFrame ∧ c.txMaxFrame ≤ c.txBcMask.toNat ∧
  [c.isrLink, c.isrTx, c.isrRx, c.isrRxovr].Nodup ∧
  (∀ v ∈ [c.isrLink, c.isrTx, c.isrRx, c.isrRxovr], v ≠ 0 ∧ v &&& (v - 1) = 0) ∧
  (∀ r ∈ c.regs, r.width = .w16 → r.addr.getLsbD 0 = false)

/-- R9: a configuration that breaks one of its conditions is refused, whatever the state. -/
def Obligations.IllFormedConfigurationRefused : Prop :=
  ∀ s : State, ¬ configConditions s.cfg → step s = .refused .illFormedConfiguration

/-- Under a well-formed configuration every step answers a next state: an error, a refusal (R304) and the
concurrency fault (R305) are all next states, none stops the machine. -/
def Obligations.EveryStepAnswers : Prop :=
  ∀ s : State, s.cfg.wellFormed = true → ∃ t, step s = .next t

/-- A tag of R110's table, its operation, and bytes after it that are never its fields: too few or too many, or
a flag that is neither 0 nor 1 (R111; the bytes of the fields are the model's choice, log entry 3). -/
def wrongFields (tag : Byte) (op : Op) (fields : List Byte) : Prop :=
  let n := fields.length
  ((tag, op) ∈ [(0x21, .receive), (0x40, .reset), (0x42, .linkStatus), (0x43, .serviceInterrupts)]
    ∧ n ≠ 0) ∨
  ((tag, op) ∈ [(0x01, .regRead), (0x10, .fifoRead)] ∧ n ≠ 2) ∨
  ((tag, op) ∈ [(0x02, .regWrite), (0x20, .rxHdrParse)] ∧ n ≠ 4) ∨
  ((tag, op) ∈ [(0x03, .regRmw), (0x30, .txHdrBuild)] ∧ n ≠ 6) ∨
  ((tag, op) = (0x31, .transmit) ∧ n < 2) ∨
  ((tag, op) = (0x41, .configure) ∧ (n < 8 ∨ n % 2 = 1)) ∨
  ((tag, op) ∈ [(0x30, .txHdrBuild), (0x31, .transmit)] ∧ ∃ b ∈ fields.take 2, b ≠ 0 ∧ b ≠ 1)

/-- The requests of the last row of R306's table. -/
def fifoRequests : List Op := [.fifoRead, .fifoWrite, .receive, .transmit, .serviceInterrupts]

/-- What becomes of a submission that is no instruction, from a state where nothing is in progress. A tag in no
row of R110's table, or none at all, is refused `BadRequest`; a tag of the table with wrong fields is refused
`BadRequest` too (R111), unless its phase has another outcome, which comes first (R306, R307; log entry 12;
that the error of phase Desync carries no status and count, R300, is the model's reading, log entry 28).
A frame that does not decode is refused as reserved (log entry 5; which these are:
Obligations.ReservedFramesClassified). No transaction, and no field but the refusal mark. -/
def Obligations.UnknownTagRefused : Prop :=
  ∀ (s : State) (rest : List Submission), s.cfg.wellFormed = true → s.free →
    (∀ bytes : List Byte, s.inbox = .request bytes :: rest →
      (∀ tag ∈ bytes.head?, tag ∉ [0x01#8, 0x02#8, 0x03#8, 0x10#8, 0x11#8, 0x20#8, 0x21#8, 0x30#8,
        0x31#8, 0x40#8, 0x41#8, 0x42#8, 0x43#8]) →
      step s
        = .next { s with inbox := rest, refused := true, result := some (.refused .badRequest) }) ∧
    (∀ (tag : Byte) (op : Op) (fields : List Byte), s.inbox = .request (tag :: fields) :: rest →
      wrongFields tag op fields →
      (op ∈ fifoRequests → s.phase = .unreset ∨ s.phase = .reset → step s = .next
        { s.begun with inbox := rest, refused := true, result := some (.refused .notConfigured) }) ∧
      (op ∈ fifoRequests → s.phase = .desync → step s = .next
        { s.begun with inbox := rest, result := some (.raised (.fifoDesync none)) }) ∧
      (op = .configure → s.phase ≠ .reset → step s = .next
        { s.begun with inbox := rest, refused := true, result := some (.refused .notReset) }) ∧
      ((op ∈ fifoRequests → s.phase = .configured) → (op = .configure → s.phase = .reset) →
        step s = .next
          { s.begun with inbox := rest, refused := true, result := some (.refused .badRequest) })) ∧
    (∀ (bytes : List Byte) (e : DecodeError), s.inbox = .frame bytes :: rest →
      decodeFrame s.cfg bytes = .error e →
      step s
        = .next { s with inbox := rest, refused := true, result := some (.refused .reservedFrame) })

/-! ## Power-on -/

/-- R340, R40: the state at power-on, and that the ENGINE then waits for the first request. -/
def Obligations.PowerOnState : Prop :=
  State.reset.pc = .ready ∧ State.reset.phase = .unreset ∧ State.reset.rxState = .idle ∧
  State.reset.spiBusy = false ∧ State.reset.burstOpen = false ∧
  State.reset.rxStatus = 0 ∧ State.reset.rxCount = 0 ∧ State.reset.rxLeft = 0 ∧
  State.reset.rxDone = 0 ∧ State.reset.txWritten = 0 ∧ State.reset.txFid = 0 ∧
  State.reset.snap = 0 ∧ State.reset.handled = 0 ∧ State.reset.txDoneEvents = 0 ∧
  State.reset.rxovrEvents = 0 ∧ State.reset.linkEvents = 0 ∧ State.reset.rxDelivered = 0 ∧
  State.reset.rxDropped = 0 ∧ State.reset.pollCount = 0 ∧ State.reset.refused = false ∧
  State.reset.fault = none ∧ State.reset.gRxConsumed = 0 ∧ State.reset.gFifoBursts = 0 ∧
  State.reset.gSpiTxns = 0 ∧ step State.reset = .next State.reset

/-! ## Outcomes common to the requests -/

/-- R305. A request handed to the ENGINE while an operation, a transaction or a burst is in progress records the
fault and does nothing else. A request of another call site that arrives while an operation runs (the first
entry of `rivals`, log entry 8) records the fault, and that operation is not cancelled: the next state is the
one it has without that request, but for the record. The record is never cleared and no successor of a
faulted state is final (log entry 9). -/
def Obligations.RequestDuringOperationFaults : Prop :=
  (∀ (i : Instr) (s : State), s.pc ≠ .ready ∨ s.spiBusy = true ∨ s.burstOpen = true →
    exec i s = .next { s with fault := some .concurrentAccess }) ∧
  (∀ (i : Instr) (s t : State), s.free → s.rivals.head? = some true →
    exec i { s with rivals := [] } = .next t →
    exec i s = .next { t with rivals := s.rivals.drop 1, fault := some .concurrentAccess }) ∧
  (∀ s t : State, s.fault ≠ none → step s = .next t → t.fault = s.fault ∧ t.final = false)

/-- R34, R35: the refusal mark and the fault record are never cleared. -/
def Obligations.StickyMarksNeverCleared : Prop :=
  ∀ s t : State, step s = .next t →
    (s.refused = true → t.refused = true) ∧ (∀ f, s.fault = some f → t.fault = some f)

/-- The phase table (R306): in every phase, the outcome for each request that is not admitted; a request
that is admitted has none of these outcomes. That the error of phase Desync carries no status and count is the
model's reading (log entry 28); that the four wire frames, which have no row, are admitted is its choice (log
entry 5). -/
def Obligations.PhaseAdmission : Prop :=
  ∀ (i : Instr) (s : State), s.free →
    (i.op ∈ fifoRequests → s.phase = .unreset ∨ s.phase = .reset →
      exec i s = .next { s.begun with refused := true, result := some (.refused .notConfigured) }) ∧
    (i.op ∈ fifoRequests → s.phase = .desync →
      exec i s = .next { s.begun with result := some (.raised (.fifoDesync none)) }) ∧
    (i.op = .configure → s.phase ≠ .reset →
      exec i s = .next { s.begun with refused := true, result := some (.refused .notReset) }) ∧
    ((i.op ∈ fifoRequests → s.phase = .configured) → (i.op = .configure → s.phase = .reset) →
      ∃ t, exec i s = .next t ∧ t.result ≠ some (.refused .notConfigured) ∧
        t.result ≠ some (.refused .notReset) ∧ t.result ≠ some (.raised (.fifoDesync none)))

/-- R304: a refused request issues no transaction and changes no field but the refusal mark (and what is
returned to the CALLER; where it named an operation, that operation has begun, R305). So of an instruction,
and so of a whole step: of a submission that is no instruction too, the submission then taken from the
inbox. -/
def Obligations.RefusalChangesNothing : Prop :=
  (∀ (i : Instr) (s t : State) (why : Reason), s.free → exec i s = .next t →
    t.result = some (.refused why) →
    t = { s.begun with refused := true, result := some (.refused why) }) ∧
  (∀ (s t : State) (sub : Submission) (rest : List Submission) (why : Reason), s.free →
    s.inbox = sub :: rest → step s = .next t → t.result = some (.refused why) →
    ∃ u, (u = s ∨ u = s.begun) ∧
      t = { u with inbox := rest, refused := true, result := some (.refused why) })

/-- R68, R308: in one request, only the last transaction can have failed: the ENGINE never retries, and
after an error no transaction is issued. The bus only grows, the counters of R36 count its
transactions, and neither the configuration nor the CALLER's submissions change; of the requests of another
call site (log entry 8), the entry of this operation is used up. -/
def Obligations.NoTransactionAfterFailure : Prop :=
  ∀ (i : Instr) (s t : State), exec i s = .next t →
    ∃ xs : List Txn, t.bus = s.bus ++ xs ∧ (∀ x ∈ xs.dropLast, x.received ≠ none) ∧
      t.gSpiTxns = s.gSpiTxns + xs.length ∧
      t.gFifoBursts = s.gFifoBursts + xs.countP (·.burst) ∧
      t.cfg = s.cfg ∧ t.inbox = s.inbox ∧
      (s.free → t.rivals = s.rivals.drop 1) ∧ (¬ s.free → t.rivals = s.rivals)

/-! ## Register Access Layer -/

/-- REG_READ (R130): its refusals in order; the one transaction and the value it returns (8 bits
zero-extended, 16 bits in the byte order P_DATA_ENDIAN); BusError with the register's address. That the reason
of a bad width is BadWidth (R62, R130), not R111's BadRequest, is the model's resolution, log entry 11. -/
def Obligations.RegReadOutcomes : Prop :=
  ∀ (s : State) (a width : Byte), s.free →
    (width ≠ 8 ∧ width ≠ 16 → exec (.regRead a width) s
      = .next { s.begun with refused := true, result := some (.refused .badWidth) }) ∧
    (width = 16 ∧ a.getLsbD 0 = true → exec (.regRead a width) s
      = .next { s.begun with refused := true, result := some (.refused .misalignedRegister) }) ∧
    (∀ w : Width, width = w.bits → (w = .w16 → a.getLsbD 0 = false) →
      (s.cfg.validReg.holds a w = false → exec (.regRead a width) s
        = .next { s.begun with refused := true, result := some (.refused .invalidRegister) }) ∧
      (s.cfg.validReg.holds a w = true →
        (s.answer 0 w.bytes = none → exec (.regRead a width) s
          = .next { s.begun.afterTxns [Txn.ofRead s.cfg s.rxState ⟨a, w⟩ none] with
              result := some (.raised (.busError (.register a))) }) ∧
        (∀ b, w = .w8 → s.answer 0 1 = some [b] → exec (.regRead a width) s
          = .next { s.begun.afterTxns [Txn.ofRead s.cfg s.rxState ⟨a, w⟩ (some [b])] with
              result := some (.value (b.setWidth 16)) }) ∧
        (∀ b0 b1, w = .w16 → s.answer 0 2 = some [b0, b1] → exec (.regRead a width) s
          = .next { s.begun.afterTxns [Txn.ofRead s.cfg s.rxState ⟨a, w⟩ (some [b0, b1])] with
              result := some (.value (if s.cfg.dataEndian = .little then b1 ++ b0
                else b0 ++ b1)) })))

/-- REG_WRITE (R132): its refusals in order, the one transaction, its bytes, and BusError. That the reason of a
bad width is BadWidth (R62, R132), not R111's BadRequest, is the model's resolution, log entry 11. -/
def Obligations.RegWriteOutcomes : Prop :=
  ∀ (s : State) (a width : Byte) (v : Word), s.free →
    (width ≠ 8 ∧ width ≠ 16 → exec (.regWrite a width v) s
      = .next { s.begun with refused := true, result := some (.refused .badWidth) }) ∧
    (width = 16 ∧ a.getLsbD 0 = true → exec (.regWrite a width v) s
      = .next { s.begun with refused := true, result := some (.refused .misalignedRegister) }) ∧
    (∀ w : Width, width = w.bits → (w = .w16 → a.getLsbD 0 = false) →
      (s.cfg.validReg.holds a w = false → exec (.regWrite a width v) s
        = .next { s.begun with refused := true, result := some (.refused .invalidRegister) }) ∧
      (s.cfg.validReg.holds a w = true → w = .w8 → v.extractLsb' 8 8 ≠ 0 →
        exec (.regWrite a width v) s
          = .next { s.begun with refused := true, result := some (.refused .valueTooWide) }) ∧
      (∀ data : List Byte, s.cfg.validReg.holds a w = true →
        (w = .w8 → v.extractLsb' 8 8 = 0 ∧ data = [v.extractLsb' 0 8]) →
        (w = .w16 → data = if s.cfg.dataEndian = .little
          then [v.extractLsb' 0 8, v.extractLsb' 8 8] else [v.extractLsb' 8 8, v.extractLsb' 0 8]) →
        (s.answer 0 0 = none → exec (.regWrite a width v) s
          = .next { s.begun.afterTxns [⟨regCommand s.cfg s.cfg.opWr a w ++ data, none, s.rxState, false⟩]
              with result := some (.raised (.busError (.register a))) }) ∧
        (s.answer 0 0 = some [] → exec (.regWrite a width v) s
          = .next { s.begun.afterTxns
                [⟨regCommand s.cfg s.cfg.opWr a w ++ data, some [], s.rxState, false⟩]
              with result := some .ok })))

/-- REG_RMW (R134), its refusals of REG_READ apart (they are REG_READ's): a mask too wide is refused; a
failed read is the only transaction; otherwise the new value is written, even when it is the old one, a
bit in both masks ending set, and `(old, new)` is returned. -/
def Obligations.RegRmwOutcomes : Prop :=
  ∀ (s : State) (a : Byte) (w : Width) (clr set : Word), s.free →
    (w = .w16 → a.getLsbD 0 = false) → s.cfg.validReg.holds a w = true →
    (w = .w8 → clr.extractLsb' 8 8 ≠ 0 ∨ set.extractLsb' 8 8 ≠ 0 →
      exec (.regRmw a w.bits clr set) s
        = .next { s.begun with refused := true, result := some (.refused .valueTooWide) }) ∧
    ((w = .w8 → clr.extractLsb' 8 8 = 0 ∧ set.extractLsb' 8 8 = 0) →
      (s.answer 0 w.bytes = none → exec (.regRmw a w.bits clr set) s
        = .next { s.begun.afterTxns [Txn.ofRead s.cfg s.rxState ⟨a, w⟩ none] with
            result := some (.raised (.busError (.register a))) }) ∧
      (∀ (got : List Byte) (old new : Word), got.length = w.bytes →
        old = readValue s.cfg.dataEndian w got →
        new = ((old &&& ~~~clr) ||| set) &&& (if w = .w8 then 0x00FF else 0xFFFF) →
        (s.plays [Txn.ofRead s.cfg s.rxState ⟨a, w⟩ (some got),
            Txn.ofWrite s.cfg s.rxState none ⟨⟨a, w⟩, new⟩] →
          exec (.regRmw a w.bits clr set) s
            = .next { s.begun.afterTxns [Txn.ofRead s.cfg s.rxState ⟨a, w⟩ (some got),
                  Txn.ofWrite s.cfg s.rxState none ⟨⟨a, w⟩, new⟩] with
                result := some (.raised (.busError (.register a))) }) ∧
        (s.plays [Txn.ofRead s.cfg s.rxState ⟨a, w⟩ (some got),
            Txn.ofWrite s.cfg s.rxState (some []) ⟨⟨a, w⟩, new⟩] →
          exec (.regRmw a w.bits clr set) s
            = .next { s.begun.afterTxns [Txn.ofRead s.cfg s.rxState ⟨a, w⟩ (some got),
                  Txn.ofWrite s.cfg s.rxState (some []) ⟨⟨a, w⟩, new⟩] with
                result := some (.replaced old new) })))

/-- REG_RMW is refused where REG_READ of the same register is, for the same reason (R134: "checks of
REG_READ(a, w)"). -/
def Obligations.RegRmwTakesReadRefusals : Prop :=
  ∀ (s t : State) (a width : Byte) (clr set : Word) (why : Reason), s.free →
    exec (.regRead a width) s = .next t → t.result = some (.refused why) →
    exec (.regRmw a width clr set) s
      = .next { s.begun with refused := true, result := some (.refused why) }

/-- R136: the number of transactions of the register requests. -/
def Obligations.RegisterTransferCount : Prop :=
  ∀ (s t : State) (a width : Byte) (v clr set : Word), s.free →
    (exec (.regRead a width) s = .next t ∨ exec (.regWrite a width v) s = .next t →
      ((∃ why, t.result = some (.refused why)) ∧ t.gSpiTxns = s.gSpiTxns) ∨
      ((∀ why, t.result ≠ some (.refused why)) ∧ t.gSpiTxns = s.gSpiTxns + 1)) ∧
    (exec (.regRmw a width clr set) s = .next t →
      ((∃ why, t.result = some (.refused why)) ∧ t.gSpiTxns = s.gSpiTxns) ∨
      ((∀ why, t.result ≠ some (.refused why)) ∧
        ((∃ w : Width, width = w.bits ∧ s.answer 0 w.bytes ≠ none) → t.gSpiTxns = s.gSpiTxns + 2) ∧
        ((∃ w : Width, width = w.bits ∧ s.answer 0 w.bytes = none) → t.gSpiTxns = s.gSpiTxns + 1)))

/-- R133: with a chip whose registers are plain storage, a register reads back what was written, in either byte
order. -/
def Obligations.WriteThenReadRoundTrip : Prop :=
  ∀ (s t : State) (a : Byte) (w : Width) (v : Word),
    s.cfg.wellFormed = true → s.free → (w = .w16 → a.getLsbD 0 = false) →
    s.cfg.validReg.holds a w = true → (w = .w8 → v.extractLsb' 8 8 = 0) →
    exec (.regWrite a w.bits v) s = .next t → t.result = some .ok →
    t.answer 0 w.bytes = some (plainAnswer s.cfg t.bus a w) →
    ∃ u, exec (.regRead a w.bits) t = .next u ∧ u.result = some (.value v)

/-- R64, its little-endian half: with such a chip, an 8-bit read of either byte of a 16-bit register
returns that half of what was written. (With P_DATA_ENDIAN = big such a read is a free draw, log entry 30.) -/
def Obligations.MixedWidthView : Prop :=
  ∀ (s t : State) (a b : Byte) (v : Word),
    s.cfg.wellFormed = true → s.free → s.cfg.dataEndian = .little → a.getLsbD 0 = false →
    s.cfg.validReg.holds a .w16 = true → b = a ∨ b = a + 1 → s.cfg.validReg.holds b .w8 = true →
    exec (.regWrite a 16 v) s = .next t → t.result = some .ok →
    t.answer 0 1 = some (plainAnswer s.cfg t.bus b .w8) →
    ∃ u, exec (.regRead b 8) t = .next u ∧
      u.result = some (.value ((if b = a then v.extractLsb' 0 8 else v.extractLsb' 8 8).setWidth 16))

/-- R116: `setbits16 A, M` sets the bits of `M` and `clrbits16 A, M` clears them, keeping every other bit
of what was read. -/
def Obligations.PseudoRequestsSetAndClear : Prop :=
  ∀ (s t : State) (a : Byte) (mask : Word), s.free →
    (exec (setBits .w16 a mask) s = .next t → ∀ old new,
      t.result = some (.replaced old new) →
      ∀ i : Nat, new.getLsbD i = (old.getLsbD i || mask.getLsbD i)) ∧
    (exec (clrBits .w16 a mask) s = .next t → ∀ old new,
      t.result = some (.replaced old new) →
      ∀ i : Nat, new.getLsbD i = (old.getLsbD i && !mask.getLsbD i))

/-! ## FIFO Transfer Layer -/

/-- FIFO_READ in phase Configured (R150): its refusals; the P_RX_PRE writes, the burst of lead, data and
fill, the P_RX_POST writes, and the data it returns. -/
def Obligations.FifoReadOutcomes : Prop :=
  ∀ (s : State) (m : Word), s.free → s.phase = .configured →
    (m = 0 → exec (.fifoRead m) s
      = .next { s.begun with refused := true, result := some (.refused .emptyTransfer) }) ∧
    (m ≠ 0 → s.cfg.rxqSize < alignUp m.toNat s.cfg.rxAlign → exec (.fifoRead m) s
      = .next { s.begun with refused := true, result := some (.refused .transferTooLong) }) ∧
    (∀ (got : List Byte) (xs : List Txn), m ≠ 0 → alignUp m.toNat s.cfg.rxAlign ≤ s.cfg.rxqSize →
      got.length = s.cfg.rxLead + alignUp m.toNat s.cfg.rxAlign →
      xs = Txn.ofWrites s.cfg s.rxState s.cfg.rxPre
        ++ Txn.ofRxBurst s.cfg s.rxState m.toNat (some got)
          :: Txn.ofWrites s.cfg s.rxState s.cfg.rxPost →
      s.plays xs →
      exec (.fifoRead m) s = .next { s.begun.afterTxns xs with
        result := some (.bytes ((got.drop s.cfg.rxLead).take m.toNat)) })

/-- The failures of FIFO_READ (R150): a write before the burst (no burst is issued), the burst, a write
after it; each raises BusError with where it failed, after its transaction and no other. -/
def Obligations.FifoReadBusErrors : Prop :=
  ∀ (s : State) (m : Word) (got : List Byte) (before after : List RegWrite) (w : RegWrite),
    s.free → s.phase = .configured → m ≠ 0 → alignUp m.toNat s.cfg.rxAlign ≤ s.cfg.rxqSize →
    got.length = s.cfg.rxLead + alignUp m.toNat s.cfg.rxAlign →
    (∀ xs, s.cfg.rxPre = before ++ w :: after →
      xs = Txn.ofWrites s.cfg s.rxState before ++ [Txn.ofWrite s.cfg s.rxState none w] →
      s.plays xs → exec (.fifoRead m) s = .next { s.begun.afterTxns xs with
        result := some (.raised (.busError (.register w.reg.addr))) }) ∧
    (∀ xs, xs = Txn.ofWrites s.cfg s.rxState s.cfg.rxPre
        ++ [Txn.ofRxBurst s.cfg s.rxState m.toNat none] →
      s.plays xs → exec (.fifoRead m) s = .next { s.begun.afterTxns xs with
        result := some (.raised (.busError .fifo)) }) ∧
    (∀ xs, s.cfg.rxPost = before ++ w :: after →
      xs = Txn.ofWrites s.cfg s.rxState s.cfg.rxPre
        ++ Txn.ofRxBurst s.cfg s.rxState m.toNat (some got)
          :: (Txn.ofWrites s.cfg s.rxState before ++ [Txn.ofWrite s.cfg s.rxState none w]) →
      s.plays xs → exec (.fifoRead m) s = .next { s.begun.afterTxns xs with
        result := some (.raised (.busError (.register w.reg.addr))) })

/-- The writes before a TX burst whose total is `written`: P_TX_PRE, then, for a configuration that has it there
(92 D21, log entry 22), the write of the frame-length register, if there is one. -/
def openingWrites (cfg : Config) (written : Word) : List RegWrite :=
  cfg.txPre ++ (if cfg.framelenPlace = .beforeBurst then
    cfg.txFramelenReg.toList.map fun r => ⟨r, written⟩ else [])

/-- The writes after such a burst: for a configuration that has it there (R160, R161, log entry 22), the write of
the frame-length register, if there is one, then P_TX_POST. -/
def closingWrites (cfg : Config) (written : Word) : List RegWrite :=
  (if cfg.framelenPlace = .afterBurst then
    cfg.txFramelenReg.toList.map fun r => ⟨r, written⟩ else []) ++ cfg.txPost

/-- FIFO_WRITE in phase Configured (R160): its refusals; the P_TX_PRE writes, the padded burst, the frame-length
write, the P_TX_POST writes, and the total it tracks (a total that does not fit in 16 bits is a free value,
log entry 18). The frame-length write stands after the burst (R160) or just before it (92 D21), as the
configuration has it: both orders, log entry 22. -/
def Obligations.FifoWriteOutcomes : Prop :=
  ∀ (s : State) (d : List Byte), s.free → s.phase = .configured →
    (d = [] → exec (.fifoWrite d) s
      = .next { s.begun with refused := true, result := some (.refused .emptyTransfer) }) ∧
    (d ≠ [] → s.cfg.txqSize < alignUp d.length s.cfg.txAlign → exec (.fifoWrite d) s
      = .next { s.begun with refused := true, result := some (.refused .transferTooLong) }) ∧
    (d ≠ [] → alignUp d.length s.cfg.txAlign ≤ s.cfg.txqSize → ∃ written : Word,
      (alignUp d.length s.cfg.txAlign < 65536 →
        written.toNat = alignUp d.length s.cfg.txAlign) ∧
      ∀ xs, xs = Txn.ofWrites s.cfg s.rxState (openingWrites s.cfg written)
          ++ Txn.ofTxBurst s.cfg s.rxState d (some [])
            :: Txn.ofWrites s.cfg s.rxState (closingWrites s.cfg written) →
        s.plays xs →
        exec (.fifoWrite d) s
          = .next { s.begun.afterTxns xs with txWritten := written, result := some .ok })

/-- The failures of FIFO_WRITE (R160). A write before the burst: no burst is issued and the tracked total stays.
The burst: the total becomes 0. A write after it: the total is already the burst's. The frame-length write is
among the latter or the former, as the configuration has it (log entry 22). -/
def Obligations.FifoWriteBusErrors : Prop :=
  ∀ (s : State) (d : List Byte), s.free → s.phase = .configured → d ≠ [] →
    alignUp d.length s.cfg.txAlign ≤ s.cfg.txqSize → ∃ written : Word,
    (alignUp d.length s.cfg.txAlign < 65536 → written.toNat = alignUp d.length s.cfg.txAlign) ∧
    ∀ (before after : List RegWrite) (w : RegWrite) (opening xs : List Txn),
      opening = Txn.ofWrites s.cfg s.rxState (openingWrites s.cfg written) → s.plays xs →
      (openingWrites s.cfg written = before ++ w :: after →
        xs = Txn.ofWrites s.cfg s.rxState before ++ [Txn.ofWrite s.cfg s.rxState none w] →
        exec (.fifoWrite d) s = .next { s.begun.afterTxns xs with
          result := some (.raised (.busError (.register w.reg.addr))) }) ∧
      (xs = opening ++ [Txn.ofTxBurst s.cfg s.rxState d none] →
        exec (.fifoWrite d) s = .next { s.begun.afterTxns xs with
          txWritten := 0, result := some (.raised (.busError .fifo)) }) ∧
      (closingWrites s.cfg written = before ++ w :: after →
        xs = opening ++ Txn.ofTxBurst s.cfg s.rxState d (some [])
          :: (Txn.ofWrites s.cfg s.rxState before ++ [Txn.ofWrite s.cfg s.rxState none w]) →
        exec (.fifoWrite d) s = .next { s.begun.afterTxns xs with
          txWritten := written, result := some (.raised (.busError (.register w.reg.addr))) })

/-- R165: the transactions of a FIFO transfer that succeeds, exactly one of them a burst. -/
def Obligations.FifoTransferCount : Prop :=
  ∀ (s t : State), s.free →
    (∀ m data, exec (.fifoRead m) s = .next t → t.result = some (.bytes data) →
      t.gSpiTxns = s.gSpiTxns + (s.cfg.rxPre.length + 1 + s.cfg.rxPost.length) ∧
      t.gFifoBursts = s.gFifoBursts + 1) ∧
    (∀ d, exec (.fifoWrite d) s = .next t → t.result = some .ok →
      t.gSpiTxns = s.gSpiTxns + (s.cfg.txPre.length + 1
        + (if s.cfg.txFramelenReg = none then 0 else 1) + s.cfg.txPost.length) ∧
      t.gFifoBursts = s.gFifoBursts + 1)

/-! ## RX Path -/

/-- RX_HDR_PARSE (R180, R181): four bytes give the status word, the masked count and the verdict; any other
number is refused; no other field changes. -/
def Obligations.RxHdrParseOutcomes : Prop :=
  ∀ (s : State) (h : List Byte), s.free →
    (h.length ≠ 4 → exec (.rxHdrParse h) s
      = .next { s.begun with refused := true, result := some (.refused .badRequest) }) ∧
    (∀ (b0 b1 b2 b3 : Byte) (status count : Word), h = [b0, b1, b2, b3] →
      status = (if s.cfg.dataEndian = .little then b1 ++ b0 else b0 ++ b1) →
      count = (if s.cfg.dataEndian = .little then b3 ++ b2 else b2 ++ b3) &&& s.cfg.rxBcMask →
      exec (.rxHdrParse h) s = .next { s.begun with
        result := some (.header status count (classify s.cfg status count)) })

/-- `classify` (R182): when each verdict is given. -/
def Obligations.ClassifyVerdicts : Prop :=
  ∀ (cfg : Config) (status count : Word),
    (classify cfg status count = .desync ↔
      cfg.rxMaxFrame < count.toNat ∨ cfg.rxqSize < count.toNat) ∧
    (classify cfg status count = .reject .notValid ↔
      count.toNat ≤ cfg.rxMaxFrame ∧ count.toNat ≤ cfg.rxqSize ∧ status &&& cfg.rxValidBit = 0) ∧
    (classify cfg status count = .reject .statusError ↔
      count.toNat ≤ cfg.rxMaxFrame ∧ count.toNat ≤ cfg.rxqSize ∧ status &&& cfg.rxValidBit ≠ 0 ∧
      status &&& cfg.rxRejectMask ≠ 0) ∧
    (classify cfg status count = .reject .malformed ↔
      count.toNat ≤ cfg.rxMaxFrame ∧ count.toNat ≤ cfg.rxqSize ∧ status &&& cfg.rxValidBit ≠ 0 ∧
      status &&& cfg.rxRejectMask = 0 ∧ count.toNat ≤ cfg.rxTrailer) ∧
    (∀ p, classify cfg status count = .accept p ↔
      count.toNat ≤ cfg.rxMaxFrame ∧ count.toNat ≤ cfg.rxqSize ∧ status &&& cfg.rxValidBit ≠ 0 ∧
      status &&& cfg.rxRejectMask = 0 ∧ cfg.rxTrailer < count.toNat ∧
      p = count.toNat - cfg.rxTrailer)

/-- R204: RECEIVE with no frame pending returns no frame after one transaction, no burst. -/
def Obligations.ReceiveWithoutFrame : Prop :=
  ∀ (s : State) (got : List Byte), s.quiet = true → s.phase = .configured →
    s.answer 0 s.cfg.rxCountReg.width.bytes = some got → (∀ b ∈ got, b = 0) →
    exec .receive s = .next { s.begun.afterTxns [Txn.ofRead s.cfg .idle s.cfg.rxCountReg (some got)] with
      rxLeft := 0, rxDone := 0, result := some (.frames [] none) }

/-- RECEIVE of any number of frames (R195 to R203): with `min(fc, P_RX_MAX_PER_CALL)` frames of plausible
count answered, it issues the count read and each frame's transactions in order (one burst of the
declared count each), delivers the accepted frames, drops the rejected ones, and adds every declared
count to the consumed total. -/
def Obligations.ReceiveProcessesFrames : Prop :=
  ∀ (s : State) (got : List Byte) (fs : List SeenFrame), s.quiet = true → s.phase = .configured →
    got.length = s.cfg.rxCountReg.width.bytes → fs.length < 256 →
    min (readValue s.cfg.dataEndian s.cfg.rxCountReg.width got).toNat s.cfg.rxMaxPerCall
      = fs.length →
    (∀ f ∈ fs, f.plausible s.cfg) →
    s.plays (Txn.ofRead s.cfg .idle s.cfg.rxCountReg (some got) :: SeenFrame.allTxns s.cfg fs) →
    exec .receive s = .next
      { State.afterFrames fs
          { s.begun.afterTxns [Txn.ofRead s.cfg .idle s.cfg.rxCountReg (some got)] with
            rxLeft := BitVec.ofNat 8 fs.length, rxDone := 0 } with
        result := some (.frames (SeenFrame.descriptors s.cfg fs) none) }

/-- R190 in RECEIVE: after `fs` frames processed whole, a header with an implausible count ends the request
with FifoDesyncError; no burst and no release for that frame; phase Desync, RX state Idle, no frame left to
process (92 D46, log entry 20). -/
def Obligations.ReceiveDetectsDesync : Prop :=
  ∀ (s : State) (got : List Byte) (fs : List SeenFrame) (f : SeenFrame) (n : Nat),
    s.quiet = true → s.phase = .configured →
    got.length = s.cfg.rxCountReg.width.bytes → n < 256 → fs.length < n →
    min (readValue s.cfg.dataEndian s.cfg.rxCountReg.width got).toNat s.cfg.rxMaxPerCall = n →
    (∀ g ∈ fs, g.plausible s.cfg) → f.headerShaped s.cfg →
    s.cfg.rxMaxFrame < (f.declared s.cfg).toNat ∨ s.cfg.rxqSize < (f.declared s.cfg).toNat →
    s.plays (Txn.ofRead s.cfg .idle s.cfg.rxCountReg (some got)
      :: (SeenFrame.allTxns s.cfg fs ++ f.headerTxns s.cfg)) →
    exec .receive s = .next
      { State.afterTxns (f.headerTxns s.cfg) (State.afterFrames fs
          { s.begun.afterTxns [Txn.ofRead s.cfg .idle s.cfg.rxCountReg (some got)] with
            rxLeft := BitVec.ofNat 8 n, rxDone := 0 }) with
        phase := .desync, rxLeft := 0, rxStatus := f.statusWord s.cfg, rxCount := f.declared s.cfg,
        result := some (.frames (SeenFrame.descriptors s.cfg fs)
          (some (.fifoDesync (some (f.statusWord s.cfg, f.declared s.cfg))))) }

/-- R201. Whenever RECEIVE ends with a BusError its RX state is Idle, no frame is left to process, the phase is
what it was, the last transaction is the failed one, and the frames returned are those delivered. Where the
burst of a frame fails after `fs` frames processed whole, those are returned and the consumed total does not
count that frame. Where the release of a frame fails, the frame is delivered (or dropped) and consumed all
the same. -/
def Obligations.ReceiveCleansUpAfterBusError : Prop :=
  (∀ (s t : State) (out : List Descriptor) (site : Site), s.free →
    exec .receive s = .next t → t.result = some (.frames out (some (.busError site))) →
    t.rxState = .idle ∧ t.rxLeft = 0 ∧ t.phase = s.phase ∧
    t.rxDelivered = s.rxDelivered + BitVec.ofNat 32 out.length ∧
    ∃ x, t.bus.getLast? = some x ∧ x.received = none) ∧
  (∀ (s base : State) (got : List Byte) (fs : List SeenFrame) (f : SeenFrame) (n : Nat)
    (count : Txn) (xs : List Txn), s.quiet = true → s.phase = .configured →
    got.length = s.cfg.rxCountReg.width.bytes → n < 256 → fs.length < n →
    min (readValue s.cfg.dataEndian s.cfg.rxCountReg.width got).toNat s.cfg.rxMaxPerCall = n →
    (∀ g ∈ fs, g.plausible s.cfg) → f.plausible s.cfg →
    count = Txn.ofRead s.cfg .idle s.cfg.rxCountReg (some got) →
    s.plays (count :: (SeenFrame.allTxns s.cfg fs ++ xs)) →
    base = State.afterTxns xs (State.afterFrames fs
      { s.begun.afterTxns [count] with rxLeft := BitVec.ofNat 8 n, rxDone := 0 }) →
    (xs = f.headerTxns s.cfg ++ Txn.ofWrites s.cfg .payloadPending s.cfg.rxPre
        ++ [Txn.ofRxBurst s.cfg .payloadPending (s.cfg.rxFifoHdr + (f.declared s.cfg).toNat) none] →
      exec .receive s = .next { base with
        rxStatus := f.statusWord s.cfg, rxCount := f.declared s.cfg, rxLeft := 0,
        result := some (.frames (SeenFrame.descriptors s.cfg fs) (some (.busError .fifo))) }) ∧
    (∀ (before after : List RegWrite) (w : RegWrite) (rx : RxState),
      s.cfg.rxRelease = before ++ w :: after →
      rx = (if (f.accepted s.cfg).isSome then .delivered else .payloadPending) →
      xs = f.headerTxns s.cfg ++ f.burstTxns s.cfg
        ++ Txn.ofWrites s.cfg rx before ++ [Txn.ofWrite s.cfg rx none w] →
      exec .receive s = .next { base with
        rxStatus := f.statusWord s.cfg, rxCount := f.declared s.cfg, rxLeft := 0,
        stage := ((f.descriptor? s.cfg).map fun d => Memory.cellsFrom 0 d.payload).getD base.stage,
        rxDelivered := base.rxDelivered + (if (f.accepted s.cfg).isSome then 1 else 0),
        rxDropped := base.rxDropped + (if (f.accepted s.cfg).isSome then 0 else 1),
        gRxConsumed := base.gRxConsumed + (f.declared s.cfg).toNat,
        result := some (.frames (SeenFrame.descriptors s.cfg (fs ++ [f]))
          (some (.busError (.register w.reg.addr)))) }))

/-! ## TX Path -/

/-- TX_HDR_BUILD (R220, R102): its refusals, then the control word and the length, each in the byte order
P_DATA_ENDIAN; no other field changes. -/
def Obligations.TxHdrBuildOutcomes : Prop :=
  ∀ (s : State) (irq csum : Bool) (fid len : Word), s.free →
    ((irq = true ∧ s.cfg.txcwIrqBit = none) ∨ (csum = true ∧ s.cfg.txcwCsumBit = none) →
      exec (.txHdrBuild irq csum fid len) s
        = .next { s.begun with refused := true, result := some (.refused .unsupportedFlag) }) ∧
    (∀ (irqBit csumBit ctrl : Word),
      (if irq then s.cfg.txcwIrqBit = some irqBit else irqBit = 0) →
      (if csum then s.cfg.txcwCsumBit = some csumBit else csumBit = 0) →
      ctrl = irqBit ||| csumBit ||| (fid &&& s.cfg.txcwFidMask) →
      (s.cfg.txBcMask.toNat < len.toNat → exec (.txHdrBuild irq csum fid len) s
        = .next { s.begun with refused := true, result := some (.refused .valueTooWide) }) ∧
      (len.toNat ≤ s.cfg.txBcMask.toNat → exec (.txHdrBuild irq csum fid len) s
        = .next { s.begun with result := some (.bytes
            (if s.cfg.dataEndian = .little then
              [ctrl.extractLsb' 0 8, ctrl.extractLsb' 8 8, len.extractLsb' 0 8, len.extractLsb' 8 8]
            else
              [ctrl.extractLsb' 8 8, ctrl.extractLsb' 0 8, len.extractLsb' 8 8,
                len.extractLsb' 0 8])) }))

/-- TRANSMIT asks for no flag the configuration does not have (R225, first checks). -/
def flagsSupported (cfg : Config) (irq csum : Bool) : Prop :=
  (irq = true → cfg.txcwIrqBit ≠ none) ∧ (csum = true → cfg.txcwCsumBit ≠ none)

/-- TRANSMIT of an admitted frame (R225, R228 to R233). With space enough: the space read, the writes before the
burst, ONE burst of header, frame and padding, the writes after it, the enqueue write; the tracked total, the
next frame id (R231, 92 D18). The header is the one TX_HDR_BUILD gives (Obligations.TxHdrBuildOutcomes). And
each failure, after which no transaction is issued: the space read; a write before the burst, nothing else
changed; the burst, the tracked total then 0; a write after it, the enqueue among them, the total tracked and
the frame id advanced. The frame-length write is one of those after the burst (R160) or before it (92 D21), as
the configuration has it (log entry 22). -/
def Obligations.TransmitSendsFrame : Prop :=
  ∀ (s : State) (frame got : List Byte) (irq csum : Bool) (space : Word) (need : Nat)
    (written fid : Word) (before after : List RegWrite) (w : RegWrite) (data : List Byte)
    (opening xs : List Txn),
    s.cfg.wellFormed = true → s.free → s.phase = .configured → flagsSupported s.cfg irq csum →
    s.cfg.txMinFrame ≤ frame.length → frame.length ≤ s.cfg.txMaxFrame →
    got.length = s.cfg.txSpaceReg.width.bytes →
    space = readValue s.cfg.dataEndian s.cfg.txSpaceReg.width got &&& s.cfg.txSpaceMask →
    need = alignUp (s.cfg.txHdrLen + frame.length) s.cfg.txAlign → need ≤ space.toNat →
    written.toNat = need →
    fid = BitVec.ofNat 16 ((s.txFid.toNat + 1) % (s.cfg.txcwFidMask.toNat + 1)) →
    data = txHeader s.cfg irq csum s.txFid (BitVec.ofNat 16 frame.length) ++ frame →
    opening = Txn.ofRead s.cfg s.rxState s.cfg.txSpaceReg (some got)
      :: Txn.ofWrites s.cfg s.rxState (openingWrites s.cfg written) →
    s.plays xs →
    (xs = opening ++ Txn.ofTxBurst s.cfg s.rxState data (some [])
        :: Txn.ofWrites s.cfg s.rxState (closingWrites s.cfg written ++ [s.cfg.txEnqueue]) →
      exec (.transmit frame irq csum) s = .next { s.begun.afterTxns xs with
        txWritten := written, txFid := fid, result := some .ok }) ∧
    (xs = [Txn.ofRead s.cfg s.rxState s.cfg.txSpaceReg none] →
      exec (.transmit frame irq csum) s = .next { s.begun.afterTxns xs with
        result := some (.raised (.busError (.register s.cfg.txSpaceReg.addr))) }) ∧
    (openingWrites s.cfg written = before ++ w :: after →
      xs = Txn.ofRead s.cfg s.rxState s.cfg.txSpaceReg (some got)
        :: (Txn.ofWrites s.cfg s.rxState before ++ [Txn.ofWrite s.cfg s.rxState none w]) →
      exec (.transmit frame irq csum) s = .next { s.begun.afterTxns xs with
        result := some (.raised (.busError (.register w.reg.addr))) }) ∧
    (xs = opening ++ [Txn.ofTxBurst s.cfg s.rxState data none] →
      exec (.transmit frame irq csum) s = .next { s.begun.afterTxns xs with
        txWritten := 0, result := some (.raised (.busError .fifo)) }) ∧
    (closingWrites s.cfg written ++ [s.cfg.txEnqueue] = before ++ w :: after →
      xs = opening ++ Txn.ofTxBurst s.cfg s.rxState data (some [])
        :: (Txn.ofWrites s.cfg s.rxState before ++ [Txn.ofWrite s.cfg s.rxState none w]) →
      exec (.transmit frame irq csum) s = .next { s.begun.afterTxns xs with
        txWritten := written, txFid := fid,
        result := some (.raised (.busError (.register w.reg.addr))) })

/-- R226: a frame outside the length limits is turned away with no transaction and nothing changed. -/
def Obligations.TransmitLengthErrors : Prop :=
  ∀ (s : State) (frame : List Byte) (irq csum : Bool), s.cfg.wellFormed = true →
    s.free → s.phase = .configured → flagsSupported s.cfg irq csum →
    (frame.length < s.cfg.txMinFrame → exec (.transmit frame irq csum) s
      = .next { s.begun with result := some (.raised (.frameTooSmall frame.length)) }) ∧
    (s.cfg.txMaxFrame < frame.length → exec (.transmit frame irq csum) s
      = .next { s.begun with result := some (.raised (.frameTooLarge frame.length)) })

/-- R227: too little space raises TxBufferFull after exactly one transaction, no burst. -/
def Obligations.TransmitBufferFull : Prop :=
  ∀ (s : State) (frame got : List Byte) (irq csum : Bool) (space : Word) (need : Nat),
    s.free → s.phase = .configured → flagsSupported s.cfg irq csum →
    s.cfg.txMinFrame ≤ frame.length → frame.length ≤ s.cfg.txMaxFrame →
    s.answer 0 s.cfg.txSpaceReg.width.bytes = some got →
    space = readValue s.cfg.dataEndian s.cfg.txSpaceReg.width got &&& s.cfg.txSpaceMask →
    need = alignUp (s.cfg.txHdrLen + frame.length) s.cfg.txAlign → space.toNat < need →
    exec (.transmit frame irq csum) s = .next
      { s.begun.afterTxns [Txn.ofRead s.cfg s.rxState s.cfg.txSpaceReg (some got)] with
        result := some (.raised (.txBufferFull space.toNat need)) }

/-- A flag the configuration does not have is refused (R225, 92 D20). -/
def Obligations.TransmitUnsupportedFlag : Prop :=
  ∀ (s : State) (frame : List Byte) (irq csum : Bool), s.free → s.phase = .configured →
    ¬ flagsSupported s.cfg irq csum → exec (.transmit frame irq csum) s
      = .next { s.begun with refused := true, result := some (.refused .unsupportedFlag) }

/-- R231 with 92 D18: whatever TRANSMIT ends with, the frame id has advanced exactly if a burst of this
request completed on the bus. -/
def Obligations.FrameIdAdvancesWithBurst : Prop :=
  ∀ (s t : State) (frame : List Byte) (irq csum : Bool), s.free →
    exec (.transmit frame irq csum) s = .next t →
    ∃ xs, t.bus = s.bus ++ xs ∧
      (xs.any (fun x => x.burst && x.received.isSome) = true →
        t.txFid = BitVec.ofNat 16 ((s.txFid.toNat + 1) % (s.cfg.txcwFidMask.toNat + 1))) ∧
      (xs.any (fun x => x.burst && x.received.isSome) = false → t.txFid = s.txFid)

/-! ## Lifecycle -/

/-- RESET that sees the ready indication in time (R250, R252; R40 "after RESET ok"): the reset writes, the
polls, then every field at its value after RESET. -/
def Obligations.ResetSucceeds : Prop :=
  ∀ (s : State) (waits : List (List Byte)) (last : List Byte) (xs : List Txn), s.free →
    waits.length < s.cfg.resetPollMax →
    (∀ got ∈ waits ++ [last], got.length = s.cfg.readyReg.width.bytes) →
    (∀ got ∈ waits, readValue s.cfg.dataEndian s.cfg.readyReg.width got &&& s.cfg.readyMask
      ≠ s.cfg.readyValue) →
    readValue s.cfg.dataEndian s.cfg.readyReg.width last &&& s.cfg.readyMask = s.cfg.readyValue →
    xs = Txn.ofWrites s.cfg s.rxState s.cfg.resetWrites
      ++ (waits ++ [last]).map (fun got => Txn.ofRead s.cfg s.rxState s.cfg.readyReg (some got)) →
    s.plays xs →
    exec .reset s = .next { s.begun.afterTxns xs with
      pc := .ready, phase := .reset, rxState := .idle, spiBusy := false, burstOpen := false,
      rxStatus := 0, rxCount := 0, rxLeft := 0, rxDone := 0, txWritten := 0, txFid := 0,
      snap := 0, handled := 0, pollCount := 0, result := some .ok }

/-- R252: a chip that never shows ready costs exactly P_RESET_POLL_MAX ready reads, then RESET raises
ResetTimeout with the last value read; phase Unreset (R250, R303), from phase Desync too (log entry 32), the
reads counted. -/
def Obligations.ResetTimesOut : Prop :=
  ∀ (s : State) (waits : List (List Byte)) (last : List Byte) (xs : List Txn), s.free →
    waits.length + 1 = s.cfg.resetPollMax →
    (∀ got ∈ waits ++ [last], got.length = s.cfg.readyReg.width.bytes ∧
      readValue s.cfg.dataEndian s.cfg.readyReg.width got &&& s.cfg.readyMask
        ≠ s.cfg.readyValue) →
    xs = Txn.ofWrites s.cfg s.rxState s.cfg.resetWrites
      ++ (waits ++ [last]).map (fun got => Txn.ofRead s.cfg s.rxState s.cfg.readyReg (some got)) →
    s.plays xs →
    exec .reset s = .next { s.begun.afterTxns xs with
      phase := .unreset, pollCount := s.cfg.resetPollMax,
      result := some (.raised (.resetTimeout
        (readValue s.cfg.dataEndian s.cfg.readyReg.width last))) }

/-- R40, R33: a RESET that raises an error leaves phase Unreset, from phase Desync too (R250 and 90 C9 over D13 and
R302, log entry 32), and in the poll count the number of ready reads issued, that is, of its transactions after
the reset writes, one that failed among them (log entry 19); every field else, but for the transactions'
bookkeeping, at its value from before. -/
def Obligations.ResetFailureLeavesUnreset : Prop :=
  ∀ (s t : State) (e : Error), s.free → exec .reset s = .next t →
    t.result = some (.raised e) →
    ∃ xs reads : List Txn,
      xs.drop s.cfg.resetWrites.length = reads ∧ reads.length ≤ s.cfg.resetPollMax ∧
      (∀ x ∈ reads, ∃ got, x = Txn.ofRead s.cfg s.rxState s.cfg.readyReg got) ∧
      t = { s.begun.afterTxns xs with
        phase := .unreset, pollCount := reads.length, result := some (.raised e) }

/-- R253: "RESET is the only operation that leaves phase `Desync`". -/
def Obligations.OnlyResetLeavesDesync : Prop :=
  ∀ (i : Instr) (s t : State), s.phase = .desync → exec i s = .next t → t.phase ≠ .desync →
    i = .reset

/-- How the phase moves (R22, R190, R250, R256): only RESET enters Reset or Unreset, only CONFIGURE enters
Configured, only RECEIVE and SERVICE_INTERRUPTS enter Desync. That a RESET which fails in phase Desync may leave
it for Unreset is log entry 32. -/
def Obligations.PhaseTransitions : Prop :=
  ∀ (i : Instr) (s t : State), exec i s = .next t → t.phase ≠ s.phase →
    (i = .reset ∧ (t.phase = .reset ∨ t.phase = .unreset)) ∨
    (i.op = .configure ∧ s.phase = .reset ∧ t.phase = .configured) ∨
    ((i = .receive ∨ i = .serviceInterrupts) ∧ s.phase = .configured ∧ t.phase = .desync)

/-- CONFIGURE in phase Reset (R256, R257): a MAC or filter of the wrong length is refused; otherwise the
writes in their order, MAC byte 0 the upper byte of the first register, then phase Configured. -/
def Obligations.ConfigureOutcomes : Prop :=
  ∀ (s : State) (mac : List Byte) (filter : List Word) (imask : Word), s.free → s.phase = .reset →
    (mac.length ≠ 6 ∨ filter.length ≠ s.cfg.filterRegs.length →
      exec (.configure mac filter imask) s
        = .next { s.begun with refused := true, result := some (.refused .badRequest) }) ∧
    (∀ (m0 m1 m2 m3 m4 m5 : Byte) (xs : List Txn), mac = [m0, m1, m2, m3, m4, m5] →
      filter.length = s.cfg.filterRegs.length →
      xs = Txn.ofWrites s.cfg s.rxState
        ([⟨s.cfg.macReg01, m0 ++ m1⟩, ⟨s.cfg.macReg23, m2 ++ m3⟩, ⟨s.cfg.macReg45, m4 ++ m5⟩]
          ++ (s.cfg.filterRegs.zip filter).map (fun rv => ⟨rv.1, rv.2⟩)
          ++ [⟨s.cfg.ierReg, imask⟩] ++ s.cfg.threshWrites ++ s.cfg.configTail) →
      s.plays xs →
      exec (.configure mac filter imask) s
        = .next { s.begun.afterTxns xs with phase := .configured, result := some .ok })

/-- A CONFIGURE that fails stays in phase Reset and changes nothing else of the ENGINE (R256). -/
def Obligations.ConfigureFailureKeepsReset : Prop :=
  ∀ (s t : State) (mac : List Byte) (filter : List Word) (imask : Word) (e : Error), s.free →
    s.phase = .reset → exec (.configure mac filter imask) s = .next t →
    t.result = some (.raised e) →
    ∃ xs, t = { s.begun.afterTxns xs with result := some (.raised e) } ∧
      ∃ x, xs.getLast? = some x ∧ x.received = none

/-- LINK_STATUS (R262): one read; Down, or the speed and duplex; BusError. -/
def Obligations.LinkStatusOutcomes : Prop :=
  ∀ (s : State), s.free →
    (s.answer 0 s.cfg.linkReg.width.bytes = none → exec .linkStatus s
      = .next { s.begun.afterTxns [Txn.ofRead s.cfg s.rxState s.cfg.linkReg none] with
          result := some (.raised (.busError (.register s.cfg.linkReg.addr))) }) ∧
    (∀ (got : List Byte) (v : Word), s.answer 0 s.cfg.linkReg.width.bytes = some got →
      v = readValue s.cfg.dataEndian s.cfg.linkReg.width got →
      exec .linkStatus s
        = .next { s.begun.afterTxns [Txn.ofRead s.cfg s.rxState s.cfg.linkReg (some got)] with
            result := some (.link (if v &&& s.cfg.linkUpBit = 0 then .down
              else .up (if v &&& s.cfg.link100Bit ≠ 0 then .mb100 else .mb10)
                (if v &&& s.cfg.linkFdxBit ≠ 0 then .full else .half))) })

/-! ## Interrupt/status handshake -/

/-- The bits of a snapshot that are handled without the RX path (R270, R273). -/
def bookkeepingBits (cfg : Config) (v : Word) : Word :=
  (if v &&& cfg.isrLink ≠ 0 then cfg.isrLink else 0)
    ||| (if v &&& cfg.isrTx ≠ 0 then cfg.isrTx else 0)
    ||| (if v &&& cfg.isrRxovr ≠ 0 then cfg.isrRxovr else 0)

/-- The acknowledge write of R274: exactly the handled bits, only where there are any, only under w1c. -/
def ackTxns (cfg : Config) (rx : RxState) (handled : Word) : List Txn :=
  if handled ≠ 0 ∧ cfg.isrClear = .w1c then
    [Txn.ofWrite cfg rx (some []) ⟨cfg.isrReg, handled⟩] else []

/-- The snapshot and the bookkeeping of a SERVICE_INTERRUPTS that read `v` (R270 to R273). -/
def bookkept (v : Word) (s : State) : State :=
  { s with
    snap := v
    handled := bookkeepingBits s.cfg v
    linkEvents := s.linkEvents + (if v &&& s.cfg.isrLink ≠ 0 then 1 else 0)
    txDoneEvents := s.txDoneEvents + (if v &&& s.cfg.isrTx ≠ 0 then 1 else 0)
    rxovrEvents := s.rxovrEvents + (if v &&& s.cfg.isrRxovr ≠ 0 then 1 else 0) }

/-- SERVICE_INTERRUPTS with the RX bit clear (R270, R272, R274): one status read, the bookkeeping, and the
acknowledge of exactly the handled bits; with none set, no write at all. A status read that fails raises
BusError with nothing done; an acknowledge that fails raises BusError with the bookkeeping done (log entry
21). -/
def Obligations.ServiceWithoutRx : Prop :=
  ∀ (s : State) (got : List Byte) (v handled : Word) (read : Txn), s.free → s.phase = .configured →
    got.length = s.cfg.isrReg.width.bytes → v = readValue s.cfg.dataEndian s.cfg.isrReg.width got →
    handled = bookkeepingBits s.cfg v →
    read = Txn.ofRead s.cfg s.rxState s.cfg.isrReg (some got) →
    (s.plays [Txn.ofRead s.cfg s.rxState s.cfg.isrReg none] →
      exec .serviceInterrupts s = .next
        { s.begun.afterTxns [Txn.ofRead s.cfg s.rxState s.cfg.isrReg none] with
          result := some (.raised (.busError (.register s.cfg.isrReg.addr))) }) ∧
    (∀ xs, v &&& s.cfg.isrRx = 0 → xs = read :: ackTxns s.cfg s.rxState handled → s.plays xs →
      exec .serviceInterrupts s = .next { bookkept v (s.begun.afterTxns xs) with
        result := some (.service v handled [] none) }) ∧
    (∀ xs, v &&& s.cfg.isrRx = 0 → handled ≠ 0 → s.cfg.isrClear = .w1c →
      xs = [read, Txn.ofWrite s.cfg s.rxState none ⟨s.cfg.isrReg, handled⟩] → s.plays xs →
      exec .serviceInterrupts s = .next { bookkept v (s.begun.afterTxns xs) with
        result := some (.raised (.busError (.register s.cfg.isrReg.addr))) })

/-- SERVICE_INTERRUPTS with the RX bit set (R270, R273, R274): after the bookkeeping the RX path runs, its
frames are returned, and the acknowledge carries the RX bit too. An acknowledge that fails raises BusError:
the frames are delivered and not returned (log entry 21). -/
def Obligations.ServiceWithRx : Prop :=
  ∀ (s done : State) (got fc : List Byte) (fs : List SeenFrame) (v handled : Word) (xs : List Txn),
    s.quiet = true → s.phase = .configured →
    got.length = s.cfg.isrReg.width.bytes → v = readValue s.cfg.dataEndian s.cfg.isrReg.width got →
    v &&& s.cfg.isrRx ≠ 0 → handled = bookkeepingBits s.cfg v ||| s.cfg.isrRx →
    fc.length = s.cfg.rxCountReg.width.bytes → fs.length < 256 →
    min (readValue s.cfg.dataEndian s.cfg.rxCountReg.width fc).toNat s.cfg.rxMaxPerCall
      = fs.length →
    (∀ f ∈ fs, f.plausible s.cfg) →
    xs = [Txn.ofRead s.cfg .idle s.cfg.isrReg (some got),
      Txn.ofRead s.cfg .idle s.cfg.rxCountReg (some fc)] →
    done = { State.afterFrames fs
      { bookkept v (s.begun.afterTxns xs) with
        rxLeft := BitVec.ofNat 8 fs.length, rxDone := 0 } with handled := handled } →
    (s.plays (xs ++ SeenFrame.allTxns s.cfg fs ++ ackTxns s.cfg .idle handled) →
      exec .serviceInterrupts s = .next { done.afterTxns (ackTxns s.cfg .idle handled) with
        result := some (.service v handled (SeenFrame.descriptors s.cfg fs) none) }) ∧
    (∀ ack, ack = Txn.ofWrite s.cfg .idle none ⟨s.cfg.isrReg, handled⟩ → handled ≠ 0 →
      s.cfg.isrClear = .w1c → s.plays (xs ++ SeenFrame.allTxns s.cfg fs ++ [ack]) →
      exec .serviceInterrupts s = .next { done.afterTxns [ack] with
        result := some (.raised (.busError (.register s.cfg.isrReg.addr))) })

/-- R275, for every error of the RX dispatch. After the status read and the bookkeeping the RX path runs as
RECEIVE does from there (R270, "RECEIVE body"); where it ends with an error, SERVICE_INTERRUPTS ends in that
state with that error, the frames delivered and the bits handled before: no acknowledge is written. What the
RX path leaves is said of RECEIVE (R190, R201 and log entry 20: Obligations.ReceiveDetectsDesync,
Obligations.ReceiveCleansUpAfterBusError); the last clause says it of the frame-count read. -/
def Obligations.ServiceRxFailureKeepsBits : Prop :=
  ∀ (s : State) (got : List Byte) (v : Word) (read : Txn), s.quiet = true →
    s.phase = .configured →
    got.length = s.cfg.isrReg.width.bytes → v = readValue s.cfg.dataEndian s.cfg.isrReg.width got →
    v &&& s.cfg.isrRx ≠ 0 → read = Txn.ofRead s.cfg .idle s.cfg.isrReg (some got) →
    (∀ (u : State) (out : List Descriptor) (e : Error), s.plays [read] →
      exec .receive { bookkept v (s.afterTxns [read]) with rivals := [] } = .next u →
      u.result = some (.frames out (some e)) →
      exec .serviceInterrupts s = .next { u with
        rivals := s.begun.rivals, fault := s.begun.fault,
        result := some (.service v (bookkeepingBits s.cfg v) out (some e)) }) ∧
    (∀ xs, xs = [read, Txn.ofRead s.cfg .idle s.cfg.rxCountReg none] → s.plays xs →
      exec .serviceInterrupts s = .next { bookkept v (s.begun.afterTxns xs) with
        rxLeft := 0,
        result := some (.service v (bookkeepingBits s.cfg v) []
          (some (.busError (.register s.cfg.rxCountReg.addr)))) })

/-- R274, R316: a SERVICE_INTERRUPTS that ends without error has handled exactly the four bits' part of the
snapshot; where that is nothing, the status read is its only transaction; otherwise, under w1c, its last
transaction is the acknowledge of exactly those bits. -/
def Obligations.ServiceAcknowledgesHandled : Prop :=
  ∀ (s t : State) (snap handled : Word) (out : List Descriptor), s.cfg.wellFormed = true → s.free →
    exec .serviceInterrupts s = .next t →
    t.result = some (.service snap handled out none) →
    handled = snap &&& (s.cfg.isrLink ||| s.cfg.isrTx ||| s.cfg.isrRxovr ||| s.cfg.isrRx) ∧
    t.snap = snap ∧ t.handled = handled ∧
    (handled ≠ 0 → s.cfg.isrClear = .w1c →
      ∃ rx, t.bus.getLast? = some (Txn.ofWrite s.cfg rx (some []) ⟨s.cfg.isrReg, handled⟩)) ∧
    (handled = 0 → t.bus.length = s.bus.length + 1)

/-! ## Wire frames -/

/-- SPI_REG_READ (R94): one transaction that drives the command word, its most significant byte first, and
one dummy byte for each lane; its data decoded; BusError. A reserved mask is refused (R92, R103), and so is
an address for which P_VALID_REG does not hold (R46, R358). The frames as instructions of their own, with
these checks, are the model's reading of the table, log entry 5. -/
def Obligations.SpiRegReadOutcomes : Prop :=
  ∀ (s : State) (be : BitVec 4) (window : BitVec 6) (low : BitVec 4), s.free →
    (be ∉ [0b0001#4, 0b0010#4, 0b0100#4, 0b1000#4, 0b0011#4, 0b1100#4] →
      exec (.spiRegRead be window low) s
        = .next { s.begun with refused := true, result := some (.refused .reservedFrame) }) ∧
    (∀ (w : Width) (a : Byte) (driven : List Byte), enabledWidth be = some w →
      a = frameAddress window be →
      driven = [(s.cfg.opRd ++ be ++ window.extractLsb' 4 2 : BitVec 8),
        (window.extractLsb' 0 4 ++ low : BitVec 8)] ++ List.replicate w.bytes s.cfg.dummyTx →
      (s.cfg.validReg.holds a w = false → exec (.spiRegRead be window low) s
        = .next { s.begun with refused := true, result := some (.refused .invalidRegister) }) ∧
      (s.cfg.validReg.holds a w = true → s.answer 0 w.bytes = none →
        exec (.spiRegRead be window low) s
          = .next { s.begun.afterTxns [⟨driven, none, s.rxState, false⟩] with
              result := some (.raised (.busError (.register a))) }) ∧
      (∀ got, s.cfg.validReg.holds a w = true → s.answer 0 w.bytes = some got →
        exec (.spiRegRead be window low) s
          = .next { s.begun.afterTxns [⟨driven, some got, s.rxState, false⟩] with
              result := some (.value (readValue s.cfg.dataEndian w got)) }))

/-- SPI_REG_WRITE (R94): one transaction that drives the command word and the data; BusError. A reserved mask
or data of another length is refused (R92, R95, R103), and so is an address for which P_VALID_REG does not
hold (R46, R358). The model's reading, log entry 5. -/
def Obligations.SpiRegWriteOutcomes : Prop :=
  ∀ (s : State) (be : BitVec 4) (window : BitVec 6) (low : BitVec 4) (data : List Byte), s.free →
    (enabledWidth be = none → exec (.spiRegWrite be window low data) s
      = .next { s.begun with refused := true, result := some (.refused .reservedFrame) }) ∧
    (∀ (w : Width) (a : Byte) (driven : List Byte), enabledWidth be = some w →
      a = frameAddress window be →
      driven = [(s.cfg.opWr ++ be ++ window.extractLsb' 4 2 : BitVec 8),
        (window.extractLsb' 0 4 ++ low : BitVec 8)] ++ data →
      (data.length ≠ w.bytes → exec (.spiRegWrite be window low data) s
        = .next { s.begun with refused := true, result := some (.refused .reservedFrame) }) ∧
      (data.length = w.bytes → s.cfg.validReg.holds a w = false →
        exec (.spiRegWrite be window low data) s
          = .next { s.begun with refused := true, result := some (.refused .invalidRegister) }) ∧
      (data.length = w.bytes → s.cfg.validReg.holds a w = true → s.answer 0 0 = none →
        exec (.spiRegWrite be window low data) s
          = .next { s.begun.afterTxns [⟨driven, none, s.rxState, false⟩] with
              result := some (.raised (.busError (.register a))) }) ∧
      (data.length = w.bytes → s.cfg.validReg.holds a w = true → s.answer 0 0 = some [] →
        exec (.spiRegWrite be window low data) s
          = .next { s.begun.afterTxns [⟨driven, some [], s.rxState, false⟩] with
              result := some .ok }))

/-- SPI_RXQ_READ and SPI_TXQ_WRITE (R96 to R98): one FIFO burst each, its command byte the opcode in bits
7:6 and 0 below, of the length given, whatever it is (log entry 5); the lead bytes of an RX burst are
discarded; BusError with `FIFO`. -/
def Obligations.SpiBurstOutcomes : Prop :=
  ∀ (s : State), s.free →
    (∀ (n : Nat) (driven : List Byte),
      driven = (s.cfg.opRxq ++ 0b000000#6 : BitVec 8) :: List.replicate n s.cfg.dummyTx →
      (s.answer 0 n = none → exec (.spiRxqRead n) s
        = .next { s.begun.afterTxns [⟨driven, none, s.rxState, true⟩] with
            result := some (.raised (.busError .fifo)) }) ∧
      (∀ got, s.answer 0 n = some got → exec (.spiRxqRead n) s
        = .next { s.begun.afterTxns [⟨driven, some got, s.rxState, true⟩] with
            result := some (.bytes (got.drop s.cfg.rxLead)) })) ∧
    (∀ (data driven : List Byte),
      driven = (s.cfg.opTxq ++ 0b000000#6 : BitVec 8) :: data →
      (s.answer 0 0 = none → exec (.spiTxqWrite data) s
        = .next { s.begun.afterTxns [⟨driven, none, s.rxState, true⟩] with
            result := some (.raised (.busError .fifo)) }) ∧
      (s.answer 0 0 = some [] → exec (.spiTxqWrite data) s
        = .next { s.begun.afterTxns [⟨driven, some [], s.rxState, true⟩] with
            result := some .ok }))

/-! ## Invariants that every step keeps -/

/-- R21, R23 to R25: between two requests nothing is in progress and the RX state is Idle. -/
def Obligations.StepKeepsQuiet : Prop :=
  ∀ s t : State, s.quiet = true → step s = .next t → t.quiet = true

/-- R92: "the ENGINE never emits" a frame with a reserved byte-enable mask; nor any other frame that the wire
decode classifies as reserved (R96, R103). -/
def Obligations.StepNeverEmitsReserved : Prop :=
  ∀ s t : State, s.busClean = true → step s = .next t → t.busClean = true

/-- R28, R9 (D42): the staging buffer keeps its canonical form and every payload fits its P_RX_BUF bytes. -/
def Obligations.StepKeepsStageInside : Prop :=
  ∀ s t : State, s.stageOk = true → step s = .next t → t.stageOk = true

/-- The three invariants hold at power-on. -/
def Obligations.PowerOnMeetsInvariants : Prop :=
  State.reset.quiet = true ∧ State.reset.busClean = true ∧ State.reset.stageOk = true ∧
  State.reset.cfg.wellFormed = true ∧ State.reset.final = true
end

