-- ==== Sys2Proof/Laws/Memory.lean ====
section
/-!
SUPPORT. The staging buffer: every memory operation keeps the canonical form, and a read after a write gives
what was written (R28, R195).
-/

namespace Sys2Proof.Machine

theorem Memory.risingFrom_cellsFrom (low : Nat) (bytes : List Byte) :
    Memory.risingFrom low (Memory.cellsFrom low bytes) = true := by
  induction bytes generalizing low with
  | nil => rfl
  | cons b bytes ih => simp [Memory.cellsFrom, Memory.risingFrom, ih]

/-- The one operation that writes keeps the canonical form. -/
theorem Memory.wf_store (m : Memory) (payload : List Byte) : (m.store payload).wf = true :=
  Memory.risingFrom_cellsFrom 0 payload

theorem Memory.within_cellsFrom (low size : Nat) (bytes : List Byte) (h : low + bytes.length ≤ size) :
    (Memory.cellsFrom low bytes).within size = true := by
  induction bytes generalizing low with
  | nil => rfl
  | cons b bytes ih =>
    simp only [List.length_cons] at h
    have := ih (low + 1) (by omega)
    simp only [Memory.cellsFrom, Memory.within, List.all_cons, Bool.and_eq_true, decide_eq_true_eq]
      at this ⊢
    exact ⟨by omega, this⟩

/-- A payload that fits stays inside the buffer (R28). -/
theorem Memory.within_store (m : Memory) (size : Nat) (payload : List Byte)
    (h : payload.length ≤ size) : (m.store payload).within size = true :=
  Memory.within_cellsFrom 0 size payload (by omega)

/-- A cell below an address does not matter to a read there. -/
theorem Memory.read_cons_of_lt {a low : Nat} (b : Byte) (m : Memory) (h : a < low) :
    Memory.read ((a, b) :: m) low = Memory.read m low := by
  simp [Memory.read, show low ≠ a by omega]

theorem Memory.readRange_cons_of_lt {a low : Nat} (b : Byte) (m : Memory) (n : Nat) (h : a < low) :
    Memory.readRange ((a, b) :: m) low n = Memory.readRange m low n := by
  induction n generalizing low with
  | zero => rfl
  | succ n ih =>
    simp only [Memory.readRange]
    rw [Memory.read_cons_of_lt b m h, ih (by omega)]

theorem Memory.readRange_nil (low n : Nat) : Memory.readRange [] low n = [] := by
  induction n generalizing low with
  | zero => rfl
  | succ n ih => simp [Memory.readRange, Memory.read, Memory.unlisted, ih]

/-- Read after write. -/
theorem Memory.readRange_cellsFrom (low n : Nat) (bytes : List Byte) :
    Memory.readRange (Memory.cellsFrom low bytes) low n = bytes.take n := by
  induction n generalizing low bytes with
  | zero => simp [Memory.readRange]
  | succ n ih =>
    cases bytes with
    | nil => simp [Memory.cellsFrom, Memory.readRange_nil]
    | cons b bytes =>
      simp only [Memory.cellsFrom, Memory.readRange, Memory.read, if_true, Option.toList_some,
        List.take_succ_cons, List.singleton_append, List.cons.injEq, true_and]
      rw [Memory.readRange_cons_of_lt b _ n (by omega), ih]

/-- The descriptor's payload is what was stored (R195). -/
theorem Memory.readRange_store (m : Memory) (n : Nat) (payload : List Byte) :
    (m.store payload).readRange 0 n = payload.take n := Memory.readRange_cellsFrom 0 n payload

end Sys2Proof.Machine
end

