-- ==== Sys2Proof/Laws/Lanes.lean ====
section
/-!
SUPPORT. The bit fields of the encodings, said once each: what the fields of a command word, of the FIFO
command byte and of a 16-bit field in bytes read back as.
-/

namespace Sys2Proof

@[simp] theorem wordOf_highByte_lowByte (v : Word) : wordOf (highByte v) (lowByte v) = v := by
  simp only [wordOf, highByte, lowByte]
  ext i hi
  simp
  grind

@[simp] theorem highByte_wordOf (hi lo : Byte) : highByte (wordOf hi lo) = hi := by
  simp only [wordOf, highByte]
  ext i hi
  simp
  grind

@[simp] theorem lowByte_wordOf (hi lo : Byte) : lowByte (wordOf hi lo) = lo := by
  simp only [wordOf, lowByte]
  ext i hi
  simp
  grind

/-- The opcode of a command word stands in the top two bits of its first byte (R90, R103). -/
theorem commandWord_opcode (op : BitVec 2) (be : BitVec 4) (window : BitVec 6) (low : BitVec 4) :
    (highByte (commandWord op be window low)).extractLsb' 6 2 = op := by
  simp only [highByte, commandWord]
  ext i hi
  simp
  grind

theorem commandWord_op (op : BitVec 2) (be : BitVec 4) (window : BitVec 6) (low : BitVec 4) :
    (commandWord op be window low).extractLsb' 14 2 = op := by
  simp only [commandWord]
  ext i hi
  simp
  grind

theorem commandWord_be (op : BitVec 2) (be : BitVec 4) (window : BitVec 6) (low : BitVec 4) :
    (commandWord op be window low).extractLsb' 10 4 = be := by
  simp only [commandWord]
  ext i hi
  simp
  grind

theorem commandWord_window (op : BitVec 2) (be : BitVec 4) (window : BitVec 6)
    (low : BitVec 4) : (commandWord op be window low).extractLsb' 4 6 = window := by
  simp only [commandWord]
  ext i hi
  simp
  grind

theorem commandWord_low (op : BitVec 2) (be : BitVec 4) (window : BitVec 6) (low : BitVec 4) :
    (commandWord op be window low).extractLsb' 0 4 = low := by
  simp only [commandWord]
  ext i hi
  simp only [BitVec.getElem_extractLsb', Nat.zero_add, BitVec.getLsbD_append, hi,
    BitVec.getLsbD_eq_getElem]
  simp

/-- The byte-enable bits of a command word stand in bits 5:2 of its first byte. -/
theorem wordOf_be (b0 b1 : Byte) : (wordOf b0 b1).extractLsb' 10 4 = b0.extractLsb' 2 4 := by
  simp only [wordOf]
  ext i hi
  simp
  grind

theorem fifoCommand_op (op : BitVec 2) : (fifoCommand op).extractLsb' 6 2 = op := by
  revert op
  decide

theorem fifoCommand_low (op : BitVec 2) : (fifoCommand op).extractLsb' 0 6 = 0 := by
  revert op
  decide

/-- A legal mask enables as many lanes as its width has bytes (R69, R92). -/
theorem enabledLanes_of_width {be : BitVec 4} {w : Width} (h : enabledWidth be = some w) :
    enabledLanes be = w.bytes := by
  cases w <;> revert be <;> decide

/-- Byte-enable assembly gives a legal mask, from which R103 reads the address back. -/
theorem byteEnable_spec (a : Byte) (w : Width) (h : aligned a w = true) :
    enabledWidth (byteEnable a w) = some w ∧
      frameAddress (windowOf a) (byteEnable a w) = a := by
  cases w <;> revert a <;> decide

/-- A list of 16-bit fields reads back (R110). -/
theorem wordsOf?_flatMap_le16 (ws : List Word) : wordsOf? (ws.flatMap le16) = some ws := by
  induction ws with
  | nil => rfl
  | cons w ws ih =>
    simp only [List.flatMap_cons, le16, List.cons_append, List.nil_append, wordsOf?] at ih ⊢
    simp [ih]

/-! ## The fields of each request (R110), once each -/

theorem fieldsOf?_regRead (a w : Byte) : fieldsOf? .regRead [a, w] = some (.regRead a w) := rfl

theorem fieldsOf?_regWrite (a w v0 v1 : Byte) :
    fieldsOf? .regWrite [a, w, v0, v1] = some (.regWrite a w (wordOf v1 v0)) := rfl

theorem fieldsOf?_regRmw (a w c0 c1 s0 s1 : Byte) :
    fieldsOf? .regRmw [a, w, c0, c1, s0, s1]
      = some (.regRmw a w (wordOf c1 c0) (wordOf s1 s0)) := rfl

theorem fieldsOf?_fifoRead (m0 m1 : Byte) :
    fieldsOf? .fifoRead [m0, m1] = some (.fifoRead (wordOf m1 m0)) := rfl

theorem fieldsOf?_txHdrBuild (irq csum : Bool) (f0 f1 l0 l1 : Byte) :
    fieldsOf? .txHdrBuild [flagByte irq, flagByte csum, f0, f1, l0, l1]
      = some (.txHdrBuild irq csum (wordOf f1 f0) (wordOf l1 l0)) := by
  cases irq <;> cases csum <;> rfl

theorem fieldsOf?_transmit (irq csum : Bool) (frame : List Byte) :
    fieldsOf? .transmit (flagByte irq :: flagByte csum :: frame)
      = some (.transmit frame irq csum) := by
  cases irq <;> cases csum <;> rfl

theorem fieldsOf?_configure (m0 m1 m2 m3 m4 m5 i0 i1 : Byte) (filter : List Word) :
    fieldsOf? .configure (m0 :: m1 :: m2 :: m3 :: m4 :: m5 :: i0 :: i1 :: filter.flatMap le16)
      = some (.configure [m0, m1, m2, m3, m4, m5] filter (wordOf i1 i0)) := by
  change Option.map (Instr.configure [m0, m1, m2, m3, m4, m5] · (wordOf i1 i0))
    (wordsOf? (filter.flatMap le16)) = _
  rw [wordsOf?_flatMap_le16, Option.map_some]

/-- A request is looked up by its tag, then by its fields (R110, R111). -/
theorem decodeRequest_of_tag {tag : Byte} {op : Op} {i : Instr} {fields : List Byte}
    (ht : requestTags.lookup tag = some op) (hf : fieldsOf? op fields = some i) :
    decodeRequest (tag :: fields) = .ok i := by
  simp [decodeRequest, ht, hf]

theorem flagOf?_flagByte (b : Bool) : flagOf? (flagByte b) = some b := by cases b <;> rfl

@[simp] theorem dataBytes_length (e : Endian) (w : Width) (v : Word) :
    (dataBytes e w v).length = w.bytes := by
  cases w <;> cases e <;> rfl

/-- The opcodes of a well-formed configuration are pairwise different (R9). -/
theorem Config.opcodes_ne {cfg : Config} (h : cfg.wellFormed = true) :
    cfg.opWr ≠ cfg.opRd ∧ cfg.opRxq ≠ cfg.opRd ∧ cfg.opTxq ≠ cfg.opRd ∧ cfg.opRxq ≠ cfg.opWr ∧
      cfg.opTxq ≠ cfg.opWr ∧ cfg.opTxq ≠ cfg.opRxq := by
  have hop : [cfg.opRd, cfg.opWr, cfg.opRxq, cfg.opTxq].Nodup := by
    simp only [Config.wellFormed, Bool.and_eq_true, decide_eq_true_eq] at h
    tauto
  simp only [List.nodup_cons, List.mem_cons, List.not_mem_nil, or_false, not_or] at hop
  obtain ⟨⟨h1, h2, h3⟩, ⟨h4, h5⟩, h6, -⟩ := hop
  exact ⟨Ne.symm h1, Ne.symm h2, Ne.symm h3, Ne.symm h4, Ne.symm h5, Ne.symm h6⟩

end Sys2Proof
end

