-- ==== Sys2Proof/Laws/State.lean ====
section
/-!
SUPPORT. One lemma for each field and each named update of the state, so that no proof unfolds a
record update.
-/

namespace Sys2Proof.Machine

/-! ### enter -/

@[simp] theorem State.enter_cfg (op : Op) (s : State) : (s.enter op).cfg = s.cfg := rfl
@[simp] theorem State.enter_pc (op : Op) (s : State) : (s.enter op).pc = .within op 0 := rfl
@[simp] theorem State.enter_phase (op : Op) (s : State) : (s.enter op).phase = s.phase := rfl
@[simp] theorem State.enter_rxState (op : Op) (s : State) : (s.enter op).rxState = s.rxState := rfl
@[simp] theorem State.enter_spiBusy (op : Op) (s : State) : (s.enter op).spiBusy = s.spiBusy := rfl
@[simp] theorem State.enter_burstOpen (op : Op) (s : State) : (s.enter op).burstOpen = s.burstOpen := rfl
@[simp] theorem State.enter_rxStatus (op : Op) (s : State) : (s.enter op).rxStatus = s.rxStatus := rfl
@[simp] theorem State.enter_rxCount (op : Op) (s : State) : (s.enter op).rxCount = s.rxCount := rfl
@[simp] theorem State.enter_rxLeft (op : Op) (s : State) : (s.enter op).rxLeft = s.rxLeft := rfl
@[simp] theorem State.enter_rxDone (op : Op) (s : State) : (s.enter op).rxDone = s.rxDone := rfl
@[simp] theorem State.enter_stage (op : Op) (s : State) : (s.enter op).stage = s.stage := rfl
@[simp] theorem State.enter_txWritten (op : Op) (s : State) : (s.enter op).txWritten = s.txWritten := rfl
@[simp] theorem State.enter_txFid (op : Op) (s : State) : (s.enter op).txFid = s.txFid := rfl
@[simp] theorem State.enter_snap (op : Op) (s : State) : (s.enter op).snap = s.snap := rfl
@[simp] theorem State.enter_handled (op : Op) (s : State) : (s.enter op).handled = s.handled := rfl
@[simp] theorem State.enter_txDoneEvents (op : Op) (s : State) : (s.enter op).txDoneEvents = s.txDoneEvents := rfl
@[simp] theorem State.enter_rxovrEvents (op : Op) (s : State) : (s.enter op).rxovrEvents = s.rxovrEvents := rfl
@[simp] theorem State.enter_linkEvents (op : Op) (s : State) : (s.enter op).linkEvents = s.linkEvents := rfl
@[simp] theorem State.enter_rxDelivered (op : Op) (s : State) : (s.enter op).rxDelivered = s.rxDelivered := rfl
@[simp] theorem State.enter_rxDropped (op : Op) (s : State) : (s.enter op).rxDropped = s.rxDropped := rfl
@[simp] theorem State.enter_pollCount (op : Op) (s : State) : (s.enter op).pollCount = s.pollCount := rfl
@[simp] theorem State.enter_refused (op : Op) (s : State) : (s.enter op).refused = s.refused := rfl
@[simp] theorem State.enter_fault (op : Op) (s : State) : (s.enter op).fault = s.fault := rfl
@[simp] theorem State.enter_gRxConsumed (op : Op) (s : State) : (s.enter op).gRxConsumed = s.gRxConsumed := rfl
@[simp] theorem State.enter_gFifoBursts (op : Op) (s : State) : (s.enter op).gFifoBursts = s.gFifoBursts := rfl
@[simp] theorem State.enter_gSpiTxns (op : Op) (s : State) : (s.enter op).gSpiTxns = s.gSpiTxns := rfl
@[simp] theorem State.enter_inbox (op : Op) (s : State) : (s.enter op).inbox = s.inbox := rfl
@[simp] theorem State.enter_rivals (op : Op) (s : State) : (s.enter op).rivals = s.rivals := rfl
@[simp] theorem State.enter_script (op : Op) (s : State) : (s.enter op).script = s.script := rfl
@[simp] theorem State.enter_bus (op : Op) (s : State) : (s.enter op).bus = s.bus := rfl
@[simp] theorem State.enter_result (op : Op) (s : State) : (s.enter op).result = s.result := rfl

/-! ### advance -/

@[simp] theorem State.advance_cfg (s : State) : s.advance.cfg = s.cfg := rfl
@[simp] theorem State.advance_pc (s : State) : s.advance.pc = s.pc.next := rfl
@[simp] theorem State.advance_phase (s : State) : s.advance.phase = s.phase := rfl
@[simp] theorem State.advance_rxState (s : State) : s.advance.rxState = s.rxState := rfl
@[simp] theorem State.advance_spiBusy (s : State) : s.advance.spiBusy = s.spiBusy := rfl
@[simp] theorem State.advance_burstOpen (s : State) : s.advance.burstOpen = s.burstOpen := rfl
@[simp] theorem State.advance_rxStatus (s : State) : s.advance.rxStatus = s.rxStatus := rfl
@[simp] theorem State.advance_rxCount (s : State) : s.advance.rxCount = s.rxCount := rfl
@[simp] theorem State.advance_rxLeft (s : State) : s.advance.rxLeft = s.rxLeft := rfl
@[simp] theorem State.advance_rxDone (s : State) : s.advance.rxDone = s.rxDone := rfl
@[simp] theorem State.advance_stage (s : State) : s.advance.stage = s.stage := rfl
@[simp] theorem State.advance_txWritten (s : State) : s.advance.txWritten = s.txWritten := rfl
@[simp] theorem State.advance_txFid (s : State) : s.advance.txFid = s.txFid := rfl
@[simp] theorem State.advance_snap (s : State) : s.advance.snap = s.snap := rfl
@[simp] theorem State.advance_handled (s : State) : s.advance.handled = s.handled := rfl
@[simp] theorem State.advance_txDoneEvents (s : State) : s.advance.txDoneEvents = s.txDoneEvents := rfl
@[simp] theorem State.advance_rxovrEvents (s : State) : s.advance.rxovrEvents = s.rxovrEvents := rfl
@[simp] theorem State.advance_linkEvents (s : State) : s.advance.linkEvents = s.linkEvents := rfl
@[simp] theorem State.advance_rxDelivered (s : State) : s.advance.rxDelivered = s.rxDelivered := rfl
@[simp] theorem State.advance_rxDropped (s : State) : s.advance.rxDropped = s.rxDropped := rfl
@[simp] theorem State.advance_pollCount (s : State) : s.advance.pollCount = s.pollCount := rfl
@[simp] theorem State.advance_refused (s : State) : s.advance.refused = s.refused := rfl
@[simp] theorem State.advance_fault (s : State) : s.advance.fault = s.fault := rfl
@[simp] theorem State.advance_gRxConsumed (s : State) : s.advance.gRxConsumed = s.gRxConsumed := rfl
@[simp] theorem State.advance_gFifoBursts (s : State) : s.advance.gFifoBursts = s.gFifoBursts := rfl
@[simp] theorem State.advance_gSpiTxns (s : State) : s.advance.gSpiTxns = s.gSpiTxns := rfl
@[simp] theorem State.advance_inbox (s : State) : s.advance.inbox = s.inbox := rfl
@[simp] theorem State.advance_rivals (s : State) : s.advance.rivals = s.rivals := rfl
@[simp] theorem State.advance_script (s : State) : s.advance.script = s.script := rfl
@[simp] theorem State.advance_bus (s : State) : s.advance.bus = s.bus := rfl
@[simp] theorem State.advance_result (s : State) : s.advance.result = s.result := rfl

/-! ### pass -/

@[simp] theorem State.pass_cfg (n : Nat) (s : State) : (s.pass n).cfg = s.cfg := rfl
@[simp] theorem State.pass_pc (n : Nat) (s : State) : (s.pass n).pc = s.pc.skip n := rfl
@[simp] theorem State.pass_phase (n : Nat) (s : State) : (s.pass n).phase = s.phase := rfl
@[simp] theorem State.pass_rxState (n : Nat) (s : State) : (s.pass n).rxState = s.rxState := rfl
@[simp] theorem State.pass_spiBusy (n : Nat) (s : State) : (s.pass n).spiBusy = s.spiBusy := rfl
@[simp] theorem State.pass_burstOpen (n : Nat) (s : State) : (s.pass n).burstOpen = s.burstOpen := rfl
@[simp] theorem State.pass_rxStatus (n : Nat) (s : State) : (s.pass n).rxStatus = s.rxStatus := rfl
@[simp] theorem State.pass_rxCount (n : Nat) (s : State) : (s.pass n).rxCount = s.rxCount := rfl
@[simp] theorem State.pass_rxLeft (n : Nat) (s : State) : (s.pass n).rxLeft = s.rxLeft := rfl
@[simp] theorem State.pass_rxDone (n : Nat) (s : State) : (s.pass n).rxDone = s.rxDone := rfl
@[simp] theorem State.pass_stage (n : Nat) (s : State) : (s.pass n).stage = s.stage := rfl
@[simp] theorem State.pass_txWritten (n : Nat) (s : State) : (s.pass n).txWritten = s.txWritten := rfl
@[simp] theorem State.pass_txFid (n : Nat) (s : State) : (s.pass n).txFid = s.txFid := rfl
@[simp] theorem State.pass_snap (n : Nat) (s : State) : (s.pass n).snap = s.snap := rfl
@[simp] theorem State.pass_handled (n : Nat) (s : State) : (s.pass n).handled = s.handled := rfl
@[simp] theorem State.pass_txDoneEvents (n : Nat) (s : State) : (s.pass n).txDoneEvents = s.txDoneEvents := rfl
@[simp] theorem State.pass_rxovrEvents (n : Nat) (s : State) : (s.pass n).rxovrEvents = s.rxovrEvents := rfl
@[simp] theorem State.pass_linkEvents (n : Nat) (s : State) : (s.pass n).linkEvents = s.linkEvents := rfl
@[simp] theorem State.pass_rxDelivered (n : Nat) (s : State) : (s.pass n).rxDelivered = s.rxDelivered := rfl
@[simp] theorem State.pass_rxDropped (n : Nat) (s : State) : (s.pass n).rxDropped = s.rxDropped := rfl
@[simp] theorem State.pass_pollCount (n : Nat) (s : State) : (s.pass n).pollCount = s.pollCount := rfl
@[simp] theorem State.pass_refused (n : Nat) (s : State) : (s.pass n).refused = s.refused := rfl
@[simp] theorem State.pass_fault (n : Nat) (s : State) : (s.pass n).fault = s.fault := rfl
@[simp] theorem State.pass_gRxConsumed (n : Nat) (s : State) : (s.pass n).gRxConsumed = s.gRxConsumed := rfl
@[simp] theorem State.pass_gFifoBursts (n : Nat) (s : State) : (s.pass n).gFifoBursts = s.gFifoBursts := rfl
@[simp] theorem State.pass_gSpiTxns (n : Nat) (s : State) : (s.pass n).gSpiTxns = s.gSpiTxns := rfl
@[simp] theorem State.pass_inbox (n : Nat) (s : State) : (s.pass n).inbox = s.inbox := rfl
@[simp] theorem State.pass_rivals (n : Nat) (s : State) : (s.pass n).rivals = s.rivals := rfl
@[simp] theorem State.pass_script (n : Nat) (s : State) : (s.pass n).script = s.script := rfl
@[simp] theorem State.pass_bus (n : Nat) (s : State) : (s.pass n).bus = s.bus := rfl
@[simp] theorem State.pass_result (n : Nat) (s : State) : (s.pass n).result = s.result := rfl

/-! ### begun -/

@[simp] theorem State.begun_cfg (s : State) : s.begun.cfg = s.cfg := rfl
@[simp] theorem State.begun_pc (s : State) : s.begun.pc = s.pc := rfl
@[simp] theorem State.begun_phase (s : State) : s.begun.phase = s.phase := rfl
@[simp] theorem State.begun_rxState (s : State) : s.begun.rxState = s.rxState := rfl
@[simp] theorem State.begun_spiBusy (s : State) : s.begun.spiBusy = s.spiBusy := rfl
@[simp] theorem State.begun_burstOpen (s : State) : s.begun.burstOpen = s.burstOpen := rfl
@[simp] theorem State.begun_rxStatus (s : State) : s.begun.rxStatus = s.rxStatus := rfl
@[simp] theorem State.begun_rxCount (s : State) : s.begun.rxCount = s.rxCount := rfl
@[simp] theorem State.begun_rxLeft (s : State) : s.begun.rxLeft = s.rxLeft := rfl
@[simp] theorem State.begun_rxDone (s : State) : s.begun.rxDone = s.rxDone := rfl
@[simp] theorem State.begun_stage (s : State) : s.begun.stage = s.stage := rfl
@[simp] theorem State.begun_txWritten (s : State) : s.begun.txWritten = s.txWritten := rfl
@[simp] theorem State.begun_txFid (s : State) : s.begun.txFid = s.txFid := rfl
@[simp] theorem State.begun_snap (s : State) : s.begun.snap = s.snap := rfl
@[simp] theorem State.begun_handled (s : State) : s.begun.handled = s.handled := rfl
@[simp] theorem State.begun_txDoneEvents (s : State) : s.begun.txDoneEvents = s.txDoneEvents := rfl
@[simp] theorem State.begun_rxovrEvents (s : State) : s.begun.rxovrEvents = s.rxovrEvents := rfl
@[simp] theorem State.begun_linkEvents (s : State) : s.begun.linkEvents = s.linkEvents := rfl
@[simp] theorem State.begun_rxDelivered (s : State) : s.begun.rxDelivered = s.rxDelivered := rfl
@[simp] theorem State.begun_rxDropped (s : State) : s.begun.rxDropped = s.rxDropped := rfl
@[simp] theorem State.begun_pollCount (s : State) : s.begun.pollCount = s.pollCount := rfl
@[simp] theorem State.begun_refused (s : State) : s.begun.refused = s.refused := rfl
@[simp] theorem State.begun_fault (s : State) : s.begun.fault = if s.rivals.headD false then some .concurrentAccess else s.fault := rfl
@[simp] theorem State.begun_gRxConsumed (s : State) : s.begun.gRxConsumed = s.gRxConsumed := rfl
@[simp] theorem State.begun_gFifoBursts (s : State) : s.begun.gFifoBursts = s.gFifoBursts := rfl
@[simp] theorem State.begun_gSpiTxns (s : State) : s.begun.gSpiTxns = s.gSpiTxns := rfl
@[simp] theorem State.begun_inbox (s : State) : s.begun.inbox = s.inbox := rfl
@[simp] theorem State.begun_rivals (s : State) : s.begun.rivals = s.rivals.drop 1 := rfl
@[simp] theorem State.begun_script (s : State) : s.begun.script = s.script := rfl
@[simp] theorem State.begun_bus (s : State) : s.begun.bus = s.bus := rfl
@[simp] theorem State.begun_result (s : State) : s.begun.result = s.result := rfl

/-! ### leave -/

@[simp] theorem State.leave_cfg (r : Result) (s : State) : (s.leave r).cfg = s.cfg := rfl
@[simp] theorem State.leave_pc (r : Result) (s : State) : (s.leave r).pc = .ready := rfl
@[simp] theorem State.leave_phase (r : Result) (s : State) : (s.leave r).phase = s.phase := rfl
@[simp] theorem State.leave_rxState (r : Result) (s : State) : (s.leave r).rxState = s.rxState := rfl
@[simp] theorem State.leave_spiBusy (r : Result) (s : State) : (s.leave r).spiBusy = s.spiBusy := rfl
@[simp] theorem State.leave_burstOpen (r : Result) (s : State) : (s.leave r).burstOpen = s.burstOpen := rfl
@[simp] theorem State.leave_rxStatus (r : Result) (s : State) : (s.leave r).rxStatus = s.rxStatus := rfl
@[simp] theorem State.leave_rxCount (r : Result) (s : State) : (s.leave r).rxCount = s.rxCount := rfl
@[simp] theorem State.leave_rxLeft (r : Result) (s : State) : (s.leave r).rxLeft = s.rxLeft := rfl
@[simp] theorem State.leave_rxDone (r : Result) (s : State) : (s.leave r).rxDone = s.rxDone := rfl
@[simp] theorem State.leave_stage (r : Result) (s : State) : (s.leave r).stage = s.stage := rfl
@[simp] theorem State.leave_txWritten (r : Result) (s : State) : (s.leave r).txWritten = s.txWritten := rfl
@[simp] theorem State.leave_txFid (r : Result) (s : State) : (s.leave r).txFid = s.txFid := rfl
@[simp] theorem State.leave_snap (r : Result) (s : State) : (s.leave r).snap = s.snap := rfl
@[simp] theorem State.leave_handled (r : Result) (s : State) : (s.leave r).handled = s.handled := rfl
@[simp] theorem State.leave_txDoneEvents (r : Result) (s : State) : (s.leave r).txDoneEvents = s.txDoneEvents := rfl
@[simp] theorem State.leave_rxovrEvents (r : Result) (s : State) : (s.leave r).rxovrEvents = s.rxovrEvents := rfl
@[simp] theorem State.leave_linkEvents (r : Result) (s : State) : (s.leave r).linkEvents = s.linkEvents := rfl
@[simp] theorem State.leave_rxDelivered (r : Result) (s : State) : (s.leave r).rxDelivered = s.rxDelivered := rfl
@[simp] theorem State.leave_rxDropped (r : Result) (s : State) : (s.leave r).rxDropped = s.rxDropped := rfl
@[simp] theorem State.leave_pollCount (r : Result) (s : State) : (s.leave r).pollCount = s.pollCount := rfl
@[simp] theorem State.leave_refused (r : Result) (s : State) : (s.leave r).refused = s.refused := rfl
@[simp] theorem State.leave_fault (r : Result) (s : State) : (s.leave r).fault = s.fault := rfl
@[simp] theorem State.leave_gRxConsumed (r : Result) (s : State) : (s.leave r).gRxConsumed = s.gRxConsumed := rfl
@[simp] theorem State.leave_gFifoBursts (r : Result) (s : State) : (s.leave r).gFifoBursts = s.gFifoBursts := rfl
@[simp] theorem State.leave_gSpiTxns (r : Result) (s : State) : (s.leave r).gSpiTxns = s.gSpiTxns := rfl
@[simp] theorem State.leave_inbox (r : Result) (s : State) : (s.leave r).inbox = s.inbox := rfl
@[simp] theorem State.leave_rivals (r : Result) (s : State) : (s.leave r).rivals = s.rivals := rfl
@[simp] theorem State.leave_script (r : Result) (s : State) : (s.leave r).script = s.script := rfl
@[simp] theorem State.leave_bus (r : Result) (s : State) : (s.leave r).bus = s.bus := rfl
@[simp] theorem State.leave_result (r : Result) (s : State) : (s.leave r).result = some r := rfl

/-! ### raise -/

@[simp] theorem State.raise_cfg (e : Error) (s : State) : (s.raise e).cfg = s.cfg := rfl
@[simp] theorem State.raise_pc (e : Error) (s : State) : (s.raise e).pc = .ready := rfl
@[simp] theorem State.raise_phase (e : Error) (s : State) : (s.raise e).phase = s.phase := rfl
@[simp] theorem State.raise_rxState (e : Error) (s : State) : (s.raise e).rxState = s.rxState := rfl
@[simp] theorem State.raise_spiBusy (e : Error) (s : State) : (s.raise e).spiBusy = s.spiBusy := rfl
@[simp] theorem State.raise_burstOpen (e : Error) (s : State) : (s.raise e).burstOpen = s.burstOpen := rfl
@[simp] theorem State.raise_rxStatus (e : Error) (s : State) : (s.raise e).rxStatus = s.rxStatus := rfl
@[simp] theorem State.raise_rxCount (e : Error) (s : State) : (s.raise e).rxCount = s.rxCount := rfl
@[simp] theorem State.raise_rxLeft (e : Error) (s : State) : (s.raise e).rxLeft = s.rxLeft := rfl
@[simp] theorem State.raise_rxDone (e : Error) (s : State) : (s.raise e).rxDone = s.rxDone := rfl
@[simp] theorem State.raise_stage (e : Error) (s : State) : (s.raise e).stage = s.stage := rfl
@[simp] theorem State.raise_txWritten (e : Error) (s : State) : (s.raise e).txWritten = s.txWritten := rfl
@[simp] theorem State.raise_txFid (e : Error) (s : State) : (s.raise e).txFid = s.txFid := rfl
@[simp] theorem State.raise_snap (e : Error) (s : State) : (s.raise e).snap = s.snap := rfl
@[simp] theorem State.raise_handled (e : Error) (s : State) : (s.raise e).handled = s.handled := rfl
@[simp] theorem State.raise_txDoneEvents (e : Error) (s : State) : (s.raise e).txDoneEvents = s.txDoneEvents := rfl
@[simp] theorem State.raise_rxovrEvents (e : Error) (s : State) : (s.raise e).rxovrEvents = s.rxovrEvents := rfl
@[simp] theorem State.raise_linkEvents (e : Error) (s : State) : (s.raise e).linkEvents = s.linkEvents := rfl
@[simp] theorem State.raise_rxDelivered (e : Error) (s : State) : (s.raise e).rxDelivered = s.rxDelivered := rfl
@[simp] theorem State.raise_rxDropped (e : Error) (s : State) : (s.raise e).rxDropped = s.rxDropped := rfl
@[simp] theorem State.raise_pollCount (e : Error) (s : State) : (s.raise e).pollCount = s.pollCount := rfl
@[simp] theorem State.raise_refused (e : Error) (s : State) : (s.raise e).refused = s.refused := rfl
@[simp] theorem State.raise_fault (e : Error) (s : State) : (s.raise e).fault = s.fault := rfl
@[simp] theorem State.raise_gRxConsumed (e : Error) (s : State) : (s.raise e).gRxConsumed = s.gRxConsumed := rfl
@[simp] theorem State.raise_gFifoBursts (e : Error) (s : State) : (s.raise e).gFifoBursts = s.gFifoBursts := rfl
@[simp] theorem State.raise_gSpiTxns (e : Error) (s : State) : (s.raise e).gSpiTxns = s.gSpiTxns := rfl
@[simp] theorem State.raise_inbox (e : Error) (s : State) : (s.raise e).inbox = s.inbox := rfl
@[simp] theorem State.raise_rivals (e : Error) (s : State) : (s.raise e).rivals = s.rivals := rfl
@[simp] theorem State.raise_script (e : Error) (s : State) : (s.raise e).script = s.script := rfl
@[simp] theorem State.raise_bus (e : Error) (s : State) : (s.raise e).bus = s.bus := rfl
@[simp] theorem State.raise_result (e : Error) (s : State) : (s.raise e).result = some (.raised e) := rfl

/-! ### refuse -/

@[simp] theorem State.refuse_cfg (why : Reason) (s : State) : (s.refuse why).cfg = s.cfg := rfl
@[simp] theorem State.refuse_pc (why : Reason) (s : State) : (s.refuse why).pc = .ready := rfl
@[simp] theorem State.refuse_phase (why : Reason) (s : State) : (s.refuse why).phase = s.phase := rfl
@[simp] theorem State.refuse_rxState (why : Reason) (s : State) : (s.refuse why).rxState = s.rxState := rfl
@[simp] theorem State.refuse_spiBusy (why : Reason) (s : State) : (s.refuse why).spiBusy = s.spiBusy := rfl
@[simp] theorem State.refuse_burstOpen (why : Reason) (s : State) : (s.refuse why).burstOpen = s.burstOpen := rfl
@[simp] theorem State.refuse_rxStatus (why : Reason) (s : State) : (s.refuse why).rxStatus = s.rxStatus := rfl
@[simp] theorem State.refuse_rxCount (why : Reason) (s : State) : (s.refuse why).rxCount = s.rxCount := rfl
@[simp] theorem State.refuse_rxLeft (why : Reason) (s : State) : (s.refuse why).rxLeft = s.rxLeft := rfl
@[simp] theorem State.refuse_rxDone (why : Reason) (s : State) : (s.refuse why).rxDone = s.rxDone := rfl
@[simp] theorem State.refuse_stage (why : Reason) (s : State) : (s.refuse why).stage = s.stage := rfl
@[simp] theorem State.refuse_txWritten (why : Reason) (s : State) : (s.refuse why).txWritten = s.txWritten := rfl
@[simp] theorem State.refuse_txFid (why : Reason) (s : State) : (s.refuse why).txFid = s.txFid := rfl
@[simp] theorem State.refuse_snap (why : Reason) (s : State) : (s.refuse why).snap = s.snap := rfl
@[simp] theorem State.refuse_handled (why : Reason) (s : State) : (s.refuse why).handled = s.handled := rfl
@[simp] theorem State.refuse_txDoneEvents (why : Reason) (s : State) : (s.refuse why).txDoneEvents = s.txDoneEvents := rfl
@[simp] theorem State.refuse_rxovrEvents (why : Reason) (s : State) : (s.refuse why).rxovrEvents = s.rxovrEvents := rfl
@[simp] theorem State.refuse_linkEvents (why : Reason) (s : State) : (s.refuse why).linkEvents = s.linkEvents := rfl
@[simp] theorem State.refuse_rxDelivered (why : Reason) (s : State) : (s.refuse why).rxDelivered = s.rxDelivered := rfl
@[simp] theorem State.refuse_rxDropped (why : Reason) (s : State) : (s.refuse why).rxDropped = s.rxDropped := rfl
@[simp] theorem State.refuse_pollCount (why : Reason) (s : State) : (s.refuse why).pollCount = s.pollCount := rfl
@[simp] theorem State.refuse_refused (why : Reason) (s : State) : (s.refuse why).refused = true := rfl
@[simp] theorem State.refuse_fault (why : Reason) (s : State) : (s.refuse why).fault = s.fault := rfl
@[simp] theorem State.refuse_gRxConsumed (why : Reason) (s : State) : (s.refuse why).gRxConsumed = s.gRxConsumed := rfl
@[simp] theorem State.refuse_gFifoBursts (why : Reason) (s : State) : (s.refuse why).gFifoBursts = s.gFifoBursts := rfl
@[simp] theorem State.refuse_gSpiTxns (why : Reason) (s : State) : (s.refuse why).gSpiTxns = s.gSpiTxns := rfl
@[simp] theorem State.refuse_inbox (why : Reason) (s : State) : (s.refuse why).inbox = s.inbox := rfl
@[simp] theorem State.refuse_rivals (why : Reason) (s : State) : (s.refuse why).rivals = s.rivals := rfl
@[simp] theorem State.refuse_script (why : Reason) (s : State) : (s.refuse why).script = s.script := rfl
@[simp] theorem State.refuse_bus (why : Reason) (s : State) : (s.refuse why).bus = s.bus := rfl
@[simp] theorem State.refuse_result (why : Reason) (s : State) : (s.refuse why).result = some (.refused why) := rfl

/-! ### concurrentAccess -/

@[simp] theorem State.concurrentAccess_cfg (s : State) : s.concurrentAccess.cfg = s.cfg := rfl
@[simp] theorem State.concurrentAccess_pc (s : State) : s.concurrentAccess.pc = s.pc := rfl
@[simp] theorem State.concurrentAccess_phase (s : State) : s.concurrentAccess.phase = s.phase := rfl
@[simp] theorem State.concurrentAccess_rxState (s : State) : s.concurrentAccess.rxState = s.rxState := rfl
@[simp] theorem State.concurrentAccess_spiBusy (s : State) : s.concurrentAccess.spiBusy = s.spiBusy := rfl
@[simp] theorem State.concurrentAccess_burstOpen (s : State) : s.concurrentAccess.burstOpen = s.burstOpen := rfl
@[simp] theorem State.concurrentAccess_rxStatus (s : State) : s.concurrentAccess.rxStatus = s.rxStatus := rfl
@[simp] theorem State.concurrentAccess_rxCount (s : State) : s.concurrentAccess.rxCount = s.rxCount := rfl
@[simp] theorem State.concurrentAccess_rxLeft (s : State) : s.concurrentAccess.rxLeft = s.rxLeft := rfl
@[simp] theorem State.concurrentAccess_rxDone (s : State) : s.concurrentAccess.rxDone = s.rxDone := rfl
@[simp] theorem State.concurrentAccess_stage (s : State) : s.concurrentAccess.stage = s.stage := rfl
@[simp] theorem State.concurrentAccess_txWritten (s : State) : s.concurrentAccess.txWritten = s.txWritten := rfl
@[simp] theorem State.concurrentAccess_txFid (s : State) : s.concurrentAccess.txFid = s.txFid := rfl
@[simp] theorem State.concurrentAccess_snap (s : State) : s.concurrentAccess.snap = s.snap := rfl
@[simp] theorem State.concurrentAccess_handled (s : State) : s.concurrentAccess.handled = s.handled := rfl
@[simp] theorem State.concurrentAccess_txDoneEvents (s : State) : s.concurrentAccess.txDoneEvents = s.txDoneEvents := rfl
@[simp] theorem State.concurrentAccess_rxovrEvents (s : State) : s.concurrentAccess.rxovrEvents = s.rxovrEvents := rfl
@[simp] theorem State.concurrentAccess_linkEvents (s : State) : s.concurrentAccess.linkEvents = s.linkEvents := rfl
@[simp] theorem State.concurrentAccess_rxDelivered (s : State) : s.concurrentAccess.rxDelivered = s.rxDelivered := rfl
@[simp] theorem State.concurrentAccess_rxDropped (s : State) : s.concurrentAccess.rxDropped = s.rxDropped := rfl
@[simp] theorem State.concurrentAccess_pollCount (s : State) : s.concurrentAccess.pollCount = s.pollCount := rfl
@[simp] theorem State.concurrentAccess_refused (s : State) : s.concurrentAccess.refused = s.refused := rfl
@[simp] theorem State.concurrentAccess_fault (s : State) : s.concurrentAccess.fault = some .concurrentAccess := rfl
@[simp] theorem State.concurrentAccess_gRxConsumed (s : State) : s.concurrentAccess.gRxConsumed = s.gRxConsumed := rfl
@[simp] theorem State.concurrentAccess_gFifoBursts (s : State) : s.concurrentAccess.gFifoBursts = s.gFifoBursts := rfl
@[simp] theorem State.concurrentAccess_gSpiTxns (s : State) : s.concurrentAccess.gSpiTxns = s.gSpiTxns := rfl
@[simp] theorem State.concurrentAccess_inbox (s : State) : s.concurrentAccess.inbox = s.inbox := rfl
@[simp] theorem State.concurrentAccess_rivals (s : State) : s.concurrentAccess.rivals = s.rivals := rfl
@[simp] theorem State.concurrentAccess_script (s : State) : s.concurrentAccess.script = s.script := rfl
@[simp] theorem State.concurrentAccess_bus (s : State) : s.concurrentAccess.bus = s.bus := rfl
@[simp] theorem State.concurrentAccess_result (s : State) : s.concurrentAccess.result = s.result := rfl

/-! ### afterTxns -/

@[simp] theorem State.afterTxns_cfg (xs : List Txn) (s : State) : (s.afterTxns xs).cfg = s.cfg := rfl
@[simp] theorem State.afterTxns_pc (xs : List Txn) (s : State) : (s.afterTxns xs).pc = s.pc.skip (2 * xs.length) := rfl
@[simp] theorem State.afterTxns_phase (xs : List Txn) (s : State) : (s.afterTxns xs).phase = s.phase := rfl
@[simp] theorem State.afterTxns_rxState (xs : List Txn) (s : State) : (s.afterTxns xs).rxState = s.rxState := rfl
@[simp] theorem State.afterTxns_spiBusy (xs : List Txn) (s : State) : (s.afterTxns xs).spiBusy = s.spiBusy := rfl
@[simp] theorem State.afterTxns_burstOpen (xs : List Txn) (s : State) : (s.afterTxns xs).burstOpen = s.burstOpen := rfl
@[simp] theorem State.afterTxns_rxStatus (xs : List Txn) (s : State) : (s.afterTxns xs).rxStatus = s.rxStatus := rfl
@[simp] theorem State.afterTxns_rxCount (xs : List Txn) (s : State) : (s.afterTxns xs).rxCount = s.rxCount := rfl
@[simp] theorem State.afterTxns_rxLeft (xs : List Txn) (s : State) : (s.afterTxns xs).rxLeft = s.rxLeft := rfl
@[simp] theorem State.afterTxns_rxDone (xs : List Txn) (s : State) : (s.afterTxns xs).rxDone = s.rxDone := rfl
@[simp] theorem State.afterTxns_stage (xs : List Txn) (s : State) : (s.afterTxns xs).stage = s.stage := rfl
@[simp] theorem State.afterTxns_txWritten (xs : List Txn) (s : State) : (s.afterTxns xs).txWritten = s.txWritten := rfl
@[simp] theorem State.afterTxns_txFid (xs : List Txn) (s : State) : (s.afterTxns xs).txFid = s.txFid := rfl
@[simp] theorem State.afterTxns_snap (xs : List Txn) (s : State) : (s.afterTxns xs).snap = s.snap := rfl
@[simp] theorem State.afterTxns_handled (xs : List Txn) (s : State) : (s.afterTxns xs).handled = s.handled := rfl
@[simp] theorem State.afterTxns_txDoneEvents (xs : List Txn) (s : State) : (s.afterTxns xs).txDoneEvents = s.txDoneEvents := rfl
@[simp] theorem State.afterTxns_rxovrEvents (xs : List Txn) (s : State) : (s.afterTxns xs).rxovrEvents = s.rxovrEvents := rfl
@[simp] theorem State.afterTxns_linkEvents (xs : List Txn) (s : State) : (s.afterTxns xs).linkEvents = s.linkEvents := rfl
@[simp] theorem State.afterTxns_rxDelivered (xs : List Txn) (s : State) : (s.afterTxns xs).rxDelivered = s.rxDelivered := rfl
@[simp] theorem State.afterTxns_rxDropped (xs : List Txn) (s : State) : (s.afterTxns xs).rxDropped = s.rxDropped := rfl
@[simp] theorem State.afterTxns_pollCount (xs : List Txn) (s : State) : (s.afterTxns xs).pollCount = s.pollCount := rfl
@[simp] theorem State.afterTxns_refused (xs : List Txn) (s : State) : (s.afterTxns xs).refused = s.refused := rfl
@[simp] theorem State.afterTxns_fault (xs : List Txn) (s : State) : (s.afterTxns xs).fault = s.fault := rfl
@[simp] theorem State.afterTxns_gRxConsumed (xs : List Txn) (s : State) : (s.afterTxns xs).gRxConsumed = s.gRxConsumed := rfl
@[simp] theorem State.afterTxns_gFifoBursts (xs : List Txn) (s : State) : (s.afterTxns xs).gFifoBursts = s.gFifoBursts + xs.countP (·.burst) := rfl
@[simp] theorem State.afterTxns_gSpiTxns (xs : List Txn) (s : State) : (s.afterTxns xs).gSpiTxns = s.gSpiTxns + xs.length := rfl
@[simp] theorem State.afterTxns_inbox (xs : List Txn) (s : State) : (s.afterTxns xs).inbox = s.inbox := rfl
@[simp] theorem State.afterTxns_rivals (xs : List Txn) (s : State) : (s.afterTxns xs).rivals = s.rivals := rfl
@[simp] theorem State.afterTxns_script (xs : List Txn) (s : State) : (s.afterTxns xs).script = s.script.drop xs.length := rfl
@[simp] theorem State.afterTxns_bus (xs : List Txn) (s : State) : (s.afterTxns xs).bus = s.bus ++ xs := rfl
@[simp] theorem State.afterTxns_result (xs : List Txn) (s : State) : (s.afterTxns xs).result = s.result := rfl

/-! ### rxCleanup -/

@[simp] theorem State.rxCleanup_cfg (s : State) : s.rxCleanup.cfg = s.cfg := rfl
@[simp] theorem State.rxCleanup_pc (s : State) : s.rxCleanup.pc = s.pc := rfl
@[simp] theorem State.rxCleanup_phase (s : State) : s.rxCleanup.phase = s.phase := rfl
@[simp] theorem State.rxCleanup_rxState (s : State) : s.rxCleanup.rxState = .idle := rfl
@[simp] theorem State.rxCleanup_spiBusy (s : State) : s.rxCleanup.spiBusy = s.spiBusy := rfl
@[simp] theorem State.rxCleanup_burstOpen (s : State) : s.rxCleanup.burstOpen = s.burstOpen := rfl
@[simp] theorem State.rxCleanup_rxStatus (s : State) : s.rxCleanup.rxStatus = s.rxStatus := rfl
@[simp] theorem State.rxCleanup_rxCount (s : State) : s.rxCleanup.rxCount = s.rxCount := rfl
@[simp] theorem State.rxCleanup_rxLeft (s : State) : s.rxCleanup.rxLeft = 0 := rfl
@[simp] theorem State.rxCleanup_rxDone (s : State) : s.rxCleanup.rxDone = s.rxDone := rfl
@[simp] theorem State.rxCleanup_stage (s : State) : s.rxCleanup.stage = s.stage := rfl
@[simp] theorem State.rxCleanup_txWritten (s : State) : s.rxCleanup.txWritten = s.txWritten := rfl
@[simp] theorem State.rxCleanup_txFid (s : State) : s.rxCleanup.txFid = s.txFid := rfl
@[simp] theorem State.rxCleanup_snap (s : State) : s.rxCleanup.snap = s.snap := rfl
@[simp] theorem State.rxCleanup_handled (s : State) : s.rxCleanup.handled = s.handled := rfl
@[simp] theorem State.rxCleanup_txDoneEvents (s : State) : s.rxCleanup.txDoneEvents = s.txDoneEvents := rfl
@[simp] theorem State.rxCleanup_rxovrEvents (s : State) : s.rxCleanup.rxovrEvents = s.rxovrEvents := rfl
@[simp] theorem State.rxCleanup_linkEvents (s : State) : s.rxCleanup.linkEvents = s.linkEvents := rfl
@[simp] theorem State.rxCleanup_rxDelivered (s : State) : s.rxCleanup.rxDelivered = s.rxDelivered := rfl
@[simp] theorem State.rxCleanup_rxDropped (s : State) : s.rxCleanup.rxDropped = s.rxDropped := rfl
@[simp] theorem State.rxCleanup_pollCount (s : State) : s.rxCleanup.pollCount = s.pollCount := rfl
@[simp] theorem State.rxCleanup_refused (s : State) : s.rxCleanup.refused = s.refused := rfl
@[simp] theorem State.rxCleanup_fault (s : State) : s.rxCleanup.fault = s.fault := rfl
@[simp] theorem State.rxCleanup_gRxConsumed (s : State) : s.rxCleanup.gRxConsumed = s.gRxConsumed := rfl
@[simp] theorem State.rxCleanup_gFifoBursts (s : State) : s.rxCleanup.gFifoBursts = s.gFifoBursts := rfl
@[simp] theorem State.rxCleanup_gSpiTxns (s : State) : s.rxCleanup.gSpiTxns = s.gSpiTxns := rfl
@[simp] theorem State.rxCleanup_inbox (s : State) : s.rxCleanup.inbox = s.inbox := rfl
@[simp] theorem State.rxCleanup_rivals (s : State) : s.rxCleanup.rivals = s.rivals := rfl
@[simp] theorem State.rxCleanup_script (s : State) : s.rxCleanup.script = s.script := rfl
@[simp] theorem State.rxCleanup_bus (s : State) : s.rxCleanup.bus = s.bus := rfl
@[simp] theorem State.rxCleanup_result (s : State) : s.rxCleanup.result = s.result := rfl

/-! ### rxAwaitHeader -/

@[simp] theorem State.rxAwaitHeader_cfg (s : State) : s.rxAwaitHeader.cfg = s.cfg := rfl
@[simp] theorem State.rxAwaitHeader_pc (s : State) : s.rxAwaitHeader.pc = s.pc := rfl
@[simp] theorem State.rxAwaitHeader_phase (s : State) : s.rxAwaitHeader.phase = s.phase := rfl
@[simp] theorem State.rxAwaitHeader_rxState (s : State) : s.rxAwaitHeader.rxState = .headerPending := rfl
@[simp] theorem State.rxAwaitHeader_spiBusy (s : State) : s.rxAwaitHeader.spiBusy = s.spiBusy := rfl
@[simp] theorem State.rxAwaitHeader_burstOpen (s : State) : s.rxAwaitHeader.burstOpen = s.burstOpen := rfl
@[simp] theorem State.rxAwaitHeader_rxStatus (s : State) : s.rxAwaitHeader.rxStatus = s.rxStatus := rfl
@[simp] theorem State.rxAwaitHeader_rxCount (s : State) : s.rxAwaitHeader.rxCount = s.rxCount := rfl
@[simp] theorem State.rxAwaitHeader_rxLeft (s : State) : s.rxAwaitHeader.rxLeft = s.rxLeft := rfl
@[simp] theorem State.rxAwaitHeader_rxDone (s : State) : s.rxAwaitHeader.rxDone = s.rxDone := rfl
@[simp] theorem State.rxAwaitHeader_stage (s : State) : s.rxAwaitHeader.stage = s.stage := rfl
@[simp] theorem State.rxAwaitHeader_txWritten (s : State) : s.rxAwaitHeader.txWritten = s.txWritten := rfl
@[simp] theorem State.rxAwaitHeader_txFid (s : State) : s.rxAwaitHeader.txFid = s.txFid := rfl
@[simp] theorem State.rxAwaitHeader_snap (s : State) : s.rxAwaitHeader.snap = s.snap := rfl
@[simp] theorem State.rxAwaitHeader_handled (s : State) : s.rxAwaitHeader.handled = s.handled := rfl
@[simp] theorem State.rxAwaitHeader_txDoneEvents (s : State) : s.rxAwaitHeader.txDoneEvents = s.txDoneEvents := rfl
@[simp] theorem State.rxAwaitHeader_rxovrEvents (s : State) : s.rxAwaitHeader.rxovrEvents = s.rxovrEvents := rfl
@[simp] theorem State.rxAwaitHeader_linkEvents (s : State) : s.rxAwaitHeader.linkEvents = s.linkEvents := rfl
@[simp] theorem State.rxAwaitHeader_rxDelivered (s : State) : s.rxAwaitHeader.rxDelivered = s.rxDelivered := rfl
@[simp] theorem State.rxAwaitHeader_rxDropped (s : State) : s.rxAwaitHeader.rxDropped = s.rxDropped := rfl
@[simp] theorem State.rxAwaitHeader_pollCount (s : State) : s.rxAwaitHeader.pollCount = s.pollCount := rfl
@[simp] theorem State.rxAwaitHeader_refused (s : State) : s.rxAwaitHeader.refused = s.refused := rfl
@[simp] theorem State.rxAwaitHeader_fault (s : State) : s.rxAwaitHeader.fault = s.fault := rfl
@[simp] theorem State.rxAwaitHeader_gRxConsumed (s : State) : s.rxAwaitHeader.gRxConsumed = s.gRxConsumed := rfl
@[simp] theorem State.rxAwaitHeader_gFifoBursts (s : State) : s.rxAwaitHeader.gFifoBursts = s.gFifoBursts := rfl
@[simp] theorem State.rxAwaitHeader_gSpiTxns (s : State) : s.rxAwaitHeader.gSpiTxns = s.gSpiTxns := rfl
@[simp] theorem State.rxAwaitHeader_inbox (s : State) : s.rxAwaitHeader.inbox = s.inbox := rfl
@[simp] theorem State.rxAwaitHeader_rivals (s : State) : s.rxAwaitHeader.rivals = s.rivals := rfl
@[simp] theorem State.rxAwaitHeader_script (s : State) : s.rxAwaitHeader.script = s.script := rfl
@[simp] theorem State.rxAwaitHeader_bus (s : State) : s.rxAwaitHeader.bus = s.bus := rfl
@[simp] theorem State.rxAwaitHeader_result (s : State) : s.rxAwaitHeader.result = s.result := rfl

/-! ### rxLatch -/

@[simp] theorem State.rxLatch_cfg (st ct : Word) (s : State) : (s.rxLatch st ct).cfg = s.cfg := rfl
@[simp] theorem State.rxLatch_pc (st ct : Word) (s : State) : (s.rxLatch st ct).pc = s.pc := rfl
@[simp] theorem State.rxLatch_phase (st ct : Word) (s : State) : (s.rxLatch st ct).phase = s.phase := rfl
@[simp] theorem State.rxLatch_rxState (st ct : Word) (s : State) : (s.rxLatch st ct).rxState = s.rxState := rfl
@[simp] theorem State.rxLatch_spiBusy (st ct : Word) (s : State) : (s.rxLatch st ct).spiBusy = s.spiBusy := rfl
@[simp] theorem State.rxLatch_burstOpen (st ct : Word) (s : State) : (s.rxLatch st ct).burstOpen = s.burstOpen := rfl
@[simp] theorem State.rxLatch_rxStatus (st ct : Word) (s : State) : (s.rxLatch st ct).rxStatus = st := rfl
@[simp] theorem State.rxLatch_rxCount (st ct : Word) (s : State) : (s.rxLatch st ct).rxCount = ct := rfl
@[simp] theorem State.rxLatch_rxLeft (st ct : Word) (s : State) : (s.rxLatch st ct).rxLeft = s.rxLeft := rfl
@[simp] theorem State.rxLatch_rxDone (st ct : Word) (s : State) : (s.rxLatch st ct).rxDone = s.rxDone := rfl
@[simp] theorem State.rxLatch_stage (st ct : Word) (s : State) : (s.rxLatch st ct).stage = s.stage := rfl
@[simp] theorem State.rxLatch_txWritten (st ct : Word) (s : State) : (s.rxLatch st ct).txWritten = s.txWritten := rfl
@[simp] theorem State.rxLatch_txFid (st ct : Word) (s : State) : (s.rxLatch st ct).txFid = s.txFid := rfl
@[simp] theorem State.rxLatch_snap (st ct : Word) (s : State) : (s.rxLatch st ct).snap = s.snap := rfl
@[simp] theorem State.rxLatch_handled (st ct : Word) (s : State) : (s.rxLatch st ct).handled = s.handled := rfl
@[simp] theorem State.rxLatch_txDoneEvents (st ct : Word) (s : State) : (s.rxLatch st ct).txDoneEvents = s.txDoneEvents := rfl
@[simp] theorem State.rxLatch_rxovrEvents (st ct : Word) (s : State) : (s.rxLatch st ct).rxovrEvents = s.rxovrEvents := rfl
@[simp] theorem State.rxLatch_linkEvents (st ct : Word) (s : State) : (s.rxLatch st ct).linkEvents = s.linkEvents := rfl
@[simp] theorem State.rxLatch_rxDelivered (st ct : Word) (s : State) : (s.rxLatch st ct).rxDelivered = s.rxDelivered := rfl
@[simp] theorem State.rxLatch_rxDropped (st ct : Word) (s : State) : (s.rxLatch st ct).rxDropped = s.rxDropped := rfl
@[simp] theorem State.rxLatch_pollCount (st ct : Word) (s : State) : (s.rxLatch st ct).pollCount = s.pollCount := rfl
@[simp] theorem State.rxLatch_refused (st ct : Word) (s : State) : (s.rxLatch st ct).refused = s.refused := rfl
@[simp] theorem State.rxLatch_fault (st ct : Word) (s : State) : (s.rxLatch st ct).fault = s.fault := rfl
@[simp] theorem State.rxLatch_gRxConsumed (st ct : Word) (s : State) : (s.rxLatch st ct).gRxConsumed = s.gRxConsumed := rfl
@[simp] theorem State.rxLatch_gFifoBursts (st ct : Word) (s : State) : (s.rxLatch st ct).gFifoBursts = s.gFifoBursts := rfl
@[simp] theorem State.rxLatch_gSpiTxns (st ct : Word) (s : State) : (s.rxLatch st ct).gSpiTxns = s.gSpiTxns := rfl
@[simp] theorem State.rxLatch_inbox (st ct : Word) (s : State) : (s.rxLatch st ct).inbox = s.inbox := rfl
@[simp] theorem State.rxLatch_rivals (st ct : Word) (s : State) : (s.rxLatch st ct).rivals = s.rivals := rfl
@[simp] theorem State.rxLatch_script (st ct : Word) (s : State) : (s.rxLatch st ct).script = s.script := rfl
@[simp] theorem State.rxLatch_bus (st ct : Word) (s : State) : (s.rxLatch st ct).bus = s.bus := rfl
@[simp] theorem State.rxLatch_result (st ct : Word) (s : State) : (s.rxLatch st ct).result = s.result := rfl

/-! ### rxDesync -/

@[simp] theorem State.rxDesync_cfg (s : State) : s.rxDesync.cfg = s.cfg := rfl
@[simp] theorem State.rxDesync_pc (s : State) : s.rxDesync.pc = s.pc := rfl
@[simp] theorem State.rxDesync_phase (s : State) : s.rxDesync.phase = .desync := rfl
@[simp] theorem State.rxDesync_rxState (s : State) : s.rxDesync.rxState = .idle := rfl
@[simp] theorem State.rxDesync_spiBusy (s : State) : s.rxDesync.spiBusy = s.spiBusy := rfl
@[simp] theorem State.rxDesync_burstOpen (s : State) : s.rxDesync.burstOpen = s.burstOpen := rfl
@[simp] theorem State.rxDesync_rxStatus (s : State) : s.rxDesync.rxStatus = s.rxStatus := rfl
@[simp] theorem State.rxDesync_rxCount (s : State) : s.rxDesync.rxCount = s.rxCount := rfl
@[simp] theorem State.rxDesync_rxLeft (s : State) : s.rxDesync.rxLeft = 0 := rfl
@[simp] theorem State.rxDesync_rxDone (s : State) : s.rxDesync.rxDone = s.rxDone := rfl
@[simp] theorem State.rxDesync_stage (s : State) : s.rxDesync.stage = s.stage := rfl
@[simp] theorem State.rxDesync_txWritten (s : State) : s.rxDesync.txWritten = s.txWritten := rfl
@[simp] theorem State.rxDesync_txFid (s : State) : s.rxDesync.txFid = s.txFid := rfl
@[simp] theorem State.rxDesync_snap (s : State) : s.rxDesync.snap = s.snap := rfl
@[simp] theorem State.rxDesync_handled (s : State) : s.rxDesync.handled = s.handled := rfl
@[simp] theorem State.rxDesync_txDoneEvents (s : State) : s.rxDesync.txDoneEvents = s.txDoneEvents := rfl
@[simp] theorem State.rxDesync_rxovrEvents (s : State) : s.rxDesync.rxovrEvents = s.rxovrEvents := rfl
@[simp] theorem State.rxDesync_linkEvents (s : State) : s.rxDesync.linkEvents = s.linkEvents := rfl
@[simp] theorem State.rxDesync_rxDelivered (s : State) : s.rxDesync.rxDelivered = s.rxDelivered := rfl
@[simp] theorem State.rxDesync_rxDropped (s : State) : s.rxDesync.rxDropped = s.rxDropped := rfl
@[simp] theorem State.rxDesync_pollCount (s : State) : s.rxDesync.pollCount = s.pollCount := rfl
@[simp] theorem State.rxDesync_refused (s : State) : s.rxDesync.refused = s.refused := rfl
@[simp] theorem State.rxDesync_fault (s : State) : s.rxDesync.fault = s.fault := rfl
@[simp] theorem State.rxDesync_gRxConsumed (s : State) : s.rxDesync.gRxConsumed = s.gRxConsumed := rfl
@[simp] theorem State.rxDesync_gFifoBursts (s : State) : s.rxDesync.gFifoBursts = s.gFifoBursts := rfl
@[simp] theorem State.rxDesync_gSpiTxns (s : State) : s.rxDesync.gSpiTxns = s.gSpiTxns := rfl
@[simp] theorem State.rxDesync_inbox (s : State) : s.rxDesync.inbox = s.inbox := rfl
@[simp] theorem State.rxDesync_rivals (s : State) : s.rxDesync.rivals = s.rivals := rfl
@[simp] theorem State.rxDesync_script (s : State) : s.rxDesync.script = s.script := rfl
@[simp] theorem State.rxDesync_bus (s : State) : s.rxDesync.bus = s.bus := rfl
@[simp] theorem State.rxDesync_result (s : State) : s.rxDesync.result = s.result := rfl

/-! ### rxAwaitPayload -/

@[simp] theorem State.rxAwaitPayload_cfg (s : State) : s.rxAwaitPayload.cfg = s.cfg := rfl
@[simp] theorem State.rxAwaitPayload_pc (s : State) : s.rxAwaitPayload.pc = s.pc := rfl
@[simp] theorem State.rxAwaitPayload_phase (s : State) : s.rxAwaitPayload.phase = s.phase := rfl
@[simp] theorem State.rxAwaitPayload_rxState (s : State) : s.rxAwaitPayload.rxState = .payloadPending := rfl
@[simp] theorem State.rxAwaitPayload_spiBusy (s : State) : s.rxAwaitPayload.spiBusy = s.spiBusy := rfl
@[simp] theorem State.rxAwaitPayload_burstOpen (s : State) : s.rxAwaitPayload.burstOpen = s.burstOpen := rfl
@[simp] theorem State.rxAwaitPayload_rxStatus (s : State) : s.rxAwaitPayload.rxStatus = s.rxStatus := rfl
@[simp] theorem State.rxAwaitPayload_rxCount (s : State) : s.rxAwaitPayload.rxCount = s.rxCount := rfl
@[simp] theorem State.rxAwaitPayload_rxLeft (s : State) : s.rxAwaitPayload.rxLeft = s.rxLeft := rfl
@[simp] theorem State.rxAwaitPayload_rxDone (s : State) : s.rxAwaitPayload.rxDone = s.rxDone := rfl
@[simp] theorem State.rxAwaitPayload_stage (s : State) : s.rxAwaitPayload.stage = s.stage := rfl
@[simp] theorem State.rxAwaitPayload_txWritten (s : State) : s.rxAwaitPayload.txWritten = s.txWritten := rfl
@[simp] theorem State.rxAwaitPayload_txFid (s : State) : s.rxAwaitPayload.txFid = s.txFid := rfl
@[simp] theorem State.rxAwaitPayload_snap (s : State) : s.rxAwaitPayload.snap = s.snap := rfl
@[simp] theorem State.rxAwaitPayload_handled (s : State) : s.rxAwaitPayload.handled = s.handled := rfl
@[simp] theorem State.rxAwaitPayload_txDoneEvents (s : State) : s.rxAwaitPayload.txDoneEvents = s.txDoneEvents := rfl
@[simp] theorem State.rxAwaitPayload_rxovrEvents (s : State) : s.rxAwaitPayload.rxovrEvents = s.rxovrEvents := rfl
@[simp] theorem State.rxAwaitPayload_linkEvents (s : State) : s.rxAwaitPayload.linkEvents = s.linkEvents := rfl
@[simp] theorem State.rxAwaitPayload_rxDelivered (s : State) : s.rxAwaitPayload.rxDelivered = s.rxDelivered := rfl
@[simp] theorem State.rxAwaitPayload_rxDropped (s : State) : s.rxAwaitPayload.rxDropped = s.rxDropped := rfl
@[simp] theorem State.rxAwaitPayload_pollCount (s : State) : s.rxAwaitPayload.pollCount = s.pollCount := rfl
@[simp] theorem State.rxAwaitPayload_refused (s : State) : s.rxAwaitPayload.refused = s.refused := rfl
@[simp] theorem State.rxAwaitPayload_fault (s : State) : s.rxAwaitPayload.fault = s.fault := rfl
@[simp] theorem State.rxAwaitPayload_gRxConsumed (s : State) : s.rxAwaitPayload.gRxConsumed = s.gRxConsumed := rfl
@[simp] theorem State.rxAwaitPayload_gFifoBursts (s : State) : s.rxAwaitPayload.gFifoBursts = s.gFifoBursts := rfl
@[simp] theorem State.rxAwaitPayload_gSpiTxns (s : State) : s.rxAwaitPayload.gSpiTxns = s.gSpiTxns := rfl
@[simp] theorem State.rxAwaitPayload_inbox (s : State) : s.rxAwaitPayload.inbox = s.inbox := rfl
@[simp] theorem State.rxAwaitPayload_rivals (s : State) : s.rxAwaitPayload.rivals = s.rivals := rfl
@[simp] theorem State.rxAwaitPayload_script (s : State) : s.rxAwaitPayload.script = s.script := rfl
@[simp] theorem State.rxAwaitPayload_bus (s : State) : s.rxAwaitPayload.bus = s.bus := rfl
@[simp] theorem State.rxAwaitPayload_result (s : State) : s.rxAwaitPayload.result = s.result := rfl

/-! ### rxConsume -/

@[simp] theorem State.rxConsume_cfg (s : State) : s.rxConsume.cfg = s.cfg := rfl
@[simp] theorem State.rxConsume_pc (s : State) : s.rxConsume.pc = s.pc := rfl
@[simp] theorem State.rxConsume_phase (s : State) : s.rxConsume.phase = s.phase := rfl
@[simp] theorem State.rxConsume_rxState (s : State) : s.rxConsume.rxState = s.rxState := rfl
@[simp] theorem State.rxConsume_spiBusy (s : State) : s.rxConsume.spiBusy = s.spiBusy := rfl
@[simp] theorem State.rxConsume_burstOpen (s : State) : s.rxConsume.burstOpen = s.burstOpen := rfl
@[simp] theorem State.rxConsume_rxStatus (s : State) : s.rxConsume.rxStatus = s.rxStatus := rfl
@[simp] theorem State.rxConsume_rxCount (s : State) : s.rxConsume.rxCount = s.rxCount := rfl
@[simp] theorem State.rxConsume_rxLeft (s : State) : s.rxConsume.rxLeft = s.rxLeft := rfl
@[simp] theorem State.rxConsume_rxDone (s : State) : s.rxConsume.rxDone = s.rxDone := rfl
@[simp] theorem State.rxConsume_stage (s : State) : s.rxConsume.stage = s.stage := rfl
@[simp] theorem State.rxConsume_txWritten (s : State) : s.rxConsume.txWritten = s.txWritten := rfl
@[simp] theorem State.rxConsume_txFid (s : State) : s.rxConsume.txFid = s.txFid := rfl
@[simp] theorem State.rxConsume_snap (s : State) : s.rxConsume.snap = s.snap := rfl
@[simp] theorem State.rxConsume_handled (s : State) : s.rxConsume.handled = s.handled := rfl
@[simp] theorem State.rxConsume_txDoneEvents (s : State) : s.rxConsume.txDoneEvents = s.txDoneEvents := rfl
@[simp] theorem State.rxConsume_rxovrEvents (s : State) : s.rxConsume.rxovrEvents = s.rxovrEvents := rfl
@[simp] theorem State.rxConsume_linkEvents (s : State) : s.rxConsume.linkEvents = s.linkEvents := rfl
@[simp] theorem State.rxConsume_rxDelivered (s : State) : s.rxConsume.rxDelivered = s.rxDelivered := rfl
@[simp] theorem State.rxConsume_rxDropped (s : State) : s.rxConsume.rxDropped = s.rxDropped := rfl
@[simp] theorem State.rxConsume_pollCount (s : State) : s.rxConsume.pollCount = s.pollCount := rfl
@[simp] theorem State.rxConsume_refused (s : State) : s.rxConsume.refused = s.refused := rfl
@[simp] theorem State.rxConsume_fault (s : State) : s.rxConsume.fault = s.fault := rfl
@[simp] theorem State.rxConsume_gRxConsumed (s : State) : s.rxConsume.gRxConsumed = s.gRxConsumed + s.rxCount.toNat := rfl
@[simp] theorem State.rxConsume_gFifoBursts (s : State) : s.rxConsume.gFifoBursts = s.gFifoBursts := rfl
@[simp] theorem State.rxConsume_gSpiTxns (s : State) : s.rxConsume.gSpiTxns = s.gSpiTxns := rfl
@[simp] theorem State.rxConsume_inbox (s : State) : s.rxConsume.inbox = s.inbox := rfl
@[simp] theorem State.rxConsume_rivals (s : State) : s.rxConsume.rivals = s.rivals := rfl
@[simp] theorem State.rxConsume_script (s : State) : s.rxConsume.script = s.script := rfl
@[simp] theorem State.rxConsume_bus (s : State) : s.rxConsume.bus = s.bus := rfl
@[simp] theorem State.rxConsume_result (s : State) : s.rxConsume.result = s.result := rfl

/-! ### rxDeliver -/

@[simp] theorem State.rxDeliver_cfg (d : List Byte) (s : State) : (s.rxDeliver d).cfg = s.cfg := rfl
@[simp] theorem State.rxDeliver_pc (d : List Byte) (s : State) : (s.rxDeliver d).pc = s.pc := rfl
@[simp] theorem State.rxDeliver_phase (d : List Byte) (s : State) : (s.rxDeliver d).phase = s.phase := rfl
@[simp] theorem State.rxDeliver_rxState (d : List Byte) (s : State) : (s.rxDeliver d).rxState = .delivered := rfl
@[simp] theorem State.rxDeliver_spiBusy (d : List Byte) (s : State) : (s.rxDeliver d).spiBusy = s.spiBusy := rfl
@[simp] theorem State.rxDeliver_burstOpen (d : List Byte) (s : State) : (s.rxDeliver d).burstOpen = s.burstOpen := rfl
@[simp] theorem State.rxDeliver_rxStatus (d : List Byte) (s : State) : (s.rxDeliver d).rxStatus = s.rxStatus := rfl
@[simp] theorem State.rxDeliver_rxCount (d : List Byte) (s : State) : (s.rxDeliver d).rxCount = s.rxCount := rfl
@[simp] theorem State.rxDeliver_rxLeft (d : List Byte) (s : State) : (s.rxDeliver d).rxLeft = s.rxLeft := rfl
@[simp] theorem State.rxDeliver_rxDone (d : List Byte) (s : State) : (s.rxDeliver d).rxDone = s.rxDone := rfl
@[simp] theorem State.rxDeliver_stage (d : List Byte) (s : State) : (s.rxDeliver d).stage = s.stage.store d := rfl
@[simp] theorem State.rxDeliver_txWritten (d : List Byte) (s : State) : (s.rxDeliver d).txWritten = s.txWritten := rfl
@[simp] theorem State.rxDeliver_txFid (d : List Byte) (s : State) : (s.rxDeliver d).txFid = s.txFid := rfl
@[simp] theorem State.rxDeliver_snap (d : List Byte) (s : State) : (s.rxDeliver d).snap = s.snap := rfl
@[simp] theorem State.rxDeliver_handled (d : List Byte) (s : State) : (s.rxDeliver d).handled = s.handled := rfl
@[simp] theorem State.rxDeliver_txDoneEvents (d : List Byte) (s : State) : (s.rxDeliver d).txDoneEvents = s.txDoneEvents := rfl
@[simp] theorem State.rxDeliver_rxovrEvents (d : List Byte) (s : State) : (s.rxDeliver d).rxovrEvents = s.rxovrEvents := rfl
@[simp] theorem State.rxDeliver_linkEvents (d : List Byte) (s : State) : (s.rxDeliver d).linkEvents = s.linkEvents := rfl
@[simp] theorem State.rxDeliver_rxDelivered (d : List Byte) (s : State) : (s.rxDeliver d).rxDelivered = s.rxDelivered + 1 := rfl
@[simp] theorem State.rxDeliver_rxDropped (d : List Byte) (s : State) : (s.rxDeliver d).rxDropped = s.rxDropped := rfl
@[simp] theorem State.rxDeliver_pollCount (d : List Byte) (s : State) : (s.rxDeliver d).pollCount = s.pollCount := rfl
@[simp] theorem State.rxDeliver_refused (d : List Byte) (s : State) : (s.rxDeliver d).refused = s.refused := rfl
@[simp] theorem State.rxDeliver_fault (d : List Byte) (s : State) : (s.rxDeliver d).fault = s.fault := rfl
@[simp] theorem State.rxDeliver_gRxConsumed (d : List Byte) (s : State) : (s.rxDeliver d).gRxConsumed = s.gRxConsumed := rfl
@[simp] theorem State.rxDeliver_gFifoBursts (d : List Byte) (s : State) : (s.rxDeliver d).gFifoBursts = s.gFifoBursts := rfl
@[simp] theorem State.rxDeliver_gSpiTxns (d : List Byte) (s : State) : (s.rxDeliver d).gSpiTxns = s.gSpiTxns := rfl
@[simp] theorem State.rxDeliver_inbox (d : List Byte) (s : State) : (s.rxDeliver d).inbox = s.inbox := rfl
@[simp] theorem State.rxDeliver_rivals (d : List Byte) (s : State) : (s.rxDeliver d).rivals = s.rivals := rfl
@[simp] theorem State.rxDeliver_script (d : List Byte) (s : State) : (s.rxDeliver d).script = s.script := rfl
@[simp] theorem State.rxDeliver_bus (d : List Byte) (s : State) : (s.rxDeliver d).bus = s.bus := rfl
@[simp] theorem State.rxDeliver_result (d : List Byte) (s : State) : (s.rxDeliver d).result = s.result := rfl

/-! ### rxDrop -/

@[simp] theorem State.rxDrop_cfg (s : State) : s.rxDrop.cfg = s.cfg := rfl
@[simp] theorem State.rxDrop_pc (s : State) : s.rxDrop.pc = s.pc := rfl
@[simp] theorem State.rxDrop_phase (s : State) : s.rxDrop.phase = s.phase := rfl
@[simp] theorem State.rxDrop_rxState (s : State) : s.rxDrop.rxState = s.rxState := rfl
@[simp] theorem State.rxDrop_spiBusy (s : State) : s.rxDrop.spiBusy = s.spiBusy := rfl
@[simp] theorem State.rxDrop_burstOpen (s : State) : s.rxDrop.burstOpen = s.burstOpen := rfl
@[simp] theorem State.rxDrop_rxStatus (s : State) : s.rxDrop.rxStatus = s.rxStatus := rfl
@[simp] theorem State.rxDrop_rxCount (s : State) : s.rxDrop.rxCount = s.rxCount := rfl
@[simp] theorem State.rxDrop_rxLeft (s : State) : s.rxDrop.rxLeft = s.rxLeft := rfl
@[simp] theorem State.rxDrop_rxDone (s : State) : s.rxDrop.rxDone = s.rxDone := rfl
@[simp] theorem State.rxDrop_stage (s : State) : s.rxDrop.stage = s.stage := rfl
@[simp] theorem State.rxDrop_txWritten (s : State) : s.rxDrop.txWritten = s.txWritten := rfl
@[simp] theorem State.rxDrop_txFid (s : State) : s.rxDrop.txFid = s.txFid := rfl
@[simp] theorem State.rxDrop_snap (s : State) : s.rxDrop.snap = s.snap := rfl
@[simp] theorem State.rxDrop_handled (s : State) : s.rxDrop.handled = s.handled := rfl
@[simp] theorem State.rxDrop_txDoneEvents (s : State) : s.rxDrop.txDoneEvents = s.txDoneEvents := rfl
@[simp] theorem State.rxDrop_rxovrEvents (s : State) : s.rxDrop.rxovrEvents = s.rxovrEvents := rfl
@[simp] theorem State.rxDrop_linkEvents (s : State) : s.rxDrop.linkEvents = s.linkEvents := rfl
@[simp] theorem State.rxDrop_rxDelivered (s : State) : s.rxDrop.rxDelivered = s.rxDelivered := rfl
@[simp] theorem State.rxDrop_rxDropped (s : State) : s.rxDrop.rxDropped = s.rxDropped + 1 := rfl
@[simp] theorem State.rxDrop_pollCount (s : State) : s.rxDrop.pollCount = s.pollCount := rfl
@[simp] theorem State.rxDrop_refused (s : State) : s.rxDrop.refused = s.refused := rfl
@[simp] theorem State.rxDrop_fault (s : State) : s.rxDrop.fault = s.fault := rfl
@[simp] theorem State.rxDrop_gRxConsumed (s : State) : s.rxDrop.gRxConsumed = s.gRxConsumed := rfl
@[simp] theorem State.rxDrop_gFifoBursts (s : State) : s.rxDrop.gFifoBursts = s.gFifoBursts := rfl
@[simp] theorem State.rxDrop_gSpiTxns (s : State) : s.rxDrop.gSpiTxns = s.gSpiTxns := rfl
@[simp] theorem State.rxDrop_inbox (s : State) : s.rxDrop.inbox = s.inbox := rfl
@[simp] theorem State.rxDrop_rivals (s : State) : s.rxDrop.rivals = s.rivals := rfl
@[simp] theorem State.rxDrop_script (s : State) : s.rxDrop.script = s.script := rfl
@[simp] theorem State.rxDrop_bus (s : State) : s.rxDrop.bus = s.bus := rfl
@[simp] theorem State.rxDrop_result (s : State) : s.rxDrop.result = s.result := rfl

/-! ### rxRelease -/

@[simp] theorem State.rxRelease_cfg (s : State) : s.rxRelease.cfg = s.cfg := rfl
@[simp] theorem State.rxRelease_pc (s : State) : s.rxRelease.pc = s.pc := rfl
@[simp] theorem State.rxRelease_phase (s : State) : s.rxRelease.phase = s.phase := rfl
@[simp] theorem State.rxRelease_rxState (s : State) : s.rxRelease.rxState = .idle := rfl
@[simp] theorem State.rxRelease_spiBusy (s : State) : s.rxRelease.spiBusy = s.spiBusy := rfl
@[simp] theorem State.rxRelease_burstOpen (s : State) : s.rxRelease.burstOpen = s.burstOpen := rfl
@[simp] theorem State.rxRelease_rxStatus (s : State) : s.rxRelease.rxStatus = s.rxStatus := rfl
@[simp] theorem State.rxRelease_rxCount (s : State) : s.rxRelease.rxCount = s.rxCount := rfl
@[simp] theorem State.rxRelease_rxLeft (s : State) : s.rxRelease.rxLeft = s.rxLeft - 1 := rfl
@[simp] theorem State.rxRelease_rxDone (s : State) : s.rxRelease.rxDone = s.rxDone + 1 := rfl
@[simp] theorem State.rxRelease_stage (s : State) : s.rxRelease.stage = s.stage := rfl
@[simp] theorem State.rxRelease_txWritten (s : State) : s.rxRelease.txWritten = s.txWritten := rfl
@[simp] theorem State.rxRelease_txFid (s : State) : s.rxRelease.txFid = s.txFid := rfl
@[simp] theorem State.rxRelease_snap (s : State) : s.rxRelease.snap = s.snap := rfl
@[simp] theorem State.rxRelease_handled (s : State) : s.rxRelease.handled = s.handled := rfl
@[simp] theorem State.rxRelease_txDoneEvents (s : State) : s.rxRelease.txDoneEvents = s.txDoneEvents := rfl
@[simp] theorem State.rxRelease_rxovrEvents (s : State) : s.rxRelease.rxovrEvents = s.rxovrEvents := rfl
@[simp] theorem State.rxRelease_linkEvents (s : State) : s.rxRelease.linkEvents = s.linkEvents := rfl
@[simp] theorem State.rxRelease_rxDelivered (s : State) : s.rxRelease.rxDelivered = s.rxDelivered := rfl
@[simp] theorem State.rxRelease_rxDropped (s : State) : s.rxRelease.rxDropped = s.rxDropped := rfl
@[simp] theorem State.rxRelease_pollCount (s : State) : s.rxRelease.pollCount = s.pollCount := rfl
@[simp] theorem State.rxRelease_refused (s : State) : s.rxRelease.refused = s.refused := rfl
@[simp] theorem State.rxRelease_fault (s : State) : s.rxRelease.fault = s.fault := rfl
@[simp] theorem State.rxRelease_gRxConsumed (s : State) : s.rxRelease.gRxConsumed = s.gRxConsumed := rfl
@[simp] theorem State.rxRelease_gFifoBursts (s : State) : s.rxRelease.gFifoBursts = s.gFifoBursts := rfl
@[simp] theorem State.rxRelease_gSpiTxns (s : State) : s.rxRelease.gSpiTxns = s.gSpiTxns := rfl
@[simp] theorem State.rxRelease_inbox (s : State) : s.rxRelease.inbox = s.inbox := rfl
@[simp] theorem State.rxRelease_rivals (s : State) : s.rxRelease.rivals = s.rivals := rfl
@[simp] theorem State.rxRelease_script (s : State) : s.rxRelease.script = s.script := rfl
@[simp] theorem State.rxRelease_bus (s : State) : s.rxRelease.bus = s.bus := rfl
@[simp] theorem State.rxRelease_result (s : State) : s.rxRelease.result = s.result := rfl

/-! ### rxBegin -/

@[simp] theorem State.rxBegin_cfg (fc : Word) (s : State) : (s.rxBegin fc).cfg = s.cfg := rfl
@[simp] theorem State.rxBegin_pc (fc : Word) (s : State) : (s.rxBegin fc).pc = s.pc := rfl
@[simp] theorem State.rxBegin_phase (fc : Word) (s : State) : (s.rxBegin fc).phase = s.phase := rfl
@[simp] theorem State.rxBegin_rxState (fc : Word) (s : State) : (s.rxBegin fc).rxState = s.rxState := rfl
@[simp] theorem State.rxBegin_spiBusy (fc : Word) (s : State) : (s.rxBegin fc).spiBusy = s.spiBusy := rfl
@[simp] theorem State.rxBegin_burstOpen (fc : Word) (s : State) : (s.rxBegin fc).burstOpen = s.burstOpen := rfl
@[simp] theorem State.rxBegin_rxStatus (fc : Word) (s : State) : (s.rxBegin fc).rxStatus = s.rxStatus := rfl
@[simp] theorem State.rxBegin_rxCount (fc : Word) (s : State) : (s.rxBegin fc).rxCount = s.rxCount := rfl
@[simp] theorem State.rxBegin_rxLeft (fc : Word) (s : State) : (s.rxBegin fc).rxLeft = rxLeftOf (min fc.toNat s.cfg.rxMaxPerCall) := rfl
@[simp] theorem State.rxBegin_rxDone (fc : Word) (s : State) : (s.rxBegin fc).rxDone = 0 := rfl
@[simp] theorem State.rxBegin_stage (fc : Word) (s : State) : (s.rxBegin fc).stage = s.stage := rfl
@[simp] theorem State.rxBegin_txWritten (fc : Word) (s : State) : (s.rxBegin fc).txWritten = s.txWritten := rfl
@[simp] theorem State.rxBegin_txFid (fc : Word) (s : State) : (s.rxBegin fc).txFid = s.txFid := rfl
@[simp] theorem State.rxBegin_snap (fc : Word) (s : State) : (s.rxBegin fc).snap = s.snap := rfl
@[simp] theorem State.rxBegin_handled (fc : Word) (s : State) : (s.rxBegin fc).handled = s.handled := rfl
@[simp] theorem State.rxBegin_txDoneEvents (fc : Word) (s : State) : (s.rxBegin fc).txDoneEvents = s.txDoneEvents := rfl
@[simp] theorem State.rxBegin_rxovrEvents (fc : Word) (s : State) : (s.rxBegin fc).rxovrEvents = s.rxovrEvents := rfl
@[simp] theorem State.rxBegin_linkEvents (fc : Word) (s : State) : (s.rxBegin fc).linkEvents = s.linkEvents := rfl
@[simp] theorem State.rxBegin_rxDelivered (fc : Word) (s : State) : (s.rxBegin fc).rxDelivered = s.rxDelivered := rfl
@[simp] theorem State.rxBegin_rxDropped (fc : Word) (s : State) : (s.rxBegin fc).rxDropped = s.rxDropped := rfl
@[simp] theorem State.rxBegin_pollCount (fc : Word) (s : State) : (s.rxBegin fc).pollCount = s.pollCount := rfl
@[simp] theorem State.rxBegin_refused (fc : Word) (s : State) : (s.rxBegin fc).refused = s.refused := rfl
@[simp] theorem State.rxBegin_fault (fc : Word) (s : State) : (s.rxBegin fc).fault = s.fault := rfl
@[simp] theorem State.rxBegin_gRxConsumed (fc : Word) (s : State) : (s.rxBegin fc).gRxConsumed = s.gRxConsumed := rfl
@[simp] theorem State.rxBegin_gFifoBursts (fc : Word) (s : State) : (s.rxBegin fc).gFifoBursts = s.gFifoBursts := rfl
@[simp] theorem State.rxBegin_gSpiTxns (fc : Word) (s : State) : (s.rxBegin fc).gSpiTxns = s.gSpiTxns := rfl
@[simp] theorem State.rxBegin_inbox (fc : Word) (s : State) : (s.rxBegin fc).inbox = s.inbox := rfl
@[simp] theorem State.rxBegin_rivals (fc : Word) (s : State) : (s.rxBegin fc).rivals = s.rivals := rfl
@[simp] theorem State.rxBegin_script (fc : Word) (s : State) : (s.rxBegin fc).script = s.script := rfl
@[simp] theorem State.rxBegin_bus (fc : Word) (s : State) : (s.rxBegin fc).bus = s.bus := rfl
@[simp] theorem State.rxBegin_result (fc : Word) (s : State) : (s.rxBegin fc).result = s.result := rfl

/-! ### nextFid -/

@[simp] theorem State.nextFid_cfg (s : State) : s.nextFid.cfg = s.cfg := rfl
@[simp] theorem State.nextFid_pc (s : State) : s.nextFid.pc = s.pc := rfl
@[simp] theorem State.nextFid_phase (s : State) : s.nextFid.phase = s.phase := rfl
@[simp] theorem State.nextFid_rxState (s : State) : s.nextFid.rxState = s.rxState := rfl
@[simp] theorem State.nextFid_spiBusy (s : State) : s.nextFid.spiBusy = s.spiBusy := rfl
@[simp] theorem State.nextFid_burstOpen (s : State) : s.nextFid.burstOpen = s.burstOpen := rfl
@[simp] theorem State.nextFid_rxStatus (s : State) : s.nextFid.rxStatus = s.rxStatus := rfl
@[simp] theorem State.nextFid_rxCount (s : State) : s.nextFid.rxCount = s.rxCount := rfl
@[simp] theorem State.nextFid_rxLeft (s : State) : s.nextFid.rxLeft = s.rxLeft := rfl
@[simp] theorem State.nextFid_rxDone (s : State) : s.nextFid.rxDone = s.rxDone := rfl
@[simp] theorem State.nextFid_stage (s : State) : s.nextFid.stage = s.stage := rfl
@[simp] theorem State.nextFid_txWritten (s : State) : s.nextFid.txWritten = s.txWritten := rfl
@[simp] theorem State.nextFid_txFid (s : State) : s.nextFid.txFid = fidAfter s.cfg s.txFid := rfl
@[simp] theorem State.nextFid_snap (s : State) : s.nextFid.snap = s.snap := rfl
@[simp] theorem State.nextFid_handled (s : State) : s.nextFid.handled = s.handled := rfl
@[simp] theorem State.nextFid_txDoneEvents (s : State) : s.nextFid.txDoneEvents = s.txDoneEvents := rfl
@[simp] theorem State.nextFid_rxovrEvents (s : State) : s.nextFid.rxovrEvents = s.rxovrEvents := rfl
@[simp] theorem State.nextFid_linkEvents (s : State) : s.nextFid.linkEvents = s.linkEvents := rfl
@[simp] theorem State.nextFid_rxDelivered (s : State) : s.nextFid.rxDelivered = s.rxDelivered := rfl
@[simp] theorem State.nextFid_rxDropped (s : State) : s.nextFid.rxDropped = s.rxDropped := rfl
@[simp] theorem State.nextFid_pollCount (s : State) : s.nextFid.pollCount = s.pollCount := rfl
@[simp] theorem State.nextFid_refused (s : State) : s.nextFid.refused = s.refused := rfl
@[simp] theorem State.nextFid_fault (s : State) : s.nextFid.fault = s.fault := rfl
@[simp] theorem State.nextFid_gRxConsumed (s : State) : s.nextFid.gRxConsumed = s.gRxConsumed := rfl
@[simp] theorem State.nextFid_gFifoBursts (s : State) : s.nextFid.gFifoBursts = s.gFifoBursts := rfl
@[simp] theorem State.nextFid_gSpiTxns (s : State) : s.nextFid.gSpiTxns = s.gSpiTxns := rfl
@[simp] theorem State.nextFid_inbox (s : State) : s.nextFid.inbox = s.inbox := rfl
@[simp] theorem State.nextFid_rivals (s : State) : s.nextFid.rivals = s.rivals := rfl
@[simp] theorem State.nextFid_script (s : State) : s.nextFid.script = s.script := rfl
@[simp] theorem State.nextFid_bus (s : State) : s.nextFid.bus = s.bus := rfl
@[simp] theorem State.nextFid_result (s : State) : s.nextFid.result = s.result := rfl

/-! ### resetFailed -/

@[simp] theorem State.resetFailed_cfg (s : State) : s.resetFailed.cfg = s.cfg := rfl
@[simp] theorem State.resetFailed_pc (s : State) : s.resetFailed.pc = s.pc := rfl
@[simp] theorem State.resetFailed_phase (s : State) : s.resetFailed.phase = .unreset := rfl
@[simp] theorem State.resetFailed_rxState (s : State) : s.resetFailed.rxState = s.rxState := rfl
@[simp] theorem State.resetFailed_spiBusy (s : State) : s.resetFailed.spiBusy = s.spiBusy := rfl
@[simp] theorem State.resetFailed_burstOpen (s : State) : s.resetFailed.burstOpen = s.burstOpen := rfl
@[simp] theorem State.resetFailed_rxStatus (s : State) : s.resetFailed.rxStatus = s.rxStatus := rfl
@[simp] theorem State.resetFailed_rxCount (s : State) : s.resetFailed.rxCount = s.rxCount := rfl
@[simp] theorem State.resetFailed_rxLeft (s : State) : s.resetFailed.rxLeft = s.rxLeft := rfl
@[simp] theorem State.resetFailed_rxDone (s : State) : s.resetFailed.rxDone = s.rxDone := rfl
@[simp] theorem State.resetFailed_stage (s : State) : s.resetFailed.stage = s.stage := rfl
@[simp] theorem State.resetFailed_txWritten (s : State) : s.resetFailed.txWritten = s.txWritten := rfl
@[simp] theorem State.resetFailed_txFid (s : State) : s.resetFailed.txFid = s.txFid := rfl
@[simp] theorem State.resetFailed_snap (s : State) : s.resetFailed.snap = s.snap := rfl
@[simp] theorem State.resetFailed_handled (s : State) : s.resetFailed.handled = s.handled := rfl
@[simp] theorem State.resetFailed_txDoneEvents (s : State) : s.resetFailed.txDoneEvents = s.txDoneEvents := rfl
@[simp] theorem State.resetFailed_rxovrEvents (s : State) : s.resetFailed.rxovrEvents = s.rxovrEvents := rfl
@[simp] theorem State.resetFailed_linkEvents (s : State) : s.resetFailed.linkEvents = s.linkEvents := rfl
@[simp] theorem State.resetFailed_rxDelivered (s : State) : s.resetFailed.rxDelivered = s.rxDelivered := rfl
@[simp] theorem State.resetFailed_rxDropped (s : State) : s.resetFailed.rxDropped = s.rxDropped := rfl
@[simp] theorem State.resetFailed_pollCount (s : State) : s.resetFailed.pollCount = s.pollCount := rfl
@[simp] theorem State.resetFailed_refused (s : State) : s.resetFailed.refused = s.refused := rfl
@[simp] theorem State.resetFailed_fault (s : State) : s.resetFailed.fault = s.fault := rfl
@[simp] theorem State.resetFailed_gRxConsumed (s : State) : s.resetFailed.gRxConsumed = s.gRxConsumed := rfl
@[simp] theorem State.resetFailed_gFifoBursts (s : State) : s.resetFailed.gFifoBursts = s.gFifoBursts := rfl
@[simp] theorem State.resetFailed_gSpiTxns (s : State) : s.resetFailed.gSpiTxns = s.gSpiTxns := rfl
@[simp] theorem State.resetFailed_inbox (s : State) : s.resetFailed.inbox = s.inbox := rfl
@[simp] theorem State.resetFailed_rivals (s : State) : s.resetFailed.rivals = s.rivals := rfl
@[simp] theorem State.resetFailed_script (s : State) : s.resetFailed.script = s.script := rfl
@[simp] theorem State.resetFailed_bus (s : State) : s.resetFailed.bus = s.bus := rfl
@[simp] theorem State.resetFailed_result (s : State) : s.resetFailed.result = s.result := rfl

/-! ### pollBegin -/

@[simp] theorem State.pollBegin_cfg (s : State) : s.pollBegin.cfg = s.cfg := rfl
@[simp] theorem State.pollBegin_pc (s : State) : s.pollBegin.pc = s.pc := rfl
@[simp] theorem State.pollBegin_phase (s : State) : s.pollBegin.phase = s.phase := rfl
@[simp] theorem State.pollBegin_rxState (s : State) : s.pollBegin.rxState = s.rxState := rfl
@[simp] theorem State.pollBegin_spiBusy (s : State) : s.pollBegin.spiBusy = s.spiBusy := rfl
@[simp] theorem State.pollBegin_burstOpen (s : State) : s.pollBegin.burstOpen = s.burstOpen := rfl
@[simp] theorem State.pollBegin_rxStatus (s : State) : s.pollBegin.rxStatus = s.rxStatus := rfl
@[simp] theorem State.pollBegin_rxCount (s : State) : s.pollBegin.rxCount = s.rxCount := rfl
@[simp] theorem State.pollBegin_rxLeft (s : State) : s.pollBegin.rxLeft = s.rxLeft := rfl
@[simp] theorem State.pollBegin_rxDone (s : State) : s.pollBegin.rxDone = s.rxDone := rfl
@[simp] theorem State.pollBegin_stage (s : State) : s.pollBegin.stage = s.stage := rfl
@[simp] theorem State.pollBegin_txWritten (s : State) : s.pollBegin.txWritten = s.txWritten := rfl
@[simp] theorem State.pollBegin_txFid (s : State) : s.pollBegin.txFid = s.txFid := rfl
@[simp] theorem State.pollBegin_snap (s : State) : s.pollBegin.snap = s.snap := rfl
@[simp] theorem State.pollBegin_handled (s : State) : s.pollBegin.handled = s.handled := rfl
@[simp] theorem State.pollBegin_txDoneEvents (s : State) : s.pollBegin.txDoneEvents = s.txDoneEvents := rfl
@[simp] theorem State.pollBegin_rxovrEvents (s : State) : s.pollBegin.rxovrEvents = s.rxovrEvents := rfl
@[simp] theorem State.pollBegin_linkEvents (s : State) : s.pollBegin.linkEvents = s.linkEvents := rfl
@[simp] theorem State.pollBegin_rxDelivered (s : State) : s.pollBegin.rxDelivered = s.rxDelivered := rfl
@[simp] theorem State.pollBegin_rxDropped (s : State) : s.pollBegin.rxDropped = s.rxDropped := rfl
@[simp] theorem State.pollBegin_pollCount (s : State) : s.pollBegin.pollCount = 0 := rfl
@[simp] theorem State.pollBegin_refused (s : State) : s.pollBegin.refused = s.refused := rfl
@[simp] theorem State.pollBegin_fault (s : State) : s.pollBegin.fault = s.fault := rfl
@[simp] theorem State.pollBegin_gRxConsumed (s : State) : s.pollBegin.gRxConsumed = s.gRxConsumed := rfl
@[simp] theorem State.pollBegin_gFifoBursts (s : State) : s.pollBegin.gFifoBursts = s.gFifoBursts := rfl
@[simp] theorem State.pollBegin_gSpiTxns (s : State) : s.pollBegin.gSpiTxns = s.gSpiTxns := rfl
@[simp] theorem State.pollBegin_inbox (s : State) : s.pollBegin.inbox = s.inbox := rfl
@[simp] theorem State.pollBegin_rivals (s : State) : s.pollBegin.rivals = s.rivals := rfl
@[simp] theorem State.pollBegin_script (s : State) : s.pollBegin.script = s.script := rfl
@[simp] theorem State.pollBegin_bus (s : State) : s.pollBegin.bus = s.bus := rfl
@[simp] theorem State.pollBegin_result (s : State) : s.pollBegin.result = s.result := rfl

/-! ### polled -/

@[simp] theorem State.polled_cfg (s : State) : s.polled.cfg = s.cfg := rfl
@[simp] theorem State.polled_pc (s : State) : s.polled.pc = s.pc := rfl
@[simp] theorem State.polled_phase (s : State) : s.polled.phase = s.phase := rfl
@[simp] theorem State.polled_rxState (s : State) : s.polled.rxState = s.rxState := rfl
@[simp] theorem State.polled_spiBusy (s : State) : s.polled.spiBusy = s.spiBusy := rfl
@[simp] theorem State.polled_burstOpen (s : State) : s.polled.burstOpen = s.burstOpen := rfl
@[simp] theorem State.polled_rxStatus (s : State) : s.polled.rxStatus = s.rxStatus := rfl
@[simp] theorem State.polled_rxCount (s : State) : s.polled.rxCount = s.rxCount := rfl
@[simp] theorem State.polled_rxLeft (s : State) : s.polled.rxLeft = s.rxLeft := rfl
@[simp] theorem State.polled_rxDone (s : State) : s.polled.rxDone = s.rxDone := rfl
@[simp] theorem State.polled_stage (s : State) : s.polled.stage = s.stage := rfl
@[simp] theorem State.polled_txWritten (s : State) : s.polled.txWritten = s.txWritten := rfl
@[simp] theorem State.polled_txFid (s : State) : s.polled.txFid = s.txFid := rfl
@[simp] theorem State.polled_snap (s : State) : s.polled.snap = s.snap := rfl
@[simp] theorem State.polled_handled (s : State) : s.polled.handled = s.handled := rfl
@[simp] theorem State.polled_txDoneEvents (s : State) : s.polled.txDoneEvents = s.txDoneEvents := rfl
@[simp] theorem State.polled_rxovrEvents (s : State) : s.polled.rxovrEvents = s.rxovrEvents := rfl
@[simp] theorem State.polled_linkEvents (s : State) : s.polled.linkEvents = s.linkEvents := rfl
@[simp] theorem State.polled_rxDelivered (s : State) : s.polled.rxDelivered = s.rxDelivered := rfl
@[simp] theorem State.polled_rxDropped (s : State) : s.polled.rxDropped = s.rxDropped := rfl
@[simp] theorem State.polled_pollCount (s : State) : s.polled.pollCount = s.pollCount + 1 := rfl
@[simp] theorem State.polled_refused (s : State) : s.polled.refused = s.refused := rfl
@[simp] theorem State.polled_fault (s : State) : s.polled.fault = s.fault := rfl
@[simp] theorem State.polled_gRxConsumed (s : State) : s.polled.gRxConsumed = s.gRxConsumed := rfl
@[simp] theorem State.polled_gFifoBursts (s : State) : s.polled.gFifoBursts = s.gFifoBursts := rfl
@[simp] theorem State.polled_gSpiTxns (s : State) : s.polled.gSpiTxns = s.gSpiTxns := rfl
@[simp] theorem State.polled_inbox (s : State) : s.polled.inbox = s.inbox := rfl
@[simp] theorem State.polled_rivals (s : State) : s.polled.rivals = s.rivals := rfl
@[simp] theorem State.polled_script (s : State) : s.polled.script = s.script := rfl
@[simp] theorem State.polled_bus (s : State) : s.polled.bus = s.bus := rfl
@[simp] theorem State.polled_result (s : State) : s.polled.result = s.result := rfl

/-! ### snapshot -/

@[simp] theorem State.snapshot_cfg (v : Word) (s : State) : (s.snapshot v).cfg = s.cfg := rfl
@[simp] theorem State.snapshot_pc (v : Word) (s : State) : (s.snapshot v).pc = s.pc := rfl
@[simp] theorem State.snapshot_phase (v : Word) (s : State) : (s.snapshot v).phase = s.phase := rfl
@[simp] theorem State.snapshot_rxState (v : Word) (s : State) : (s.snapshot v).rxState = s.rxState := rfl
@[simp] theorem State.snapshot_spiBusy (v : Word) (s : State) : (s.snapshot v).spiBusy = s.spiBusy := rfl
@[simp] theorem State.snapshot_burstOpen (v : Word) (s : State) : (s.snapshot v).burstOpen = s.burstOpen := rfl
@[simp] theorem State.snapshot_rxStatus (v : Word) (s : State) : (s.snapshot v).rxStatus = s.rxStatus := rfl
@[simp] theorem State.snapshot_rxCount (v : Word) (s : State) : (s.snapshot v).rxCount = s.rxCount := rfl
@[simp] theorem State.snapshot_rxLeft (v : Word) (s : State) : (s.snapshot v).rxLeft = s.rxLeft := rfl
@[simp] theorem State.snapshot_rxDone (v : Word) (s : State) : (s.snapshot v).rxDone = s.rxDone := rfl
@[simp] theorem State.snapshot_stage (v : Word) (s : State) : (s.snapshot v).stage = s.stage := rfl
@[simp] theorem State.snapshot_txWritten (v : Word) (s : State) : (s.snapshot v).txWritten = s.txWritten := rfl
@[simp] theorem State.snapshot_txFid (v : Word) (s : State) : (s.snapshot v).txFid = s.txFid := rfl
@[simp] theorem State.snapshot_snap (v : Word) (s : State) : (s.snapshot v).snap = v := rfl
@[simp] theorem State.snapshot_handled (v : Word) (s : State) : (s.snapshot v).handled = 0 := rfl
@[simp] theorem State.snapshot_txDoneEvents (v : Word) (s : State) : (s.snapshot v).txDoneEvents = s.txDoneEvents := rfl
@[simp] theorem State.snapshot_rxovrEvents (v : Word) (s : State) : (s.snapshot v).rxovrEvents = s.rxovrEvents := rfl
@[simp] theorem State.snapshot_linkEvents (v : Word) (s : State) : (s.snapshot v).linkEvents = s.linkEvents := rfl
@[simp] theorem State.snapshot_rxDelivered (v : Word) (s : State) : (s.snapshot v).rxDelivered = s.rxDelivered := rfl
@[simp] theorem State.snapshot_rxDropped (v : Word) (s : State) : (s.snapshot v).rxDropped = s.rxDropped := rfl
@[simp] theorem State.snapshot_pollCount (v : Word) (s : State) : (s.snapshot v).pollCount = s.pollCount := rfl
@[simp] theorem State.snapshot_refused (v : Word) (s : State) : (s.snapshot v).refused = s.refused := rfl
@[simp] theorem State.snapshot_fault (v : Word) (s : State) : (s.snapshot v).fault = s.fault := rfl
@[simp] theorem State.snapshot_gRxConsumed (v : Word) (s : State) : (s.snapshot v).gRxConsumed = s.gRxConsumed := rfl
@[simp] theorem State.snapshot_gFifoBursts (v : Word) (s : State) : (s.snapshot v).gFifoBursts = s.gFifoBursts := rfl
@[simp] theorem State.snapshot_gSpiTxns (v : Word) (s : State) : (s.snapshot v).gSpiTxns = s.gSpiTxns := rfl
@[simp] theorem State.snapshot_inbox (v : Word) (s : State) : (s.snapshot v).inbox = s.inbox := rfl
@[simp] theorem State.snapshot_rivals (v : Word) (s : State) : (s.snapshot v).rivals = s.rivals := rfl
@[simp] theorem State.snapshot_script (v : Word) (s : State) : (s.snapshot v).script = s.script := rfl
@[simp] theorem State.snapshot_bus (v : Word) (s : State) : (s.snapshot v).bus = s.bus := rfl
@[simp] theorem State.snapshot_result (v : Word) (s : State) : (s.snapshot v).result = s.result := rfl

/-! ### handledRx -/

@[simp] theorem State.handledRx_cfg (s : State) : s.handledRx.cfg = s.cfg := rfl
@[simp] theorem State.handledRx_pc (s : State) : s.handledRx.pc = s.pc := rfl
@[simp] theorem State.handledRx_phase (s : State) : s.handledRx.phase = s.phase := rfl
@[simp] theorem State.handledRx_rxState (s : State) : s.handledRx.rxState = s.rxState := rfl
@[simp] theorem State.handledRx_spiBusy (s : State) : s.handledRx.spiBusy = s.spiBusy := rfl
@[simp] theorem State.handledRx_burstOpen (s : State) : s.handledRx.burstOpen = s.burstOpen := rfl
@[simp] theorem State.handledRx_rxStatus (s : State) : s.handledRx.rxStatus = s.rxStatus := rfl
@[simp] theorem State.handledRx_rxCount (s : State) : s.handledRx.rxCount = s.rxCount := rfl
@[simp] theorem State.handledRx_rxLeft (s : State) : s.handledRx.rxLeft = s.rxLeft := rfl
@[simp] theorem State.handledRx_rxDone (s : State) : s.handledRx.rxDone = s.rxDone := rfl
@[simp] theorem State.handledRx_stage (s : State) : s.handledRx.stage = s.stage := rfl
@[simp] theorem State.handledRx_txWritten (s : State) : s.handledRx.txWritten = s.txWritten := rfl
@[simp] theorem State.handledRx_txFid (s : State) : s.handledRx.txFid = s.txFid := rfl
@[simp] theorem State.handledRx_snap (s : State) : s.handledRx.snap = s.snap := rfl
@[simp] theorem State.handledRx_handled (s : State) : s.handledRx.handled = s.handled ||| s.cfg.isrRx := rfl
@[simp] theorem State.handledRx_txDoneEvents (s : State) : s.handledRx.txDoneEvents = s.txDoneEvents := rfl
@[simp] theorem State.handledRx_rxovrEvents (s : State) : s.handledRx.rxovrEvents = s.rxovrEvents := rfl
@[simp] theorem State.handledRx_linkEvents (s : State) : s.handledRx.linkEvents = s.linkEvents := rfl
@[simp] theorem State.handledRx_rxDelivered (s : State) : s.handledRx.rxDelivered = s.rxDelivered := rfl
@[simp] theorem State.handledRx_rxDropped (s : State) : s.handledRx.rxDropped = s.rxDropped := rfl
@[simp] theorem State.handledRx_pollCount (s : State) : s.handledRx.pollCount = s.pollCount := rfl
@[simp] theorem State.handledRx_refused (s : State) : s.handledRx.refused = s.refused := rfl
@[simp] theorem State.handledRx_fault (s : State) : s.handledRx.fault = s.fault := rfl
@[simp] theorem State.handledRx_gRxConsumed (s : State) : s.handledRx.gRxConsumed = s.gRxConsumed := rfl
@[simp] theorem State.handledRx_gFifoBursts (s : State) : s.handledRx.gFifoBursts = s.gFifoBursts := rfl
@[simp] theorem State.handledRx_gSpiTxns (s : State) : s.handledRx.gSpiTxns = s.gSpiTxns := rfl
@[simp] theorem State.handledRx_inbox (s : State) : s.handledRx.inbox = s.inbox := rfl
@[simp] theorem State.handledRx_rivals (s : State) : s.handledRx.rivals = s.rivals := rfl
@[simp] theorem State.handledRx_script (s : State) : s.handledRx.script = s.script := rfl
@[simp] theorem State.handledRx_bus (s : State) : s.handledRx.bus = s.bus := rfl
@[simp] theorem State.handledRx_result (s : State) : s.handledRx.result = s.result := rfl

/-! ### submitNext -/

@[simp] theorem State.submitNext_cfg (sub : Submission) (s : State) : (s.submitNext sub).cfg = s.cfg := rfl
@[simp] theorem State.submitNext_pc (sub : Submission) (s : State) : (s.submitNext sub).pc = s.pc := rfl
@[simp] theorem State.submitNext_phase (sub : Submission) (s : State) : (s.submitNext sub).phase = s.phase := rfl
@[simp] theorem State.submitNext_rxState (sub : Submission) (s : State) : (s.submitNext sub).rxState = s.rxState := rfl
@[simp] theorem State.submitNext_spiBusy (sub : Submission) (s : State) : (s.submitNext sub).spiBusy = s.spiBusy := rfl
@[simp] theorem State.submitNext_burstOpen (sub : Submission) (s : State) : (s.submitNext sub).burstOpen = s.burstOpen := rfl
@[simp] theorem State.submitNext_rxStatus (sub : Submission) (s : State) : (s.submitNext sub).rxStatus = s.rxStatus := rfl
@[simp] theorem State.submitNext_rxCount (sub : Submission) (s : State) : (s.submitNext sub).rxCount = s.rxCount := rfl
@[simp] theorem State.submitNext_rxLeft (sub : Submission) (s : State) : (s.submitNext sub).rxLeft = s.rxLeft := rfl
@[simp] theorem State.submitNext_rxDone (sub : Submission) (s : State) : (s.submitNext sub).rxDone = s.rxDone := rfl
@[simp] theorem State.submitNext_stage (sub : Submission) (s : State) : (s.submitNext sub).stage = s.stage := rfl
@[simp] theorem State.submitNext_txWritten (sub : Submission) (s : State) : (s.submitNext sub).txWritten = s.txWritten := rfl
@[simp] theorem State.submitNext_txFid (sub : Submission) (s : State) : (s.submitNext sub).txFid = s.txFid := rfl
@[simp] theorem State.submitNext_snap (sub : Submission) (s : State) : (s.submitNext sub).snap = s.snap := rfl
@[simp] theorem State.submitNext_handled (sub : Submission) (s : State) : (s.submitNext sub).handled = s.handled := rfl
@[simp] theorem State.submitNext_txDoneEvents (sub : Submission) (s : State) : (s.submitNext sub).txDoneEvents = s.txDoneEvents := rfl
@[simp] theorem State.submitNext_rxovrEvents (sub : Submission) (s : State) : (s.submitNext sub).rxovrEvents = s.rxovrEvents := rfl
@[simp] theorem State.submitNext_linkEvents (sub : Submission) (s : State) : (s.submitNext sub).linkEvents = s.linkEvents := rfl
@[simp] theorem State.submitNext_rxDelivered (sub : Submission) (s : State) : (s.submitNext sub).rxDelivered = s.rxDelivered := rfl
@[simp] theorem State.submitNext_rxDropped (sub : Submission) (s : State) : (s.submitNext sub).rxDropped = s.rxDropped := rfl
@[simp] theorem State.submitNext_pollCount (sub : Submission) (s : State) : (s.submitNext sub).pollCount = s.pollCount := rfl
@[simp] theorem State.submitNext_refused (sub : Submission) (s : State) : (s.submitNext sub).refused = s.refused := rfl
@[simp] theorem State.submitNext_fault (sub : Submission) (s : State) : (s.submitNext sub).fault = s.fault := rfl
@[simp] theorem State.submitNext_gRxConsumed (sub : Submission) (s : State) : (s.submitNext sub).gRxConsumed = s.gRxConsumed := rfl
@[simp] theorem State.submitNext_gFifoBursts (sub : Submission) (s : State) : (s.submitNext sub).gFifoBursts = s.gFifoBursts := rfl
@[simp] theorem State.submitNext_gSpiTxns (sub : Submission) (s : State) : (s.submitNext sub).gSpiTxns = s.gSpiTxns := rfl
@[simp] theorem State.submitNext_inbox (sub : Submission) (s : State) : (s.submitNext sub).inbox = sub :: s.inbox := rfl
@[simp] theorem State.submitNext_rivals (sub : Submission) (s : State) : (s.submitNext sub).rivals = s.rivals := rfl
@[simp] theorem State.submitNext_script (sub : Submission) (s : State) : (s.submitNext sub).script = s.script := rfl
@[simp] theorem State.submitNext_bus (sub : Submission) (s : State) : (s.submitNext sub).bus = s.bus := rfl
@[simp] theorem State.submitNext_result (sub : Submission) (s : State) : (s.submitNext sub).result = s.result := rfl

/-! ### afterReset -/

@[simp] theorem State.afterReset_cfg (s : State) : s.afterReset.cfg = s.cfg := rfl
@[simp] theorem State.afterReset_pc (s : State) : s.afterReset.pc = s.pc := rfl
@[simp] theorem State.afterReset_phase (s : State) : s.afterReset.phase = .reset := rfl
@[simp] theorem State.afterReset_rxState (s : State) : s.afterReset.rxState = .idle := rfl
@[simp] theorem State.afterReset_spiBusy (s : State) : s.afterReset.spiBusy = false := rfl
@[simp] theorem State.afterReset_burstOpen (s : State) : s.afterReset.burstOpen = false := rfl
@[simp] theorem State.afterReset_rxStatus (s : State) : s.afterReset.rxStatus = 0 := rfl
@[simp] theorem State.afterReset_rxCount (s : State) : s.afterReset.rxCount = 0 := rfl
@[simp] theorem State.afterReset_rxLeft (s : State) : s.afterReset.rxLeft = 0 := rfl
@[simp] theorem State.afterReset_rxDone (s : State) : s.afterReset.rxDone = 0 := rfl
@[simp] theorem State.afterReset_stage (s : State) : s.afterReset.stage = s.stage := rfl
@[simp] theorem State.afterReset_txWritten (s : State) : s.afterReset.txWritten = 0 := rfl
@[simp] theorem State.afterReset_txFid (s : State) : s.afterReset.txFid = 0 := rfl
@[simp] theorem State.afterReset_snap (s : State) : s.afterReset.snap = 0 := rfl
@[simp] theorem State.afterReset_handled (s : State) : s.afterReset.handled = 0 := rfl
@[simp] theorem State.afterReset_txDoneEvents (s : State) : s.afterReset.txDoneEvents = s.txDoneEvents := rfl
@[simp] theorem State.afterReset_rxovrEvents (s : State) : s.afterReset.rxovrEvents = s.rxovrEvents := rfl
@[simp] theorem State.afterReset_linkEvents (s : State) : s.afterReset.linkEvents = s.linkEvents := rfl
@[simp] theorem State.afterReset_rxDelivered (s : State) : s.afterReset.rxDelivered = s.rxDelivered := rfl
@[simp] theorem State.afterReset_rxDropped (s : State) : s.afterReset.rxDropped = s.rxDropped := rfl
@[simp] theorem State.afterReset_pollCount (s : State) : s.afterReset.pollCount = 0 := rfl
@[simp] theorem State.afterReset_refused (s : State) : s.afterReset.refused = s.refused := rfl
@[simp] theorem State.afterReset_fault (s : State) : s.afterReset.fault = s.fault := rfl
@[simp] theorem State.afterReset_gRxConsumed (s : State) : s.afterReset.gRxConsumed = s.gRxConsumed := rfl
@[simp] theorem State.afterReset_gFifoBursts (s : State) : s.afterReset.gFifoBursts = s.gFifoBursts := rfl
@[simp] theorem State.afterReset_gSpiTxns (s : State) : s.afterReset.gSpiTxns = s.gSpiTxns := rfl
@[simp] theorem State.afterReset_inbox (s : State) : s.afterReset.inbox = s.inbox := rfl
@[simp] theorem State.afterReset_rivals (s : State) : s.afterReset.rivals = s.rivals := rfl
@[simp] theorem State.afterReset_script (s : State) : s.afterReset.script = s.script := rfl
@[simp] theorem State.afterReset_bus (s : State) : s.afterReset.bus = s.bus := rfl
@[simp] theorem State.afterReset_result (s : State) : s.afterReset.result = s.result := rfl

end Sys2Proof.Machine
end

