-- ==== Sys2Proof/Laws/Ops.lean ====
section
/-!
SUPPORT. For each shared operation, what it does, said once: the SPI transaction primitive as
bookkeeping (`afterTxns`), the register and FIFO transfers, write lists, and `perform` outcome by outcome.
-/

namespace Sys2Proof.Machine

variable {α β : Type}

/-! ## The sequencer -/

@[simp] theorem Seq.skip_zero (p : Seq) : p.skip 0 = p := by cases p <;> rfl

theorem Seq.skip_skip (p : Seq) (m n : Nat) : (p.skip m).skip n = p.skip (m + n) := by
  cases p <;> simp [Seq.skip, Nat.add_assoc]

theorem Seq.next_eq_skip (p : Seq) : p.next = p.skip 1 := by cases p <;> rfl

/-! ## Chaining -/

@[simp] theorem Ran.andThen_ok (a : α) (s : State) (f : α → State → Ran β) :
    (Ran.mk (.ok a) s).andThen f = f a s := rfl

@[simp] theorem Ran.andThen_error (e : Error) (s : State) (f : α → State → Ran β) :
    (Ran.mk (.error e) s).andThen f = ⟨.error e, s⟩ := rfl

@[simp] theorem Ran.pure_eq (a : α) (s : State) : Ran.pure a s = ⟨.ok a, s⟩ := rfl

@[simp] theorem Ran.throw_eq (e : Error) (s : State) : (Ran.throw e s : Ran α) = ⟨.error e, s⟩ := rfl

@[simp] theorem Ran.finish_ok (r : Result) (s : State) : (Ran.mk (.ok r) s).finish = s.leave r := rfl

@[simp] theorem Ran.finish_error (e : Error) (s : State) :
    (Ran.mk (.error e) s).finish = s.raise e := rfl

/-! ## Rows of transactions -/

@[simp] theorem State.afterTxns_nil (s : State) : s.afterTxns [] = s := by
  simp [State.afterTxns]

theorem State.afterTxns_afterTxns (s : State) (xs ys : List Txn) :
    (s.afterTxns xs).afterTxns ys = s.afterTxns (xs ++ ys) := by
  simp [State.afterTxns, Seq.skip_skip, List.drop_drop, Nat.add_assoc, Nat.mul_add]

/-! ## Checks passed -/

theorem State.advance_eq_pass (s : State) : s.advance = s.pass 1 := by
  simp [State.advance, State.pass, Seq.next_eq_skip]

@[simp] theorem State.pass_zero (s : State) : s.pass 0 = s := by simp [State.pass]

theorem State.pass_pass (s : State) (m n : Nat) : (s.pass m).pass n = s.pass (m + n) := by
  simp [State.pass, Seq.skip_skip]

/-- The position counts transactions and checks in any order alike. -/
theorem State.pass_afterTxns (s : State) (xs : List Txn) (n : Nat) :
    (s.afterTxns xs).pass n = (s.pass n).afterTxns xs := by
  simp [State.pass, State.afterTxns, Seq.skip_skip, Nat.add_comm]

@[simp] theorem State.answer_pass (s : State) (k j n : Nat) :
    (s.pass k).answer j n = s.answer j n := rfl

@[simp] theorem State.plays_pass (s : State) (k : Nat) (xs : List Txn) :
    (s.pass k).plays xs ↔ s.plays xs := Iff.rfl

theorem State.answer_afterTxns (s : State) (xs : List Txn) (j n : Nat) :
    (s.afterTxns xs).answer j n = s.answer (xs.length + j) n := by
  simp [State.answer, List.getElem?_drop, Nat.add_assoc]

theorem received_length (txn : Nat) (i n : Nat) (bytes : List Byte) :
    (received txn i n bytes).length = n := by
  induction n generalizing i bytes with
  | zero => simp [received]
  | succ n ih => cases bytes <;> simp [received, ih]

/-- An `ok` answer has exactly the bytes asked for (R66: "`len(in) = n`"). -/
theorem State.answer_length {s : State} {j n : Nat} {bytes : List Byte}
    (h : s.answer j n = some bytes) : bytes.length = n := by
  simp only [State.answer] at h
  split at h
  · exact absurd h (by simp)
  · simp only [Option.some.injEq] at h
    rw [← h, received_length]
  · split at h
    · exact absurd h (by simp)
    · simp only [Option.some.injEq] at h
      rw [← h, received_length]

/-- Whether a transaction fails does not depend on the length of its read phase. -/
theorem State.answer_none (s : State) (j m n : Nat) (h : s.answer j m = none) :
    s.answer j n = none := by
  simp only [State.answer] at h ⊢
  split at h
  · rfl
  · simp at h
  · split at h
    · simp_all
    · simp at h

/-- The answer of a transaction with no read phase is `fail` or no bytes. -/
theorem State.answer_zero (s : State) (j : Nat) :
    s.answer j 0 = none ∨ s.answer j 0 = some [] := by
  cases h : s.answer j 0 with
  | none => exact .inl rfl
  | some bytes => exact .inr (by rw [List.eq_nil_of_length_eq_zero (State.answer_length h)])

/-! ## Answers given as a row of transactions -/

@[simp] theorem State.plays_nil (s : State) : s.plays [] := by
  intro j x h
  simp at h

theorem State.plays_cons {s : State} {x : Txn} {xs : List Txn} :
    s.plays (x :: xs) ↔
      s.answer 0 x.readLength = x.received ∧ ∀ y : Txn, (s.afterTxns [y]).plays xs := by
  constructor
  · intro h
    refine ⟨h 0 x rfl, fun y j z hz => ?_⟩
    rw [State.answer_afterTxns]
    have := h (j + 1) z (by simpa using hz)
    simpa [Nat.add_comm] using this
  · rintro ⟨h0, h⟩ j z hz
    cases j with
    | zero =>
      obtain rfl : x = z := by simpa using hz
      exact h0
    | succ j =>
      have := h x j z (by simpa using hz)
      rw [State.answer_afterTxns] at this
      simpa [Nat.add_comm] using this

/-- The answers of a longer row are those of its parts, the second part's from where the first ends. -/
theorem State.plays_append {s : State} {xs ys : List Txn} :
    s.plays (xs ++ ys) ↔ s.plays xs ∧ (s.afterTxns xs).plays ys := by
  constructor
  · intro h
    refine ⟨fun j x hx => h j x ?_, fun j y hy => ?_⟩
    · rw [List.getElem?_append_left (by
        obtain ⟨hlt, _⟩ := List.getElem?_eq_some_iff.mp hx
        exact hlt)]
      exact hx
    · rw [State.answer_afterTxns]
      refine h (xs.length + j) y ?_
      rw [List.getElem?_append_right (by omega)]
      simpa using hy
  · rintro ⟨h1, h2⟩ j x hx
    by_cases hj : j < xs.length
    · exact h1 j x (by rwa [List.getElem?_append_left hj] at hx)
    · have := h2 (j - xs.length) x (by rwa [List.getElem?_append_right (by omega)] at hx)
      rw [State.answer_afterTxns] at this
      rwa [show xs.length + (j - xs.length) = j by omega] at this

theorem State.plays_head {s : State} {x : Txn} {xs : List Txn} (h : s.plays (x :: xs)) :
    s.answer 0 x.readLength = x.received := (State.plays_cons.mp h).1

/-- The answers depend on the script and on the number of transactions only. -/
theorem State.plays_congr {s t : State} {xs : List Txn} (hs : t.script = s.script)
    (hg : t.gSpiTxns = s.gSpiTxns) : t.plays xs ↔ s.plays xs := by
  simp [State.plays, State.answer, hs, hg]

/-! ## The SPI transaction primitive -/

/-- R66 and R67 at once: from a state with no transaction in flight, a transaction is its answer and its
bookkeeping. -/
theorem State.spiTxn_eq {s : State} (hb : s.spiBusy = false) (ho : s.burstOpen = false)
    (burst : Bool) (out : List Byte) (n : Nat) :
    s.spiTxn burst out n =
      (s.answer 0 n,
        s.afterTxns [⟨out ++ List.replicate n s.cfg.dummyTx, s.answer 0 n, s.rxState, burst⟩]) := by
  unfold State.spiTxn State.afterTxns
  cases burst <;>
    simp [State.issue, State.complete, State.record, State.pass, hb, ho]

theorem spi_ok {s : State} {n : Nat} {got : List Byte} (hb : s.spiBusy = false)
    (ho : s.burstOpen = false) (h : s.answer 0 n = some got) (burst : Bool) (site : Site)
    (out : List Byte) :
    spi burst site out n s = ⟨.ok got,
      s.afterTxns [⟨out ++ List.replicate n s.cfg.dummyTx, some got, s.rxState, burst⟩]⟩ := by
  simp [spi, State.spiTxn_eq hb ho, h]

theorem spi_fail {s : State} {n : Nat} (hb : s.spiBusy = false) (ho : s.burstOpen = false)
    (h : s.answer 0 n = none) (burst : Bool) (site : Site) (out : List Byte) :
    spi burst site out n s = ⟨.error (.busError site),
      s.afterTxns [⟨out ++ List.replicate n s.cfg.dummyTx, none, s.rxState, burst⟩]⟩ := by
  simp [spi, State.spiTxn_eq hb ho, h]

/-! ## Register transfers -/

theorem regRead_ok {s : State} {r : Reg} {got : List Byte} (hb : s.spiBusy = false)
    (ho : s.burstOpen = false) (h : s.answer 0 r.width.bytes = some got) :
    regRead r s = ⟨.ok (readValue s.cfg.dataEndian r.width got),
      s.afterTxns [Txn.ofRead s.cfg s.rxState r (some got)]⟩ := by
  simp [regRead, spi_ok hb ho h, Txn.ofRead]

theorem regRead_fail {s : State} {r : Reg} (hb : s.spiBusy = false) (ho : s.burstOpen = false)
    (h : s.answer 0 r.width.bytes = none) :
    regRead r s = ⟨.error (.busError (.register r.addr)),
      s.afterTxns [Txn.ofRead s.cfg s.rxState r none]⟩ := by
  simp [regRead, spi_fail hb ho h, Txn.ofRead]

theorem regWrite_ok {s : State} {r : Reg} {v : Word} (hb : s.spiBusy = false)
    (ho : s.burstOpen = false) (h : s.answer 0 0 = some []) :
    regWrite r v s = ⟨.ok (), s.afterTxns [Txn.ofWrite s.cfg s.rxState (some []) ⟨r, v⟩]⟩ := by
  simp [regWrite, spi_ok hb ho h, Txn.ofWrite]

theorem regWrite_fail {s : State} {r : Reg} {v : Word} (hb : s.spiBusy = false)
    (ho : s.burstOpen = false) (h : s.answer 0 0 = none) :
    regWrite r v s = ⟨.error (.busError (.register r.addr)),
      s.afterTxns [Txn.ofWrite s.cfg s.rxState none ⟨r, v⟩]⟩ := by
  simp [regWrite, spi_fail hb ho h, Txn.ofWrite]

theorem Txn.ofWrites_length (cfg : Config) (rx : RxState) (ws : List RegWrite) :
    (Txn.ofWrites cfg rx ws).length = ws.length := by simp [Txn.ofWrites]

theorem Txn.ofWrites_append (cfg : Config) (rx : RxState) (a b : List RegWrite) :
    Txn.ofWrites cfg rx (a ++ b) = Txn.ofWrites cfg rx a ++ Txn.ofWrites cfg rx b :=
  List.map_append

/-- A write list whose transactions all complete (R135). -/
theorem writeList_ok {s : State} (ws : List RegWrite) (hb : s.spiBusy = false)
    (ho : s.burstOpen = false) (h : s.plays (Txn.ofWrites s.cfg s.rxState ws)) :
    writeList ws s = ⟨.ok (), s.afterTxns (Txn.ofWrites s.cfg s.rxState ws)⟩ := by
  induction ws generalizing s with
  | nil => simp [writeList, Txn.ofWrites]
  | cons w ws ih =>
    obtain ⟨h0, hs⟩ := State.plays_cons.mp h
    rw [writeList, regWrite_ok hb ho h0, Ran.andThen_ok, ih (by simpa) (by simpa) (hs _),
      State.afterTxns_afterTxns]
    rfl

/-- A write list that stops at its first failure, the write `w` (R135). -/
theorem writeList_fail {s : State} (before rest : List RegWrite) (w : RegWrite)
    (hb : s.spiBusy = false) (ho : s.burstOpen = false)
    (h : s.plays (Txn.ofWrites s.cfg s.rxState before ++ [Txn.ofWrite s.cfg s.rxState none w])) :
    writeList (before ++ w :: rest) s = ⟨.error (.busError (.register w.reg.addr)),
      s.afterTxns (Txn.ofWrites s.cfg s.rxState before
        ++ [Txn.ofWrite s.cfg s.rxState none w])⟩ := by
  induction before generalizing s with
  | nil =>
    rw [List.nil_append, writeList, regWrite_fail hb ho (State.plays_head h), Ran.andThen_error]
    rfl
  | cons x before ih =>
    obtain ⟨h0, hs⟩ := State.plays_cons.mp h
    rw [List.cons_append, writeList, regWrite_ok hb ho h0, Ran.andThen_ok,
      ih (by simpa) (by simpa) (hs _), State.afterTxns_afterTxns]
    rfl

/-- Everything a write list can do: all its transactions complete, or one fails and is the last. -/
theorem writeList_cases {s : State} (ws : List RegWrite) (hb : s.spiBusy = false)
    (ho : s.burstOpen = false) :
    s.plays (Txn.ofWrites s.cfg s.rxState ws) ∨
    ∃ before w rest, ws = before ++ w :: rest ∧
      s.plays (Txn.ofWrites s.cfg s.rxState before ++ [Txn.ofWrite s.cfg s.rxState none w]) := by
  induction ws generalizing s with
  | nil => exact .inl (by simp [Txn.ofWrites])
  | cons w ws ih =>
    rcases State.answer_zero s 0 with h | h
    · refine .inr ⟨[], w, ws, rfl, State.plays_cons.mpr ⟨h, fun _ => State.plays_nil _⟩⟩
    · have key : ∀ (y : Txn) (xs : List Txn), (s.afterTxns [y]).plays xs →
          s.plays (Txn.ofWrite s.cfg s.rxState (some []) w :: xs) := fun y xs hx =>
        State.plays_cons.mpr ⟨h, fun z => (State.plays_congr rfl rfl).mp hx⟩
      rcases ih (s := s.afterTxns [Txn.ofWrite s.cfg s.rxState (some []) w]) hb ho with
        hx | ⟨before, x, rest, rfl, hx⟩
      · exact .inl (key _ _ hx)
      · exact .inr ⟨w :: before, x, rest, rfl, key _ _ hx⟩

/-! ## FIFO transfers -/

theorem rxTransfer_ok {s : State} {m : Nat} {got : List Byte} (hb : s.spiBusy = false)
    (ho : s.burstOpen = false) (h : s.answer 0 (s.cfg.rxLead + alignUp m s.cfg.rxAlign) = some got) :
    rxTransfer m s = ⟨.ok ((got.drop s.cfg.rxLead).take m),
      s.afterTxns [Txn.ofRxBurst s.cfg s.rxState m (some got)]⟩ := by
  simp [rxTransfer, spi_ok hb ho h, Txn.ofRxBurst]

theorem rxTransfer_fail {s : State} {m : Nat} (hb : s.spiBusy = false) (ho : s.burstOpen = false)
    (h : s.answer 0 (s.cfg.rxLead + alignUp m s.cfg.rxAlign) = none) :
    rxTransfer m s = ⟨.error (.busError .fifo),
      s.afterTxns [Txn.ofRxBurst s.cfg s.rxState m none]⟩ := by
  simp [rxTransfer, spi_fail hb ho h, Txn.ofRxBurst]

theorem txTransfer_ok {s : State} {d : List Byte} (hb : s.spiBusy = false)
    (ho : s.burstOpen = false) (h : s.answer 0 0 = some []) :
    txTransfer d s = ⟨.ok (), s.afterTxns [Txn.ofTxBurst s.cfg s.rxState d (some [])]⟩ := by
  simp [txTransfer, spi_ok hb ho h, Txn.ofTxBurst, txPadded]

theorem txTransfer_fail {s : State} {d : List Byte} (hb : s.spiBusy = false)
    (ho : s.burstOpen = false) (h : s.answer 0 0 = none) :
    txTransfer d s = ⟨.error (.busError .fifo),
      s.afterTxns [Txn.ofTxBurst s.cfg s.rxState d none]⟩ := by
  simp [txTransfer, spi_fail hb ho h, Txn.ofTxBurst, txPadded]

/-- `RxBurst(m)` whose transactions all complete (R150). -/
theorem rxBurst_ok {s : State} {m : Nat} {got : List Byte} (hb : s.spiBusy = false)
    (ho : s.burstOpen = false) (hl : got.length = s.cfg.rxLead + alignUp m s.cfg.rxAlign)
    (h : s.plays (Txn.ofWrites s.cfg s.rxState s.cfg.rxPre
      ++ Txn.ofRxBurst s.cfg s.rxState m (some got)
        :: Txn.ofWrites s.cfg s.rxState s.cfg.rxPost)) :
    rxBurst m s = ⟨.ok ((got.drop s.cfg.rxLead).take m),
      s.afterTxns (Txn.ofWrites s.cfg s.rxState s.cfg.rxPre
        ++ Txn.ofRxBurst s.cfg s.rxState m (some got)
          :: Txn.ofWrites s.cfg s.rxState s.cfg.rxPost)⟩ := by
  obtain ⟨hpre, h1⟩ := State.plays_append.mp h
  obtain ⟨h0, hpost⟩ := State.plays_cons.mp h1
  have h0' : (s.afterTxns (Txn.ofWrites s.cfg s.rxState s.cfg.rxPre)).answer 0
      (s.cfg.rxLead + alignUp m s.cfg.rxAlign) = some got := by
    rw [← hl]
    exact h0
  unfold rxBurst
  rw [writeList_ok _ hb ho hpre, Ran.andThen_ok, rxTransfer_ok (s := s.afterTxns _) hb ho h0',
    Ran.andThen_ok, writeList_ok (s := (s.afterTxns _).afterTxns _) _ hb ho (hpost _),
    Ran.andThen_ok]
  simp [State.afterTxns_afterTxns]

/-- The writes of FIFO_WRITE's body before its burst (R160, 92 D21), for the total of that burst. -/
def txOpening (cfg : Config) (total : Word) : List RegWrite :=
  cfg.txPre ++ frameLengthWrites cfg .beforeBurst total

/-- The writes of FIFO_WRITE's body after its burst (R160, R161), for the total tracked. -/
def txClosing (cfg : Config) (total : Word) : List RegWrite :=
  frameLengthWrites cfg .afterBurst total ++ cfg.txPost

theorem txBurstClose_eq (s : State) : txBurstClose s =
    writeList (txClosing s.cfg s.txWritten) (s.pass (frameLengthTests s.cfg .afterBurst)) := rfl

/-- The writes before the burst, all completed; the frame-length test, if it stands there, is passed between
them. -/
theorem txOpening_ok {s : State} {total : Word} (hb : s.spiBusy = false)
    (ho : s.burstOpen = false) (h : s.plays (Txn.ofWrites s.cfg s.rxState (txOpening s.cfg total)))
    (k : Nat) (f : State → Ran Unit) :
    ((writeList s.cfg.txPre s).andThen fun _ t =>
      (writeList (frameLengthWrites s.cfg .beforeBurst total) (t.pass k)).andThen fun _ u => f u)
      = f ((s.pass k).afterTxns (Txn.ofWrites s.cfg s.rxState (txOpening s.cfg total))) := by
  rw [txOpening, Txn.ofWrites_append] at h ⊢
  obtain ⟨hpre, hlen⟩ := State.plays_append.mp h
  rw [writeList_ok _ hb ho hpre, Ran.andThen_ok, State.pass_afterTxns,
    writeList_ok (s := (s.pass k).afterTxns _) _ hb ho hlen, Ran.andThen_ok,
    State.afterTxns_afterTxns]
  rfl

/-- FIFO_WRITE's body up to its burst, where its transactions complete (R160). -/
theorem txBurstOpen_ok {s : State} {d : List Byte} {total : Word} (hb : s.spiBusy = false)
    (ho : s.burstOpen = false) (ht : total = txWrittenOf (alignUp d.length s.cfg.txAlign))
    (h : s.plays (Txn.ofWrites s.cfg s.rxState (txOpening s.cfg total)
      ++ [Txn.ofTxBurst s.cfg s.rxState d (some [])])) :
    txBurstOpen d s = ⟨.ok (),
      { (s.pass (frameLengthTests s.cfg .beforeBurst)).afterTxns
          (Txn.ofWrites s.cfg s.rxState (txOpening s.cfg total)
            ++ [Txn.ofTxBurst s.cfg s.rxState d (some [])]) with
        txWritten := total }⟩ := by
  subst ht
  obtain ⟨hpre, h1⟩ := State.plays_append.mp h
  unfold txBurstOpen
  rw [txOpening_ok hb ho hpre,
    txTransfer_ok (s := (s.pass _).afterTxns _) hb ho (State.plays_head h1)]
  simp [State.afterTxns_afterTxns]

/-- FIFO_WRITE's body where its burst fails (R160): `tx_written` becomes 0. -/
theorem txBurstOpen_burst_fail {s : State} {d : List Byte} {total : Word} (hb : s.spiBusy = false)
    (ho : s.burstOpen = false) (ht : total = txWrittenOf (alignUp d.length s.cfg.txAlign))
    (h : s.plays (Txn.ofWrites s.cfg s.rxState (txOpening s.cfg total)
      ++ [Txn.ofTxBurst s.cfg s.rxState d none])) :
    txBurstOpen d s = ⟨.error (.busError .fifo),
      { (s.pass (frameLengthTests s.cfg .beforeBurst)).afterTxns
          (Txn.ofWrites s.cfg s.rxState (txOpening s.cfg total)
            ++ [Txn.ofTxBurst s.cfg s.rxState d none]) with
        txWritten := 0 }⟩ := by
  subst ht
  obtain ⟨hpre, h1⟩ := State.plays_append.mp h
  unfold txBurstOpen
  rw [txOpening_ok hb ho hpre,
    txTransfer_fail (s := (s.pass _).afterTxns _) hb ho (State.plays_head h1)]
  simp [State.afterTxns_afterTxns]

/-- FIFO_WRITE's body where a write before its burst fails (R160): no burst, `tx_written` as it was. -/
theorem txBurstOpen_write_fail {s : State} {d : List Byte} {total : Word}
    {before after : List RegWrite} {w : RegWrite} (hb : s.spiBusy = false) (ho : s.burstOpen = false)
    (ht : total = txWrittenOf (alignUp d.length s.cfg.txAlign))
    (hw : txOpening s.cfg total = before ++ w :: after)
    (h : s.plays (Txn.ofWrites s.cfg s.rxState before ++ [Txn.ofWrite s.cfg s.rxState none w])) :
    ∃ k, txBurstOpen d s = ⟨.error (.busError (.register w.reg.addr)),
      (s.pass k).afterTxns (Txn.ofWrites s.cfg s.rxState before
        ++ [Txn.ofWrite s.cfg s.rxState none w])⟩ := by
  subst ht
  unfold txBurstOpen
  obtain ⟨l, hl, hr⟩ | ⟨l, hl, hr⟩ := List.append_eq_append_iff.mp hw
  · subst hl
    rw [Txn.ofWrites_append, List.append_assoc] at h
    obtain ⟨hpre, hlen⟩ := State.plays_append.mp h
    refine ⟨frameLengthTests s.cfg .beforeBurst, ?_⟩
    rw [writeList_ok _ hb ho hpre, Ran.andThen_ok, State.pass_afterTxns, hr,
      writeList_fail (s := (s.pass _).afterTxns _) _ _ _ hb ho hlen, Ran.andThen_error,
      State.afterTxns_afterTxns, Txn.ofWrites_append, List.append_assoc]
    rfl
  · cases l with
    | nil =>
      simp only [List.append_nil, List.nil_append] at hl hr
      subst hl
      obtain ⟨hpre, hlen⟩ := State.plays_append.mp h
      refine ⟨frameLengthTests s.cfg .beforeBurst, ?_⟩
      rw [writeList_ok _ hb ho hpre, Ran.andThen_ok, State.pass_afterTxns,
        ← hr, ← List.nil_append (w :: after),
        writeList_fail (s := (s.pass _).afterTxns _) [] after w hb ho hlen, Ran.andThen_error,
        State.afterTxns_afterTxns]
      rfl
    | cons x l =>
      simp only [List.cons_append, List.cons.injEq] at hr
      obtain ⟨rfl, -⟩ := hr
      refine ⟨0, ?_⟩
      rw [hl, writeList_fail _ _ _ hb ho h, Ran.andThen_error, State.pass_zero]

/-! ## Requests -/

theorem State.occupied_of_free {s : State} (h : s.free) : s.occupied = false := by
  obtain ⟨h1, h2, h3⟩ := h
  simp [State.occupied, h1, h2, h3]

theorem State.free_begun {s : State} (h : s.free) : s.begun.free := h

/-- R305: a request that arrives while an operation is in progress records the fault, nothing else. -/
theorem perform_occupied {s : State} (h : s.occupied = true) (op : Op)
    (checks : List (Bool × Reason)) (body : State → Ran Result) :
    perform op checks body s = s.concurrentAccess := by
  simp [perform, h]

/-- The state a body starts in: the operation begun, its checks passed (R21, R305, R307). -/
def State.admitted (op : Op) (checks : List (Bool × Reason)) (s : State) : State :=
  (s.begun.enter op).pass (phaseTests op + checks.length)

@[simp] theorem State.admitted_cfg (op : Op) (checks : List (Bool × Reason)) (s : State) :
    (s.admitted op checks).cfg = s.cfg := rfl

/-- An admitted request without a refusal runs its body (R307). -/
theorem perform_body {s : State} (h : s.free) {op : Op} (ha : admission op s.phase = .admitted)
    {checks : List (Bool × Reason)} (hc : firstRefusal checks = none) (body : State → Ran Result) :
    perform op checks body s = (body (s.admitted op checks)).finish := by
  simp [perform, State.occupied_of_free h, ha, hc, State.admitted]

/-- The end of an operation begun from `Ready`: of the sequencer nothing stays (R21). -/
theorem State.leave_afterTxns_enter {s : State} (h : s.pc = .ready) (op : Op) (k : Nat)
    (xs : List Txn) (r : Result) :
    (((s.enter op).pass k).afterTxns xs).leave r = { s.afterTxns xs with result := some r } := by
  cases s
  cases h
  rfl

/-- A request that ends refused: its operation began, nothing else (R304). -/
theorem State.refuse_begun {s : State} (h : s.pc = .ready) (op : Op) (why : Reason) :
    (s.begun.enter op).refuse why
      = { s.begun with refused := true, result := some (.refused why) } := by
  cases s
  cases h
  rfl

/-- A request that its phase raises: its operation began, nothing else (R306). -/
theorem State.raise_begun {s : State} (h : s.pc = .ready) (op : Op) (e : Error) :
    (s.begun.enter op).raise e = { s.begun with result := some (.raised e) } := by
  cases s
  cases h
  rfl

/-- A request its phase refuses (R306). -/
theorem perform_phase_refused {s : State} (h : s.free) {op : Op} {why : Reason}
    (ha : admission op s.phase = .refuse why) (checks : List (Bool × Reason))
    (body : State → Ran Result) : perform op checks body s
      = { s.begun with refused := true, result := some (.refused why) } := by
  simp [perform, State.occupied_of_free h, ha, State.refuse_begun h.1]

/-- A request its phase raises (R306). -/
theorem perform_phase_raised {s : State} (h : s.free) {op : Op}
    (ha : admission op s.phase = .raise) (checks : List (Bool × Reason))
    (body : State → Ran Result) : perform op checks body s
      = { s.begun with result := some (.raised (.fifoDesync none)) } := by
  simp [perform, State.occupied_of_free h, ha, State.raise_begun h.1]

/-- An admitted request whose checks refuse it (R304). -/
theorem perform_refused {s : State} (h : s.free) {op : Op} (ha : admission op s.phase = .admitted)
    {checks : List (Bool × Reason)} {why : Reason} (hc : firstRefusal checks = some why)
    (body : State → Ran Result) :
    perform op checks body s
      = { s.begun with refused := true, result := some (.refused why) } := by
  simp [perform, State.occupied_of_free h, ha, hc, State.refuse_begun h.1]

theorem State.free_of_occupied {s : State} (h : s.occupied = false) : s.free := by
  simp only [State.occupied, Bool.or_eq_false_iff, bne_eq_false_iff_eq] at h
  exact ⟨h.1.1, h.1.2, h.2⟩

/-- Everything `perform` can do. -/
theorem perform_cases (op : Op) (checks : List (Bool × Reason)) (body : State → Ran Result)
    (s : State) :
    (s.occupied = true ∧ perform op checks body s = s.concurrentAccess) ∨
    (s.free ∧ ∃ why, admission op s.phase = .refuse why ∧ perform op checks body s
      = { s.begun with refused := true, result := some (.refused why) }) ∨
    (s.free ∧ admission op s.phase = .raise ∧ perform op checks body s
      = { s.begun with result := some (.raised (.fifoDesync none)) }) ∨
    (s.free ∧ admission op s.phase = .admitted ∧ ∃ why, firstRefusal checks = some why ∧
      perform op checks body s = { s.begun with refused := true, result := some (.refused why) }) ∨
    (s.free ∧ admission op s.phase = .admitted ∧ firstRefusal checks = none ∧
      perform op checks body s = (body (s.admitted op checks)).finish) := by
  cases ho : s.occupied with
  | true => exact .inl ⟨rfl, perform_occupied ho ..⟩
  | false =>
    have hf := State.free_of_occupied ho
    refine .inr ?_
    cases ha : admission op s.phase with
    | refuse why =>
      exact .inl ⟨hf, why, rfl, perform_phase_refused hf ha checks body⟩
    | raise => exact .inr (.inl ⟨hf, rfl, perform_phase_raised hf ha checks body⟩)
    | admitted =>
      cases hc : firstRefusal checks with
      | some why => exact .inr (.inr (.inl ⟨hf, rfl, why, rfl, perform_refused hf ha hc body⟩))
      | none => exact .inr (.inr (.inr ⟨hf, rfl, rfl, perform_body hf ha hc body⟩))

end Sys2Proof.Machine
end

