-- ==== Sys2Proof/Laws/Trace.lean ====
section
/-!
SUPPORT. What every part of a request can do to the bus and to the bookkeeping fields, said once for each
shared operation: `Performed P s t xs` says that `t` comes after `s` by the transactions `xs`, each with
the property `P`; `Ran.Did P s x` says so of a part of an operation and that at most the last of its
transactions failed, none where the part ends with a value (R67, R68, R308).
-/

namespace Sys2Proof.Machine

variable {α β : Type} {P : Txn → Prop}

/-- `t` comes after `s` by the completed transactions `xs`: the counters of R36, the bus, the answers used
up, and the fields no transaction changes. -/
structure Performed (P : Txn → Prop) (s t : State) (xs : List Txn) : Prop where
  bus : t.bus = s.bus ++ xs
  txns : t.gSpiTxns = s.gSpiTxns + xs.length
  bursts : t.gFifoBursts = s.gFifoBursts + xs.countP (·.burst)
  script : t.script = s.script.drop xs.length
  fault : t.fault = s.fault
  cfg : t.cfg = s.cfg
  inbox : t.inbox = s.inbox
  rivals : t.rivals = s.rivals
  refused : t.refused = s.refused
  spiBusy : t.spiBusy = s.spiBusy
  burstOpen : t.burstOpen = s.burstOpen
  sent : ∀ x ∈ xs, P x

theorem Performed.refl (s : State) : Performed P s s [] := by
  constructor <;> simp

theorem Performed.afterTxns (s : State) (xs : List Txn) (h : ∀ x ∈ xs, P x) :
    Performed P s (s.afterTxns xs) xs := by
  constructor <;> first | exact h | simp

theorem Performed.trans {s t u : State} {xs ys : List Txn} (h1 : Performed P s t xs)
    (h2 : Performed P t u ys) : Performed P s u (xs ++ ys) where
  bus := by rw [h2.bus, h1.bus, List.append_assoc]
  txns := by rw [h2.txns, h1.txns, List.length_append, Nat.add_assoc]
  bursts := by rw [h2.bursts, h1.bursts, List.countP_append, Nat.add_assoc]
  script := by rw [h2.script, h1.script, List.drop_drop, List.length_append]
  fault := by rw [h2.fault, h1.fault]
  cfg := by rw [h2.cfg, h1.cfg]
  inbox := by rw [h2.inbox, h1.inbox]
  rivals := by rw [h2.rivals, h1.rivals]
  refused := by rw [h2.refused, h1.refused]
  spiBusy := by rw [h2.spiBusy, h1.spiBusy]
  burstOpen := by rw [h2.burstOpen, h1.burstOpen]
  sent := fun x hx => (List.mem_append.mp hx).elim (h1.sent x) (h2.sent x)

/-- `t` agrees with `s` in every field `Performed` speaks of. -/
structure SameTrace (s t : State) : Prop where
  bus : t.bus = s.bus
  txns : t.gSpiTxns = s.gSpiTxns
  bursts : t.gFifoBursts = s.gFifoBursts
  script : t.script = s.script
  fault : t.fault = s.fault
  cfg : t.cfg = s.cfg
  inbox : t.inbox = s.inbox
  rivals : t.rivals = s.rivals
  refused : t.refused = s.refused
  spiBusy : t.spiBusy = s.spiBusy
  burstOpen : t.burstOpen = s.burstOpen

theorem SameTrace.performed {s t : State} (h : SameTrace s t) : Performed P s t [] := by
  constructor <;> simp [h.bus, h.txns, h.bursts, h.script, h.fault, h.cfg,
    h.inbox, h.rivals, h.refused, h.spiBusy, h.burstOpen]

theorem Performed.then {s t u : State} {xs : List Txn} (h : Performed P s t xs)
    (h' : SameTrace t u) : Performed P s u xs := by
  simpa using h.trans h'.performed

theorem Performed.after {s t u : State} {xs : List Txn} (h' : SameTrace s t)
    (h : Performed P t u xs) : Performed P s u xs := by
  simpa using h'.performed.trans h

/-- The last of these transactions failed. -/
def LastFailed (xs : List Txn) : Prop := ∃ y, xs.getLast? = some y ∧ y.received = none

/-- A part of an operation that ran from `s`: its transactions have `P`, at most the last failed, none where
it ends with a value, and the last one where it ends with BusError. -/
def Ran.Did (P : Txn → Prop) (s : State) (x : Ran α) : Prop :=
  ∃ xs, Performed P s x.state xs ∧ (∀ y ∈ xs.dropLast, y.received ≠ none) ∧
    (∀ a, x.reply = .ok a → ∀ y ∈ xs, y.received ≠ none) ∧
    (∀ site, x.reply = .error (.busError site) → LastFailed xs)

theorem Ran.Did.ok {s t : State} {a : α} {xs : List Txn} (h : Performed P s t xs)
    (hx : ∀ y ∈ xs, y.received ≠ none) : Ran.Did P s (⟨.ok a, t⟩ : Ran α) :=
  ⟨xs, h, fun y hy => hx y (List.mem_of_mem_dropLast hy), fun _ _ => hx, by simp⟩

theorem Ran.Did.error {s t : State} {e : Error} {xs : List Txn} (h : Performed P s t xs)
    (hx : ∀ y ∈ xs.dropLast, y.received ≠ none)
    (he : ∀ site, e = .busError site → LastFailed xs) : Ran.Did P s (⟨.error e, t⟩ : Ran α) :=
  ⟨xs, h, hx, by simp, fun site h => he site (by simpa using h)⟩

theorem Ran.Did.same {s t : State} (h : SameTrace s t) (a : α) :
    Ran.Did P s (⟨.ok a, t⟩ : Ran α) :=
  Ran.Did.ok h.performed (by simp)

/-- An error that is no BusError, raised by a check (R308). -/
theorem Ran.Did.check {s t : State} (h : SameTrace s t) {e : Error}
    (he : ∀ site, e ≠ .busError site) : Ran.Did P s (⟨.error e, t⟩ : Ran α) :=
  Ran.Did.error h.performed (by simp) fun site h => absurd h (he site)

/-- The transactions before a part of an operation, none of them failed, are put before its own. -/
theorem Ran.Did.prepend {s t : State} {x : Ran α} {xs : List Txn} (h : Performed P s t xs)
    (hx : ∀ y ∈ xs, y.received ≠ none) (h' : Ran.Did P t x) : Ran.Did P s x := by
  obtain ⟨ys, hp, hd, ho, he⟩ := h'
  refine ⟨xs ++ ys, h.trans hp, fun y hy => ?_, fun a ha y hy => ?_, fun site hs => ?_⟩
  · cases ys with
    | nil => exact hx y (by rw [List.append_nil] at hy; exact List.mem_of_mem_dropLast hy)
    | cons z zs =>
      rw [List.dropLast_append_cons] at hy
      exact (List.mem_append.mp hy).elim (hx y) (hd y)
  · exact (List.mem_append.mp hy).elim (hx y) (ho a ha y)
  · obtain ⟨y, hy, hn⟩ := he site hs
    exact ⟨y, by rw [List.getLast?_append, hy, Option.some_or], hn⟩

/-- The same part, seen from a state with the same trace. -/
theorem Ran.Did.from {s t : State} {x : Ran α} (h : SameTrace s t) (h' : Ran.Did P t x) :
    Ran.Did P s x := Ran.Did.prepend h.performed (by simp) h'

/-- The same part, ending in a state with the same trace. -/
theorem Ran.Did.then {s t u : State} {r : Except Error α} (h : Ran.Did P s (⟨r, t⟩ : Ran α))
    (h' : SameTrace t u) : Ran.Did P s (⟨r, u⟩ : Ran α) := by
  obtain ⟨xs, hp, hd, ho, he⟩ := h
  exact ⟨xs, hp.then h', hd, ho, he⟩

/-- The same part, its error passed on. -/
theorem Ran.Did.fails {s t u : State} {e : Error} (h : Ran.Did P s (⟨.error e, t⟩ : Ran α))
    (h' : SameTrace t u) : Ran.Did P s (⟨.error e, u⟩ : Ran β) := by
  obtain ⟨xs, hp, hd, -, he⟩ := h
  exact Ran.Did.error (hp.then h') hd fun site hs => he site (by rw [hs])

/-- The same part with another value. -/
theorem Ran.Did.yields {s t u : State} {a : α} {b : β}
    (h : Ran.Did P s (⟨.ok a, t⟩ : Ran α)) (h' : SameTrace t u) :
    Ran.Did P s (⟨.ok b, u⟩ : Ran β) := by
  obtain ⟨xs, hp, -, ho, -⟩ := h
  exact Ran.Did.ok (hp.then h') (ho a rfl)

/-- Chaining (R309). -/
theorem Ran.Did.andThen {s : State} {x : Ran α} {f : α → State → Ran β} (h : Ran.Did P s x)
    (hf : ∀ a, x.reply = .ok a → Ran.Did P x.state (f a x.state)) : Ran.Did P s (x.andThen f) := by
  obtain ⟨r, t⟩ := x
  cases r with
  | error e => exact h.fails (by constructor <;> rfl)
  | ok a =>
    obtain ⟨xs, hp, -, ho, -⟩ := h
    exact Ran.Did.prepend hp (ho a rfl) (hf a rfl)

/-- Every transaction the ENGINE's own layers can form under this configuration has `P`. -/
structure Sends (cfg : Config) (P : Txn → Prop) : Prop where
  read : ∀ r ∈ cfg.regs, ∀ rx got, P (Txn.ofRead cfg rx r got)
  write : ∀ w : RegWrite, w.reg ∈ cfg.regs → ∀ rx got, P (Txn.ofWrite cfg rx got w)
  rxBurst : ∀ rx m got, P (Txn.ofRxBurst cfg rx m got)
  txBurst : ∀ rx d got, P (Txn.ofTxBurst cfg rx d got)

theorem Sends.trivial (cfg : Config) : Sends cfg fun _ => True := by
  constructor <;> simp

/-! ## The shared operations -/

variable {s : State}

theorem regRead_did {r : Reg} (hb : s.spiBusy = false) (ho : s.burstOpen = false)
    (hP : ∀ rx got, P (Txn.ofRead s.cfg rx r got)) : (regRead r s).Did P s := by
  cases h : s.answer 0 r.width.bytes with
  | none =>
    rw [regRead_fail hb ho h]
    exact Ran.Did.error (Performed.afterTxns s _ (by simpa using hP _ _)) (by simp)
      (fun _ _ => ⟨_, rfl, rfl⟩)
  | some got =>
    rw [regRead_ok hb ho h]
    exact Ran.Did.ok (Performed.afterTxns s _ (by simpa using hP _ _)) (by simp [Txn.ofRead])

theorem regWrite_did {r : Reg} {v : Word} (hb : s.spiBusy = false) (ho : s.burstOpen = false)
    (hP : ∀ rx got, P (Txn.ofWrite s.cfg rx got ⟨r, v⟩)) : (regWrite r v s).Did P s := by
  rcases s.answer_zero 0 with h | h
  · rw [regWrite_fail hb ho h]
    exact Ran.Did.error (Performed.afterTxns s _ (by simpa using hP _ _)) (by simp)
      (fun _ _ => ⟨_, rfl, rfl⟩)
  · rw [regWrite_ok hb ho h]
    exact Ran.Did.ok (Performed.afterTxns s _ (by simpa using hP _ _)) (by simp [Txn.ofWrite])

theorem Ran.Did.spiBusy {x : Ran α} (h : Ran.Did P s x) : x.state.spiBusy = s.spiBusy := by
  obtain ⟨_, hp, _⟩ := h
  exact hp.spiBusy

theorem Ran.Did.burstOpen {x : Ran α} (h : Ran.Did P s x) : x.state.burstOpen = s.burstOpen := by
  obtain ⟨_, hp, _⟩ := h
  exact hp.burstOpen

theorem Ran.Did.cfg {x : Ran α} (h : Ran.Did P s x) : x.state.cfg = s.cfg := by
  obtain ⟨_, hp, _⟩ := h
  exact hp.cfg

theorem writeList_did (ws : List RegWrite) (hb : s.spiBusy = false) (ho : s.burstOpen = false)
    (hP : ∀ w ∈ ws, ∀ rx got, P (Txn.ofWrite s.cfg rx got w)) : (writeList ws s).Did P s := by
  induction ws generalizing s with
  | nil => exact Ran.Did.ok (Performed.refl s) (by simp)
  | cons w ws ih =>
    have h := regWrite_did (P := P) (r := w.reg) (v := w.value) hb ho
      (hP w (List.mem_cons_self ..))
    refine h.andThen fun _ _ => ih (by rw [h.spiBusy, hb]) (by rw [h.burstOpen, ho]) ?_
    rw [h.cfg]
    exact fun x hx => hP x (List.mem_cons_of_mem _ hx)

theorem rxTransfer_did {m : Nat} (hb : s.spiBusy = false) (ho : s.burstOpen = false)
    (hP : ∀ rx got, P (Txn.ofRxBurst s.cfg rx m got)) : (rxTransfer m s).Did P s := by
  cases h : s.answer 0 (s.cfg.rxLead + alignUp m s.cfg.rxAlign) with
  | none =>
    rw [rxTransfer_fail hb ho h]
    exact Ran.Did.error (Performed.afterTxns s _ (by simpa using hP _ _)) (by simp)
      (fun _ _ => ⟨_, rfl, rfl⟩)
  | some got =>
    rw [rxTransfer_ok hb ho h]
    exact Ran.Did.ok (Performed.afterTxns s _ (by simpa using hP _ _)) (by simp [Txn.ofRxBurst])

theorem txTransfer_did {d : List Byte} (hb : s.spiBusy = false) (ho : s.burstOpen = false)
    (hP : ∀ rx got, P (Txn.ofTxBurst s.cfg rx d got)) : (txTransfer d s).Did P s := by
  rcases s.answer_zero 0 with h | h
  · rw [txTransfer_fail hb ho h]
    exact Ran.Did.error (Performed.afterTxns s _ (by simpa using hP _ _)) (by simp)
      (fun _ _ => ⟨_, rfl, rfl⟩)
  · rw [txTransfer_ok hb ho h]
    exact Ran.Did.ok (Performed.afterTxns s _ (by simpa using hP _ _)) (by simp [Txn.ofTxBurst])

theorem Config.reg_mem (cfg : Config) {w : RegWrite}
    (h : w ∈ cfg.rxPre ∨ w ∈ cfg.rxPost ∨ w ∈ cfg.rxRelease ∨ w ∈ cfg.txPre ∨ w ∈ cfg.txPost ∨
      w ∈ cfg.resetWrites ∨ w ∈ cfg.threshWrites ∨ w ∈ cfg.configTail) : w.reg ∈ cfg.regs := by
  simp only [Config.regs, List.mem_append, List.mem_map]
  exact .inr ⟨w, by tauto, rfl⟩

theorem rxBurst_did {m : Nat} (hb : s.spiBusy = false) (ho : s.burstOpen = false)
    (hP : Sends s.cfg P) : (rxBurst m s).Did P s := by
  have h1 := writeList_did (P := P) s.cfg.rxPre hb ho
    fun w hw => hP.write w (Config.reg_mem _ (.inl hw))
  refine h1.andThen fun _ _ => ?_
  have h2 := rxTransfer_did (P := P) (m := m) (s := (writeList s.cfg.rxPre s).state)
    (by rw [h1.spiBusy, hb]) (by rw [h1.burstOpen, ho]) (by rw [h1.cfg]; exact fun rx => hP.rxBurst rx m)
  refine h2.andThen fun _ _ => ?_
  have h3 := writeList_did (P := P) (s := (rxTransfer m (writeList s.cfg.rxPre s).state).state)
    s.cfg.rxPost
    (by rw [h2.spiBusy, h1.spiBusy, hb]) (by rw [h2.burstOpen, h1.burstOpen, ho])
    (by rw [h2.cfg, h1.cfg]
        exact fun w hw => hP.write w (Config.reg_mem _ (.inr (.inl hw))))
  exact h3.andThen fun _ _ => Ran.Did.same (by constructor <;> rfl) _

theorem Config.frameLength_mem (cfg : Config) {place : FramelenPlace} {total : Word} {w : RegWrite}
    (h : w ∈ frameLengthWrites cfg place total) : w.reg ∈ cfg.regs := by
  unfold frameLengthWrites at h
  split at h
  · obtain ⟨r, hr, rfl⟩ := List.mem_map.mp h
    simp [Config.regs, Option.mem_toList.mp hr]
  · simp at h

theorem State.pass_sameTrace (s : State) (n : Nat) : SameTrace s (s.pass n) := by constructor <;> rfl

theorem State.advance_sameTrace (s : State) : SameTrace s s.advance := by constructor <;> rfl

theorem txBurstOpen_did {d : List Byte} (hb : s.spiBusy = false) (ho : s.burstOpen = false)
    (hP : Sends s.cfg P) : (txBurstOpen d s).Did P s := by
  have h1 := writeList_did (P := P) s.cfg.txPre hb ho
    fun w hw => hP.write w (Config.reg_mem _ (by tauto))
  refine h1.andThen fun _ _ => ?_
  generalize writeList s.cfg.txPre s = x at h1
  have h2 := writeList_did (P := P) (s := x.state.pass (frameLengthTests s.cfg .beforeBurst))
    (frameLengthWrites s.cfg .beforeBurst (txWrittenOf (alignUp d.length s.cfg.txAlign)))
    (h1.spiBusy.trans hb) (h1.burstOpen.trans ho) (by
      change ∀ w ∈ _, ∀ rx got, P (Txn.ofWrite x.state.cfg rx got w)
      rw [h1.cfg]
      exact fun w hw => hP.write w (Config.frameLength_mem _ hw))
  refine Ran.Did.from (x.state.pass_sameTrace _) (h2.andThen fun _ _ => ?_)
  have h3 := txTransfer_did (P := P) (d := d)
    (s := (writeList (frameLengthWrites s.cfg .beforeBurst
      (txWrittenOf (alignUp d.length s.cfg.txAlign)))
      (x.state.pass (frameLengthTests s.cfg .beforeBurst))).state)
    (h2.spiBusy.trans (h1.spiBusy.trans hb)) (h2.burstOpen.trans (h1.burstOpen.trans ho)) (by
      rw [h2.cfg.trans h1.cfg]
      exact fun rx => hP.txBurst rx d)
  generalize txTransfer d _ = y at h3
  obtain ⟨r, t⟩ := y
  cases r with
  | ok a => exact h3.then (by constructor <;> rfl)
  | error e => exact h3.fails (by constructor <;> rfl)

theorem txBurstClose_did (hb : s.spiBusy = false) (ho : s.burstOpen = false)
    (hP : Sends s.cfg P) : (txBurstClose s).Did P s :=
  Ran.Did.from (s.pass_sameTrace _) (writeList_did _ hb ho fun w hw => hP.write w
    ((List.mem_append.mp hw).elim (Config.frameLength_mem _) fun h => Config.reg_mem _ (by tauto)))

end Sys2Proof.Machine
end

