-- ==== Sys2Proof/Laws/Requests.lean ====
section
/-!
SUPPORT. What the longer requests' bodies do to the bus and to the bookkeeping fields (RECEIVE, TRANSMIT,
RESET, SERVICE_INTERRUPTS), in the terms of Sys2Proof/Laws/Trace.lean.
-/

namespace Sys2Proof.Machine

variable {P : Txn → Prop} {s : State}

/-- `Ran.Did` for what a part of RECEIVE gives. -/
def Received.Did (P : Txn → Prop) (s : State) (r : Received) : Prop :=
  ∃ xs, Performed P s r.state xs ∧ (∀ y ∈ xs.dropLast, y.received ≠ none) ∧
    (r.err = none → ∀ y ∈ xs, y.received ≠ none) ∧
    (∀ site, r.err = some (.busError site) → LastFailed xs)

theorem Received.Did.failed {α : Type} {e : Error} {out : List Descriptor} {t u : State}
    (h : Ran.Did P s (⟨.error e, t⟩ : Ran α)) (h' : SameTrace t u) :
    Received.Did P s ⟨out, some e, u⟩ := by
  obtain ⟨xs, hp, hd, -, he⟩ := h
  exact ⟨xs, hp.then h', hd, by simp, fun site hs => he site (by simpa using hs)⟩

theorem Received.Did.nothing {t : State} {r : Received} (h : SameTrace s t) (hr : r.state = t)
    (he : ∀ site, r.err ≠ some (.busError site)) : Received.Did P s r :=
  ⟨[], hr ▸ h.performed, by simp, by simp, fun site hs => absurd hs (he site)⟩

theorem Received.Did.after {α : Type} {a : α} {t u : State} {r : Received}
    (h : Ran.Did P s (⟨.ok a, t⟩ : Ran α)) (h' : SameTrace t u) (hr : Received.Did P u r) :
    Received.Did P s r := by
  obtain ⟨xs, hp, -, ho, -⟩ := h
  obtain ⟨ys, hq, hd, hn, hl⟩ := hr
  have key : Ran.Did P s (⟨match r.err with | none => .ok () | some e => .error e, r.state⟩ :
      Ran Unit) := Ran.Did.prepend (hp.then h') (ho a rfl) ⟨ys, hq, hd,
        fun _ hx => hn (by cases he : r.err <;> simp_all),
        fun site hx => hl site (by cases he : r.err <;> simp_all)⟩
  obtain ⟨zs, hz, hd', ho', hl'⟩ := key
  exact ⟨zs, hz, hd', fun he => ho' () (by simp [he]), fun site he => hl' site (by simp [he])⟩

/-- The same part, seen from a state with the same trace. -/
theorem Received.Did.from {t : State} {r : Received} (h : SameTrace s t) (h' : Received.Did P t r) :
    Received.Did P s r :=
  .after (Ran.Did.same (P := P) h ()) (by constructor <;> rfl) h'

theorem releaseFrame_did (out : List Descriptor) (hb : s.spiBusy = false) (ho : s.burstOpen = false)
    (hP : Sends s.cfg P) : (releaseFrame out s).Did P s := by
  have h := writeList_did (P := P) s.cfg.rxRelease hb ho
    fun w hw => hP.write w (Config.reg_mem _ (by tauto))
  unfold releaseFrame
  cases hr : writeList s.cfg.rxRelease s with
  | mk r t =>
    rw [hr] at h
    cases r with
    | error e => exact .failed h (by constructor <;> rfl)
    | ok a =>
      exact .after h (by constructor <;> rfl) (.nothing (by constructor <;> rfl) rfl (by simp))

theorem consumeFrame_did (accepted : Option Nat) (hb : s.spiBusy = false)
    (ho : s.burstOpen = false) (hP : Sends s.cfg P) : (consumeFrame accepted s).Did P s := by
  have h : (rxBurst (s.cfg.rxFifoHdr + s.rxCount.toNat) s.rxAwaitPayload).Did P s :=
    Ran.Did.from (by constructor <;> rfl) (rxBurst_did (s := s.rxAwaitPayload) hb ho hP)
  unfold consumeFrame
  cases hr : rxBurst (s.cfg.rxFifoHdr + s.rxCount.toNat) s.rxAwaitPayload with
  | mk r t =>
    rw [hr] at h
    cases r with
    | error e => exact .failed h (by constructor <;> rfl)
    | ok data =>
      have hs : SameTrace t (settleFrame accepted data t.rxConsume.advance).2 := by
        cases accepted <;> constructor <;> rfl
      refine .after h hs (releaseFrame_did _ ?_ ?_ ?_)
      · rw [hs.spiBusy, h.spiBusy, hb]
      · rw [hs.burstOpen, h.burstOpen, ho]
      · rw [hs.cfg, h.cfg]
        exact hP

theorem judgeFrame_did (hb : s.spiBusy = false) (ho : s.burstOpen = false)
    (hP : Sends s.cfg P) : (judgeFrame s).Did P s := by
  unfold judgeFrame
  split
  · exact .nothing (by constructor <;> rfl) rfl (by simp)
  · exact .from s.advance_sameTrace (consumeFrame_did _ hb ho hP)
  · exact .from s.advance_sameTrace (consumeFrame_did _ hb ho hP)

theorem Config.mem_regs (cfg : Config) {r : Reg}
    (h : r ∈ [cfg.rxHdrStatusReg, cfg.rxHdrCountReg, cfg.rxCountReg, cfg.txSpaceReg,
      cfg.txEnqueue.reg, cfg.isrReg, cfg.ierReg, cfg.readyReg, cfg.macReg01, cfg.macReg23,
      cfg.macReg45, cfg.linkReg]) : r ∈ cfg.regs := by
  simp only [Config.regs, List.mem_append]
  exact .inl (.inl (.inl h))

theorem receiveFrame_did (hb : s.spiBusy = false) (ho : s.burstOpen = false)
    (hP : Sends s.cfg P) : (receiveFrame s).Did P s := by
  have h1 := regRead_did (P := P) (s := s.rxAwaitHeader) (r := s.cfg.rxHdrStatusReg) hb ho
    (hP.read _ (Config.mem_regs _ (by simp)))
  have h : ((regRead s.cfg.rxHdrStatusReg s.rxAwaitHeader).andThen fun st t =>
      (regRead s.cfg.rxHdrCountReg t).andThen fun bc u =>
        .pure () (u.rxLatch st (bc &&& s.cfg.rxBcMask))).Did P s := by
    refine Ran.Did.from (t := s.rxAwaitHeader) (by constructor <;> rfl) (h1.andThen fun _ _ => ?_)
    have h2 := regRead_did (P := P) (r := s.cfg.rxHdrCountReg)
      (s := (regRead s.cfg.rxHdrStatusReg s.rxAwaitHeader).state)
      (by rw [h1.spiBusy]; exact hb) (by rw [h1.burstOpen]; exact ho)
      (by rw [h1.cfg]; exact hP.read _ (Config.mem_regs _ (by simp)))
    exact h2.andThen fun _ _ => Ran.Did.same (by constructor <;> rfl) _
  unfold receiveFrame
  generalize hx : ((regRead s.cfg.rxHdrStatusReg s.rxAwaitHeader).andThen fun st t =>
      (regRead s.cfg.rxHdrCountReg t).andThen fun bc u =>
        Ran.pure () (u.rxLatch st (bc &&& s.cfg.rxBcMask))) = x at h ⊢
  obtain ⟨r, t⟩ := x
  cases r with
  | error e => exact .failed h (by constructor <;> rfl)
  | ok a =>
    refine .after h (u := t) (by constructor <;> rfl) (judgeFrame_did ?_ ?_ ?_)
    · rw [h.spiBusy, hb]
    · rw [h.burstOpen, ho]
    · rw [h.cfg]
      exact hP

theorem Received.Did.out {r : Received} (h : r.Did P s) (out : List Descriptor) :
    Received.Did P s ⟨out, r.err, r.state⟩ := h

theorem receiveLoop_did (n : Nat) (out : List Descriptor) (hb : s.spiBusy = false)
    (ho : s.burstOpen = false) (hP : Sends s.cfg P) : (receiveLoop n out s).Did P s := by
  induction n generalizing s out with
  | zero => exact .nothing s.advance_sameTrace rfl (by simp [receiveLoop])
  | succ n ih =>
    have h := Received.Did.from s.advance_sameTrace (receiveFrame_did (s := s.advance) hb ho hP)
    unfold receiveLoop
    generalize receiveFrame s.advance = one at h
    obtain ⟨xs, hp, hd, hn, hl⟩ := h
    cases he : one.err with
    | some e =>
      simp only [he]
      exact ⟨xs, hp, hd, by simp, fun site hs => hl site (by rw [he]; exact hs)⟩
    | none =>
      simp only [he]
      have h' : Ran.Did P s (⟨.ok (), one.state⟩ : Ran Unit) :=
        Ran.Did.ok hp (hn he)
      refine .after h' (by constructor <;> rfl) (ih _ ?_ ?_ ?_)
      · rw [hp.spiBusy, hb]
      · rw [hp.burstOpen, ho]
      · rw [hp.cfg]
        exact hP

/-- The whole of RECEIVE's body (R195). -/
theorem receiveBody_did (hb : s.spiBusy = false) (ho : s.burstOpen = false)
    (hP : Sends s.cfg P) : (receiveBody s).Did P s := by
  have h := regRead_did (P := P) (r := s.cfg.rxCountReg) hb ho
    (hP.read _ (Config.mem_regs _ (by simp)))
  unfold receiveBody
  cases hr : regRead s.cfg.rxCountReg s with
  | mk r t =>
    rw [hr] at h
    cases r with
    | error e => exact .failed h (by constructor <;> rfl)
    | ok fc =>
      refine .after h (u := t.rxBegin fc) (by constructor <;> rfl) (receiveLoop_did _ _ ?_ ?_ ?_)
      · exact (h.spiBusy).trans hb
      · exact (h.burstOpen).trans ho
      · exact (congrArg (Sends · P) h.cfg).mpr hP

/-- The whole of TRANSMIT's body (R225). -/
theorem transmitBody_did (frame : List Byte) (irq csum : Bool) (hb : s.spiBusy = false)
    (ho : s.burstOpen = false) (hP : Sends s.cfg P) : (transmitBody frame irq csum s).Did P s := by
  have same : ∀ {t : State}, SameTrace t t := by intro t; constructor <;> rfl
  unfold transmitBody
  split
  · exact Ran.Did.check (by constructor <;> rfl) (by simp)
  split
  · exact Ran.Did.check (by constructor <;> rfl) (by simp)
  have h := Ran.Did.from (s := s) (t := s.pass 2) (by constructor <;> rfl)
    (regRead_did (P := P) (s := s.pass 2) (r := s.cfg.txSpaceReg) hb ho
      (hP.read _ (Config.mem_regs _ (by simp))))
  refine h.andThen fun raw _ => ?_
  generalize regRead s.cfg.txSpaceReg (s.pass 2) = x at h
  obtain ⟨r, t⟩ := x
  have hb1 : t.advance.spiBusy = false := h.spiBusy.trans hb
  have ho1 : t.advance.burstOpen = false := h.burstOpen.trans ho
  have hc1 : t.advance.cfg = s.cfg := h.cfg
  have ht : SameTrace t t.advance := by constructor <;> rfl
  simp only
  split
  · exact Ran.Did.check ht (by simp)
  refine Ran.Did.from ht ?_
  unfold transmitFrame
  have h2 := txBurstOpen_did (P := P)
    (d := txHeader t.advance.cfg irq csum t.advance.txFid (BitVec.ofNat 16 frame.length) ++ frame)
    hb1 ho1 (by rw [hc1]; exact hP)
  refine h2.andThen fun _ _ => ?_
  generalize txBurstOpen _ t.advance = y at h2
  obtain ⟨r2, u⟩ := y
  have hb2 : u.nextFid.spiBusy = false := h2.spiBusy.trans hb1
  have ho2 : u.nextFid.burstOpen = false := h2.burstOpen.trans ho1
  have hc2 : u.nextFid.cfg = s.cfg := h2.cfg.trans hc1
  refine Ran.Did.from (t := u.nextFid) (by constructor <;> rfl) ?_
  have h3 := txBurstClose_did (P := P) hb2 ho2 (by rw [hc2]; exact hP)
  refine h3.andThen fun _ _ => ?_
  generalize txBurstClose u.nextFid = z at h3
  obtain ⟨r3, v⟩ := z
  have h4 := regWrite_did (P := P) (s := v) (r := t.advance.cfg.txEnqueue.reg)
    (v := t.advance.cfg.txEnqueue.value) (h3.spiBusy.trans hb2) (h3.burstOpen.trans ho2)
    (by rw [h3.cfg, hc2, hc1]; exact hP.write _ (Config.mem_regs _ (by simp)))
  exact h4.andThen fun _ _ => Ran.Did.same same _

theorem pollReady_did (n : Nat) (last : Word) (hb : s.spiBusy = false) (ho : s.burstOpen = false)
    (hP : Sends s.cfg P) : (pollReady n last s).Did P s := by
  induction n generalizing s last with
  | zero => exact Ran.Did.check (by constructor <;> rfl) (by simp)
  | succ n ih =>
    have h := Ran.Did.from s.advance_sameTrace
      (regRead_did (P := P) (s := s.advance) (r := s.cfg.readyReg) hb ho
        (hP.read _ (Config.mem_regs _ (by simp))))
    unfold pollReady
    generalize regRead s.cfg.readyReg s.advance = x at h ⊢
    obtain ⟨r, t⟩ := x
    cases r with
    | error e => exact h.fails (by constructor <;> rfl)
    | ok v =>
      simp only
      split
      · exact h.yields (by constructor <;> rfl)
      · obtain ⟨xs, hp, hd, hn, -⟩ := h
        refine Ran.Did.prepend (t := t.polled.advance) (hp.then (by constructor <;> rfl)) (hn v rfl)
          (ih _ ?_ ?_ ?_)
        · exact hp.spiBusy.trans hb
        · exact hp.burstOpen.trans ho
        · exact (congrArg (Sends · P) hp.cfg).mpr hP

/-- The whole of RESET's body (R250). -/
theorem resetBody_did (hb : s.spiBusy = false) (ho : s.burstOpen = false)
    (hP : Sends s.cfg P) : (resetBody s).Did P s := by
  have h := Ran.Did.from (s := s) (t := s.pollBegin) (by constructor <;> rfl)
    (writeList_did (P := P) (s := s.pollBegin) s.cfg.resetWrites hb ho
      fun w hw => hP.write w (Config.reg_mem _ (by tauto)))
  unfold resetBody
  generalize writeList s.cfg.resetWrites s.pollBegin = x at h ⊢
  obtain ⟨r, t⟩ := x
  cases r with
  | error e => exact h.fails (by constructor <;> rfl)
  | ok a =>
    obtain ⟨xs, hp, hd, hn, -⟩ := h
    have h2 := pollReady_did (P := P) (s := t) s.cfg.resetPollMax 0 (hp.spiBusy.trans hb) (hp.burstOpen.trans ho) ((congrArg (Sends · P) hp.cfg).mpr hP)
    refine Ran.Did.prepend hp (hn a rfl) (h2.andThen fun _ _ => ?_)
    refine Ran.Did.same ?_ _
    have hb2 := h2.spiBusy.trans (hp.spiBusy.trans hb)
    have ho2 := h2.burstOpen.trans (hp.burstOpen.trans ho)
    constructor <;> first | rfl | exact hb2.symm | exact ho2.symm

theorem acknowledge_did (out : List Descriptor) (hb : s.spiBusy = false)
    (ho : s.burstOpen = false) (hP : Sends s.cfg P) : (acknowledge out s).Did P s := by
  have same : ∀ {t : State}, SameTrace t t := by intro t; constructor <;> rfl
  refine Ran.Did.from s.advance_sameTrace ((writeList_did (s := s.advance) _ hb ho
    fun w hw => hP.write w ?_).andThen fun _ _ => Ran.Did.same same _)
  split at hw
  · simp only [List.mem_singleton] at hw
    rw [hw]
    exact Config.mem_regs _ (by simp)
  · simp at hw

theorem dispatch_sameTrace (s : State) :
    SameTrace s s.advance.dispatchLink.advance.dispatchTx.advance.dispatchOverrun.advance := by
  have h1 : SameTrace s s.advance.dispatchLink.advance := by
    unfold State.dispatchLink; split <;> constructor <;> rfl
  have h2 : ∀ t : State, SameTrace t t.dispatchTx.advance := by
    intro t; unfold State.dispatchTx; split <;> constructor <;> rfl
  have h3 : ∀ t : State, SameTrace t t.dispatchOverrun.advance := by
    intro t; unfold State.dispatchOverrun; split <;> constructor <;> rfl
  have tr : ∀ {a b c : State}, SameTrace a b → SameTrace b c → SameTrace a c := by
    intro a b c hab hbc
    constructor
    exacts [hbc.bus.trans hab.bus, hbc.txns.trans hab.txns, hbc.bursts.trans hab.bursts,
      hbc.script.trans hab.script, hbc.fault.trans hab.fault, hbc.cfg.trans hab.cfg,
      hbc.inbox.trans hab.inbox, hbc.rivals.trans hab.rivals, hbc.refused.trans hab.refused,
      hbc.spiBusy.trans hab.spiBusy, hbc.burstOpen.trans hab.burstOpen]
  exact tr (tr h1 (h2 _)) (h3 _)

/-- The dispatches and the acknowledge of SERVICE_INTERRUPTS (R270). An error of the RX dispatch is
returned as part of its value, so of its transactions only "at most the last failed" is said. -/
theorem dispatchAll_did (hb : s.spiBusy = false) (ho : s.burstOpen = false)
    (hP : Sends s.cfg P) : ∃ xs, Performed P s (dispatchAll s).state xs ∧
      ∀ y ∈ xs.dropLast, y.received ≠ none := by
  have ht := dispatch_sameTrace s
  unfold dispatchAll
  generalize s.advance.dispatchLink.advance.dispatchTx.advance.dispatchOverrun.advance = t at ht ⊢
  have hb1 := ht.spiBusy.trans hb
  have ho1 := ht.burstOpen.trans ho
  have hP1 : Sends t.cfg P := by rw [ht.cfg]; exact hP
  simp only
  split
  · obtain ⟨xs, hp, hd, hn, -⟩ := receiveBody_did hb1 ho1 hP1
    cases he : (receiveBody t).err with
    | some e => exact ⟨xs, (hp.then (State.advance_sameTrace _)).after ht, hd⟩
    | none =>
      simp only
      have h0 : SameTrace (receiveBody t).state (receiveBody t).state.advance.handledRx := by
        constructor <;> rfl
      obtain ⟨ys, hq, hd', -⟩ := Ran.Did.prepend (P := P) ((hp.after ht).then h0) (hn he)
        (acknowledge_did (P := P) (receiveBody t).out (hp.spiBusy.trans hb1)
          (hp.burstOpen.trans ho1) ((congrArg (Sends · P) hp.cfg).mpr hP1))
      exact ⟨ys, hq, hd'⟩
  · obtain ⟨ys, hq, hd', -⟩ := (acknowledge_did (P := P) [] hb1 ho1 hP1).from ht
    exact ⟨ys, hq, hd'⟩

end Sys2Proof.Machine
end

