-- ==== Sys2Proof/Laws/Keeps.lean ====
section
/-!
SUPPORT. What a part of an operation leaves alone: `Keeps s t` for the register and FIFO transfers, and
`Received.Leaves` for the parts of RECEIVE (R190, R195 to R201); with it, which errors each can raise.
-/

namespace Sys2Proof.Machine

variable {α β : Type}

/-- The fields no register or FIFO transfer touches. -/
structure Keeps (s t : State) : Prop where
  phase : t.phase = s.phase
  rxState : t.rxState = s.rxState
  stage : t.stage = s.stage
  cfg : t.cfg = s.cfg
  snap : t.snap = s.snap
  handled : t.handled = s.handled
  rxLeft : t.rxLeft = s.rxLeft

theorem Keeps.refl (s : State) : Keeps s s := ⟨rfl, rfl, rfl, rfl, rfl, rfl, rfl⟩

theorem Keeps.trans {a b c : State} (h : Keeps a b) (h' : Keeps b c) : Keeps a c :=
  ⟨h'.phase.trans h.phase, h'.rxState.trans h.rxState, h'.stage.trans h.stage,
    h'.cfg.trans h.cfg, h'.snap.trans h.snap, h'.handled.trans h.handled,
    h'.rxLeft.trans h.rxLeft⟩

theorem Keeps.andThen {s : State} {x : Ran α} {f : α → State → Ran β} (h : Keeps s x.state)
    (hf : ∀ a t, Keeps t (f a t).state) : Keeps s (x.andThen f).state := by
  obtain ⟨r, t⟩ := x
  cases r with
  | error e => exact h
  | ok a => exact h.trans (hf a t)

theorem spi_keeps (burst : Bool) (site : Site) (out : List Byte) (n : Nat) (s : State) :
    Keeps s (spi burst site out n s).state := by
  unfold spi
  split <;> rename_i h <;> obtain rfl := (Prod.ext_iff.mp h).2 <;>
    simp only [Ran.pure, Ran.throw, State.spiTxn] <;> constructor <;> rfl

theorem regRead_keeps (r : Reg) (s : State) : Keeps s (regRead r s).state :=
  (spi_keeps ..).andThen fun _ _ => Keeps.refl _

theorem regWrite_keeps (r : Reg) (v : Word) (s : State) : Keeps s (regWrite r v s).state :=
  (spi_keeps ..).andThen fun _ _ => Keeps.refl _

theorem writeList_keeps (ws : List RegWrite) (s : State) : Keeps s (writeList ws s).state := by
  induction ws generalizing s with
  | nil => exact Keeps.refl _
  | cons w ws ih => exact (regWrite_keeps ..).andThen fun _ t => ih t

theorem rxBurst_keeps (m : Nat) (s : State) : Keeps s (rxBurst m s).state :=
  (writeList_keeps ..).andThen fun _ _ =>
    Keeps.andThen ((spi_keeps ..).andThen fun _ _ => Keeps.refl _) fun _ _ =>
      (writeList_keeps ..).andThen fun _ _ => Keeps.refl _

theorem txTransfer_keeps (d : List Byte) (s : State) : Keeps s (txTransfer d s).state :=
  (spi_keeps ..).andThen fun _ _ => Keeps.refl _

theorem State.pass_keeps (n : Nat) (s : State) : Keeps s (s.pass n) := by constructor <;> rfl

theorem State.advance_keeps (s : State) : Keeps s s.advance := by constructor <;> rfl

theorem txBurstOpen_keeps (d : List Byte) (s : State) : Keeps s (txBurstOpen d s).state := by
  refine (writeList_keeps ..).andThen fun _ t => (t.pass_keeps (frameLengthTests s.cfg .beforeBurst)).trans ?_
  refine (writeList_keeps ..).andThen fun _ u => ?_
  have := txTransfer_keeps d u
  simp only
  split <;> exact this.trans (by constructor <;> rfl)

theorem txBurstClose_keeps (s : State) : Keeps s (txBurstClose s).state :=
  (s.pass_keeps _).trans (writeList_keeps ..)

theorem transmitBody_keeps (frame : List Byte) (irq csum : Bool) (s : State) :
    Keeps s (transmitBody frame irq csum s).state := by
  unfold transmitBody
  split
  · exact s.pass_keeps 1
  split
  · exact s.pass_keeps 2
  refine (s.pass_keeps 2).trans ((regRead_keeps ..).andThen fun _ t => ?_)
  simp only
  split
  · exact t.advance_keeps
  refine t.advance_keeps.trans ?_
  refine (txBurstOpen_keeps ..).andThen fun _ u => ?_
  refine Keeps.trans (b := u.nextFid) (by constructor <;> rfl) ?_
  exact (txBurstClose_keeps ..).andThen fun _ _ =>
    (regWrite_keeps ..).andThen fun _ _ => Keeps.refl _

/-! ## Errors -/

/-- The error is a BusError (R300). -/
def Error.IsBus (e : Error) : Prop := ∃ site, e = .busError site

/-- A chain raises what its first part raises, or what the part that follows raises. -/
theorem Ran.andThen_reply_error {x : Ran α} {f : α → State → Ran β} {e : Error}
    (h : (x.andThen f).reply = .error e) :
    x.reply = .error e ∨ ∃ a, x.reply = .ok a ∧ (f a x.state).reply = .error e := by
  obtain ⟨r, t⟩ := x
  cases r with
  | error e' => exact .inl (by simpa using h)
  | ok a => exact .inr ⟨a, rfl, h⟩

/-- A chain that ends with a value did so in both parts. -/
theorem Ran.andThen_reply_ok {x : Ran α} {f : α → State → Ran β} {b : β}
    (h : (x.andThen f).reply = .ok b) :
    ∃ a, x.reply = .ok a ∧ (f a x.state).reply = .ok b := by
  obtain ⟨r, t⟩ := x
  cases r with
  | error e => simp at h
  | ok a => exact ⟨a, rfl, h⟩

theorem spi_isBus {burst : Bool} {site : Site} {out : List Byte} {n : Nat} {s : State} {e : Error}
    (h : (spi burst site out n s).reply = .error e) : e.IsBus := by
  unfold spi at h
  split at h <;> simp at h
  exact ⟨_, h.symm⟩

theorem regRead_isBus {r : Reg} {s : State} {e : Error} (h : (regRead r s).reply = .error e) :
    e.IsBus := by
  rcases Ran.andThen_reply_error h with h | ⟨_, _, h⟩
  · exact spi_isBus h
  · simp at h

theorem regWrite_isBus {r : Reg} {v : Word} {s : State} {e : Error}
    (h : (regWrite r v s).reply = .error e) : e.IsBus := by
  rcases Ran.andThen_reply_error h with h | ⟨_, _, h⟩
  · exact spi_isBus h
  · simp at h

theorem writeList_isBus {ws : List RegWrite} {s : State} {e : Error}
    (h : (writeList ws s).reply = .error e) : e.IsBus := by
  induction ws generalizing s with
  | nil => simp [writeList] at h
  | cons w ws ih =>
    rcases Ran.andThen_reply_error h with h | ⟨_, _, h⟩
    · exact regWrite_isBus h
    · exact ih h

theorem rxBurst_isBus {m : Nat} {s : State} {e : Error} (h : (rxBurst m s).reply = .error e) :
    e.IsBus := by
  rcases Ran.andThen_reply_error h with h | ⟨_, _, h⟩
  · exact writeList_isBus h
  rcases Ran.andThen_reply_error h with h | ⟨_, _, h⟩
  · rcases Ran.andThen_reply_error h with h | ⟨_, _, h⟩
    · exact spi_isBus h
    · simp at h
  rcases Ran.andThen_reply_error h with h | ⟨_, _, h⟩
  · exact writeList_isBus h
  · simp at h

theorem txBurstOpen_isBus {d : List Byte} {s : State} {e : Error}
    (h : (txBurstOpen d s).reply = .error e) : e.IsBus := by
  rcases Ran.andThen_reply_error h with h | ⟨_, _, h⟩
  · exact writeList_isBus h
  rcases Ran.andThen_reply_error h with h | ⟨_, _, h⟩
  · exact writeList_isBus h
  simp only at h
  split at h
  · simp at h
  · rename_i h'
    simp only [Ran.throw_eq, Except.error.injEq] at h
    subst h
    rcases Ran.andThen_reply_error h' with h | ⟨_, _, h⟩
    · exact spi_isBus h
    · simp at h

/-! ## The parts of RECEIVE -/

/-- The staging buffer is in its canonical form and fits (R28). -/
def Memory.sound (m : Memory) (cfg : Config) : Prop := m.wf = true ∧ m.within cfg.rxBuf = true

/-- What a part of RECEIVE can leave: the phase as it was unless it detected a desynchronisation (R190); the
RX state Idle, or as it was; nothing left to process after an error (R201, 92 D46). -/
structure Received.Leaves (s : State) (r : Received) : Prop where
  cfg : r.state.cfg = s.cfg
  snap : r.state.snap = s.snap
  handled : r.state.handled = s.handled
  idle : r.state.rxState = .idle ∨ r.state.rxState = s.rxState
  stage : s.cfg.wellFormed = true → s.stage.sound s.cfg → r.state.stage.sound s.cfg
  phase : r.state.phase = s.phase ∨
    (r.state.phase = .desync ∧ ∃ x, r.err = some (.fifoDesync (some x)))
  err : ∀ e, r.err = some e → r.state.rxState = .idle ∧ r.state.rxLeft = 0 ∧
    ((e.IsBus ∧ r.state.phase = s.phase) ∨ ∃ x, e = .fifoDesync (some x))

theorem Received.Leaves.after {s t : State} {r : Received} (h : Keeps s t) (h' : r.Leaves t) :
    r.Leaves s where
  cfg := h'.cfg.trans h.cfg
  snap := h'.snap.trans h.snap
  handled := h'.handled.trans h.handled
  idle := h'.idle.imp id fun x => x.trans h.rxState
  stage := fun hc hs => by
    have := h'.stage (by rw [h.cfg]; exact hc) (by rw [h.stage, h.cfg]; exact hs)
    rwa [h.cfg] at this
  phase := by
    rw [← h.phase]
    exact h'.phase
  err := by
    rw [← h.phase]
    exact h'.err

/-- The clean-up of a BusError (R201). -/
theorem Received.Leaves.cleanup {s : State} {e : Error} (he : e.IsBus) (out : List Descriptor) :
    Received.Leaves s ⟨out, some e, s.rxCleanup⟩ :=
  ⟨rfl, rfl, rfl, .inl rfl, fun _ h => h, .inl rfl, fun e' h => ⟨rfl, rfl, .inl (by
    simp only [Option.some.injEq] at h
    subst h
    exact ⟨he, rfl⟩)⟩⟩

theorem releaseFrame_leaves (out : List Descriptor) (s : State) :
    (releaseFrame out s).Leaves s ∧ (releaseFrame out s).state.rxState = .idle := by
  have h := writeList_keeps s.cfg.rxRelease s
  unfold releaseFrame
  cases hr : writeList s.cfg.rxRelease s with
  | mk r t =>
    rw [hr] at h
    cases r with
    | error e => exact ⟨.after h (.cleanup (writeList_isBus (by rw [hr])) out), rfl⟩
    | ok _ =>
      exact ⟨.after h ⟨rfl, rfl, rfl, .inl rfl, fun _ h => h, .inl rfl, by simp⟩, rfl⟩

/-- An accepted payload fits the staging buffer (R9, R182). -/
theorem classify_accept_le {cfg : Config} {status count : Word} {p : Nat}
    (hc : cfg.wellFormed = true) (h : classify cfg status count = .accept p) : p ≤ cfg.rxBuf := by
  have hb : cfg.rxMaxFrame - cfg.rxTrailer ≤ cfg.rxBuf := by
    simp only [Config.wellFormed, Bool.and_eq_true, decide_eq_true_eq] at hc
    tauto
  simp only [classify] at h
  split_ifs at h
  simp only [Verdict.accept.injEq] at h
  omega

theorem consumeFrame_leaves (accepted : Option Nat) (s : State)
    (ha : s.cfg.wellFormed = true → ∀ p, accepted = some p → p ≤ s.cfg.rxBuf) :
    (consumeFrame accepted s).Leaves s ∧ (consumeFrame accepted s).state.rxState = .idle := by
  have h := rxBurst_keeps (s.cfg.rxFifoHdr + s.rxCount.toNat) s.rxAwaitPayload
  unfold consumeFrame
  cases hr : rxBurst (s.cfg.rxFifoHdr + s.rxCount.toNat) s.rxAwaitPayload with
  | mk r t =>
    rw [hr] at h
    simp only at h
    cases r with
    | error e =>
      refine ⟨⟨h.cfg, h.snap, h.handled, .inl rfl, fun _ hs => ?_, .inl h.phase,
        fun e' h' => ⟨rfl, rfl, .inl ?_⟩⟩, rfl⟩
      · change t.stage.sound _
        rw [h.stage]
        exact hs
      · simp only [Option.some.injEq] at h'
        subst h'
        exact ⟨rxBurst_isBus (by rw [hr]), h.phase⟩
    | ok data =>
      simp only
      generalize hq : settleFrame accepted data t.rxConsume.advance = q
      obtain ⟨hl, hi⟩ := releaseFrame_leaves q.1 q.2
      have h1 : q.2.cfg = s.cfg ∧ q.2.snap = s.snap ∧ q.2.handled = s.handled ∧
          q.2.phase = s.phase := by
        subst hq
        cases accepted <;> exact ⟨h.cfg, h.snap, h.handled, h.phase⟩
      obtain ⟨c1, c2, c3, c4⟩ := h1
      have h2 : s.cfg.wellFormed = true → s.stage.sound s.cfg → q.2.stage.sound s.cfg := by
        intro hc hs
        subst hq
        cases accepted with
        | none =>
          change t.stage.sound _
          rw [h.stage]
          exact hs
        | some p =>
          refine ⟨Memory.wf_store t.stage _, Memory.within_store t.stage _ _ ?_⟩
          have := ha hc p rfl
          simp only [payloadOf, List.length_take]
          omega
      refine ⟨⟨hl.cfg.trans c1, hl.snap.trans c2, hl.handled.trans c3, .inl hi, fun hc hs => ?_,
        by rw [← c4]; exact hl.phase, by rw [← c4]; exact hl.err⟩, hi⟩
      have := hl.stage (by rw [c1]; exact hc) (by rw [c1]; exact h2 hc hs)
      rwa [c1] at this

theorem judgeFrame_leaves (s : State) :
    (judgeFrame s).Leaves s ∧ (judgeFrame s).state.rxState = .idle := by
  unfold judgeFrame
  split
  · exact ⟨⟨rfl, rfl, rfl, .inl rfl, fun _ h => h, .inr ⟨rfl, _, rfl⟩, fun e h =>
      ⟨rfl, rfl, .inr (by
        simp only [Option.some.injEq] at h
        exact ⟨_, h.symm⟩)⟩⟩, rfl⟩
  · rename_i p hp
    refine (consumeFrame_leaves _ _ fun hc p' h => ?_).imp_left (.after s.advance_keeps)
    simp only [Option.some.injEq] at h
    subst h
    exact classify_accept_le hc hp
  · exact (consumeFrame_leaves _ _ (by simp)).imp_left (.after s.advance_keeps)

theorem receiveFrame_leaves (s : State) :
    (receiveFrame s).Leaves s ∧ (receiveFrame s).state.rxState = .idle := by
  have key : (receiveFrame s).Leaves s.rxAwaitHeader ∧
      (receiveFrame s).state.rxState = .idle := by
    have h1 := regRead_keeps s.cfg.rxHdrStatusReg s.rxAwaitHeader
    unfold receiveFrame
    cases hx : regRead s.cfg.rxHdrStatusReg s.rxAwaitHeader with
    | mk r t =>
      rw [hx] at h1
      cases r with
      | error e => exact ⟨.after h1 (.cleanup (regRead_isBus (by rw [hx])) []), rfl⟩
      | ok st =>
        have h2 := regRead_keeps s.cfg.rxHdrCountReg t
        simp only [Ran.andThen_ok]
        cases hy : regRead s.cfg.rxHdrCountReg t with
        | mk r u =>
          rw [hy] at h2
          cases r with
          | error e =>
            exact ⟨.after (h1.trans h2) (.cleanup (regRead_isBus (by rw [hy])) []), rfl⟩
          | ok bc =>
            obtain ⟨hl, hi⟩ := judgeFrame_leaves (u.rxLatch st (bc &&& s.cfg.rxBcMask))
            exact ⟨.after ((h1.trans h2).trans (by constructor <;> rfl)) hl, hi⟩
  obtain ⟨⟨a, b, c, _, e, f, g⟩, hi⟩ := key
  exact ⟨⟨a, b, c, .inl hi, e, f, g⟩, hi⟩

theorem receiveLoop_leaves (n : Nat) (out : List Descriptor) (s : State) :
    (receiveLoop n out s).Leaves s := by
  induction n generalizing out s with
  | zero => exact ⟨rfl, rfl, rfl, .inr rfl, fun _ h => h, .inl rfl, by simp [receiveLoop]⟩
  | succ n ih =>
    obtain ⟨hl, hi⟩ := receiveFrame_leaves s.advance
    obtain ⟨a, b, c, d, e', f, g⟩ := Received.Leaves.after s.advance_keeps hl
    unfold receiveLoop
    generalize receiveFrame s.advance = one at *
    cases he : one.err with
    | some e =>
      simp only [he] at f g ⊢
      exact ⟨a, b, c, d, e', f, g⟩
    | none =>
      simp only [he]
      have hp : one.state.phase = s.phase := by
        rcases f with f | ⟨_, x, f⟩
        · exact f
        · rw [he] at f
          simp at f
      obtain ⟨a2, b2, c2, d2, e2, f2, g2⟩ :=
        ih (out ++ one.out) one.state
      refine ⟨a2.trans a, b2.trans b, c2.trans c, .inl (d2.elim id fun h => h.trans hi),
        fun hc hs => ?_, by rw [← hp]; exact f2, by rw [← hp]; exact g2⟩
      have := e2 (by rw [a]; exact hc) (by rw [a]; exact e' hc hs)
      rwa [a] at this

/-- The whole of RECEIVE's body (R195). -/
theorem receiveBody_leaves (s : State) : (receiveBody s).Leaves s := by
  have h := regRead_keeps s.cfg.rxCountReg s
  unfold receiveBody
  cases hr : regRead s.cfg.rxCountReg s with
  | mk r t =>
    rw [hr] at h
    cases r with
    | error e => exact .after h (.cleanup (regRead_isBus (by rw [hr])) [])
    | ok fc =>
      obtain ⟨a, b, c, d, e, f, g⟩ :=
        receiveLoop_leaves (t.rxBegin fc).rxLeft.toNat [] (t.rxBegin fc)
      exact .after h ⟨a, b, c, d, e, f, g⟩

end Sys2Proof.Machine
end

