-- ==== Sys2Proof/Laws/Exec.lean ====
section
/-!
SUPPORT. What one request can do, said once for every instruction (`exec_perform`, `exec_cases`), and what
one step can do (`step_cases`): the statements about every instruction and about every step cite these.
-/

namespace Sys2Proof.Machine

variable {α β : Type}

/-! ## The frames the ENGINE drives (R92, R103) -/

/-- The wire decode does not classify the transaction as reserved. -/
def Fit (cfg : Config) (x : Txn) : Prop :=
  cfg.wellFormed = true → wireDecode cfg x.driven ≠ .reserved

theorem wireDecode_read_ne (cfg : Config) {be : BitVec 4}
    (window : BitVec 6) (low : BitVec 4) {data : List Byte} {w : Width}
    (hw : enabledWidth be = some w) (hd : data.length = w.bytes) :
    wireDecode cfg (be16 (commandWord cfg.opRd be window low) ++ data) ≠ .reserved := by
  simp [wireDecode, decodeFrame, decodeRegFrame, be16, commandWord_opcode, commandWord_be,
    commandWord_window, commandWord_low, enabledLanes_of_width hw, hd, hw]

theorem wireDecode_write_ne {cfg : Config} (h : cfg.wellFormed = true) {be : BitVec 4}
    (window : BitVec 6) (low : BitVec 4) {data : List Byte} {w : Width}
    (hw : enabledWidth be = some w) (hd : data.length = w.bytes) :
    wireDecode cfg (be16 (commandWord cfg.opWr be window low) ++ data) ≠ .reserved := by
  simp [wireDecode, decodeFrame, decodeRegFrame, be16, commandWord_opcode, commandWord_be,
    commandWord_window, commandWord_low, (Config.opcodes_ne h).1, enabledLanes_of_width hw, hd, hw]

theorem wireDecode_rxBurst_ne {cfg : Config} (h : cfg.wellFormed = true) (data : List Byte) :
    wireDecode cfg (fifoCommand cfg.opRxq :: data) ≠ .reserved := by
  obtain ⟨h1, h2, h3, h4, h5, h6⟩ := Config.opcodes_ne h
  simp [wireDecode, decodeFrame, fifoCommand_op, fifoCommand_low, *]

theorem wireDecode_txBurst_ne {cfg : Config} (h : cfg.wellFormed = true) (data : List Byte) :
    wireDecode cfg (fifoCommand cfg.opTxq :: data) ≠ .reserved := by
  obtain ⟨h1, h2, h3, h4, h5, h6⟩ := Config.opcodes_ne h
  simp [wireDecode, decodeFrame, fifoCommand_op, fifoCommand_low, *]

theorem fit_read (cfg : Config) (r : Reg) (h : r.aligned = true) (rx : RxState)
    (got : Option (List Byte)) : Fit cfg (Txn.ofRead cfg rx r got) := fun _ =>
  wireDecode_read_ne cfg _ _ (w := r.width) (byteEnable_spec _ _ h).1 (by simp)

theorem fit_write (cfg : Config) (w : RegWrite) (h : w.reg.aligned = true) (rx : RxState)
    (got : Option (List Byte)) : Fit cfg (Txn.ofWrite cfg rx got w) := fun hc =>
  wireDecode_write_ne hc _ _ (w := w.reg.width) (byteEnable_spec _ _ h).1 (by simp)

theorem fit_sends (cfg : Config) : Sends cfg (Fit cfg) := by
  have key : cfg.wellFormed = true → ∀ r ∈ cfg.regs, r.aligned = true := by
    intro h
    simp only [Config.wellFormed, Bool.and_eq_true, List.all_eq_true] at h
    exact h.2
  constructor
  · exact fun r hr rx got hc => fit_read cfg r (key hc r hr) rx got hc
  · exact fun w hw rx got hc => fit_write cfg w (key hc _ hw) rx got hc
  · exact fun _ _ _ hc => wireDecode_rxBurst_ne hc _
  · exact fun _ _ _ hc => wireDecode_txBurst_ne hc _

theorem spi_did {P : Txn → Prop} {s : State} {burst : Bool} {site : Site} {out : List Byte} {n : Nat}
    (hb : s.spiBusy = false) (ho : s.burstOpen = false)
    (hP : ∀ got, P ⟨out ++ List.replicate n s.cfg.dummyTx, got, s.rxState, burst⟩) :
    (spi burst site out n s).Did P s := by
  cases h : s.answer 0 n with
  | none =>
    rw [spi_fail hb ho h]
    exact Ran.Did.error (Performed.afterTxns s _ (by simpa using hP _)) (by simp)
      (fun _ _ => ⟨_, rfl, rfl⟩)
  | some got =>
    rw [spi_ok hb ho h]
    exact Ran.Did.ok (Performed.afterTxns s _ (by simpa using hP _)) (by simp)

/-! ## How each body ends -/

theorem Error.IsBus.ne {e : Error} (h : e.IsBus) : e ≠ .fifoDesync none := by
  rintro rfl
  obtain ⟨_, h⟩ := h
  simp at h

theorem pollReady_error {n : Nat} {last : Word} {s : State} {e : Error}
    (h : (pollReady n last s).reply = .error e) : e ≠ .fifoDesync none := by
  induction n generalizing last s with
  | zero =>
    simp only [pollReady, Ran.throw_eq, Except.error.injEq] at h
    subst h
    simp
  | succ n ih =>
    unfold pollReady at h
    simp only at h
    split at h
    · rename_i h'
      simp only [Ran.throw_eq, Except.error.injEq] at h
      subst h
      exact (regRead_isBus h').ne
    · split at h
      · simp at h
      · exact ih h

theorem resetBody_error {s : State} {e : Error} (h : (resetBody s).reply = .error e) :
    e ≠ .fifoDesync none := by
  unfold resetBody at h
  simp only at h
  split at h
  · rename_i h'
    simp only [Ran.throw_eq, Except.error.injEq] at h
    subst h
    exact (writeList_isBus h').ne
  · rcases Ran.andThen_reply_error h with h | ⟨a, _, h⟩
    · exact pollReady_error h
    · simp at h

theorem acknowledge_isBus {out : List Descriptor} {s : State} {e : Error}
    (h : (acknowledge out s).reply = .error e) : e.IsBus := by
  rcases Ran.andThen_reply_error h with h | ⟨a, _, h⟩
  · exact writeList_isBus h
  · simp at h

theorem dispatchAll_isBus {s : State} {e : Error} (h : (dispatchAll s).reply = .error e) :
    e.IsBus := by
  unfold dispatchAll at h
  simp only at h
  split at h
  · split at h
    · simp at h
    · exact acknowledge_isBus h
  · exact acknowledge_isBus h

/-- A SERVICE_INTERRUPTS that returns, returns a service result. -/
theorem dispatchAll_ok {s : State} {r : Result} (h : (dispatchAll s).reply = .ok r) :
    ∃ snap handled out err, r = .service snap handled out err := by
  have ack : ∀ {out : List Descriptor} {t : State}, (acknowledge out t).reply = .ok r →
      ∃ snap handled out err, r = .service snap handled out err := by
    intro out t h
    obtain ⟨_, _, h⟩ := Ran.andThen_reply_ok h
    simp only [Ran.pure_eq, Except.ok.injEq] at h
    exact ⟨_, _, _, _, h.symm⟩
  unfold dispatchAll at h
  simp only at h
  split at h
  · split at h
    · simp only [Ran.pure_eq, Except.ok.injEq] at h
      exact ⟨_, _, _, _, h.symm⟩
    · exact ack h
  · exact ack h

theorem transmitBody_ok {frame : List Byte} {irq csum : Bool} {s : State} {r : Result}
    (h : (transmitBody frame irq csum s).reply = .ok r) : r = .ok := by
  unfold transmitBody at h
  split at h
  · simp at h
  split at h
  · simp at h
  obtain ⟨_, _, h⟩ := Ran.andThen_reply_ok h
  simp only at h
  split at h
  · simp at h
  obtain ⟨_, _, h⟩ := Ran.andThen_reply_ok h
  obtain ⟨_, _, h⟩ := Ran.andThen_reply_ok h
  obtain ⟨_, _, h⟩ := Ran.andThen_reply_ok h
  simp only [Ran.pure_eq, Except.ok.injEq] at h
  exact h.symm

theorem transmitBody_error {frame : List Byte} {irq csum : Bool} {s : State} {e : Error}
    (h : (transmitBody frame irq csum s).reply = .error e) : e ≠ .fifoDesync none := by
  unfold transmitBody at h
  split at h
  · simp only [Ran.throw_eq, Except.error.injEq] at h
    subst h
    simp
  split at h
  · simp only [Ran.throw_eq, Except.error.injEq] at h
    subst h
    simp
  rcases Ran.andThen_reply_error h with h | ⟨_, _, h⟩
  · exact (regRead_isBus h).ne
  simp only at h
  split at h
  · simp only [Ran.throw_eq, Except.error.injEq] at h
    subst h
    simp
  rcases Ran.andThen_reply_error h with h | ⟨_, _, h⟩
  · exact (txBurstOpen_isBus h).ne
  rcases Ran.andThen_reply_error h with h | ⟨_, _, h⟩
  · exact (writeList_isBus h).ne
  rcases Ran.andThen_reply_error h with h | ⟨_, _, h⟩
  · exact (regWrite_isBus h).ne
  simp at h

/-! ## Refusals -/

theorem firstRefusal_mem {checks : List (Bool × Reason)} {why : Reason}
    (h : firstRefusal checks = some why) : ∃ c ∈ checks, c.1 = true ∧ c.2 = why := by
  induction checks with
  | nil => simp [firstRefusal] at h
  | cons c rest ih =>
    obtain ⟨a, b⟩ := c
    simp only [firstRefusal] at h
    split at h
    · exact ⟨_, List.mem_cons_self .., by assumption, by simpa using h⟩
    · obtain ⟨c, hc, h⟩ := ih h
      exact ⟨c, List.mem_cons_of_mem _ hc, h⟩

/-- No request check gives a reason of the phase table (R304, R306). -/
theorem firstRefusal_not_phase {checks : List (Bool × Reason)}
    (hl : ∀ c ∈ checks, c.2 ≠ .notConfigured ∧ c.2 ≠ .notReset) :
    ∀ why, firstRefusal checks = some why → why ≠ .notConfigured ∧ why ≠ .notReset := by
  intro why h
  obtain ⟨c, hc, _, rfl⟩ := firstRefusal_mem h
  exact hl c hc

/-! ## Every instruction -/

/-- What the body of a request gives: its transactions, at most the last one failed, none of them reserved;
a result that is no refusal and no error; an error that is not the phase table's. -/
structure BodyOk (s : State) (x : Ran Result) : Prop where
  did : ∃ xs, Performed (Fit s.cfg) s.begun x.state xs ∧
    ∀ y ∈ xs.dropLast, y.received ≠ none
  ok : ∀ r, x.reply = .ok r → (∀ why, r ≠ .refused why) ∧ (∀ e, r ≠ .raised e)
  error : ∀ e, x.reply = .error e → e ≠ .fifoDesync none

theorem State.admitted_sameTrace (s : State) (op : Op) (checks : List (Bool × Reason)) :
    SameTrace s.begun (s.admitted op checks) := by constructor <;> rfl

theorem BodyOk.of {s : State} {op : Op} {checks : List (Bool × Reason)} {x : Ran Result}
    (h : Ran.Did (Fit s.cfg) (s.admitted op checks) x)
    (ho : ∀ r, x.reply = .ok r → (∀ why, r ≠ .refused why) ∧ (∀ e, r ≠ .raised e))
    (he : ∀ e, x.reply = .error e → e ≠ .fifoDesync none) : BodyOk s x := by
  obtain ⟨xs, h, h', _⟩ := h
  exact ⟨⟨xs, h.after (s.admitted_sameTrace op checks), h'⟩, ho, he⟩

/-- A body that runs a part and then returns a value computed from what the part gave. -/
theorem BodyOk.of_andThen {s : State} {op : Op} {checks : List (Bool × Reason)} {x : Ran α}
    {f : α → State → Result} {g : α → State → State}
    (h : Ran.Did (Fit s.cfg) (s.admitted op checks) x)
    (hg : ∀ a t, SameTrace t (g a t))
    (ho : ∀ a t, (∀ why, f a t ≠ .refused why) ∧ (∀ e, f a t ≠ .raised e))
    (he : ∀ e, x.reply = .error e → e ≠ .fifoDesync none) :
    BodyOk s (x.andThen fun a t => .pure (f a t) (g a t)) := by
  refine .of (h.andThen fun a _ => Ran.Did.same (hg _ _) _) (fun r hr => ?_) (fun e hr => ?_)
  · obtain ⟨_, _, hr⟩ := Ran.andThen_reply_ok hr
    simp only [Ran.pure_eq, Except.ok.injEq] at hr
    subst hr
    exact ho _ _
  · rcases Ran.andThen_reply_error hr with hr | ⟨_, _, hr⟩
    · exact he e hr
    · simp at hr

theorem regFrameChecks_none {cfg : Config} {be : BitVec 4} {window : BitVec 6} {n : Nat}
    (h : firstRefusal (regFrameChecks cfg be window n) = none) :
    ∃ w, enabledWidth be = some w ∧ n = w.bytes := by
  simp only [regFrameChecks, firstRefusal] at h
  cases hw : enabledWidth be with
  | none => simp [hw] at h
  | some w =>
    have := enabledLanes_of_width hw
    simp only [hw, Option.isNone_some, Bool.false_or] at h
    split at h
    · simp at h
    · rename_i hn
      exact ⟨w, rfl, by simpa [this] using hn⟩

theorem regChecks_none {cfg : Config} {a w : Byte} {more : List (Bool × Reason)}
    (h : firstRefusal (regChecks cfg a w ++ more) = none) : (regOf a w).aligned = true := by
  simp only [regChecks, List.cons_append, firstRefusal] at h
  simp only [Reg.aligned, regOf]
  unfold Width.ofBits? at *
  split_ifs at * <;> simp_all [aligned]

/-- A SameTrace step of the position alone. -/
theorem SameTrace.refl (s : State) : SameTrace s s := by constructor <;> rfl

/-- Every instruction is one `perform`: its checks give no reason of the phase table, and its body is as
`BodyOk` says. -/
theorem exec_perform (i : Instr) (s : State) : ∃ checks body,
    exec i s = .next (perform i.op checks body s) ∧
    (∀ why, firstRefusal checks = some why → why ≠ .notConfigured ∧ why ≠ .notReset) ∧
    (firstRefusal checks = none → s.free → BodyOk s (body (s.admitted i.op checks))) := by
  have sends := fit_sends s.cfg
  cases i with
  | spiRegRead be window low =>
    refine ⟨_, _, rfl, firstRefusal_not_phase (by simp [regFrameChecks]), fun hr hf => ?_⟩
    obtain ⟨w, h1, h2⟩ := regFrameChecks_none hr
    exact .of_andThen (spi_did (s := s.admitted _ _) hf.2.1 hf.2.2 fun got _ =>
      wireDecode_read_ne _ _ _ h1 (by simp [h2])) (fun _ _ => .refl _) (by simp)
      fun e h => (spi_isBus h).ne
  | spiRegWrite be window low data =>
    refine ⟨_, _, rfl, firstRefusal_not_phase (by simp [regFrameChecks]), fun hr hf => ?_⟩
    obtain ⟨w, h1, h2⟩ := regFrameChecks_none hr
    exact .of_andThen (spi_did (s := s.admitted _ _) hf.2.1 hf.2.2 fun got hc => by
      simpa using wireDecode_write_ne hc window low h1 h2) (fun _ _ => .refl _) (by simp)
      fun e h => (spi_isBus h).ne
  | spiRxqRead n =>
    exact ⟨_, _, rfl, by simp [firstRefusal], fun _ hf =>
      .of_andThen (spi_did (s := s.admitted _ _) hf.2.1 hf.2.2 fun got hc =>
        wireDecode_rxBurst_ne hc _) (fun _ _ => .refl _) (by simp)
      fun e h => (spi_isBus h).ne⟩
  | spiTxqWrite data =>
    exact ⟨_, _, rfl, by simp [firstRefusal], fun _ hf =>
      .of_andThen (spi_did (s := s.admitted _ _) hf.2.1 hf.2.2 fun got hc =>
        wireDecode_txBurst_ne hc _) (fun _ _ => .refl _) (by simp)
      fun e h => (spi_isBus h).ne⟩
  | regRead a w =>
    exact ⟨_, _, rfl, firstRefusal_not_phase (by simp [regChecks]), fun hr hf =>
      .of_andThen (regRead_did (s := s.admitted _ _) hf.2.1 hf.2.2
        (fit_read _ _ (regChecks_none (more := []) hr))) (fun _ _ => .refl _) (by simp)
        fun e h => (regRead_isBus h).ne⟩
  | regWrite a w v =>
    refine ⟨_, _, rfl, firstRefusal_not_phase (by simp [regWriteChecks, regChecks]),
      fun hr hf => ?_⟩
    exact .of_andThen (regWrite_did (s := s.admitted _ _) hf.2.1 hf.2.2
      (fit_write _ ⟨regOf a w, v⟩ (regChecks_none hr))) (fun _ _ => .refl _) (by simp)
      fun e h => (regWrite_isBus h).ne
  | regRmw a w clr set =>
    refine ⟨_, _, rfl, firstRefusal_not_phase (by simp [regRmwChecks, regChecks]),
      fun hr hf => ?_⟩
    have ha := regChecks_none hr
    have h1 := regRead_did (s := s.admitted .regRmw (regRmwChecks s.cfg a w clr set)) hf.2.1 hf.2.2
      (fit_read s.cfg _ ha)
    refine .of (h1.andThen fun _ _ => (regWrite_did (h1.spiBusy.trans hf.2.1)
      (h1.burstOpen.trans hf.2.2) ?_).andThen fun _ _ => .same (.refl _) _) ?_ ?_
    · rw [h1.cfg]
      exact fit_write s.cfg ⟨regOf a w, _⟩ ha
    · intro r h
      obtain ⟨_, _, h⟩ := Ran.andThen_reply_ok h
      obtain ⟨_, _, h⟩ := Ran.andThen_reply_ok h
      simp only [Ran.pure_eq, Except.ok.injEq] at h
      subst h
      simp
    · intro e h
      rcases Ran.andThen_reply_error h with h | ⟨_, _, h⟩
      · exact (regRead_isBus h).ne
      rcases Ran.andThen_reply_error h with h | ⟨_, _, h⟩
      · exact (regWrite_isBus h).ne
      · simp at h
  | fifoRead m =>
    exact ⟨_, _, rfl, firstRefusal_not_phase (by simp [fifoReadChecks]), fun hr hf =>
      .of_andThen (rxBurst_did (s := s.admitted _ _) hf.2.1 hf.2.2 sends) (fun _ _ => .refl _)
        (by simp) fun e h => (rxBurst_isBus h).ne⟩
  | fifoWrite d =>
    refine ⟨_, _, rfl, firstRefusal_not_phase (by simp [fifoWriteChecks]), fun hr hf => ?_⟩
    have h1 := txBurstOpen_did (s := s.admitted .fifoWrite (fifoWriteChecks s.cfg d)) (d := d) hf.2.1 hf.2.2 sends
    refine .of (h1.andThen fun _ _ => (txBurstClose_did (h1.spiBusy.trans hf.2.1)
      (h1.burstOpen.trans hf.2.2) ?_).andThen fun _ _ => .same (.refl _) _) ?_ ?_
    · rw [h1.cfg]
      exact sends
    · intro r h
      obtain ⟨_, _, h⟩ := Ran.andThen_reply_ok h
      obtain ⟨_, _, h⟩ := Ran.andThen_reply_ok h
      simp only [Ran.pure_eq, Except.ok.injEq] at h
      subst h
      simp
    · intro e h
      rcases Ran.andThen_reply_error h with h | ⟨_, _, h⟩
      · exact (txBurstOpen_isBus h).ne
      rcases Ran.andThen_reply_error h with h | ⟨_, _, h⟩
      · exact (writeList_isBus h).ne
      · simp at h
  | rxHdrParse hdr =>
    exact ⟨_, _, rfl, firstRefusal_not_phase (by simp [rxHdrParseChecks]), fun _ _ =>
      .of (.same (by constructor <;> rfl) _) (by simp) (by simp)⟩
  | receive =>
    refine ⟨_, _, rfl, by simp [firstRefusal], fun _ hf => ⟨?_, by simp, by simp⟩⟩
    obtain ⟨xs, h1, h2, _⟩ := receiveBody_did (s := s.admitted .receive []) hf.2.1 hf.2.2 sends
    exact ⟨xs, h1.after (s.admitted_sameTrace _ _), h2⟩
  | txHdrBuild irq csum fid len =>
    exact ⟨_, _, rfl, firstRefusal_not_phase (by simp [txHdrBuildChecks, flagChecks]), fun _ _ =>
      .of (.same (by constructor <;> rfl) _) (by simp) (by simp)⟩
  | transmit frame irq csum =>
    refine ⟨_, _, rfl, firstRefusal_not_phase (by simp [flagChecks]), fun _ hf =>
      .of (transmitBody_did (s := s.admitted _ _) _ _ _ hf.2.1 hf.2.2 sends) ?_
        fun e h => transmitBody_error h⟩
    intro r h
    rw [transmitBody_ok h]
    simp
  | reset =>
    refine ⟨_, _, rfl, by simp [firstRefusal], fun _ hf =>
      .of (resetBody_did (s := s.admitted _ _) hf.2.1 hf.2.2 sends) ?_ fun e h => resetBody_error h⟩
    intro r h
    unfold resetBody at h
    simp only at h
    split at h
    · simp at h
    · obtain ⟨_, _, h⟩ := Ran.andThen_reply_ok h
      simp only [Ran.pure_eq, Except.ok.injEq] at h
      subst h
      simp
  | configure mac filter imask =>
    refine ⟨_, _, rfl, firstRefusal_not_phase (by simp [configureChecks]), fun _ hf =>
      .of_andThen (writeList_did (s := s.admitted _ _) _ hf.2.1 hf.2.2 fun w hw => sends.write w ?_)
        (fun _ _ => by constructor <;> rfl) (by simp) fun e h => (writeList_isBus h).ne⟩
    simp only [configureWrites, List.mem_append] at hw
    rcases hw with (((hw | hw) | hw) | hw) | hw
    · simp only [State.admitted_cfg, List.mem_cons, List.not_mem_nil, or_false] at hw
      rcases hw with rfl | rfl | rfl <;> simp [Config.regs]
    · rw [← List.map_uncurry_zip_eq_zipWith] at hw
      obtain ⟨⟨a, b⟩, h, rfl⟩ := List.mem_map.mp hw
      have h1 : a ∈ s.cfg.filterRegs := (List.of_mem_zip h).1
      simp [Config.regs, h1]
    · simp only [State.admitted_cfg, List.mem_singleton] at hw
      subst hw
      simp [Config.regs]
    · exact Config.reg_mem _ (by simp only [State.admitted_cfg] at hw; tauto)
    · exact Config.reg_mem _ (by simp only [State.admitted_cfg] at hw; tauto)
  | linkStatus =>
    exact ⟨_, _, rfl, by simp [firstRefusal], fun _ hf =>
      .of_andThen (regRead_did (s := s.admitted _ _) hf.2.1 hf.2.2
        (sends.read _ (Config.mem_regs _ (by simp)))) (fun _ t => t.advance_sameTrace) (by simp)
        fun e h => (regRead_isBus h).ne⟩
  | serviceInterrupts =>
    refine ⟨_, _, rfl, by simp [firstRefusal], fun _ hf => ⟨?_, ?_, ?_⟩⟩
    · have h1 := (regRead_did (s := s.admitted .serviceInterrupts []) hf.2.1 hf.2.2
        (sends.read _ (Config.mem_regs (r := s.cfg.isrReg) _ (by simp)))).from
        (s.admitted_sameTrace _ _)
      change ∃ xs, Performed (Fit s.cfg) s.begun
        ((regRead s.cfg.isrReg (s.admitted .serviceInterrupts [])).andThen fun v u =>
          dispatchAll (u.snapshot v)).state xs ∧ _
      generalize regRead s.cfg.isrReg (s.admitted .serviceInterrupts []) = x at h1
      obtain ⟨r, t⟩ := x
      cases r with
      | error e =>
        obtain ⟨xs, a, b, _⟩ := h1
        exact ⟨xs, a, b⟩
      | ok v =>
        simp only [Ran.andThen_ok]
        obtain ⟨xs, a, _, b, _⟩ := h1
        have h0 : SameTrace t (t.snapshot v) := by constructor <;> rfl
        obtain ⟨ys, c, d⟩ := dispatchAll_did (P := Fit s.cfg) (s := t.snapshot v)
          (a.spiBusy.trans hf.2.1) (a.burstOpen.trans hf.2.2)
          (by change Sends t.cfg _; rw [a.cfg]; exact sends)
        have hd : Ran.Did (Fit s.cfg) (t.snapshot v)
            (⟨.error (.frameTooLarge 0), (dispatchAll (t.snapshot v)).state⟩ : Ran Unit) :=
          .error c d (by simp)
        obtain ⟨zs, z1, z2, _⟩ := Ran.Did.prepend (a.then h0) (b v rfl) hd
        exact ⟨zs, z1, z2⟩
    · intro r h
      obtain ⟨_, _, h⟩ := Ran.andThen_reply_ok h
      obtain ⟨_, _, _, _, rfl⟩ := dispatchAll_ok h
      simp
    · intro e h
      rcases Ran.andThen_reply_error h with h | ⟨_, _, h⟩
      · exact (regRead_isBus h).ne
      · exact (dispatchAll_isBus h).ne

/-- What an instruction can do: the concurrency fault (R305), the phase outcomes (R306), a refusal (R304), or
its body with the end of the request. -/
theorem exec_cases {i : Instr} {s t : State} (h : exec i s = .next t) :
    (s.occupied = true ∧ t = s.concurrentAccess) ∨
    (s.free ∧ ∃ why, admission i.op s.phase = .refuse why ∧
      t = { s.begun with refused := true, result := some (.refused why) }) ∨
    (s.free ∧ admission i.op s.phase = .raise ∧
      t = { s.begun with result := some (.raised (.fifoDesync none)) }) ∨
    (s.free ∧ admission i.op s.phase = .admitted ∧
      ∃ why, t = { s.begun with refused := true, result := some (.refused why) }) ∨
    (s.free ∧ admission i.op s.phase = .admitted ∧
      ∃ x : Ran Result, BodyOk s x ∧ t = x.finish) := by
  obtain ⟨checks, body, h1, -, h2⟩ := exec_perform i s
  rw [h1] at h
  simp only [Host.Outcome.next.injEq] at h
  subst h
  rcases perform_cases i.op checks body s with
    h | h | h | ⟨a, b, why, c, d⟩ | ⟨a, b, c, d⟩
  · exact .inl h
  · exact .inr (.inl h)
  · exact .inr (.inr (.inl h))
  · exact .inr (.inr (.inr (.inl ⟨a, b, why, d⟩)))
  · exact .inr (.inr (.inr (.inr ⟨a, b, _, h2 c a, d⟩)))

theorem Ran.finish_sameTrace (x : Ran Result) : SameTrace x.state x.finish := by
  obtain ⟨r, t⟩ := x
  cases r <;> constructor <;> rfl

/-! ## Every step -/

/-- The state in which a submission that decodes to no instruction is turned away: an operation has begun
only where the submission names one (R111, R103; log entries 8 and 12). -/
def State.turning (e : DecodeError) (s : State) : State :=
  match e with
  | .badFields _ => s.begun
  | .emptyRequest => s
  | .unknownTag _ => s
  | .emptyFrame => s
  | .unknownOpcode _ => s
  | .frameLength _ => s
  | .reservedFifoByte _ => s

/-- What bytes that are no instruction can do (R111, R103, R304 to R306). -/
theorem refuseUndecoded_cases (e : DecodeError) (s : State) :
    (s.occupied = true ∧ refuseUndecoded e s = s.concurrentAccess) ∨
    (s.free ∧ ∃ why, refuseUndecoded e s
      = { s.turning e with refused := true, result := some (.refused why) }) ∨
    (s.free ∧ refuseUndecoded e s
      = { s.turning e with result := some (.raised (.fifoDesync none)) }) := by
  have key : ∀ why, (s.occupied = true ∧
      (if s.occupied then s.concurrentAccess else s.refuse why) = s.concurrentAccess) ∨
      (s.free ∧ ∃ w, (if s.occupied then s.concurrentAccess else s.refuse why)
        = { s with refused := true, result := some (.refused w) }) ∨
      (s.free ∧ (if s.occupied then s.concurrentAccess else s.refuse why)
        = { s with result := some (.raised (.fifoDesync none)) }) := by
    intro why
    split_ifs with ho
    · exact .inl ⟨ho, rfl⟩
    · have hf := State.free_of_occupied (by simpa using ho)
      exact .inr (.inl ⟨hf, why, by rw [State.refuse, ← hf.1]⟩)
  cases e with
  | badFields op =>
    change (_ ∧ perform op [(true, .badRequest)] (Ran.pure .ok) s = _) ∨ _
    rcases perform_cases op [(true, .badRequest)] (Ran.pure .ok) s with
      h | ⟨a, why, _, c⟩ | ⟨a, _, c⟩ | ⟨a, _, why, _, d⟩ | ⟨a, b, c, d⟩
    · exact .inl h
    · exact .inr (.inl ⟨a, why, c⟩)
    · exact .inr (.inr ⟨a, c⟩)
    · exact .inr (.inl ⟨a, why, d⟩)
    · simp [firstRefusal] at c
  | emptyRequest => exact key _
  | unknownTag _ => exact key _
  | emptyFrame => exact key _
  | unknownOpcode _ => exact key _
  | frameLength _ => exact key _
  | reservedFifoByte _ => exact key _

/-- What a step can do: wait, run the decoded instruction, or turn away what is no instruction. -/
theorem step_cases {s t : State} (h : step s = .next t) :
    (s.inbox = [] ∧ t = s) ∨ ∃ sub rest, s.inbox = sub :: rest ∧
      ((∃ i, decode s.cfg sub = .ok i ∧ exec i { s with inbox := rest } = .next t) ∨
       ∃ e, decode s.cfg sub = .error e ∧ t = refuseUndecoded e { s with inbox := rest }) := by
  unfold step at h
  split at h
  · unfold State.takeSubmission at h
    cases hi : s.inbox with
    | nil =>
      simp only [hi, Host.Outcome.next.injEq] at h
      exact .inl ⟨rfl, h.symm⟩
    | cons sub rest =>
      simp only [hi] at h
      refine .inr ⟨sub, rest, rfl, ?_⟩
      split at h
      · exact .inl ⟨_, by assumption, h⟩
      · simp only [Host.Outcome.next.injEq] at h
        exact .inr ⟨_, by assumption, h.symm⟩
  · simp at h

end Sys2Proof.Machine
end

