-- ==== Sys2Proof/Laws/Frames.lean ====
section
/-!
SUPPORT. RECEIVE frame by frame: one pass of its loop over a plausible frame (`receiveFrame_plausible`), and a
row of passes (`receiveLoop_plausible`), as `State.afterFrames` writes them.
-/

namespace Sys2Proof.Machine

/-! ## Two states with one trace -/

/-- The fields `Performed` does not speak of agree. -/
structure SameRest (s t : State) : Prop where
  pc : s.pc = t.pc
  phase : s.phase = t.phase
  rxState : s.rxState = t.rxState
  rxStatus : s.rxStatus = t.rxStatus
  rxCount : s.rxCount = t.rxCount
  rxLeft : s.rxLeft = t.rxLeft
  rxDone : s.rxDone = t.rxDone
  stage : s.stage = t.stage
  txWritten : s.txWritten = t.txWritten
  txFid : s.txFid = t.txFid
  snap : s.snap = t.snap
  handled : s.handled = t.handled
  txDoneEvents : s.txDoneEvents = t.txDoneEvents
  rxovrEvents : s.rxovrEvents = t.rxovrEvents
  linkEvents : s.linkEvents = t.linkEvents
  rxDelivered : s.rxDelivered = t.rxDelivered
  rxDropped : s.rxDropped = t.rxDropped
  pollCount : s.pollCount = t.pollCount
  gRxConsumed : s.gRxConsumed = t.gRxConsumed
  result : s.result = t.result

/-- Two states that come after `s` by the same transactions and agree in the rest are one. -/
theorem Performed.unique {P : Txn → Prop} {s t u : State} {xs : List Txn} (h : Performed P s t xs)
    (h' : Performed P s u xs) (hr : SameRest t u) : t = u := by
  have e1 := h.bus.trans h'.bus.symm
  have e2 := h.txns.trans h'.txns.symm
  have e3 := h.bursts.trans h'.bursts.symm
  have e4 := h.script.trans h'.script.symm
  have e5 := h.fault.trans h'.fault.symm
  have e6 := h.cfg.trans h'.cfg.symm
  have e7 := h.inbox.trans h'.inbox.symm
  have e8 := h.rivals.trans h'.rivals.symm
  have e9 := h.refused.trans h'.refused.symm
  have e10 := h.spiBusy.trans h'.spiBusy.symm
  have e11 := h.burstOpen.trans h'.burstOpen.symm
  obtain ⟨r1, r2, r3, r4, r5, r6, r7, r8, r9, r10, r11, r12, r13, r14, r15, r16, r17, r18, r19,
    r20⟩ := hr
  cases t
  cases u
  simp only at *
  subst_vars
  rfl

/-! ## The transfers, with the configuration and the RX state named -/

variable {s : State} {cfg : Config} {rx : RxState}

theorem regRead_ok_at {r : Reg} {got : List Byte} (hc : s.cfg = cfg) (hx : s.rxState = rx)
    (hb : s.spiBusy = false) (ho : s.burstOpen = false) (h : s.answer 0 r.width.bytes = some got) :
    regRead r s = ⟨.ok (readValue cfg.dataEndian r.width got),
      s.afterTxns [Txn.ofRead cfg rx r (some got)]⟩ := by
  subst hc hx
  exact regRead_ok hb ho h

theorem writeList_ok_at {ws : List RegWrite} (hc : s.cfg = cfg) (hx : s.rxState = rx)
    (hb : s.spiBusy = false) (ho : s.burstOpen = false) (h : s.plays (Txn.ofWrites cfg rx ws)) :
    writeList ws s = ⟨.ok (), s.afterTxns (Txn.ofWrites cfg rx ws)⟩ := by
  subst hc hx
  exact writeList_ok _ hb ho h

/-- The transactions of `rxBurst m`, all completed (R150). -/
def Txn.ofRxTransfer (cfg : Config) (rx : RxState) (m : Nat) (got : List Byte) : List Txn :=
  Txn.ofWrites cfg rx cfg.rxPre
    ++ Txn.ofRxBurst cfg rx m (some got) :: Txn.ofWrites cfg rx cfg.rxPost

theorem rxBurst_ok_at {m : Nat} {got : List Byte} (hc : s.cfg = cfg) (hx : s.rxState = rx)
    (hb : s.spiBusy = false) (ho : s.burstOpen = false)
    (hl : got.length = cfg.rxLead + alignUp m cfg.rxAlign)
    (h : s.plays (Txn.ofRxTransfer cfg rx m got)) :
    rxBurst m s = ⟨.ok ((got.drop cfg.rxLead).take m),
      s.afterTxns (Txn.ofRxTransfer cfg rx m got)⟩ := by
  subst hc hx
  exact rxBurst_ok hb ho hl h

/-! ## One frame -/

/-- The header of a frame is read and latched (R196). -/
theorem receiveFrame_header {f : SeenFrame} (hb : s.spiBusy = false) (ho : s.burstOpen = false)
    (hf : f.headerShaped s.cfg) (hp : s.plays (f.headerTxns s.cfg)) :
    receiveFrame s = judgeFrame (State.rxLatch (f.statusWord s.cfg) (f.declared s.cfg)
      (s.rxAwaitHeader.afterTxns (f.headerTxns s.cfg))) := by
  obtain ⟨hs1, hs2⟩ := hf
  unfold SeenFrame.headerTxns at hp
  obtain ⟨ha, hr⟩ := State.plays_cons.mp hp
  have hr := State.plays_head
    (hr (Txn.ofRead s.cfg .headerPending s.cfg.rxHdrStatusReg (some f.status)))
  have ha : s.answer 0 s.cfg.rxHdrStatusReg.width.bytes = some f.status := by
    rw [← hs1]
    exact ha
  have hr : (State.afterTxns [Txn.ofRead s.cfg .headerPending s.cfg.rxHdrStatusReg
      (some f.status)] s).answer 0 s.cfg.rxHdrCountReg.width.bytes = some f.count := by
    rw [← hs2]
    exact hr
  unfold receiveFrame
  rw [regRead_ok_at (s := s.rxAwaitHeader) (cfg := s.cfg) (rx := .headerPending) rfl rfl hb ho ha,
    Ran.andThen_ok,
    regRead_ok_at (s := s.rxAwaitHeader.afterTxns _) (cfg := s.cfg) (rx := .headerPending) rfl rfl
      hb ho hr,
    Ran.andThen_ok]
  simp only [Ran.pure_eq, State.afterTxns_afterTxns]
  rfl

/-- The payload of an accepted frame, from its burst (R185, R186). -/
theorem SeenFrame.payload_eq {f : SeenFrame} {p : Nat} (h : f.accepted cfg = some p) :
    payloadOf cfg p ((f.data.drop cfg.rxLead).take (cfg.rxFifoHdr + (f.declared cfg).toNat))
      = (f.data.drop (cfg.rxLead + cfg.rxFifoHdr)).take p := by
  have hp : p ≤ (f.declared cfg).toNat := by
    unfold SeenFrame.accepted classify at h
    split at h <;> simp only [Option.some.injEq, reduceCtorEq] at h
    rename_i h'
    split_ifs at h'
    simp only [Verdict.accept.injEq] at h'
    omega
  simp only [payloadOf, List.drop_take, List.drop_drop, List.take_take]
  congr 1
  omega

/-- One pass of the loop over a plausible frame (R196 to R199). -/
theorem receiveFrame_plausible {f : SeenFrame} (hb : s.spiBusy = false) (ho : s.burstOpen = false)
    (hi : s.rxState = .idle) (hf : f.plausible s.cfg) (hp : s.plays (f.txns s.cfg)) :
    ∃ p, receiveFrame s
      = ⟨(f.descriptor? s.cfg).toList, none, { State.afterFrames [f] s with pc := p }⟩ := by
  obtain ⟨hsh, hl, hc⟩ := hf
  unfold SeenFrame.txns at hp
  obtain ⟨hp12, hp3⟩ := State.plays_append.mp hp
  obtain ⟨hp1, hp2⟩ := State.plays_append.mp hp12
  rw [receiveFrame_header hb ho hsh hp1]
  obtain ⟨u, hu⟩ : ∃ u, u = State.rxLatch (f.statusWord s.cfg) (f.declared s.cfg)
    (s.rxAwaitHeader.afterTxns (f.headerTxns s.cfg)) := ⟨_, rfl⟩
  rw [← hu]
  have uc : u.cfg = s.cfg := by rw [hu]; rfl
  have us : u.rxStatus = f.statusWord s.cfg := by rw [hu]; rfl
  have un : u.rxCount = f.declared s.cfg := by rw [hu]; rfl
  have ub : u.spiBusy = false := by rw [hu]; exact hb
  have uo : u.burstOpen = false := by rw [hu]; exact ho
  have ej : judgeFrame u = consumeFrame (f.accepted s.cfg) u.advance := by
    unfold judgeFrame SeenFrame.accepted
    rw [uc, us, un]
    cases hcl : classify s.cfg (f.statusWord s.cfg) (f.declared s.cfg) with
    | desync => exact absurd hcl hc
    | accept p => rfl
    | reject c => rfl
  rw [ej]
  obtain ⟨bt, hbt⟩ : ∃ bt, bt = Txn.ofRxTransfer s.cfg .payloadPending
    (s.cfg.rxFifoHdr + (f.declared s.cfg).toNat) f.data := ⟨_, rfl⟩
  have hp2' : u.advance.rxAwaitPayload.plays bt := by
    rw [hbt]
    refine (State.plays_congr ?_ ?_).mpr hp2 <;> rw [hu] <;> rfl
  unfold consumeFrame
  rw [State.advance_cfg, State.advance_rxCount, uc, un,
    rxBurst_ok_at (s := u.advance.rxAwaitPayload) (cfg := s.cfg) (rx := .payloadPending) uc rfl
    ub uo hl (by rw [← hbt]; exact hp2'), ← hbt]
  simp only
  have hp3 : (State.afterTxns (f.headerTxns s.cfg ++ bt) s).plays (Txn.ofWrites s.cfg
      (if (f.accepted s.cfg).isSome then .delivered else .payloadPending) s.cfg.rxRelease) := by
    rw [hbt]
    exact hp3
  obtain ⟨v, hv⟩ : ∃ v, v = settleFrame (f.accepted s.cfg)
    (List.take (s.cfg.rxFifoHdr + (f.declared s.cfg).toNat) (List.drop s.cfg.rxLead f.data))
    (State.afterTxns bt u.advance.rxAwaitPayload).rxConsume.advance := ⟨_, rfl⟩
  rw [← hv]
  have vc : v.2.cfg = s.cfg := by
    rw [hv]
    unfold settleFrame
    cases f.accepted s.cfg <;> exact uc
  have vx : v.2.rxState
      = if (f.accepted s.cfg).isSome then .delivered else .payloadPending := by
    rw [hv]
    unfold settleFrame
    cases f.accepted s.cfg <;> rfl
  have vb : v.2.spiBusy = false := by
    rw [hv]
    unfold settleFrame
    cases f.accepted s.cfg <;> exact ub
  have vo : v.2.burstOpen = false := by
    rw [hv]
    unfold settleFrame
    cases f.accepted s.cfg <;> exact uo
  obtain ⟨rel, hrel⟩ : ∃ rel, rel = Txn.ofWrites s.cfg
    (if (f.accepted s.cfg).isSome then .delivered else .payloadPending) s.cfg.rxRelease := ⟨_, rfl⟩
  have hp3' : v.2.plays rel := by
    rw [hrel]
    refine (State.plays_congr ?_ ?_).mpr hp3
    · rw [hv, hu]
      unfold settleFrame
      cases f.accepted s.cfg <;> simp [State.rxDeliver, State.rxDrop]
    · rw [hv, hu]
      unfold settleFrame
      cases f.accepted s.cfg <;> simp [State.rxDeliver, State.rxDrop] <;> omega
  unfold releaseFrame
  rw [vc, writeList_ok_at (cfg := s.cfg) vc vx vb vo (by rw [← hrel]; exact hp3'), ← hrel]
  simp only
  have hall : SeenFrame.allTxns s.cfg [f] = f.headerTxns s.cfg ++ bt ++ rel := by
    simp [SeenFrame.allTxns, SeenFrame.txns, SeenFrame.burstTxns, Txn.ofRxTransfer, hbt, hrel]
  have P1 : Performed (fun _ => True) s (State.afterTxns rel v.2).rxRelease
      (f.headerTxns s.cfg ++ bt ++ rel) := by
    refine .then (.trans (t := v.2) ?_ (.afterTxns _ _ (by simp))) (by constructor <;> rfl)
    refine .then (t := State.afterTxns bt u.advance.rxAwaitPayload)
      (.trans (t := u.advance.rxAwaitPayload) ?_ (.afterTxns _ _ (by simp))) ?_
    · refine .then (t := u) ?_ (by constructor <;> rfl)
      rw [hu]
      refine .then (t := s.rxAwaitHeader.afterTxns (f.headerTxns s.cfg)) ?_
        (by constructor <;> rfl)
      exact .after (t := s.rxAwaitHeader) (by constructor <;> rfl) (.afterTxns _ _ (by simp))
    · rw [hv]
      unfold settleFrame
      cases f.accepted s.cfg <;> constructor <;> rfl
  refine ⟨(State.afterTxns rel v.2).rxRelease.pc, ?_⟩
  have P2 : Performed (fun _ => True) s
      ({ State.afterFrames [f] s with pc := (State.afterTxns rel v.2).rxRelease.pc } : State)
      (f.headerTxns s.cfg ++ bt ++ rel) := by
    refine .then (t := s.afterTxns (f.headerTxns s.cfg ++ bt ++ rel)) (.afterTxns _ _ (by simp)) ?_
    rw [← hall]
    constructor <;> rfl
  have E : (State.afterTxns rel v.2).rxRelease
      = { State.afterFrames [f] s with pc := (State.afterTxns rel v.2).rxRelease.pc } ∧
      v.1 = (f.descriptor? s.cfg).toList := by
    cases hacc : f.accepted s.cfg with
    | none =>
      rw [hacc] at hv
      have hd : SeenFrame.descriptors s.cfg [f] = [] := by
        simp [SeenFrame.descriptors, SeenFrame.descriptor?, hacc]
      refine ⟨P1.unique P2 ?_, by rw [hv]; simp [settleFrame, SeenFrame.descriptor?, hacc]⟩
      constructor <;> (rw [hv, hu]; try (simp only [State.afterFrames, hd]; rfl))
      · exact hi.symm
      · simp [State.afterFrames, hd, settleFrame]
    | some p =>
      have pay := SeenFrame.payload_eq hacc
      rw [hacc] at hv
      have hd : SeenFrame.descriptors s.cfg [f] = [⟨f.statusWord s.cfg, f.declared s.cfg,
          (f.data.drop (s.cfg.rxLead + s.cfg.rxFifoHdr)).take p⟩] := by
        simp [SeenFrame.descriptors, SeenFrame.descriptor?, hacc]
      have hv1 : v.1 = [⟨f.statusWord s.cfg, f.declared s.cfg,
          (f.data.drop (s.cfg.rxLead + s.cfg.rxFifoHdr)).take p⟩] := by
        rw [hv, hu]
        simp only [settleFrame, State.descriptor, State.rxDeliver, State.rxConsume,
          State.afterTxns_cfg, State.rxAwaitPayload, State.rxLatch, State.rxAwaitHeader,
          State.advance]
        rw [pay, Memory.readRange_store, List.take_take, Nat.min_self]
        simp
      refine ⟨P1.unique P2 ?_, by rw [hv1]; simp [SeenFrame.descriptor?, hacc]⟩
      constructor <;> (rw [hv, hu]; try (simp only [State.afterFrames, hd]; rfl))
      · exact hi.symm
      · simp only [State.afterFrames, hd]
        exact congrArg (Memory.cellsFrom 0) pay
      · simp [State.afterFrames, hd, settleFrame]
  rw [E.2]
  exact congrArg _ E.1

/-! ## A row of frames -/

theorem SeenFrame.descriptors_cons (cfg : Config) (f : SeenFrame) (fs : List SeenFrame) :
    SeenFrame.descriptors cfg (f :: fs)
      = (f.descriptor? cfg).toList ++ SeenFrame.descriptors cfg fs := by
  simp only [SeenFrame.descriptors, List.filterMap_cons]
  cases f.descriptor? cfg <;> simp

/-- One frame, then the others. -/
theorem State.afterFrames_cons (f : SeenFrame) (fs : List SeenFrame) (s : State) (p : Seq) :
    State.afterFrames fs { State.afterFrames [f] s with pc := p }
      = { State.afterFrames (f :: fs) s with
          pc := p.skip (2 * (SeenFrame.allTxns s.cfg fs).length) } := by
  have hall : SeenFrame.allTxns s.cfg (f :: fs)
      = SeenFrame.allTxns s.cfg [f] ++ SeenFrame.allTxns s.cfg fs := by simp [SeenFrame.allTxns]
  have hdes : SeenFrame.descriptors s.cfg (f :: fs)
      = SeenFrame.descriptors s.cfg [f] ++ SeenFrame.descriptors s.cfg fs := by
    rw [SeenFrame.descriptors_cons, SeenFrame.descriptors_cons s.cfg f []]
    simp [SeenFrame.descriptors]
  have hle : ∀ l, (SeenFrame.descriptors s.cfg l).length ≤ l.length :=
    fun l => List.length_filterMap_le _ _
  have P1 : Performed (fun _ => True) s
      (State.afterFrames fs { State.afterFrames [f] s with pc := p })
      (SeenFrame.allTxns s.cfg (f :: fs)) := by
    rw [hall]
    refine .then (t := State.afterTxns (SeenFrame.allTxns s.cfg fs) (State.afterFrames [f] s)) ?_
      (by constructor <;> rfl)
    refine .trans (t := State.afterFrames [f] s) ?_ (.afterTxns _ _ (by simp))
    exact .then (.afterTxns _ _ (by simp)) (by constructor <;> rfl)
  have P2 : Performed (fun _ => True) s
      ({ State.afterFrames (f :: fs) s with
        pc := p.skip (2 * (SeenFrame.allTxns s.cfg fs).length) } : State)
      (SeenFrame.allTxns s.cfg (f :: fs)) :=
    .then (.afterTxns _ _ (by simp)) (by constructor <;> rfl)
  refine P1.unique P2 ?_
  constructor <;> try rfl
  · simp only [State.afterFrames, List.getLast?_cons]
    cases fs.getLast? <;> rfl
  · simp only [State.afterFrames, List.getLast?_cons]
    cases fs.getLast? <;> rfl
  · simp only [State.afterFrames, List.length_cons, List.length_nil]
    rw [BitVec.sub_sub, ← BitVec.ofNat_add]
    congr 2
    omega
  · simp only [State.afterFrames, List.length_cons, List.length_nil]
    omega
  · simp only [State.afterFrames, hdes, List.getLast?_append]
    change (Option.map _ (SeenFrame.descriptors s.cfg fs).getLast?).getD _ = _
    cases (SeenFrame.descriptors s.cfg fs).getLast? <;> simp
  · simp only [State.afterFrames, hdes, List.length_append]
    change _ + _ + BitVec.ofNat 32 (SeenFrame.descriptors s.cfg fs).length = _
    rw [BitVec.ofNat_add, BitVec.add_assoc]
  · simp only [State.afterFrames, hdes, List.length_append]
    change _ + _ + BitVec.ofNat 32 (fs.length - (SeenFrame.descriptors s.cfg fs).length) = _
    have h1 := hle [f]
    have h2 := hle fs
    simp only [BitVec.add_assoc, ← BitVec.ofNat_add, List.length_cons, List.length_nil] at *
    congr 2
    omega
  · simp only [State.afterFrames, List.map_cons, List.sum_cons, List.map_nil, List.sum_nil]
    change s.gRxConsumed + _ + (fs.map fun f => (f.declared s.cfg).toNat).sum = _
    omega

/-- The loop over a row of plausible frames goes on with the passes that are left (R195, R200). -/
theorem receiveLoop_plausible (m : Nat) (fs : List SeenFrame) (out : List Descriptor)
    (hb : s.spiBusy = false) (ho : s.burstOpen = false) (hi : s.rxState = .idle)
    (hf : ∀ f ∈ fs, f.plausible s.cfg) (hp : s.plays (SeenFrame.allTxns s.cfg fs)) :
    ∃ p, receiveLoop (fs.length + m) out s = receiveLoop m (out ++ SeenFrame.descriptors s.cfg fs)
      { State.afterFrames fs s with pc := p } := by
  induction fs generalizing s out with
  | nil =>
    refine ⟨s.pc, ?_⟩
    have : ({ State.afterFrames [] s with pc := s.pc } : State) = s := by
      have : SeenFrame.allTxns s.cfg [] = [] := rfl
      simp [State.afterFrames, this, SeenFrame.descriptors]
    rw [this]
    simp [SeenFrame.descriptors]
  | cons f fs ih =>
    have hall : SeenFrame.allTxns s.cfg (f :: fs)
        = f.txns s.cfg ++ SeenFrame.allTxns s.cfg fs := by simp [SeenFrame.allTxns]
    rw [hall] at hp
    obtain ⟨h1, h2⟩ := State.plays_append.mp hp
    obtain ⟨p, hfe⟩ := receiveFrame_plausible (s := s.advance) hb ho hi (hf f (by simp)) h1
    replace hfe : receiveFrame s.advance = ⟨(f.descriptor? s.cfg).toList, none,
      { State.afterFrames [f] s with pc := p }⟩ := hfe
    have hlen : (f :: fs).length + m = (fs.length + m) + 1 := by
      simp only [List.length_cons]
      omega
    have h2' : ({ State.afterFrames [f] s with pc := p } : State).plays
        (SeenFrame.allTxns s.cfg fs) := by
      refine (State.plays_congr ?_ ?_).mpr h2 <;> simp [State.afterFrames, SeenFrame.allTxns]
    obtain ⟨q, hq⟩ := ih (s := { State.afterFrames [f] s with pc := p })
      (out ++ (f.descriptor? s.cfg).toList) hb ho hi (fun g hg => hf g (by simp [hg])) h2'
    refine ⟨q, ?_⟩
    rw [hlen, receiveLoop, hfe]
    simp only
    rw [hq, State.afterFrames_cons, SeenFrame.descriptors_cons, ← List.append_assoc]
    rfl

end Sys2Proof.Machine
end

