-- ==== Sys2Proof/Laws/PerInstr.lean ====
section
/-!
SUPPORT. A statement about every instruction as syntax: the first byte of its encoding names it (R96, R103
for the wire frames, R110 for the requests). One lemma for each constructor.
-/

namespace Sys2Proof.Laws.TagOfEncoding

/-- The opcode bits a wire frame starts with; none for a request (R94, R96). -/
def wireOpcode (cfg : Config) : Op → Option (BitVec 2)
  | .spiRegRead => some cfg.opRd
  | .spiRegWrite => some cfg.opWr
  | .spiRxqRead => some cfg.opRxq
  | .spiTxqWrite => some cfg.opTxq
  | _ => none

/-- An encoding starts with the byte that names this operation: a request's tag (R110), or the opcode in
bits 7:6 of a frame's first byte (R103). -/
def named (cfg : Config) (op : Op) : Submission → Prop
  | .request bytes => ∃ tag fields, bytes = tag :: fields ∧ requestTags.lookup tag = some op
  | .frame bytes => ∃ first rest, bytes = first :: rest ∧
      some (first.extractLsb' 6 2) = wireOpcode cfg op

def Statement (i : Instr) : Prop := ∀ cfg : Config, named cfg i.op (encode cfg i)

theorem spiRegRead (be : BitVec 4) (window : BitVec 6) (low : BitVec 4) :
    Statement (.spiRegRead be window low) :=
  fun _ => ⟨_, _, rfl, congrArg some (commandWord_opcode ..)⟩

theorem spiRegWrite (be : BitVec 4) (window : BitVec 6) (low : BitVec 4) (data : List Byte) :
    Statement (.spiRegWrite be window low data) :=
  fun _ => ⟨_, _, rfl, congrArg some (commandWord_opcode ..)⟩

theorem spiRxqRead (n : Nat) : Statement (.spiRxqRead n) :=
  fun _ => ⟨_, _, rfl, congrArg some (fifoCommand_op _)⟩

theorem spiTxqWrite (data : List Byte) : Statement (.spiTxqWrite data) :=
  fun _ => ⟨_, _, rfl, congrArg some (fifoCommand_op _)⟩

theorem regRead (addr : Byte) (width : Byte) : Statement (.regRead addr width) :=
  fun _ => ⟨_, _, rfl, rfl⟩

theorem regWrite (addr : Byte) (width : Byte) (value : Word) :
    Statement (.regWrite addr width value) :=
  fun _ => ⟨_, _, rfl, rfl⟩

theorem regRmw (addr : Byte) (width : Byte) (clr : Word) (set : Word) :
    Statement (.regRmw addr width clr set) :=
  fun _ => ⟨_, _, rfl, rfl⟩

theorem fifoRead (count : Word) : Statement (.fifoRead count) :=
  fun _ => ⟨_, _, rfl, rfl⟩

theorem fifoWrite (data : List Byte) : Statement (.fifoWrite data) :=
  fun _ => ⟨_, _, rfl, rfl⟩

theorem rxHdrParse (hdr : List Byte) : Statement (.rxHdrParse hdr) :=
  fun _ => ⟨_, _, rfl, rfl⟩

theorem receive : Statement .receive :=
  fun _ => ⟨_, _, rfl, rfl⟩

theorem txHdrBuild (irq : Bool) (csum : Bool) (fid : Word) (len : Word) :
    Statement (.txHdrBuild irq csum fid len) :=
  fun _ => ⟨_, _, rfl, rfl⟩

theorem transmit (frame : List Byte) (irq : Bool) (csum : Bool) :
    Statement (.transmit frame irq csum) :=
  fun _ => ⟨_, _, rfl, rfl⟩

theorem reset : Statement .reset :=
  fun _ => ⟨_, _, rfl, rfl⟩

theorem configure (mac : List Byte) (filter : List Word) (imask : Word) :
    Statement (.configure mac filter imask) :=
  fun _ => ⟨_, _, rfl, rfl⟩

theorem linkStatus : Statement .linkStatus :=
  fun _ => ⟨_, _, rfl, rfl⟩

theorem serviceInterrupts : Statement .serviceInterrupts :=
  fun _ => ⟨_, _, rfl, rfl⟩

end Sys2Proof.Laws.TagOfEncoding
end

