-- ==== Sys2Proof/Laws/PlainStorage.lean ====
section
/-!
SUPPORT. What a chip of plain registers answers after one more transaction.
-/

namespace Sys2Proof.Machine

/-- One more transaction is the newest write, if it is a write. -/
theorem plainWrites_snoc (cfg : Config) (n : Nat) (xs : List Txn) (x : Txn) (older : List PlainWrite) :
    plainWrites cfg n (xs ++ [x]) older =
      (plainWrite? cfg (n + xs.length) x).toList ++ plainWrites cfg n xs older := by
  induction xs generalizing n older with
  | nil => rfl
  | cons y xs ih =>
    simp only [List.cons_append, plainWrites, ih, List.length_cons]
    rw [show n + 1 + xs.length = n + (xs.length + 1) by omega]

/-- A register write that completed is a write of its data (R94, R103). -/
theorem plainWrite?_ofWrite {cfg : Config} {r : Reg} (hc : cfg.wellFormed = true)
    (ha : Sys2Proof.aligned r.addr r.width = true) (n : Nat) (rx : RxState) (v : Word) :
    plainWrite? cfg n (Txn.ofWrite cfg rx (some []) ⟨r, v⟩)
      = some ⟨r, dataBytes cfg.dataEndian r.width v⟩ := by
  obtain ⟨h1, -⟩ := Config.opcodes_ne hc
  obtain ⟨hw, hf⟩ := byteEnable_spec r.addr r.width ha
  have hl := enabledLanes_of_width hw
  have : wireDecode cfg (regCommand cfg cfg.opWr r.addr r.width ++ dataBytes cfg.dataEndian r.width v)
      = .regWrite r.addr r.width (dataBytes cfg.dataEndian r.width v) := by
    simp [wireDecode, decodeFrame, decodeRegFrame, regCommand, be16, commandWord_opcode,
      commandWord_be, commandWord_window, commandWord_low, h1, hw, hf, hl]
  simp [plainWrite?, Txn.ofWrite, this]

end Sys2Proof.Machine
end

