-- ==== Sys2Proof/Laws/Veil.lean ====
section
/-!
SUPPORT. What no operation depends on: the sequencer position (log entry 14), the requests of another call
site and the fault record (log entry 8). From a state that differs in these alone, every part of an
operation gives the same reply and a state that differs in these alone.
-/

namespace Sys2Proof.Machine

variable {α β : Type}

/-- The state with another position, other rivals and another fault record. -/
def State.veil (p : Seq) (r : List Bool) (f : Option Fault) (s : State) : State :=
  { s with pc := p, rivals := r, fault := f }

@[simp] theorem State.veil_cfg (p : Seq) (r : List Bool) (f : Option Fault) (s : State) :
    (s.veil p r f).cfg = s.cfg := rfl

/-- Two outcomes of a part that differ behind the veil alone. -/
def Ran.Alike (x y : Ran α) : Prop := ∃ p r f, y = ⟨x.reply, x.state.veil p r f⟩

/-- Every run of `F` and its run from behind the veil are alike. -/
def Blind (F : State → Ran α) : Prop := ∀ s p r f, (F s).Alike (F (s.veil p r f))

theorem Ran.Alike.andThen {x y : Ran α} {F G : α → State → Ran β} (h : x.Alike y)
    (hf : ∀ a s p r f, (F a s).Alike (G a (s.veil p r f))) :
    (x.andThen F).Alike (y.andThen G) := by
  obtain ⟨p, r, f, rfl⟩ := h
  obtain ⟨e, s⟩ := x
  cases e with
  | error e => exact ⟨p, r, f, rfl⟩
  | ok a => exact hf a s p r f

theorem spi_blind (burst : Bool) (site : Site) (out : List Byte) (n : Nat) :
    Blind (spi burst site out n) := by
  intro s p r f
  have ha : (s.veil p r f).answer 0 n = s.answer 0 n := rfl
  refine ⟨p.skip 2, r, f, ?_⟩
  unfold spi State.spiTxn
  rw [ha]
  cases s.answer 0 n <;> rfl

theorem regRead_blind (x : Reg) : Blind (regRead x) := fun s p r f =>
  (spi_blind _ _ _ _ s p r f).andThen fun _ _ p r f => ⟨p, r, f, rfl⟩

theorem regWrite_blind (x : Reg) (v : Word) : Blind (regWrite x v) := fun s p r f =>
  (spi_blind _ _ _ _ s p r f).andThen fun _ _ p r f => ⟨p, r, f, rfl⟩

theorem writeList_blind (ws : List RegWrite) : Blind (writeList ws) := by
  induction ws with
  | nil => exact fun s p r f => ⟨p, r, f, rfl⟩
  | cons w ws ih => exact fun s p r f => (regWrite_blind _ _ s p r f).andThen fun _ s p r f => ih s p r f

theorem rxTransfer_blind (m : Nat) : Blind (rxTransfer m) := fun s p r f =>
  (spi_blind _ _ _ _ s p r f).andThen fun _ _ p r f => ⟨p, r, f, rfl⟩

theorem txTransfer_blind (d : List Byte) : Blind (txTransfer d) := fun s p r f =>
  (spi_blind _ _ _ _ s p r f).andThen fun _ _ p r f => ⟨p, r, f, rfl⟩

theorem rxBurst_blind (m : Nat) : Blind (rxBurst m) := fun s p r f =>
  (writeList_blind _ s p r f).andThen fun _ s p r f =>
    (rxTransfer_blind m s p r f).andThen fun _ s p r f =>
      (writeList_blind _ s p r f).andThen fun _ _ p r f => ⟨p, r, f, rfl⟩

theorem txBurstOpen_blind (d : List Byte) : Blind (txBurstOpen d) := by
  intro s p r f
  unfold txBurstOpen
  simp only
  refine Ran.Alike.andThen (writeList_blind s.cfg.txPre s p r f) fun _ t p r f => ?_
  refine Ran.Alike.andThen (writeList_blind (frameLengthWrites s.cfg .beforeBurst
      (txWrittenOf (alignUp d.length s.cfg.txAlign))) (t.pass (frameLengthTests s.cfg .beforeBurst))
    (p.skip (frameLengthTests s.cfg .beforeBurst)) r f) fun _ u p r f => ?_
  obtain ⟨p', r', f', h⟩ := txTransfer_blind d u p r f
  rw [h]
  cases h' : (txTransfer d u).reply <;> simp only <;> exact ⟨p', r', f', rfl⟩

theorem txBurstClose_blind : Blind txBurstClose := fun s p r f =>
  writeList_blind _ (s.pass _) (p.skip _) r f

theorem transmitFrame_blind (frame : List Byte) (irq csum : Bool) :
    Blind (transmitFrame frame irq csum) := by
  intro s p r f
  unfold transmitFrame
  refine Ran.Alike.andThen (txBurstOpen_blind (txHeader s.cfg irq csum s.txFid
    (BitVec.ofNat 16 frame.length) ++ frame) s p r f) fun _ t p r f => ?_
  refine Ran.Alike.andThen (txBurstClose_blind t.nextFid p r f) fun _ u p r f => ?_
  exact (regWrite_blind s.cfg.txEnqueue.reg s.cfg.txEnqueue.value u p r f).andThen
    fun _ _ p r f => ⟨p, r, f, rfl⟩

theorem transmitBody_blind (frame : List Byte) (irq csum : Bool) :
    Blind (transmitBody frame irq csum) := by
  intro s p r f
  have key : ∀ {c d : Prop} [Decidable c] [Decidable d] {x y x' y' : Ran Result}, (c ↔ d) →
      x.Alike x' → y.Alike y' → (if c then x else y).Alike (if d then x' else y') := by
    intro c d _ _ x y x' y' hcd hx hy
    by_cases h : c
    · rwa [if_pos h, if_pos (hcd.mp h)]
    · rwa [if_neg h, if_neg fun h' => h (hcd.mpr h')]
  refine key Iff.rfl ⟨p.skip 1, r, f, rfl⟩ (key Iff.rfl ⟨p.skip 2, r, f, rfl⟩ ?_)
  refine (regRead_blind s.cfg.txSpaceReg (s.pass 2) (p.skip 2) r f).andThen fun raw t p r f => ?_
  exact key Iff.rfl ⟨p.next, r, f, rfl⟩ (transmitFrame_blind _ _ _ t.advance p.next r f)

theorem pollReady_blind (n : Nat) (last : Word) : Blind (pollReady n last) := by
  induction n generalizing last with
  | zero => exact fun s p r f => ⟨p.next, r, f, rfl⟩
  | succ n ih =>
    intro s p r f
    unfold pollReady
    obtain ⟨p', r', f', h⟩ := regRead_blind s.cfg.readyReg s.advance p.next r f
    have h : regRead (s.veil p r f).cfg.readyReg (s.veil p r f).advance = _ := h
    rw [h]
    generalize regRead s.cfg.readyReg s.advance = x
    obtain ⟨e, t⟩ := x
    cases e with
    | error e => exact ⟨p', r', f', rfl⟩
    | ok v =>
      change Ran.Alike (if readyIndicated s.cfg v then _ else _)
        (if readyIndicated s.cfg v then _ else _)
      split
      · exact ⟨p'.next, r', f', rfl⟩
      · exact ih v t.polled.advance p'.next r' f'

theorem resetBody_blind : Blind resetBody := by
  intro s p r f
  unfold resetBody
  obtain ⟨p', r', f', h⟩ := writeList_blind s.cfg.resetWrites s.pollBegin p r f
  have h : writeList (s.veil p r f).cfg.resetWrites (s.veil p r f).pollBegin = _ := h
  rw [h]
  generalize writeList s.cfg.resetWrites s.pollBegin = x
  obtain ⟨e, t⟩ := x
  cases e with
  | error e => exact ⟨p', r', f', rfl⟩
  | ok a => exact (pollReady_blind _ _ t p' r' f').andThen fun _ _ p r f => ⟨p, r, f, rfl⟩

/-! ## The parts of RECEIVE -/

/-- `Ran.Alike` for what a part of RECEIVE gives. -/
def Received.Alike (x y : Received) : Prop := ∃ p r f, y = ⟨x.out, x.err, x.state.veil p r f⟩

theorem releaseFrame_blind (out : List Descriptor) (s : State) (p : Seq) (r : List Bool)
    (f : Option Fault) : (releaseFrame out s).Alike (releaseFrame out (s.veil p r f)) := by
  unfold releaseFrame
  obtain ⟨p', r', f', h⟩ := writeList_blind s.cfg.rxRelease s p r f
  have h : writeList (s.veil p r f).cfg.rxRelease (s.veil p r f) = _ := h
  rw [h]
  cases h' : (writeList s.cfg.rxRelease s).reply <;> simp only [h'] <;> exact ⟨p', r', f', rfl⟩

theorem consumeFrame_blind (accepted : Option Nat) (s : State) (p : Seq) (r : List Bool)
    (f : Option Fault) :
    (consumeFrame accepted s).Alike (consumeFrame accepted (s.veil p r f)) := by
  unfold consumeFrame
  obtain ⟨p', r', f', h⟩ := rxBurst_blind (s.cfg.rxFifoHdr + s.rxCount.toNat) s.rxAwaitPayload p r f
  have h : rxBurst ((s.veil p r f).cfg.rxFifoHdr + (s.veil p r f).rxCount.toNat)
    (s.veil p r f).rxAwaitPayload = _ := h
  rw [h]
  generalize rxBurst (s.cfg.rxFifoHdr + s.rxCount.toNat) s.rxAwaitPayload = x
  obtain ⟨e, t⟩ := x
  cases e with
  | error e => exact ⟨p', r', f', rfl⟩
  | ok data =>
    cases accepted with
    | none => exact releaseFrame_blind _ (settleFrame none data t.rxConsume.advance).2 p'.next r' f'
    | some n =>
      exact releaseFrame_blind _ (settleFrame (some n) data t.rxConsume.advance).2 p'.next r' f'

theorem judgeFrame_blind (s : State) (p : Seq) (r : List Bool) (f : Option Fault) :
    (judgeFrame s).Alike (judgeFrame (s.veil p r f)) := by
  unfold judgeFrame
  have h : classify (s.veil p r f).cfg (s.veil p r f).rxStatus (s.veil p r f).rxCount
    = classify s.cfg s.rxStatus s.rxCount := rfl
  rw [h]
  split
  · exact ⟨p.next, r, f, rfl⟩
  · exact consumeFrame_blind _ s.advance p.next r f
  · exact consumeFrame_blind _ s.advance p.next r f

theorem receiveFrame_blind (s : State) (p : Seq) (r : List Bool) (f : Option Fault) :
    (receiveFrame s).Alike (receiveFrame (s.veil p r f)) := by
  have key : ∀ {x y : Ran Unit}, x.Alike y → Received.Alike
      (match x.reply with
        | .error e => ⟨[], some e, x.state.rxCleanup⟩
        | .ok _ => judgeFrame x.state)
      (match y.reply with
        | .error e => ⟨[], some e, y.state.rxCleanup⟩
        | .ok _ => judgeFrame y.state) := by
    rintro ⟨e, t⟩ y ⟨p', r', f', rfl⟩
    cases e with
    | error e => exact ⟨p', r', f', rfl⟩
    | ok a => exact judgeFrame_blind t p' r' f'
  refine key (Ran.Alike.andThen (regRead_blind s.cfg.rxHdrStatusReg s.rxAwaitHeader p r f)
    fun st t p r f => ?_)
  exact (regRead_blind s.cfg.rxHdrCountReg t p r f).andThen fun _ _ p r f => ⟨p, r, f, rfl⟩

theorem receiveLoop_blind (n : Nat) (out : List Descriptor) (s : State) (p : Seq) (r : List Bool)
    (f : Option Fault) : (receiveLoop n out s).Alike (receiveLoop n out (s.veil p r f)) := by
  induction n generalizing out s p r f with
  | zero => exact ⟨p.next, r, f, rfl⟩
  | succ n ih =>
    unfold receiveLoop
    obtain ⟨p', r', f', h⟩ := receiveFrame_blind s.advance p.next r f
    have h : receiveFrame (s.veil p r f).advance = _ := h
    rw [h]
    generalize receiveFrame s.advance = one
    cases he : one.err with
    | some e => exact ⟨p', r', f', by simp [he]⟩
    | none =>
      simp only [he]
      exact ih _ _ p' r' f'

/-- The whole of RECEIVE's body (R195). -/
theorem receiveBody_blind (s : State) (p : Seq) (r : List Bool) (f : Option Fault) :
    (receiveBody s).Alike (receiveBody (s.veil p r f)) := by
  unfold receiveBody
  obtain ⟨p', r', f', h⟩ := regRead_blind s.cfg.rxCountReg s p r f
  have h : regRead (s.veil p r f).cfg.rxCountReg (s.veil p r f) = _ := h
  rw [h]
  generalize regRead s.cfg.rxCountReg s = x
  obtain ⟨e, t⟩ := x
  cases e with
  | error e => exact ⟨p', r', f', rfl⟩
  | ok fc => exact receiveLoop_blind _ [] (t.rxBegin fc) p' r' f'

/-! ## Requests -/

theorem acknowledge_blind (out : List Descriptor) : Blind (acknowledge out) := by
  intro s p r f
  refine Ran.Alike.andThen (F := fun _ t => Ran.pure (Result.service t.snap t.handled out none) t)
    (G := fun _ t => Ran.pure (Result.service t.snap t.handled out none) t)
    (writeList_blind _ s.advance p.next r f) fun _ t p r f => ⟨p, r, f, rfl⟩

/-- The bookkeeping dispatches and their tests, from behind the veil. -/
theorem dispatch_veil (s : State) (p : Seq) (r : List Bool) (f : Option Fault) :
    State.dispatchOverrun (State.dispatchTx (State.dispatchLink
      (s.veil p r f).advance).advance).advance
      = (State.dispatchOverrun (State.dispatchTx (State.dispatchLink
          s.advance).advance).advance).veil p.next.next.next r f := by
  have h1 : ∀ (u : State) q, (u.veil q r f).dispatchLink = u.dispatchLink.veil q r f := by
    intro u q
    simp only [State.dispatchLink]
    by_cases h : anySet u.snap u.cfg.isrLink = true
    · rw [if_pos h]; exact if_pos h
    · rw [if_neg h]; exact if_neg h
  have h2 : ∀ (u : State) q, (u.veil q r f).dispatchTx = u.dispatchTx.veil q r f := by
    intro u q
    simp only [State.dispatchTx]
    by_cases h : anySet u.snap u.cfg.isrTx = true
    · rw [if_pos h]; exact if_pos h
    · rw [if_neg h]; exact if_neg h
  have h3 : ∀ (u : State) q, (u.veil q r f).dispatchOverrun = u.dispatchOverrun.veil q r f := by
    intro u q
    simp only [State.dispatchOverrun]
    by_cases h : anySet u.snap u.cfg.isrRxovr = true
    · rw [if_pos h]; exact if_pos h
    · rw [if_neg h]; exact if_neg h
  have ha : ∀ (u : State) q, (u.veil q r f).advance = u.advance.veil q.next r f := fun _ _ => rfl
  simp only [ha, h1, h2, h3]

theorem dispatchAll_blind : Blind dispatchAll := by
  intro s p r f
  obtain ⟨t, ht⟩ : ∃ t, t
    = s.advance.dispatchLink.advance.dispatchTx.advance.dispatchOverrun := ⟨_, rfl⟩
  obtain ⟨q, hq⟩ : ∃ q, q = p.next.next.next := ⟨_, rfl⟩
  have h := dispatch_veil s p r f
  rw [← ht, ← hq] at h
  unfold dispatchAll
  rw [h, ← ht]
  change Ran.Alike (if anySet t.snap t.cfg.isrRx = true then _ else _)
    (if anySet t.snap t.cfg.isrRx = true then _ else _)
  split
  · obtain ⟨p', r', f', h⟩ := receiveBody_blind t.advance q.next r f
    have h : receiveBody (t.veil q r f).advance = _ := h
    rw [h]
    generalize receiveBody t.advance = x
    cases he : x.err with
    | some e => exact ⟨p'.next, r', f', by simp only [he]; rfl⟩
    | none =>
      simp only [he]
      exact acknowledge_blind _ x.state.advance.handledRx p'.next r' f'
  · exact acknowledge_blind _ t.advance q.next r f

/-- A blind body makes a request that does not depend on the rivals or on the fault record. -/
theorem perform_blind {s : State} (hs : s.free) (op : Op) (checks : List (Bool × Reason))
    {body : State → Ran Result} (hb : Blind body) (r : List Bool) (f : Option Fault) :
    ∃ r' f', perform op checks body { s with rivals := r, fault := f }
      = { perform op checks body s with rivals := r', fault := f' } := by
  obtain ⟨t, ht⟩ : ∃ t : State, t = { s with rivals := r, fault := f } := ⟨_, rfl⟩
  have hf : t.free := by rw [ht]; exact hs
  rw [← ht]
  rcases perform_cases op checks body s with
    ⟨a, _⟩ | ⟨_, why, a, e⟩ | ⟨_, a, e⟩ | ⟨_, a, why, b, e⟩ | ⟨_, a, b, e⟩
  · rw [State.occupied_of_free hs] at a
    simp at a
  · refine ⟨t.begun.rivals, t.begun.fault, ?_⟩
    rw [e, perform_phase_refused hf (by rw [ht]; exact a), ht]
    rfl
  · refine ⟨t.begun.rivals, t.begun.fault, ?_⟩
    rw [e, perform_phase_raised hf (by rw [ht]; exact a), ht]
    rfl
  · refine ⟨t.begun.rivals, t.begun.fault, ?_⟩
    rw [e, perform_refused hf (by rw [ht]; exact a) b, ht]
    rfl
  · obtain ⟨p', r', f', h⟩ := hb (s.admitted op checks) (t.admitted op checks).pc t.begun.rivals
      t.begun.fault
    refine ⟨r', f', ?_⟩
    have h' : t.admitted op checks
        = (s.admitted op checks).veil (t.admitted op checks).pc t.begun.rivals t.begun.fault := by
      rw [ht]
      rfl
    rw [← h'] at h
    rw [e, perform_body hf (by rw [ht]; exact a) b, h]
    cases hr : (body (s.admitted op checks)).reply <;> simp only [Ran.finish, hr] <;> rfl

/-- No request depends on the rivals or on the fault record: what each does besides is the same (R305: "the
operation in progress is not cancelled"). -/
theorem exec_blind (i : Instr) {s t : State} (hs : s.free) (r : List Bool) (f : Option Fault)
    (h : exec i s = .next t) : ∃ r' f', exec i { s with rivals := r, fault := f }
      = .next { t with rivals := r', fault := f' } := by
  have key : ∀ {op : Op} {checks : List (Bool × Reason)} {body : State → Ran Result}, Blind body →
      perform op checks body s = t → ∃ r' f',
        (Host.Outcome.next (φ := Fault) (ρ := Refusal)
          (perform op checks body { s with rivals := r, fault := f }))
        = .next { t with rivals := r', fault := f' } := by
    intro op checks body hb ht
    obtain ⟨r', f', h⟩ := perform_blind hs op checks hb r f
    exact ⟨r', f', by rw [h, ht]⟩
  have h : ∀ {u : State}, exec i s = .next u → u = t := by
    intro u hu
    rw [h] at hu
    simpa using hu.symm
  cases i with
  | spiRegRead be window low =>
    exact key (fun s p r f => Ran.Alike.andThen (spi_blind _ _ _ _ s p r f)
      fun _ _ p r f => ⟨p, r, f, rfl⟩) (h rfl)
  | spiRegWrite be window low data =>
    exact key (fun s p r f => Ran.Alike.andThen (spi_blind _ _ _ _ s p r f)
      fun _ _ p r f => ⟨p, r, f, rfl⟩) (h rfl)
  | spiRxqRead n =>
    exact key (fun s p r f => Ran.Alike.andThen (spi_blind _ _ _ _ s p r f)
      fun _ _ p r f => ⟨p, r, f, rfl⟩) (h rfl)
  | spiTxqWrite data =>
    exact key (fun s p r f => Ran.Alike.andThen (spi_blind _ _ _ _ s p r f)
      fun _ _ p r f => ⟨p, r, f, rfl⟩) (h rfl)
  | regRead a w =>
    exact key (fun s p r f => Ran.Alike.andThen (regRead_blind _ s p r f)
      fun _ _ p r f => ⟨p, r, f, rfl⟩) (h rfl)
  | regWrite a w v =>
    exact key (fun s p r f => Ran.Alike.andThen (regWrite_blind _ _ s p r f)
      fun _ _ p r f => ⟨p, r, f, rfl⟩) (h rfl)
  | regRmw a w clr set =>
    exact key (fun s p r f => Ran.Alike.andThen (regRead_blind _ s p r f)
      fun _ t p r f => Ran.Alike.andThen (regWrite_blind _ _ t p r f)
        fun _ _ p r f => ⟨p, r, f, rfl⟩) (h rfl)
  | fifoRead m =>
    exact key (fun s p r f => Ran.Alike.andThen (rxBurst_blind _ s p r f)
      fun _ _ p r f => ⟨p, r, f, rfl⟩) (h rfl)
  | fifoWrite d =>
    exact key (fun s p r f => Ran.Alike.andThen (txBurstOpen_blind _ s p r f)
      fun _ t p r f => Ran.Alike.andThen (txBurstClose_blind t p r f)
        fun _ _ p r f => ⟨p, r, f, rfl⟩) (h rfl)
  | rxHdrParse hdr => exact key (fun _ p r f => ⟨p, r, f, rfl⟩) (h rfl)
  | receive =>
    refine key (fun s p r f => ?_) (h rfl)
    obtain ⟨p', r', f', e⟩ := receiveBody_blind s p r f
    exact ⟨p', r', f', by simp only [e]; rfl⟩
  | txHdrBuild irq csum fid len => exact key (fun _ p r f => ⟨p, r, f, rfl⟩) (h rfl)
  | transmit frame irq csum => exact key (transmitBody_blind _ _ _) (h rfl)
  | reset => exact key resetBody_blind (h rfl)
  | configure mac filter imask =>
    exact key (fun s p r f => Ran.Alike.andThen (writeList_blind _ s p r f)
      fun _ _ p r f => ⟨p, r, f, rfl⟩) (h rfl)
  | linkStatus =>
    exact key (fun s p r f => Ran.Alike.andThen (regRead_blind _ s p r f)
      fun _ _ p r f => ⟨p.next, r, f, rfl⟩) (h rfl)
  | serviceInterrupts =>
    exact key (fun s p r f => Ran.Alike.andThen (regRead_blind _ s p r f)
      fun v t p r f => dispatchAll_blind (t.snapshot v) p r f) (h rfl)

end Sys2Proof.Machine
end

