-- ==== Sys2Proof/Tests/Slice0.lean ====
section
/-!
SUPPORT. Tests: ill-formed terms refused, words written out from the spec's encodings, one-step vectors of
95_test_vectors.md and of the worked examples, and a witness for every statement that has hypotheses.
Every expected value is the spec's own, transcribed by hand.
-/

namespace Sys2Proof.Tests

open Sys2Proof Sys2Proof.Machine

/-! ## Ill-formed instructions (R62, R92, R95, R97, R98, R110) -/

theorem test_ill_formed_reserved_mask : (Instr.spiRegRead 0b1010 0 0).wellFormed .reference = false := by
  decide

theorem test_ill_formed_write_mask :
    (Instr.spiRegWrite 0b0000 0 0 []).wellFormed .reference = false := by decide

theorem test_ill_formed_write_length :
    (Instr.spiRegWrite 0b0011 0 0 [0x01]).wellFormed .reference = false := by decide

theorem test_ill_formed_burst_without_lead :
    (Instr.spiRxqRead 3).wellFormed .reference = false := by decide

theorem test_ill_formed_burst_unaligned :
    (Instr.spiRxqRead 10).wellFormed .reference = false := by decide

theorem test_ill_formed_tx_burst_unaligned :
    (Instr.spiTxqWrite [1, 2, 3]).wellFormed .reference = false := by decide

theorem test_ill_formed_widths :
    (Instr.regRead 0x92 32).wellFormed .reference = false ∧
    (Instr.regWrite 0x92 0 1).wellFormed .reference = false ∧
    (Instr.regRmw 0x92 15 0 0).wellFormed .reference = false := by decide

theorem test_ill_formed_header :
    (Instr.rxHdrParse [0x00, 0x80, 0x40]).wellFormed .reference = false := by decide

theorem test_ill_formed_mac :
    (Instr.configure [2, 0, 0, 0, 0] [0, 0] 0).wellFormed .reference = false := by decide

theorem test_ill_formed_filter :
    (Instr.configure [2, 0, 0, 0, 0, 1] [0x0CE1] 0).wellFormed .reference = false := by decide

/-! ## Ill-formed configurations: one that breaks each condition of R9, R90 and R102 -/

theorem test_reference_well_formed : Config.reference.wellFormed = true := by decide

theorem test_ill_formed_address_bits :
    ({ Config.reference with addrBits := 9 } : Config).wellFormed = false := by decide

theorem test_ill_formed_tx_header :
    ({ Config.reference with txHdrLen := 6 } : Config).wellFormed = false := by decide

theorem test_ill_formed_opcodes :
    ({ Config.reference with opTxq := 0b10 } : Config).wellFormed = false := by decide

theorem test_ill_formed_alignments :
    ({ Config.reference with rxAlign := 0 } : Config).wellFormed = false ∧
    ({ Config.reference with txAlign := 0 } : Config).wellFormed = false := by decide

theorem test_ill_formed_staging_buffer :
    ({ Config.reference with rxBuf := 1995 } : Config).wellFormed = false := by decide

theorem test_ill_formed_bounds :
    ({ Config.reference with rxMaxPerCall := 0 } : Config).wellFormed = false ∧
    ({ Config.reference with resetPollMax := 0 } : Config).wellFormed = false := by decide

theorem test_ill_formed_tx_limits :
    ({ Config.reference with txMinFrame := 1515 } : Config).wellFormed = false ∧
    ({ Config.reference with txMaxFrame := 2048 } : Config).wellFormed = false := by decide

theorem test_ill_formed_status_bits :
    ({ Config.reference with isrTx := 0x8000 } : Config).wellFormed = false ∧
    ({ Config.reference with isrRx := 0x3000 } : Config).wellFormed = false := by decide

theorem test_ill_formed_register :
    ({ Config.reference with linkReg := ⟨0xF9, .w16⟩ } : Config).wellFormed = false := by decide

/-! ## Words written out from the encodings -/

/-- C = op 00, BE 1100, A 100100, L 0000, the upper byte first; two bytes follow (R90, R94). -/
theorem test_decode_spiRegRead :
    decode .reference (.frame [0b00110010, 0b01000000, 0x00, 0x00])
      = .ok (.spiRegRead 0b1100 0b100100 0b0000) := by decide

/-- C = op 01, BE 0010, A 100100, L 0000 (R90, R94; 95 V1: `wr8 0x91, 0x5A`). -/
theorem test_decode_spiRegWrite :
    decode .reference (.frame [0b01001010, 0b01000000, 0x5A])
      = .ok (.spiRegWrite 0b0010 0b100100 0b0000 [0x5A]) := by decide

/-- F = op 10, six zeros (R96, R97). -/
theorem test_decode_spiRxqRead :
    decode .reference (.frame (0b10000000 :: List.replicate 12 0x00)) = .ok (.spiRxqRead 12) := by
  decide

/-- F = op 11, six zeros (R96, R98). -/
theorem test_decode_spiTxqWrite :
    decode .reference (.frame [0b11000000, 0xAA, 0x00, 0x00, 0x00])
      = .ok (.spiTxqWrite [0xAA, 0x00, 0x00, 0x00]) := by decide

/-- Tag 0x01: addr, width (R110). -/
theorem test_decode_regRead :
    decode .reference (.request [0x01, 0xC0, 0x10]) = .ok (.regRead 0xC0 16) := by decide

/-- Tag 0x02: addr, width, value (R110), the value's lower byte first (log entry 3). -/
theorem test_decode_regWrite :
    decode .reference (.request [0x02, 0x90, 0x10, 0x00, 0xE8]) = .ok (.regWrite 0x90 16 0xE800) := by
  decide

/-- Tag 0x03: addr, width, clear mask, set mask. -/
theorem test_decode_regRmw :
    decode .reference (.request [0x03, 0x82, 0x10, 0x08, 0x00, 0x34, 0x12])
      = .ok (.regRmw 0x82 16 0x0008 0x1234) := by decide

/-- Tag 0x10: a count of 16 bits. -/
theorem test_decode_fifoRead :
    decode .reference (.request [0x10, 0x06, 0x30]) = .ok (.fifoRead 0x3006) := by decide

/-- Tag 0x10 with a count of three bytes is no request (R111, 95 3.10). -/
theorem test_decode_fifoRead_three_bytes :
    decode .reference (.request [0x10, 0x06, 0x00, 0x00]) = .error (.badFields .fifoRead) := by
  decide

/-- Tag 0x11: the data bytes. -/
theorem test_decode_fifoWrite :
    decode .reference (.request [0x11, 0xAA, 0xBB]) = .ok (.fifoWrite [0xAA, 0xBB]) := by decide

/-- Tag 0x20: the header bytes. -/
theorem test_decode_rxHdrParse :
    decode .reference (.request [0x20, 0x00, 0x80, 0x40, 0x00])
      = .ok (.rxHdrParse [0x00, 0x80, 0x40, 0x00]) := by decide

/-- Tag 0x21: no fields. -/
theorem test_decode_receive : decode .reference (.request [0x21]) = .ok .receive := by decide

/-- Tag 0x30: irq, csum, frame id, length. -/
theorem test_decode_txHdrBuild :
    decode .reference (.request [0x30, 0x01, 0x00, 0x3F, 0x00, 0x0E, 0x00])
      = .ok (.txHdrBuild true false 63 14) := by decide

/-- Tag 0x31: irq, csum, then the frame bytes (log entry 3). -/
theorem test_decode_transmit :
    decode .reference (.request [0x31, 0x00, 0x01, 0xDE, 0xAD])
      = .ok (.transmit [0xDE, 0xAD] false true) := by decide

/-- Tag 0x40: no fields. -/
theorem test_decode_reset : decode .reference (.request [0x40]) = .ok .reset := by decide

/-- Tag 0x41: mac, imask, filter values (log entry 3). -/
theorem test_decode_configure :
    decode .reference (.request [0x41, 0x02, 0, 0, 0, 0, 0x01, 0x00, 0xE8, 0xE1, 0x0C, 0x14, 0x00])
      = .ok (.configure [0x02, 0, 0, 0, 0, 0x01] [0x0CE1, 0x0014] 0xE800) := by decide

/-- Tag 0x42: no fields. -/
theorem test_decode_linkStatus : decode .reference (.request [0x42]) = .ok .linkStatus := by decide

/-- Tag 0x43: no fields. -/
theorem test_decode_serviceInterrupts :
    decode .reference (.request [0x43]) = .ok .serviceInterrupts := by decide

/-- Tag 0x05 names no operation (R111, 95 3.10). -/
theorem test_decode_unknown_tag :
    decode .reference (.request [0x05]) = .error (.unknownTag 0x05) := by decide

/-- A FIFO command byte with a low bit set, and a register frame that is too short (R96, R103). -/
theorem test_decode_reserved_frames :
    decode .reference (.frame [0x81, 0x00]) = .error (.reservedFifoByte 0x81) ∧
    decode .reference (.frame [0x32, 0x40, 0x00]) = .error (.frameLength .spiRegRead) := by decide

/-- The rows of opcode_table.json for RESET and for the TX burst. -/
theorem test_decodeTableWord :
    decodeTableWord 8 0x40 = some .reset ∧ decodeTableWord 8 0xC0 = some (.spiTxqWrite []) := by
  decide

/-! ## Lines of text (R115, R116) -/

theorem test_line_read : assemble .reference "rd16 0x92".toList = some (.regRead 0x92 16) := by decide

theorem test_line_configure :
    assemble .reference "configure 02:00:00:00:00:01, [0x0CE1, 0x0014], 0xE800".toList
      = some (.configure [0x02, 0, 0, 0, 0, 0x01] [0x0CE1, 0x0014] 0xE800) := by decide

theorem test_line_transmit :
    assemble .reference "transmit [AA, BB] irq=0".toList = some (.transmit [0xAA, 0xBB] false false) := by
  decide

/-- R115 writes neither: a separator after the last operand or element, options the other way round. -/
theorem test_line_other_forms :
    assemble .reference "rd16 0x92,".toList = none ∧ assemble .reference "fifo.wr [AA,]".toList = none ∧
    assemble .reference "transmit [AA] csum=0 irq=1".toList = none ∧
    assemble .reference "fifo.wr []".toList = some (.fifoWrite []) := by decide

theorem test_line_acknowledge :
    assemble .reference "ack 0x2000".toList = some (.regWrite 0x92 16 0x2000) := by decide

theorem test_line_setbits :
    assemble .reference "setbits16 0x82, 0x0008".toList = some (.regRmw 0x82 16 0 0x0008) := by decide

theorem test_line_unknown : assemble .reference "frobnicate 1".toList = none := by decide

/-! ## One step of each instruction -/

/-- The reference configuration. -/
def ref : Config := .reference

/-- Between requests in a phase, with these answers of transport and CHIP. -/
def atPhase (phase : Phase) (answers : List SpiAnswer) : State :=
  { State.reset with phase := phase, script := answers }

/-- Phase Configured. -/
def up (answers : List SpiAnswer) : State := atPhase .configured answers

/-- The state after one step that takes the instruction's own encoding. -/
def ran (i : Instr) (s : State) : State :=
  match step { s with inbox := [encode s.cfg i] } with
  | .next t => t
  | .fault _ => s
  | .refused _ => s

/-- What the ENGINE drove on the bus, one list for each transaction. -/
def driven (s : State) : List (List Byte) := s.bus.map (·.driven)

/-- 95 3.1: `rd16 0x92`, as the frame itself. -/
theorem test_spiRegRead :
    (ran (.spiRegRead 0b1100 0b100100 0) (up [.ok [0x00, 0x20]])).result = some (.value 0x2000) ∧
    driven (ran (.spiRegRead 0b1100 0b100100 0) (up [.ok [0x00, 0x20]]))
      = [[0x32, 0x40, 0x00, 0x00]] := by decide

/-- 95 3.1: `wr8 0x93, 0xFF`, as the frame itself. -/
theorem test_spiRegWrite :
    driven (ran (.spiRegWrite 0b1000 0b100100 0 [0xFF]) (up [.ok []])) = [[0x62, 0x40, 0xFF]] ∧
    (ran (.spiRegWrite 0b1000 0b100100 0 [0xFF]) (up [.ok []])).result = some .ok := by decide

/-- R46, R358: a register frame at an address outside P_VALID_REG is refused, with no transaction. -/
theorem test_register_frames_invalid :
    (ran (.spiRegRead 0b1100 0b100100 0) { up [] with cfg := { ref with validReg := .listed [] } }).result
      = some (.refused .invalidRegister) ∧
    (ran (.spiRegWrite 0b0001 0 0 [1]) { up [] with cfg := { ref with validReg := .listed [] } }).gSpiTxns
      = 0 := by decide

/-- R97: the four lead bytes are discarded. -/
theorem test_spiRxqRead :
    (ran (.spiRxqRead 8) (up [.ok [0, 0, 0, 0, 1, 2, 3, 4]])).result = some (.bytes [1, 2, 3, 4]) ∧
    driven (ran (.spiRxqRead 8) (up [.ok []])) = [[0x80, 0, 0, 0, 0, 0, 0, 0, 0]] := by decide

/-- 95 3.3: the burst of `fifo.wr [AA]`, as the frame itself. -/
theorem test_spiTxqWrite :
    driven (ran (.spiTxqWrite [0xAA, 0, 0, 0]) (up [.ok []])) = [[0xC0, 0xAA, 0, 0, 0]] ∧
    (ran (.spiTxqWrite [0xAA, 0, 0, 0]) (up [.fail])).result
      = some (.raised (.busError .fifo)) := by decide

/-- 95 3.1: `rd8 0x9D`. -/
theorem test_regRead :
    driven (ran (.regRead 0x9D 8) (up [.ok [0x02]])) = [[0x0A, 0x70, 0x00]] ∧
    (ran (.regRead 0x9D 8) (up [.ok [0x02]])).result = some (.value 0x0002) := by decide

/-- 95 3.1: `rd16 0x91` is refused, and width 32. -/
theorem test_regRead_refused :
    (ran (.regRead 0x91 16) (up [])).result = some (.refused .misalignedRegister) ∧
    (ran (.regRead 0x90 32) (up [])).result = some (.refused .badWidth) := by decide

/-- 95 3.1: `wr16 0x00, 0xABCD`. -/
theorem test_regWrite :
    driven (ran (.regWrite 0x00 16 0xABCD) (up [.ok []])) = [[0x4C, 0x00, 0xCD, 0xAB]] := by decide

/-- 95 3.1: `wr8 0x10, 0x0100`. -/
theorem test_regWrite_too_wide :
    (ran (.regWrite 0x10 8 0x0100) (up [])).result = some (.refused .valueTooWide) ∧
    (ran (.regWrite 0x10 8 0x0100) (up [])).gSpiTxns = 0 := by decide

/-- 95 3.2: `rmw16 0x90, 0x0001, 0x0001`: a bit in both masks ends set. -/
theorem test_regRmw :
    driven (ran (.regRmw 0x90 16 1 1) (up [.ok [0x00, 0x00], .ok []]))
      = [[0x0E, 0x40, 0x00, 0x00], [0x4E, 0x40, 0x01, 0x00]] ∧
    (ran (.regRmw 0x90 16 1 1) (up [.ok [0x00, 0x00], .ok []])).result
      = some (.replaced 0x0000 0x0001) := by decide

/-- 95 3.2: the read fails, no write. -/
theorem test_regRmw_read_fails :
    (ran (.regRmw 0x90 16 0 1) (up [.fail])).result
      = some (.raised (.busError (.register 0x90))) ∧
    (ran (.regRmw 0x90 16 0 1) (up [.fail])).gSpiTxns = 1 := by decide

/-- 95 3.3: `fifo.rd 6`. -/
theorem test_fifoRead :
    driven (ran (.fifoRead 6) (up [.ok [], .ok [], .ok [0, 0, 0, 0, 1, 2, 3, 4, 5, 6, 7, 8]]))
      = [[0x72, 0x10, 0x00, 0x40], [0x72, 0x00, 0x38, 0x00], 0x80 :: List.replicate 12 0x00] ∧
    (ran (.fifoRead 6) (up [.ok [], .ok [], .ok [0, 0, 0, 0, 1, 2, 3, 4, 5, 6, 7, 8]])).result
      = some (.bytes [1, 2, 3, 4, 5, 6]) := by decide

/-- 95 3.3: `fifo.rd 12289` is refused, its aligned length being 12292. -/
theorem test_fifoRead_too_long :
    (ran (.fifoRead 12289) (up [])).result = some (.refused .transferTooLong) := by decide

/-- 95 3.3: `fifo.wr [01, 02, 03, 04, 05]`. -/
theorem test_fifoWrite :
    driven (ran (.fifoWrite [1, 2, 3, 4, 5]) (up [.ok [], .ok [], .ok []]))
      = [[0x72, 0x00, 0x38, 0x00], [0xC0, 1, 2, 3, 4, 5, 0, 0, 0], [0x72, 0x00, 0x30, 0x00]] ∧
    (ran (.fifoWrite [1, 2, 3, 4, 5]) (up [.ok [], .ok [], .ok []])).txWritten = 8 := by decide

/-- 95 3.3: `fifo.wr [AA]` whose burst fails. -/
theorem test_fifoWrite_burst_fails :
    (ran (.fifoWrite [0xAA]) (up [.ok [], .fail])).result
      = some (.raised (.busError .fifo)) ∧
    (ran (.fifoWrite [0xAA]) (up [.ok [], .fail])).gSpiTxns = 2 := by decide

/-- A configuration with a frame-length register (R161). -/
def withLength : Config := { ref with txFramelenReg := some ⟨0x7A, .w16⟩ }

/-- The same with its write just before the burst (92 D21). -/
def lengthFirst : Config := { withLength with framelenPlace := .beforeBurst }

/-- R160: the frame-length write follows the burst; where it fails, the total is already the burst's. -/
theorem test_fifoWrite_frame_length :
    driven (ran (.fifoWrite [1, 2, 3, 4, 5]) { up (List.replicate 4 (.ok [])) with cfg := withLength })
      = [[0x72, 0x00, 0x38, 0x00], [0xC0, 1, 2, 3, 4, 5, 0, 0, 0], [0x71, 0xE0, 0x08, 0x00],
        [0x72, 0x00, 0x30, 0x00]] ∧
    (ran (.fifoWrite [1]) { up [.ok [], .ok [], .fail] with cfg := withLength }).txWritten = 4 := by
  decide

/-- 92 D21: the frame-length write is issued just before the burst; where it fails, no burst. -/
theorem test_fifoWrite_frame_length_first :
    driven (ran (.fifoWrite [1, 2, 3, 4, 5]) { up (List.replicate 4 (.ok [])) with cfg := lengthFirst })
      = [[0x72, 0x00, 0x38, 0x00], [0x71, 0xE0, 0x08, 0x00], [0xC0, 1, 2, 3, 4, 5, 0, 0, 0],
        [0x72, 0x00, 0x30, 0x00]] ∧
    (ran (.fifoWrite [1]) { up [.ok [], .fail] with cfg := lengthFirst }).gFifoBursts = 0 := by decide

/-- R21: a transaction and the test of its answer are two steps of the position. -/
theorem test_position_of_transaction :
    (regRead ref.linkReg { up [.ok [0, 0]] with pc := .within .linkStatus 0 }).state.pc
      = .within .linkStatus 2 := by decide

/-- R21, R195: after the count read, the loop test and two header reads, the test `if v = Desync`. -/
theorem test_position_at_desync :
    (receiveBody { up [.ok [1], .ok [0x00, 0x80], .ok [0xFF, 0x0F]] with pc := .within .receive 0 }).state.pc
      = .within .receive 8 := by decide

/-- 95 3.4: `00 80 05 00`. -/
theorem test_rxHdrParse :
    (ran (.rxHdrParse [0x00, 0x80, 0x05, 0x00]) (up [])).result
      = some (.header 0x8000 5 (.accept 1)) := by decide

/-- 95 3.4: `01 00 40 00`: valid is tested before the error bits; `00 00 D1 07`: the count first. -/
theorem test_rxHdrParse_order :
    (ran (.rxHdrParse [0x01, 0x00, 0x40, 0x00]) (up [])).result
      = some (.header 0x0001 64 (.reject .notValid)) ∧
    (ran (.rxHdrParse [0x00, 0x00, 0xD1, 0x07]) (up [])).result
      = some (.header 0x0000 2001 .desync) := by decide

/-- One frame of declared count 6 (an in-FIFO header, two payload bytes, a trailer). -/
def oneFrame : State :=
  ran .receive (up [.ok [0x01], .ok [0x00, 0x80], .ok [0x06, 0x00], .ok [], .ok [],
    .ok [0, 0, 0, 0, 0x00, 0x80, 0x06, 0x00, 0xAA, 0xBB, 9, 9, 9, 9, 0, 0], .ok []])

/-- 95 3.7: one accepted frame costs 1 + 6 transactions and is returned without header and trailer. -/
theorem test_receive :
    oneFrame.result = some (.frames [⟨0x8000, 6, [0xAA, 0xBB]⟩] none) ∧
    driven oneFrame = [[0x0A, 0x70, 0], [0x0D, 0xF0, 0, 0], [0x31, 0xF0, 0, 0],
      [0x72, 0x10, 0x00, 0x40], [0x72, 0x00, 0x38, 0x00], 0x80 :: List.replicate 16 0,
      [0x72, 0x00, 0x30, 0x00]] := by decide

/-- 95 3.7: a declared count of 2001 is a desynchronisation after three reads. -/
theorem test_receive_desync :
    (ran .receive (up [.ok [0x01], .ok [0x00, 0x80], .ok [0xD1, 0x07]])).phase = .desync ∧
    (ran .receive (up [.ok [0x01], .ok [0x00, 0x80], .ok [0xD1, 0x07]])).gSpiTxns = 3 := by decide

/-- 95 3.5: `txhdr 0, 0, 65, 1514`. -/
theorem test_txHdrBuild :
    (ran (.txHdrBuild false false 65 1514) (up [])).result
      = some (.bytes [0x01, 0x00, 0xEA, 0x05]) := by decide

/-- 95 3.5: a length of 2048, and the checksum flag, are refused. -/
theorem test_txHdrBuild_refused :
    (ran (.txHdrBuild false false 0 2048) (up [])).result = some (.refused .valueTooWide) ∧
    (ran (.txHdrBuild false true 0 60) (up [])).result = some (.refused .unsupportedFlag) := by decide

/-- A frame of the least length. -/
def frame14 : List Byte := [0xFF, 0xFF, 0xFF, 0xFF, 0xFF, 0xFF, 2, 0, 0, 0, 0, 1, 8, 6]

/-- 95 3.6: a frame of 14 bytes. -/
theorem test_transmit :
    driven (ran (.transmit frame14 true false) (up [.ok [0x00, 0x18], .ok [], .ok [], .ok [], .ok []]))
      = [[0x0D, 0xE0, 0, 0], [0x72, 0x00, 0x38, 0x00],
        [0xC0, 0x00, 0x80, 0x0E, 0x00] ++ frame14 ++ [0, 0], [0x72, 0x00, 0x30, 0x00],
        [0x4E, 0x00, 0x01, 0x00]] ∧
    (ran (.transmit frame14 true false)
      (up [.ok [0x00, 0x18], .ok [], .ok [], .ok [], .ok []])).txFid = 1 := by decide

/-- 95 3.6: 13 bytes are too few, and nothing is sent; 19 bytes of space are too few for 20. -/
theorem test_transmit_turned_away :
    (ran (.transmit (frame14.drop 1) true false) (up [])).result
      = some (.raised (.frameTooSmall 13)) ∧
    (ran (.transmit frame14 true false) (up [.ok [19, 0]])).result
      = some (.raised (.txBufferFull 19 20)) := by decide

/-- 92 D18: the frame id modulo P_TXCW_FID_MASK + 1, for a mask that is no power of two less one, too. -/
theorem test_frame_id_modulo : fidAfter { ref with txcwFidMask := 0x0FC0 } 5 = 6 ∧
    fidAfter { ref with txcwFidMask := 0x0FC0 } 0x0FC0 = 0 ∧ fidAfter ref 63 = 0 := by decide

/-- 95 3.8: ready at the first read. -/
theorem test_reset :
    driven (ran .reset (atPhase .desync [.ok [], .ok [], .ok [0x72, 0x88]]))
      = [[0x70, 0x90, 0x01, 0x00], [0x70, 0x90, 0x00, 0x00], [0x0F, 0x00, 0, 0]] ∧
    (ran .reset (atPhase .desync [.ok [], .ok [], .ok [0x72, 0x88]])).phase = .reset := by decide

/-- 95 3.8: 0x8972 is not ready, ten times. -/
theorem test_reset_times_out :
    (ran .reset (up ([.ok [], .ok []] ++ List.replicate 10 (.ok [0x72, 0x89])))).result
      = some (.raised (.resetTimeout 0x8972)) ∧
    (ran .reset (up ([.ok [], .ok []] ++ List.replicate 10 (.ok [0x72, 0x89])))).pollCount
      = 10 := by decide

/-- R40: on an error `poll_count` is the ready reads issued: one that failed counts, and where a reset write
fails there were none. -/
theorem test_reset_poll_count :
    (ran .reset { up [.ok [], .ok [], .ok [0, 0], .fail] with pollCount := 7 }).pollCount = 2 ∧
    (ran .reset { up [.ok [], .fail] with pollCount := 7 }).pollCount = 0 := by decide

/-- 95 P1, rows 4 to 13. -/
theorem test_configure :
    driven (ran (.configure [0x02, 0, 0, 0, 0, 0x01] [0x0CE1, 0x0014] 0xE800)
        (atPhase .reset (List.replicate 10 (.ok []))))
      = [[0x4C, 0x50, 0x00, 0x02], [0x70, 0x40, 0x00, 0x00], [0x4C, 0x40, 0x01, 0x00],
        [0x4D, 0xD0, 0xE1, 0x0C], [0x71, 0xD0, 0x14, 0x00], [0x4E, 0x40, 0x00, 0xE8],
        [0x4E, 0x70, 0x01, 0x00], [0x4E, 0x10, 0x00, 0x40], [0x72, 0x00, 0x30, 0x00],
        [0x4D, 0xC0, 0x0F, 0x00]] := by decide

/-- 95 3.8: one filter value for two registers; phase Unreset. -/
theorem test_configure_refused :
    (ran (.configure [0x02, 0, 0, 0, 0, 0x01] [0x0CE1] 0) (atPhase .reset [])).result
      = some (.refused .badRequest) ∧
    (ran (.configure [0x02, 0, 0, 0, 0, 0x01] [0x0CE1, 0x0014] 0) State.reset).result
      = some (.refused .notReset) := by decide

/-- 95 3.8: P1SR 0x0420, and 0x0600. -/
theorem test_linkStatus :
    (ran .linkStatus (atPhase .unreset [.ok [0x20, 0x04]])).result
      = some (.link (.up .mb100 .half)) ∧
    (ran .linkStatus (up [.ok [0x00, 0x06]])).result = some (.link .down) := by decide

/-- 95 3.9: ISR 0xE000, no frame pending. -/
theorem test_serviceInterrupts :
    driven (ran .serviceInterrupts (up [.ok [0x00, 0xE0], .ok [0x00], .ok []]))
      = [[0x32, 0x40, 0, 0], [0x0A, 0x70, 0], [0x72, 0x40, 0x00, 0xE0]] ∧
    (ran .serviceInterrupts (up [.ok [0x00, 0xE0], .ok [0x00], .ok []])).result
      = some (.service 0xE000 0xE000 [] none) := by decide

/-- 95 3.9: ISR 0x6000 and a failed RXFC read: no acknowledge. -/
theorem test_serviceInterrupts_rx_fails :
    (ran .serviceInterrupts (up [.ok [0x00, 0x60], .fail])).result
      = some (.service 0x6000 0x4000 [] (some (.busError (.register 0x9D)))) ∧
    (ran .serviceInterrupts (up [.ok [0x00, 0x60], .fail])).gSpiTxns = 2 := by decide

/-- R274, R275: a failed status read and a failed acknowledge. -/
theorem test_serviceInterrupts_bus_errors :
    (ran .serviceInterrupts (up [.fail])).result = some (.raised (.busError (.register 0x92))) ∧
    (ran .serviceInterrupts (up [.ok [0x00, 0x80], .fail])).handled = 0x8000 := by decide

/-- R305, R350: another call site's request while RX_HDR_PARSE, which issues no transaction, is in progress. -/
theorem test_rival_recorded :
    (ran (.rxHdrParse [0, 0x80, 5, 0]) { up [] with rivals := [true] }).fault
      = some .concurrentAccess ∧
    (ran (.rxHdrParse [0, 0x80, 5, 0]) { up [] with rivals := [true] }).result
      = some (.header 0x8000 5 (.accept 1)) := by decide

/-- 95 3.10: tag 0x05, and a request while an operation is in progress. -/
theorem test_bad_request :
    (ran (.regRead 0x92 16) { State.reset with spiBusy := true }).fault
      = some .concurrentAccess ∧
    step { State.reset with inbox := [.request [0x05]] }
      = .next { State.reset with refused := true, result := some (.refused .badRequest) } := by
  refine ⟨by decide, rfl⟩

/-! ## Witnesses: states and operands that meet every hypothesis of a statement together -/

/-- The answer that makes the bus show a transaction. -/
def answerOf (x : Txn) : SpiAnswer :=
  match x.received with
  | none => .fail
  | some bytes => .ok bytes

theorem received_self (txn i : Nat) (bytes : List Byte) :
    received txn i bytes.length bytes = bytes := by
  induction bytes generalizing i with
  | nil => rfl
  | cons b bytes ih => exact congrArg (b :: ·) (ih (i + 1))

/-- A row that is played begins with its first transaction. -/
theorem State.plays_first {s : State} {x : Txn} {xs : List Txn} (h : s.plays (x :: xs)) : s.plays [x] := by
  intro j y hy
  cases j with
  | zero => exact h 0 y hy
  | succ j => simp at hy

/-- A script written from a row of transactions plays that row. -/
theorem plays_of_script {s : State} {xs : List Txn} (h : s.script = xs.map answerOf) : s.plays xs := by
  intro j x hx
  have hj : s.script[j]? = some (answerOf x) := by rw [h, List.getElem?_map, hx]; rfl
  unfold State.answer
  rw [hj]
  cases hr : x.received with
  | none => simp [answerOf, hr]
  | some bytes => simp [answerOf, hr, Txn.readLength, received_self]

/-- Between requests in a phase, with the answers that make the bus show these transactions. -/
def playing (phase : Phase) (xs : List Txn) : State := atPhase phase (xs.map answerOf)

theorem playing_plays (phase : Phase) (xs : List Txn) : (playing phase xs).plays xs :=
  plays_of_script rfl

theorem free_atPhase (phase : Phase) (answers : List SpiAnswer) : (atPhase phase answers).free :=
  ⟨rfl, rfl, rfl⟩

/-! ### Encoding -/

theorem witness_DecodeEncodeRoundTrip : ref.wellFormed = true ∧
    ∀ i ∈ [Instr.spiRegRead 0b1100 63 15, .spiRegWrite 0b0001 0 0 [0xFF], .spiRxqRead 4,
      .spiTxqWrite [1, 2, 3, 4], .regRead 0xFF 8, .regWrite 0xFE 16 0xFFFF, .regRmw 0 16 0 0xFFFF,
      .fifoRead 0xFFFF, .fifoWrite [], .rxHdrParse [0, 0x80, 4, 0], .receive,
      .txHdrBuild true true 0xFFFF 0xFFFF, .transmit [] true true, .reset,
      .configure [1, 2, 3, 4, 5, 6] [7, 0xFFFF] 0xE800, .linkStatus, .serviceInterrupts],
      i.wellFormed ref = true := by decide

theorem witness_RegisterCommandLayout :
    (Width.w16 = .w16 → (0xFE : Byte).getLsbD 0 = false) ∧
    (Width.w16 = .w16 → (0x00 : Byte).getLsbD 0 = false) ∧
    (Width.w8 = .w16 → (0xFF : Byte).getLsbD 0 = false) ∧ ref.cmdLowBits = .zero ∧
    ({ ref with cmdLowBits := .addrLow } : Config).cmdLowBits = .addrLow := by decide

theorem witness_WireDecodeInvertsRegisterFrames : ref.wellFormed = true ∧
    aligned 0xFE .w16 = true ∧ [(1 : Byte), 2].length = Width.w16.bytes ∧
    aligned 0x9D .w8 = true ∧ [(1 : Byte)].length = Width.w8.bytes := by decide

/-- A mask 1010; a mask 1100 with one byte; a mask 0001 with two; a frame of one byte; a FIFO byte with a low
bit. -/
theorem witness_ReservedFramesClassified : ref.wellFormed = true ∧
    ((0x28 : Byte).extractLsb' 6 2 = ref.opRd ∧ (0x28 : Byte).extractLsb' 2 4
      ∉ [0b0001#4, 0b0010#4, 0b0100#4, 0b1000#4, 0b0011#4, 0b1100#4]) ∧
    ((0x72 : Byte).extractLsb' 6 2 = ref.opWr ∧ (0x72 : Byte).extractLsb' 2 4
      ∈ [0b0011#4, 0b1100#4] ∧ [(1 : Byte)].length ≠ 2 ∧ (0x72 : Byte).extractLsb' 2 4
      ∉ [0b0001#4, 0b0010#4, 0b0100#4, 0b1000#4]) ∧
    ((0x46 : Byte).extractLsb' 6 2 = ref.opWr ∧ (0x46 : Byte).extractLsb' 2 4
      ∈ [0b0001#4, 0b0010#4, 0b0100#4, 0b1000#4] ∧ [(1 : Byte), 2].length ≠ 1 ∧
      (0x46 : Byte).extractLsb' 2 4 ∉ [0b0011#4, 0b1100#4]) ∧
    (0x32 : Byte).extractLsb' 6 2 = ref.opRd ∧
    ((0x81 : Byte).extractLsb' 6 2 = ref.opRxq ∧ (0x81 : Byte).extractLsb' 0 6 ≠ 0) := by decide

/-! ### The step -/

theorem witness_StepRunsDecodedInstruction :
    ({ State.reset with inbox := [.request [0x40], .request [0x42]] } : State).cfg.wellFormed = true ∧
    ({ State.reset with inbox := [.request [0x40], .request [0x42]] } : State).inbox
      = .request [0x40] :: [.request [0x42]] ∧
    decode ref (.request [0x40]) = .ok .reset := by decide

theorem witness_StepWaitsForRequest :
    State.reset.cfg.wellFormed = true ∧ State.reset.inbox = [] := by decide

theorem witness_IllFormedConfigurationRefused :
    ¬ configConditions { ref with rxAlign := 0 } ∧ ¬ configConditions { ref with rxBuf := 1995 } ∧
    ¬ configConditions { ref with isrTx := 0x8000 } := by
  unfold configConditions
  decide

theorem witness_EveryStepAnswers : (up []).cfg.wellFormed = true := by decide

/-- This submission handed in. -/
def handed (sub : Submission) : State := { up [] with inbox := [sub] }

/-- A tag of no row, and no tag; each row of `wrongFields` at its boundary, in a phase for each outcome; a
frame. -/
theorem witness_UnknownTagRefused : (handed (.request [0x05, 1])).cfg.wellFormed = true ∧
    (handed (.request [0x05, 1])).free ∧ (handed (.request [])).inbox = .request [] :: [] ∧
    (∀ tag ∈ ([0x05, 1] : List Byte).head?, tag ∉ [0x01#8, 0x02#8, 0x03#8, 0x10#8, 0x11#8, 0x20#8,
      0x21#8, 0x30#8, 0x31#8, 0x40#8, 0x41#8, 0x42#8, 0x43#8]) ∧
    (∀ tag ∈ ([] : List Byte).head?, tag ∉ [0x01#8]) ∧
    (handed (.request [0x21, 0])).inbox = .request ((0x21 : Byte) :: [0]) :: [] ∧
    wrongFields 0x21 .receive [0] ∧ wrongFields 0x10 .fifoRead [6, 0, 0] ∧
    wrongFields 0x02 .regWrite [0x90, 8, 1] ∧ wrongFields 0x03 .regRmw [0, 16, 0, 0, 0] ∧
    wrongFields 0x31 .transmit [1] ∧ wrongFields 0x41 .configure [1, 2, 3, 4, 5, 6, 7, 8, 9] ∧
    wrongFields 0x31 .transmit [0, 2, 0xAA] ∧
    Op.receive ∈ fifoRequests ∧ (up []).phase = .configured ∧ State.reset.phase = .unreset ∧
    (atPhase .desync []).phase = .desync ∧ (up []).phase ≠ .reset ∧
    (handed (.frame [0x81, 0])).inbox = .frame [0x81, 0] :: [] ∧
    decodeFrame ref [0x81, 0] = .error (.reservedFifoByte 0x81) :=
  ⟨by decide, ⟨rfl, rfl, rfl⟩, rfl, by simp, by simp, rfl,
    by simp [wrongFields], by simp [wrongFields], by simp [wrongFields], by simp [wrongFields],
    by simp [wrongFields], by simp [wrongFields], by simp [wrongFields],
    by decide, rfl, rfl, rfl, by decide, rfl, rfl⟩

/-! ### Outcomes common to the requests -/

theorem witness_RequestDuringOperationFaults :
    ({ up [] with pc := .within .reset 1 } : State).pc ≠ .ready ∧
    ({ up [] with spiBusy := true } : State).spiBusy = true ∧
    ({ up [] with burstOpen := true } : State).burstOpen = true ∧
    ((up [.ok [1, 2]]).free ∧ ({ up [.ok [1, 2]] with rivals := [true] } : State).rivals.head? = some true ∧
      ∃ t, exec (.regRead 0x92 16) { up [.ok [1, 2]] with rivals := [] } = .next t) ∧
    ({ up [] with fault := some .concurrentAccess } : State).fault ≠ none ∧
    ∃ t, step { up [] with fault := some .concurrentAccess } = .next t :=
  ⟨by decide, rfl, rfl, ⟨⟨rfl, rfl, rfl⟩, rfl, _, rfl⟩, by decide, _, rfl⟩

theorem witness_StickyMarksNeverCleared :
    ({ up [] with fault := some .concurrentAccess, refused := true } : State).refused = true ∧
    ({ up [] with fault := some .concurrentAccess, refused := true } : State).fault
      = some .concurrentAccess ∧
    ∃ t, step { up [] with fault := some .concurrentAccess, refused := true } = .next t :=
  ⟨rfl, rfl, _, rfl⟩

theorem witness_PhaseAdmission :
    ((up []).free ∧ Instr.receive.op ∈ fifoRequests ∧ (up []).phase = .configured ∧
      Instr.receive.op ≠ .configure) ∧
    (State.reset.free ∧ Instr.receive.op ∈ fifoRequests ∧ State.reset.phase = .unreset) ∧
    ((atPhase .reset []).free ∧ (Instr.fifoRead 4).op ∈ fifoRequests ∧
      (atPhase .reset []).phase = .reset) ∧
    ((atPhase .desync []).free ∧ Instr.serviceInterrupts.op ∈ fifoRequests ∧
      (atPhase .desync []).phase = .desync) ∧
    ((up []).free ∧ (Instr.configure [] [] 0).op = .configure ∧ (up []).phase ≠ .reset) ∧
    ((atPhase .reset []).free ∧ (Instr.configure [] [] 0).op = .configure ∧
      (Instr.configure [] [] 0).op ∉ fifoRequests ∧ (atPhase .reset []).phase = .reset) := by
  unfold State.free
  decide

/-- An instruction refused; a step that refuses one, and one that refuses what is no instruction. -/
theorem witness_RefusalChangesNothing : (up []).free ∧
    (∃ t, exec (.regRead 0x91 16) (up []) = .next t ∧
      t.result = some (.refused .misalignedRegister)) ∧
    (∃ t, step (handed (.request [0x01, 0x91, 16])) = .next t ∧
      t.result = some (.refused .misalignedRegister)) ∧
    (handed (.request [0x05])).free ∧ ∃ t, step (handed (.request [0x05])) = .next t ∧
      t.result = some (.refused .badRequest) :=
  ⟨⟨rfl, rfl, rfl⟩, ⟨_, rfl, by decide⟩, ⟨_, rfl, by decide⟩, ⟨rfl, rfl, rfl⟩, _, rfl, by decide⟩

theorem witness_NoTransactionAfterFailure : (up [.ok [1, 2], .fail]).free ∧
    (∃ t, exec (.regRmw 0x90 16 0 1) (up [.ok [1, 2], .fail]) = .next t) ∧
    ¬ ({ up [] with spiBusy := true } : State).free ∧
    ∃ t, exec .linkStatus { up [] with spiBusy := true } = .next t :=
  ⟨⟨rfl, rfl, rfl⟩, ⟨_, rfl⟩, by unfold State.free; decide, _, rfl⟩

/-! ### Register Access Layer -/

/-- A register map that lists one register. -/
def oneRegister : State := { up [] with cfg := { ref with validReg := .listed [⟨0x92, .w16⟩] } }

theorem witness_RegReadOutcomes : (up [.fail]).free ∧ oneRegister.free ∧
    ((32 : Byte) ≠ 8 ∧ (32 : Byte) ≠ 16) ∧
    ((16 : Byte) = 16 ∧ (0x91 : Byte).getLsbD 0 = true) ∧
    ((16 : Byte) = Width.w16.bits ∧ (0xFE : Byte).getLsbD 0 = false ∧
      oneRegister.cfg.validReg.holds 0xFE .w16 = false) ∧
    ((up [.fail]).cfg.validReg.holds 0xFE .w16 = true ∧ (up [.fail]).answer 0 2 = none) ∧
    ((8 : Byte) = Width.w8.bits ∧ (up [.ok [7]]).answer 0 1 = some [7]) ∧
    (up [.ok [7, 8]]).answer 0 2 = some [7, 8] := by
  unfold State.free
  decide

theorem witness_RegWriteOutcomes : (up [.fail]).free ∧ oneRegister.free ∧
    ((9 : Byte) ≠ 8 ∧ (9 : Byte) ≠ 16) ∧
    ((16 : Byte) = 16 ∧ (0x91 : Byte).getLsbD 0 = true) ∧
    ((16 : Byte) = Width.w16.bits ∧ (0xFE : Byte).getLsbD 0 = false ∧
      oneRegister.cfg.validReg.holds 0xFE .w16 = false) ∧
    ((8 : Byte) = Width.w8.bits ∧ (up []).cfg.validReg.holds 0x91 .w8 = true ∧
      (0x0100 : Word).extractLsb' 8 8 ≠ 0) ∧
    ((0x00FF : Word).extractLsb' 8 8 = 0 ∧ [(0xFF : Byte)] = [(0x00FF : Word).extractLsb' 0 8] ∧
      (up [.fail]).answer 0 0 = none) ∧
    ((up [.ok []]).cfg.validReg.holds 0xFE .w16 = true ∧
      [(0x34 : Byte), 0x12] = [(0x1234 : Word).extractLsb' 0 8, (0x1234 : Word).extractLsb' 8 8] ∧
      (up [.ok []]).answer 0 0 = some []) := by
  unfold State.free
  decide

/-- The transactions of `rmw16 0x82, 0x0000, 0x0008` reading 0x0030, the write answered so. -/
def rmwTxns (answer : Option (List Byte)) : List Txn :=
  [Txn.ofRead ref .idle ⟨0x82, .w16⟩ (some [0x30, 0x00]),
    Txn.ofWrite ref .idle answer ⟨⟨0x82, .w16⟩, 0x0038⟩]

theorem witness_RegRmwOutcomes :
    ((up []).free ∧ (up []).cfg.validReg.holds 0x9D .w8 = true ∧
      (0x0100 : Word).extractLsb' 8 8 ≠ 0) ∧
    ((up [.fail]).free ∧ (0x82 : Byte).getLsbD 0 = false ∧
      (up [.fail]).cfg.validReg.holds 0x82 .w16 = true ∧
      (up [.fail]).answer 0 Width.w16.bytes = none) ∧
    ([(0x30 : Byte), 0x00].length = Width.w16.bytes ∧
      (0x0030 : Word) = readValue .little .w16 [0x30, 0x00] ∧
      (0x0038 : Word) = ((0x0030 &&& ~~~0) ||| 0x0008) &&& 0xFFFF) ∧
    (playing .configured (rmwTxns none)).plays (rmwTxns none) ∧
    (playing .configured (rmwTxns (some []))).plays (rmwTxns (some [])) :=
  ⟨⟨⟨rfl, rfl, rfl⟩, by decide⟩, ⟨⟨rfl, rfl, rfl⟩, by decide⟩, by decide, playing_plays _ _,
    playing_plays _ _⟩

theorem witness_RegRmwTakesReadRefusals : oneRegister.free ∧
    ∃ t, exec (.regRead 0x90 16) oneRegister = .next t ∧
      t.result = some (.refused .invalidRegister) :=
  ⟨⟨rfl, rfl, rfl⟩, _, rfl, by decide⟩

theorem witness_RegisterTransferCount : (up [.ok [1, 2], .ok []]).free ∧ (up [.fail]).free ∧
    (∃ t, exec (.regRead 0x90 16) (up [.ok [1, 2], .ok []]) = .next t) ∧
    (∃ t, exec (.regRmw 0x90 16 0 1) (up [.ok [1, 2], .ok []]) = .next t ∧
      t.result = some (.replaced 0x0201 0x0201) ∧ (16 : Byte) = Width.w16.bits ∧
      (up [.ok [1, 2], .ok []]).answer 0 Width.w16.bytes ≠ none) ∧
    (∃ t, exec (.regRmw 0x90 16 0 1) (up [.fail]) = .next t ∧
      t.result = some (.raised (.busError (.register 0x90))) ∧
      (up [.fail]).answer 0 Width.w16.bytes = none) :=
  ⟨⟨rfl, rfl, rfl⟩, ⟨rfl, rfl, rfl⟩, ⟨_, rfl⟩, ⟨_, rfl, by decide⟩, ⟨_, rfl, by decide⟩⟩

/-- A write of 0xE800 to 0x90, then the answer to a read. -/
def writing (answer : List Byte) : State := up [.ok [], .ok answer]

theorem witness_WriteThenReadRoundTrip : (writing [0x00, 0xE8]).cfg.wellFormed = true ∧
    (writing [0x00, 0xE8]).free ∧ (0x90 : Byte).getLsbD 0 = false ∧
    (writing [0x00, 0xE8]).cfg.validReg.holds 0x90 .w16 = true ∧
    ∃ t, exec (.regWrite 0x90 Width.w16.bits 0xE800) (writing [0x00, 0xE8]) = .next t ∧
      t.result = some .ok ∧ t.answer 0 Width.w16.bytes = some (plainAnswer ref t.bus 0x90 .w16) :=
  ⟨by decide, ⟨rfl, rfl, rfl⟩, by decide, by decide, _, rfl, by decide, by decide⟩

/-- The reference with the other byte order. -/
def bigEndian : Config := { ref with dataEndian := .big }

/-- R133, R64: with P_DATA_ENDIAN = big a register reads back with the width it was written with, 0 before any
write; with another width each byte is a free draw. -/
theorem test_plain_big :
    let bus := [Txn.ofWrite bigEndian .idle (some []) ⟨⟨0x90, .w16⟩, 0xE801⟩]
    plainAnswer bigEndian bus 0x90 .w16 = [0xE8, 0x01] ∧ plainAnswer bigEndian bus 0x92 .w8 = [0] ∧
    plainAnswer bigEndian bus 0x91 .w8 = [Config.mixedWidthByte 1 0] :=
  ⟨by decide, by decide, rfl⟩

/-- R132: what a failed write left is free; a later write that completed is read back. -/
theorem test_plain_failed_write :
    let failed := Txn.ofWrite ref .idle none ⟨⟨0x90, .w16⟩, 0xE801⟩
    plainAnswer ref [failed] 0x91 .w8 = [Config.byteAfterFailedWrite 0 1] ∧
    plainAnswer ref [failed, Txn.ofWrite ref .idle (some []) ⟨⟨0x90, .w16⟩, 0x0203⟩] 0x90 .w16
      = [0x03, 0x02] :=
  ⟨rfl, by decide⟩

theorem witness_MixedWidthView : (writing [0x00]).cfg.wellFormed = true ∧ (writing [0x00]).free ∧
    (writing [0x00]).cfg.dataEndian = .little ∧ (0x90 : Byte).getLsbD 0 = false ∧
    (writing [0x00]).cfg.validReg.holds 0x90 .w16 = true ∧
    (writing [0x00]).cfg.validReg.holds 0x91 .w8 = true ∧
    (∃ t, exec (.regWrite 0x90 16 0xE800) (writing [0x00]) = .next t ∧ t.result = some .ok ∧
      t.answer 0 1 = some (plainAnswer ref t.bus 0x90 .w8)) ∧
    (∃ t, exec (.regWrite 0x90 16 0xE800) (writing [0xE8]) = .next t ∧ t.result = some .ok ∧
      t.answer 0 1 = some (plainAnswer ref t.bus (0x90 + 1) .w8)) :=
  ⟨by decide, ⟨rfl, rfl, rfl⟩, by decide, by decide, by decide, by decide,
    ⟨_, rfl, by decide, by decide⟩, ⟨_, rfl, by decide, by decide⟩⟩

theorem witness_PseudoRequestsSetAndClear : (up [.ok [0x30, 0x00], .ok []]).free ∧
    (∃ t, exec (setBits .w16 0x82 0x0008) (up [.ok [0x30, 0x00], .ok []]) = .next t ∧
      t.result = some (.replaced 0x0030 0x0038)) ∧
    (∃ t, exec (clrBits .w16 0x82 0x0010) (up [.ok [0x30, 0x00], .ok []]) = .next t ∧
      t.result = some (.replaced 0x0030 0x0020)) :=
  ⟨⟨rfl, rfl, rfl⟩, ⟨_, rfl, by decide⟩, ⟨_, rfl, by decide⟩⟩

/-! ### FIFO Transfer Layer -/

/-- What the chip answers in the RX burst of `fifo.rd 6`. -/
def burst12 : List Byte := [0, 0, 0, 0, 1, 2, 3, 4, 5, 6, 7, 8]

/-- The transactions of `fifo.rd 6`. -/
def fifoReadTxns (cfg : Config) : List Txn :=
  Txn.ofWrites cfg .idle cfg.rxPre
    ++ Txn.ofRxBurst cfg .idle 6 (some burst12) :: Txn.ofWrites cfg .idle cfg.rxPost

theorem witness_FifoReadOutcomes : (up []).free ∧ (up []).phase = .configured ∧
    ref.rxqSize < alignUp (12289 : Word).toNat ref.rxAlign ∧
    alignUp (12288 : Word).toNat ref.rxAlign ≤ ref.rxqSize ∧
    ((6 : Word) ≠ 0 ∧ alignUp (6 : Word).toNat ref.rxAlign ≤ ref.rxqSize ∧
      burst12.length = ref.rxLead + alignUp (6 : Word).toNat ref.rxAlign) ∧
    (playing .configured (fifoReadTxns ref)).plays (fifoReadTxns ref) :=
  ⟨⟨rfl, rfl, rfl⟩, rfl, by decide, by decide, by decide, playing_plays _ _⟩

/-- A configuration whose P_RX_POST has a write. -/
def withPost : Config := { ref with rxPost := [⟨⟨0x82, .w16⟩, 0x0030⟩] }

/-- The second P_RX_PRE write fails; the burst fails; the P_RX_POST write fails. -/
def preFails : List Txn :=
  Txn.ofWrites ref .idle [⟨⟨0x86, .w16⟩, 0x4000⟩]
    ++ [Txn.ofWrite ref .idle none ⟨⟨0x82, .w16⟩, 0x0038⟩]

def burstFails : List Txn :=
  Txn.ofWrites ref .idle ref.rxPre ++ [Txn.ofRxBurst ref .idle 6 none]

def postFails : List Txn :=
  Txn.ofWrites withPost .idle withPost.rxPre
    ++ Txn.ofRxBurst withPost .idle 6 (some burst12)
      :: (Txn.ofWrites withPost .idle [] ++ [Txn.ofWrite withPost .idle none ⟨⟨0x82, .w16⟩, 0x0030⟩])

theorem witness_FifoReadBusErrors :
    ((playing .configured preFails).free ∧ (playing .configured preFails).phase = .configured ∧
      ref.rxPre = [⟨⟨0x86, .w16⟩, 0x4000⟩] ++ ⟨⟨0x82, .w16⟩, 0x0038⟩ :: [] ∧
      (playing .configured preFails).plays preFails) ∧
    ((playing .configured burstFails).free ∧ (playing .configured burstFails).plays burstFails) ∧
    (({ playing .configured postFails with cfg := withPost } : State).free ∧
      withPost.rxPost = [] ++ ⟨⟨0x82, .w16⟩, 0x0030⟩ :: [] ∧
      ({ playing .configured postFails with cfg := withPost } : State).plays postFails) ∧
    (6 : Word) ≠ 0 ∧ alignUp (6 : Word).toNat withPost.rxAlign ≤ withPost.rxqSize ∧
    burst12.length = withPost.rxLead + alignUp (6 : Word).toNat withPost.rxAlign :=
  ⟨⟨⟨rfl, rfl, rfl⟩, rfl, rfl, playing_plays _ _⟩, ⟨⟨rfl, rfl, rfl⟩, playing_plays _ _⟩,
    ⟨⟨rfl, rfl, rfl⟩, rfl, plays_of_script rfl⟩, by decide, by decide, by decide⟩

/-- The transactions of `fifo.wr [01, 02, 03, 04, 05]`. -/
def fifoWriteTxns (cfg : Config) : List Txn :=
  Txn.ofWrites cfg .idle (openingWrites cfg 8)
    ++ Txn.ofTxBurst cfg .idle [1, 2, 3, 4, 5] (some []) :: Txn.ofWrites cfg .idle (closingWrites cfg 8)

theorem witness_FifoWriteOutcomes : (up []).free ∧ (up []).phase = .configured ∧
    ref.txqSize < alignUp (List.replicate 6145 (0 : Byte)).length ref.txAlign ∧
    alignUp (List.replicate 6144 (0 : Byte)).length ref.txAlign ≤ ref.txqSize ∧
    ([1, 2, 3, 4, 5] : List Byte) ≠ [] ∧
    alignUp ([1, 2, 3, 4, 5] : List Byte).length ref.txAlign ≤ ref.txqSize ∧
    (8 : Word).toNat = alignUp ([1, 2, 3, 4, 5] : List Byte).length ref.txAlign ∧
    (playing .configured (fifoWriteTxns ref)).plays (fifoWriteTxns ref) ∧
    ({ playing .configured (fifoWriteTxns withLength) with cfg := withLength } : State).plays
      (fifoWriteTxns withLength) ∧
    ({ playing .configured (fifoWriteTxns lengthFirst) with cfg := lengthFirst } : State).plays
      (fifoWriteTxns lengthFirst) := by
  refine ⟨⟨rfl, rfl, rfl⟩, rfl, ?_, ?_, by decide, by decide, by decide, playing_plays _ _,
    plays_of_script rfl, plays_of_script rfl⟩ <;> rw [List.length_replicate] <;> decide

/-- The frame-length write fails before the burst, and after it; the burst fails; the P_TX_POST write fails. -/
def txFirstFails : List Txn :=
  Txn.ofWrites lengthFirst .idle lengthFirst.txPre
    ++ [Txn.ofWrite lengthFirst .idle none ⟨⟨0x7A, .w16⟩, 4⟩]

def txBurstFails : List Txn :=
  Txn.ofWrites withLength .idle (openingWrites withLength 4)
    ++ [Txn.ofTxBurst withLength .idle [0xAA] none]

/-- These writes after the burst complete, this one fails. -/
def txAfterFails (before : List RegWrite) (w : RegWrite) : List Txn :=
  Txn.ofWrites withLength .idle (openingWrites withLength 4)
    ++ Txn.ofTxBurst withLength .idle [0xAA] (some [])
      :: (Txn.ofWrites withLength .idle before ++ [Txn.ofWrite withLength .idle none w])

/-- Between requests, these transactions to come, with a frame-length register. -/
def playingLength (cfg : Config) (xs : List Txn) : State := { playing .configured xs with cfg := cfg }

theorem witness_FifoWriteBusErrors :
    (playingLength withLength txBurstFails).free ∧
    (playingLength withLength txBurstFails).phase = .configured ∧
    ([0xAA] : List Byte) ≠ [] ∧
    alignUp ([0xAA] : List Byte).length withLength.txAlign ≤ withLength.txqSize ∧
    (4 : Word).toNat = alignUp ([0xAA] : List Byte).length withLength.txAlign ∧
    openingWrites lengthFirst 4 = lengthFirst.txPre ++ ⟨⟨0x7A, .w16⟩, 4⟩ :: [] ∧
    (playingLength lengthFirst txFirstFails).plays txFirstFails ∧
    (playingLength withLength txBurstFails).plays txBurstFails ∧
    closingWrites withLength 4 = [] ++ ⟨⟨0x7A, .w16⟩, 4⟩ :: [⟨⟨0x82, .w16⟩, 0x0030⟩] ∧
    (playingLength withLength (txAfterFails [] ⟨⟨0x7A, .w16⟩, 4⟩)).plays
      (txAfterFails [] ⟨⟨0x7A, .w16⟩, 4⟩) ∧
    closingWrites withLength 4 = [⟨⟨0x7A, .w16⟩, 4⟩] ++ ⟨⟨0x82, .w16⟩, 0x0030⟩ :: [] ∧
    (playingLength withLength (txAfterFails [⟨⟨0x7A, .w16⟩, 4⟩] ⟨⟨0x82, .w16⟩, 0x0030⟩)).plays
      (txAfterFails [⟨⟨0x7A, .w16⟩, 4⟩] ⟨⟨0x82, .w16⟩, 0x0030⟩) :=
  ⟨⟨rfl, rfl, rfl⟩, rfl, by decide, by decide, by decide, rfl, plays_of_script rfl,
    plays_of_script rfl, rfl, plays_of_script rfl, rfl, plays_of_script rfl⟩

theorem witness_FifoTransferCount :
    ((playing .configured (fifoReadTxns ref)).free ∧
      ∃ t, exec (.fifoRead 6) (playing .configured (fifoReadTxns ref)) = .next t ∧
        t.result = some (.bytes [1, 2, 3, 4, 5, 6])) ∧
    ((playing .configured (fifoWriteTxns ref)).free ∧
      ∃ t, exec (.fifoWrite [1, 2, 3, 4, 5]) (playing .configured (fifoWriteTxns ref)) = .next t ∧
        t.result = some .ok) :=
  ⟨⟨⟨rfl, rfl, rfl⟩, _, rfl, by decide⟩, ⟨⟨rfl, rfl, rfl⟩, _, rfl, by decide⟩⟩

/-! ### RX Path -/

theorem witness_RxHdrParseOutcomes : State.reset.free ∧ ([0x00, 0x80, 0x40] : List Byte).length ≠ 4 ∧
    (0x8000 : Word) = (0x80 : Byte) ++ (0x00 : Byte) ∧
    (0x0040 : Word) = ((0xF0 : Byte) ++ (0x40 : Byte)) &&& ref.rxBcMask ∧
    State.reset.cfg.dataEndian = .little := ⟨⟨rfl, rfl, rfl⟩, by decide⟩

theorem witness_ReceiveWithoutFrame : (up [.ok [0x00]]).quiet = true ∧
    (up [.ok [0x00]]).phase = .configured ∧
    (up [.ok [0x00]]).answer 0 ref.rxCountReg.width.bytes = some [0x00] ∧
    ∀ b ∈ [(0x00 : Byte)], b = 0 := by decide

/-- A frame with a CRC error and declared count 5; an accepted one of count 5, one payload byte; one
whose count is 2001. -/
def badFrame : SeenFrame := ⟨[0x01, 0x80], [5, 0], List.replicate 16 0⟩

def goodFrame : SeenFrame :=
  ⟨[0x00, 0x80], [5, 0], [0, 0, 0, 0, 0, 0x80, 5, 0, 0xAA, 9, 9, 9, 9, 0, 0, 0]⟩

def longFrame : SeenFrame := ⟨[0x00, 0x80], [0xD1, 0x07], []⟩

theorem badFrame_plausible : badFrame.plausible ref := by
  unfold SeenFrame.plausible SeenFrame.headerShaped
  decide

theorem goodFrame_plausible : goodFrame.plausible ref := by
  unfold SeenFrame.plausible SeenFrame.headerShaped
  decide

/-- The count read that says this many frames are pending. -/
def pending (n : Byte) : Txn := Txn.ofRead ref .idle ref.rxCountReg (some [n])

theorem witness_ReceiveProcessesFrames :
    (playing .configured (pending 2 :: SeenFrame.allTxns ref [badFrame, goodFrame])).quiet = true ∧
    (playing .configured (pending 2 :: SeenFrame.allTxns ref [badFrame, goodFrame])).phase
      = .configured ∧
    [(2 : Byte)].length = ref.rxCountReg.width.bytes ∧ [badFrame, goodFrame].length < 256 ∧
    min (readValue ref.dataEndian ref.rxCountReg.width [2]).toNat ref.rxMaxPerCall
      = [badFrame, goodFrame].length ∧
    (∀ f ∈ [badFrame, goodFrame], f.plausible ref) ∧
    (playing .configured (pending 2 :: SeenFrame.allTxns ref [badFrame, goodFrame])).plays
      (pending 2 :: SeenFrame.allTxns ref [badFrame, goodFrame]) := by
  refine ⟨by decide, rfl, by decide, by decide, by decide, ?_, playing_plays _ _⟩
  simp [badFrame_plausible, goodFrame_plausible]

/-- Two frames pending, the second of count 2001. -/
def desyncTxns : List Txn :=
  pending 2 :: (SeenFrame.allTxns ref [goodFrame] ++ longFrame.headerTxns ref)

theorem witness_ReceiveDetectsDesync : (playing .configured desyncTxns).quiet = true ∧
    (playing .configured desyncTxns).phase = .configured ∧
    [(2 : Byte)].length = ref.rxCountReg.width.bytes ∧ 2 < 256 ∧ [goodFrame].length < 2 ∧
    min (readValue ref.dataEndian ref.rxCountReg.width [2]).toNat ref.rxMaxPerCall = 2 ∧
    (∀ g ∈ [goodFrame], g.plausible ref) ∧ longFrame.headerShaped ref ∧
    ref.rxMaxFrame < (longFrame.declared ref).toNat ∧
    (playing .configured desyncTxns).plays desyncTxns := by
  refine ⟨by decide, rfl, by decide, by decide, by decide, by decide, ?_, ?_, by decide,
    playing_plays _ _⟩
  · simp [goodFrame_plausible]
  · unfold SeenFrame.headerShaped
    decide

/-- Two frames pending: the burst of the second fails; the release of the second fails. -/
def frameBurstFails : List Txn :=
  goodFrame.headerTxns ref ++ Txn.ofWrites ref .payloadPending ref.rxPre
    ++ [Txn.ofRxBurst ref .payloadPending (ref.rxFifoHdr + (goodFrame.declared ref).toNat) none]

def frameReleaseFails (f : SeenFrame) (rx : RxState) : List Txn :=
  f.headerTxns ref ++ f.burstTxns ref ++ Txn.ofWrites ref rx []
    ++ [Txn.ofWrite ref rx none ⟨⟨0x82, .w16⟩, 0x0030⟩]

/-- After a bad frame processed whole, these transactions. -/
def secondFrame (xs : List Txn) : List Txn := pending 2 :: (SeenFrame.allTxns ref [badFrame] ++ xs)

theorem witness_ReceiveCleansUpAfterBusError :
    ((up [.ok [1], .fail]).free ∧ ∃ t, exec .receive (up [.ok [1], .fail]) = .next t ∧
      t.result = some (.frames [] (some (.busError (.register 0x7C))))) ∧
    (playing .configured (secondFrame frameBurstFails)).quiet = true ∧
    (playing .configured (secondFrame frameBurstFails)).phase = .configured ∧
    [(2 : Byte)].length = ref.rxCountReg.width.bytes ∧ 2 < 256 ∧ [badFrame].length < 2 ∧
    min (readValue ref.dataEndian ref.rxCountReg.width [2]).toNat ref.rxMaxPerCall = 2 ∧
    (∀ g ∈ [badFrame], g.plausible ref) ∧ goodFrame.plausible ref ∧
    (playing .configured (secondFrame frameBurstFails)).plays (secondFrame frameBurstFails) ∧
    ref.rxRelease = [] ++ ⟨⟨0x82, .w16⟩, 0x0030⟩ :: [] ∧
    (goodFrame.accepted ref).isSome = true ∧ (badFrame.accepted ref).isSome = false ∧
    (playing .configured (secondFrame (frameReleaseFails goodFrame .delivered))).plays
      (secondFrame (frameReleaseFails goodFrame .delivered)) ∧
    (playing .configured (secondFrame (frameReleaseFails badFrame .payloadPending))).plays
      (secondFrame (frameReleaseFails badFrame .payloadPending)) := by
  refine ⟨⟨⟨rfl, rfl, rfl⟩, _, rfl, by decide⟩, by decide, rfl, by decide, by decide, by decide,
    by decide, ?_, goodFrame_plausible, playing_plays _ _, rfl, by decide, by decide,
    playing_plays _ _, playing_plays _ _⟩
  simp [badFrame_plausible]

/-! ### TX Path -/

theorem witness_TxHdrBuildOutcomes : State.reset.free ∧ ref.txcwCsumBit = none ∧
    ref.txcwIrqBit = some 0x8000 ∧ ({ ref with txcwIrqBit := none } : Config).txcwIrqBit = none ∧
    (0x803F : Word) = 0x8000 ||| 0 ||| (63 &&& ref.txcwFidMask) ∧
    ref.txBcMask.toNat < (2048 : Word).toNat ∧ (2047 : Word).toNat ≤ ref.txBcMask.toNat :=
  ⟨⟨rfl, rfl, rfl⟩, by decide⟩

/-- The space read that answers this many bytes. -/
def spaceRead (n : Byte) : Txn := Txn.ofRead ref .idle ref.txSpaceReg (some [n, 0])

/-- The transactions of `transmit` for the 14 bytes of `frame14`, the space being just enough. -/
def transmitTxns : List Txn :=
  spaceRead 20 :: Txn.ofWrites ref .idle (openingWrites ref 20)
    ++ Txn.ofTxBurst ref .idle (txHeader ref true false 0 (BitVec.ofNat 16 frame14.length) ++ frame14)
        (some [])
      :: Txn.ofWrites ref .idle (closingWrites ref 20 ++ [ref.txEnqueue])

/-- The same up to a failure: of the P_TX_PRE write, of the burst, of the enqueue write. -/
def transmitPreFails : List Txn :=
  spaceRead 20 :: (Txn.ofWrites ref .idle [] ++ [Txn.ofWrite ref .idle none ⟨⟨0x82, .w16⟩, 0x0038⟩])

def transmitBurstFails : List Txn :=
  spaceRead 20 :: Txn.ofWrites ref .idle (openingWrites ref 20)
    ++ [Txn.ofTxBurst ref .idle
      (txHeader ref true false 0 (BitVec.ofNat 16 frame14.length) ++ frame14) none]

def enqueueFails : List Txn :=
  spaceRead 20 :: Txn.ofWrites ref .idle (openingWrites ref 20)
    ++ Txn.ofTxBurst ref .idle (txHeader ref true false 0 (BitVec.ofNat 16 frame14.length) ++ frame14)
        (some [])
      :: (Txn.ofWrites ref .idle ref.txPost ++ [Txn.ofWrite ref .idle none ref.txEnqueue])

theorem flags_supported : flagsSupported ref true false := by
  unfold flagsSupported
  decide

theorem witness_TransmitSendsFrame : (playing .configured transmitTxns).cfg.wellFormed = true ∧
    (playing .configured transmitTxns).free ∧
    (playing .configured transmitTxns).phase = .configured ∧ flagsSupported ref true false ∧
    ref.txMinFrame ≤ frame14.length ∧ frame14.length ≤ ref.txMaxFrame ∧
    [(20 : Byte), 0].length = ref.txSpaceReg.width.bytes ∧
    (20 : Word) = readValue ref.dataEndian ref.txSpaceReg.width [20, 0] &&& ref.txSpaceMask ∧
    20 = alignUp (ref.txHdrLen + frame14.length) ref.txAlign ∧ (20 : Word).toNat = 20 ∧
    (1 : Word) = BitVec.ofNat 16 (((0 : Word).toNat + 1) % (ref.txcwFidMask.toNat + 1)) ∧
    (playing .configured transmitTxns).plays transmitTxns ∧
    (playing .configured [Txn.ofRead ref .idle ref.txSpaceReg none]).plays
      [Txn.ofRead ref .idle ref.txSpaceReg none] ∧
    openingWrites ref 20 = [] ++ ⟨⟨0x82, .w16⟩, 0x0038⟩ :: [] ∧
    (playing .configured transmitPreFails).plays transmitPreFails ∧
    (playing .configured transmitBurstFails).plays transmitBurstFails ∧
    closingWrites ref 20 ++ [ref.txEnqueue] = ref.txPost ++ ref.txEnqueue :: [] ∧
    (playing .configured enqueueFails).plays enqueueFails :=
  ⟨by decide, ⟨rfl, rfl, rfl⟩, rfl, flags_supported, by decide, by decide, by decide, by decide,
    by decide, by decide, by decide, playing_plays _ _, playing_plays _ _, rfl, playing_plays _ _,
    playing_plays _ _, rfl, playing_plays _ _⟩

theorem witness_TransmitLengthErrors : (up []).cfg.wellFormed = true ∧ (up []).free ∧
    (up []).phase = .configured ∧ flagsSupported ref true false ∧
    (frame14.drop 1).length < ref.txMinFrame ∧
    ref.txMaxFrame < (List.replicate 1515 (0 : Byte)).length :=
  ⟨by decide, ⟨rfl, rfl, rfl⟩, rfl, flags_supported, by decide, by rw [List.length_replicate]; decide⟩

theorem witness_TransmitBufferFull : (up [.ok [19, 0]]).free ∧
    (up [.ok [19, 0]]).phase = .configured ∧ flagsSupported ref true false ∧
    ref.txMinFrame ≤ frame14.length ∧ frame14.length ≤ ref.txMaxFrame ∧
    (up [.ok [19, 0]]).answer 0 ref.txSpaceReg.width.bytes = some [19, 0] ∧
    (19 : Word) = readValue ref.dataEndian ref.txSpaceReg.width [19, 0] &&& ref.txSpaceMask ∧
    20 = alignUp (ref.txHdrLen + frame14.length) ref.txAlign ∧ (19 : Word).toNat < 20 :=
  ⟨⟨rfl, rfl, rfl⟩, rfl, flags_supported, by decide, by decide, by decide, by decide, by decide,
    by decide⟩

theorem witness_TransmitUnsupportedFlag : (up []).free ∧ (up []).phase = .configured ∧
    ¬ flagsSupported ref true true ∧ ¬ flagsSupported { ref with txcwIrqBit := none } true false := by
  refine ⟨⟨rfl, rfl, rfl⟩, rfl, ?_, ?_⟩ <;> unfold flagsSupported <;> decide

theorem witness_FrameIdAdvancesWithBurst :
    ((playing .configured transmitTxns).free ∧
      ∃ t, exec (.transmit frame14 true false) (playing .configured transmitTxns) = .next t ∧
        t.bus.any (fun x => x.burst && x.received.isSome) = true) ∧
    ((up [.fail]).free ∧ ∃ t, exec (.transmit frame14 true false) (up [.fail]) = .next t ∧
      t.bus.any (fun x => x.burst && x.received.isSome) = false) :=
  ⟨⟨⟨rfl, rfl, rfl⟩, _, rfl, by decide⟩, ⟨⟨rfl, rfl, rfl⟩, _, rfl, by decide⟩⟩

/-! ### Lifecycle -/

/-- The reset writes, then the polls that answer so. -/
def resetTxns (cfg : Config) (polls : List (List Byte)) : List Txn :=
  Txn.ofWrites cfg .idle cfg.resetWrites
    ++ polls.map fun got => Txn.ofRead cfg .idle cfg.readyReg (some got)

/-- One poll that fails, then ready. -/
theorem witness_ResetSucceeds :
    (playing .desync (resetTxns ref ([[0, 0]] ++ [[0x72, 0x88]]))).free ∧
    ([[0, 0]] : List (List Byte)).length < ref.resetPollMax ∧
    (∀ got ∈ [[0, 0]] ++ [[(0x72 : Byte), 0x88]], got.length = ref.readyReg.width.bytes) ∧
    (∀ got ∈ [[(0 : Byte), 0]],
      readValue ref.dataEndian ref.readyReg.width got &&& ref.readyMask ≠ ref.readyValue) ∧
    readValue ref.dataEndian ref.readyReg.width [0x72, 0x88] &&& ref.readyMask = ref.readyValue ∧
    (playing .desync (resetTxns ref ([[0, 0]] ++ [[0x72, 0x88]]))).plays
      (resetTxns ref ([[0, 0]] ++ [[0x72, 0x88]])) :=
  ⟨⟨rfl, rfl, rfl⟩, by decide, by decide, by decide, by decide, playing_plays _ _⟩

/-- A configuration that polls twice. -/
def twoPolls : Config := { ref with resetPollMax := 2 }

def timesOut : State :=
  { playing .configured (resetTxns twoPolls ([[0, 0]] ++ [[0x72, 0x89]])) with cfg := twoPolls }

theorem witness_ResetTimesOut : timesOut.free ∧
    ([[0, 0]] : List (List Byte)).length + 1 = timesOut.cfg.resetPollMax ∧
    (∀ got ∈ [[0, 0]] ++ [[(0x72 : Byte), 0x89]], got.length = twoPolls.readyReg.width.bytes ∧
      readValue twoPolls.dataEndian twoPolls.readyReg.width got &&& twoPolls.readyMask
        ≠ twoPolls.readyValue) ∧
    timesOut.plays (resetTxns twoPolls ([[0, 0]] ++ [[0x72, 0x89]])) :=
  ⟨⟨rfl, rfl, rfl⟩, by decide, by decide, plays_of_script rfl⟩

/-- A reset write fails; a ready read fails; the poll runs out. -/
theorem witness_ResetFailureLeavesUnreset : (up [.ok [], .fail]).free ∧
    (∃ t, exec .reset (up [.ok [], .fail]) = .next t ∧
      t.result = some (.raised (.busError (.register 0x26)))) ∧
    (∃ t, exec .reset (up [.ok [], .ok [], .fail]) = .next t ∧
      t.result = some (.raised (.busError (.register 0xC0)))) ∧
    timesOut.free ∧ ∃ t, exec .reset timesOut = .next t ∧
      t.result = some (.raised (.resetTimeout 0x8972)) :=
  ⟨⟨rfl, rfl, rfl⟩, ⟨_, rfl, by decide⟩, ⟨_, rfl, by decide⟩, ⟨rfl, rfl, rfl⟩, _, rfl, by decide⟩

theorem witness_OnlyResetLeavesDesync : (atPhase .desync [.fail]).phase = .desync ∧
    ∃ t, exec .reset (atPhase .desync [.fail]) = .next t ∧ t.phase ≠ .desync :=
  ⟨rfl, _, rfl, by decide⟩

/-- The four ways a phase changes. -/
theorem witness_PhaseTransitions :
    (∃ t, exec .reset (up [.fail]) = .next t ∧ t.phase ≠ (up [.fail]).phase) ∧
    (∃ t, exec (.configure [2, 0, 0, 0, 0, 1] [1, 2] 3) (atPhase .reset (List.replicate 10 (.ok [])))
      = .next t ∧ t.phase ≠ .reset) ∧
    (∃ t, exec .receive (playing .configured desyncTxns) = .next t ∧ t.phase ≠ .configured) ∧
    (∃ t, exec .serviceInterrupts (playing .configured
      (Txn.ofRead ref .idle ref.isrReg (some [0x00, 0x20]) :: desyncTxns)) = .next t ∧
      t.phase ≠ .configured) :=
  ⟨⟨_, rfl, by decide⟩, ⟨_, rfl, by decide⟩, ⟨_, rfl, by decide⟩, ⟨_, rfl, by decide⟩⟩

/-- The transactions of `configure 02:00:00:00:00:01, [0x0CE1, 0x0014], 0xE800`. -/
def configureTxns : List Txn :=
  Txn.ofWrites ref .idle
    ([⟨ref.macReg01, 0x02#8 ++ 0#8⟩, ⟨ref.macReg23, 0#8 ++ 0#8⟩, ⟨ref.macReg45, 0#8 ++ 0x01#8⟩]
      ++ (ref.filterRegs.zip [0x0CE1, 0x0014]).map (fun rv => ⟨rv.1, rv.2⟩)
      ++ [⟨ref.ierReg, 0xE800⟩] ++ ref.threshWrites ++ ref.configTail)

theorem witness_ConfigureOutcomes : (playing .reset configureTxns).free ∧
    (playing .reset configureTxns).phase = .reset ∧ ([2, 0, 0, 0, 0] : List Byte).length ≠ 6 ∧
    ([0x0CE1] : List Word).length ≠ ref.filterRegs.length ∧
    ([0x0CE1, 0x0014] : List Word).length = ref.filterRegs.length ∧
    (playing .reset configureTxns).plays configureTxns :=
  ⟨⟨rfl, rfl, rfl⟩, rfl, by decide, by decide, by decide, playing_plays _ _⟩

theorem witness_ConfigureFailureKeepsReset : (atPhase .reset [.ok [], .fail]).free ∧
    (atPhase .reset [.ok [], .fail]).phase = .reset ∧
    ∃ t, exec (.configure [2, 0, 0, 0, 0, 1] [1, 2] 3) (atPhase .reset [.ok [], .fail]) = .next t ∧
      t.result = some (.raised (.busError (.register 0x12))) :=
  ⟨⟨rfl, rfl, rfl⟩, rfl, _, rfl, by decide⟩

theorem witness_LinkStatusOutcomes : (up [.fail]).free ∧
    (up [.fail]).answer 0 ref.linkReg.width.bytes = none ∧
    (up [.ok [0x20, 0x04]]).answer 0 ref.linkReg.width.bytes = some [0x20, 0x04] ∧
    (0x0420 : Word) = readValue ref.dataEndian ref.linkReg.width [0x20, 0x04] :=
  ⟨⟨rfl, rfl, rfl⟩, by decide, by decide, by decide⟩

/-! ### Interrupt/status handshake -/

/-- The status read that answers so. -/
def isrRead (got : List Byte) : Txn := Txn.ofRead ref .idle ref.isrReg (some got)

/-- ISR 0x8800 and a failed acknowledge. -/
def ackFails : List Txn :=
  [isrRead [0x00, 0x88], Txn.ofWrite ref .idle none ⟨ref.isrReg, 0x8800⟩]

/-- A failed status read; ISR 0x8800: two bits, acknowledged or the acknowledge failed; ISR 0x0001: nothing to
acknowledge. -/
theorem witness_ServiceWithoutRx :
    (up []).free ∧ (up []).phase = .configured ∧
    [(0x00 : Byte), 0x88].length = ref.isrReg.width.bytes ∧
    (0x8800 : Word) = readValue ref.dataEndian ref.isrReg.width [0x00, 0x88] ∧
    (0x8800 : Word) &&& ref.isrRx = 0 ∧ (0x8800 : Word) = bookkeepingBits ref 0x8800 ∧
    (0x8800 : Word) ≠ 0 ∧ ref.isrClear = .w1c ∧ (playing .configured ackFails).plays ackFails ∧
    (playing .configured [Txn.ofRead ref .idle ref.isrReg none]).plays
      [Txn.ofRead ref .idle ref.isrReg none] ∧
    (playing .configured (isrRead [0x00, 0x88] :: ackTxns ref .idle (bookkeepingBits ref 0x8800))).plays
      (isrRead [0x00, 0x88] :: ackTxns ref .idle (bookkeepingBits ref 0x8800)) ∧
    (0x0001 : Word) = readValue ref.dataEndian ref.isrReg.width [0x01, 0x00] ∧
    (0x0001 : Word) &&& ref.isrRx = 0 ∧
    (playing .configured (isrRead [0x01, 0x00] :: ackTxns ref .idle (bookkeepingBits ref 0x0001))).plays
      (isrRead [0x01, 0x00] :: ackTxns ref .idle (bookkeepingBits ref 0x0001)) :=
  ⟨⟨rfl, rfl, rfl⟩, rfl, by decide, by decide, by decide, by decide, by decide, by decide,
    playing_plays _ _, playing_plays _ _, playing_plays _ _, by decide, by decide, playing_plays _ _⟩

/-- ISR 0x6000 and two pending frames. -/
def serviceTxns : List Txn :=
  [isrRead [0x00, 0x60], pending 2] ++ SeenFrame.allTxns ref [badFrame, goodFrame]
    ++ ackTxns ref .idle 0x6000

/-- The same with a failed acknowledge. -/
def serviceAckFails : List Txn :=
  [isrRead [0x00, 0x60], pending 2] ++ SeenFrame.allTxns ref [badFrame, goodFrame]
    ++ [Txn.ofWrite ref .idle none ⟨ref.isrReg, 0x6000⟩]

theorem witness_ServiceWithRx : (playing .configured serviceTxns).quiet = true ∧
    (playing .configured serviceTxns).phase = .configured ∧
    [(0x00 : Byte), 0x60].length = ref.isrReg.width.bytes ∧
    (0x6000 : Word) = readValue ref.dataEndian ref.isrReg.width [0x00, 0x60] ∧
    (0x6000 : Word) &&& ref.isrRx ≠ 0 ∧
    (0x6000 : Word) = bookkeepingBits ref 0x6000 ||| ref.isrRx ∧
    [(2 : Byte)].length = ref.rxCountReg.width.bytes ∧ [badFrame, goodFrame].length < 256 ∧
    min (readValue ref.dataEndian ref.rxCountReg.width [2]).toNat ref.rxMaxPerCall
      = [badFrame, goodFrame].length ∧
    (∀ f ∈ [badFrame, goodFrame], f.plausible ref) ∧
    (playing .configured serviceTxns).plays serviceTxns ∧ (0x6000 : Word) ≠ 0 ∧ ref.isrClear = .w1c ∧
    (playing .configured serviceAckFails).plays serviceAckFails := by
  refine ⟨by decide, rfl, by decide, by decide, by decide, by decide, by decide, by decide, by decide,
    ?_, playing_plays _ _, by decide, rfl, playing_plays _ _⟩
  simp [badFrame_plausible, goodFrame_plausible]

def serviceRxFails : List Txn :=
  [isrRead [0x00, 0x60], Txn.ofRead ref .idle ref.rxCountReg none]

/-- ISR 0x6000, then RECEIVE's transactions. -/
def thenReceive (xs : List Txn) : State := playing .configured (isrRead [0x00, 0x60] :: xs)

/-- What RECEIVE returns from there. -/
def receives (xs : List Txn) (out : List Descriptor) (e : Error) : Prop :=
  ∃ u, exec .receive { bookkept 0x6000 ((thenReceive xs).afterTxns [isrRead [0x00, 0x60]]) with
    rivals := [] } = .next u ∧ u.result = some (.frames out (some e))

/-- The RX path desynchronises, its burst fails, its release fails; the count read fails. -/
theorem witness_ServiceRxFailureKeepsBits : (thenReceive desyncTxns).quiet = true ∧
    (thenReceive desyncTxns).phase = .configured ∧
    [(0x00 : Byte), 0x60].length = ref.isrReg.width.bytes ∧
    (0x6000 : Word) = readValue ref.dataEndian ref.isrReg.width [0x00, 0x60] ∧
    (0x6000 : Word) &&& ref.isrRx ≠ 0 ∧
    (thenReceive desyncTxns).plays [isrRead [0x00, 0x60]] ∧
    receives desyncTxns [⟨0x8000, 5, [0xAA]⟩] (.fifoDesync (some (0x8000, 2001))) ∧
    receives (secondFrame frameBurstFails) [] (.busError .fifo) ∧
    receives (secondFrame (frameReleaseFails goodFrame .delivered)) [⟨0x8000, 5, [0xAA]⟩]
      (.busError (.register 0x82)) ∧
    (playing .configured serviceRxFails).plays serviceRxFails :=
  ⟨by decide, rfl, by decide, by decide, by decide,
    (State.plays_first (playing_plays .configured (isrRead [0x00, 0x60] :: desyncTxns))),
    ⟨_, rfl, by decide⟩, ⟨_, rfl, by decide⟩, ⟨_, rfl, by decide⟩, playing_plays _ _⟩

/-- Something handled under w1c; nothing handled. -/
theorem witness_ServiceAcknowledgesHandled :
    ((playing .configured serviceTxns).cfg.wellFormed = true ∧
      (playing .configured serviceTxns).free ∧
      (∃ t, exec .serviceInterrupts (playing .configured serviceTxns) = .next t ∧
        t.result = some (.service 0x6000 0x6000 [⟨0x8000, 5, [0xAA]⟩] none)) ∧
      (0x6000 : Word) ≠ 0 ∧ (playing .configured serviceTxns).cfg.isrClear = .w1c) ∧
    ((up [.ok [1, 0]]).free ∧ ∃ t, exec .serviceInterrupts (up [.ok [1, 0]]) = .next t ∧
      t.result = some (.service 0x0001 0x0000 [] none)) :=
  ⟨⟨by decide, ⟨rfl, rfl, rfl⟩, ⟨_, rfl, by decide⟩, by decide, rfl⟩, ⟨rfl, rfl, rfl⟩, _, rfl,
    by decide⟩

/-! ### Wire frames -/

theorem witness_SpiRegReadOutcomes : (up [.fail]).free ∧
    0b0110#4 ∉ [0b0001#4, 0b0010#4, 0b0100#4, 0b1000#4, 0b0011#4, 0b1100#4] ∧
    enabledWidth 0b1100 = some .w16 ∧ (0x92 : Byte) = frameAddress 0b100100 0b1100 ∧
    (up [.fail]).cfg.validReg.holds 0x92 .w16 = true ∧ oneRegister.free ∧
    (0x02 : Byte) = frameAddress 0 0b1100 ∧ oneRegister.cfg.validReg.holds 0x02 .w16 = false ∧
    (up [.fail]).answer 0 Width.w16.bytes = none ∧
    (up [.ok [1, 2]]).answer 0 Width.w16.bytes = some [1, 2] := by
  unfold State.free
  decide

theorem witness_SpiRegWriteOutcomes : (up [.fail]).free ∧ enabledWidth 0b1111 = none ∧
    enabledWidth 0b0100 = some .w8 ∧ ([1, 2] : List Byte).length ≠ Width.w8.bytes ∧
    ([1] : List Byte).length = Width.w8.bytes ∧ (0x92 : Byte) = frameAddress 0b100100 0b0100 ∧
    (up [.fail]).cfg.validReg.holds 0x92 .w8 = true ∧ oneRegister.free ∧
    oneRegister.cfg.validReg.holds 0x92 .w8 = false ∧
    (up [.fail]).answer 0 0 = none ∧ (up [.ok []]).answer 0 0 = some [] := by
  unfold State.free
  decide

theorem witness_SpiBurstOutcomes : (up [.fail]).free ∧ (up [.fail]).answer 0 8 = none ∧
    (up [.ok burst12]).answer 0 12 = some burst12 ∧ (up [.ok [1, 2, 3]]).answer 0 3 = some [1, 2, 3] ∧
    (up [.fail]).answer 0 0 = none ∧ (up [.ok []]).answer 0 0 = some [] :=
  ⟨⟨rfl, rfl, rfl⟩, by decide, by decide, by decide, by decide, by decide⟩

/-! ### Invariants -/

/-- A step that runs a request from a state that meets all three invariants. -/
def withRequest : State := { up [.ok [0x00, 0x20]] with inbox := [.request [0x01, 0x92, 0x10]] }

theorem witness_invariants : withRequest.quiet = true ∧ withRequest.busClean = true ∧
    withRequest.stageOk = true ∧ ∃ t, step withRequest = .next t :=
  ⟨by decide, by decide, by decide, _, rfl⟩

end Sys2Proof.Tests
end

section
/-!
PROOFS. 00_scope.md: what makes a configuration well formed, in the terms of R9; how one step takes the
next submission (R12, R77); the state at power-on (R40).
-/

namespace Sys2Proof

open Sys2Proof.Machine

/-! ## Well-formed configurations (R9) -/

theorem singleBit_iff (v : Word) : singleBit v = true ↔ v ≠ 0 ∧ v &&& (v - 1) = 0 := by
  simp [singleBit]

/-- R61's alignment rule: an even address where the width is 16 bits, no condition where it is 8. -/
theorem Reg.aligned_iff (r : Reg) :
    r.aligned = true ↔ (r.width = .w16 → r.addr.getLsbD 0 = false) := by
  obtain ⟨addr, width⟩ := r
  cases width with
  | w8 => simp [Reg.aligned, Sys2Proof.aligned]
  | w16 => simp [Reg.aligned, Sys2Proof.aligned]

theorem Config.isrBitsOk_iff (c : Config) : c.isrBitsOk = true ↔
    (∀ v ∈ [c.isrLink, c.isrTx, c.isrRx, c.isrRxovr], v ≠ 0 ∧ v &&& (v - 1) = 0) ∧
      [c.isrLink, c.isrTx, c.isrRx, c.isrRxovr].Nodup := by
  simp only [Config.isrBitsOk, Bool.and_eq_true, List.all_eq_true, decide_eq_true_eq, singleBit_iff]

/-- The executable check of a configuration is R9's list of conditions, with those of R90 and R102 before
it (log entry 13). -/
theorem Config.wellFormed_iff (c : Config) :
    c.wellFormed = true ↔ c.addrBits = 8 ∧ c.txHdrLen = 4 ∧ configConditions c := by
  simp only [Config.wellFormed, configConditions, Bool.and_eq_true, beq_iff_eq, decide_eq_true_eq,
    List.all_eq_true, Config.isrBitsOk_iff, Reg.aligned_iff]
  tauto

end Sys2Proof

namespace Sys2Proof.Machine

/-! ## The outcomes of a step -/

/-- R9: "A model refuses an ill-formed configuration." -/
theorem step_of_illFormed {s : State} (h : s.cfg.wellFormed ≠ true) :
    step s = .refused .illFormedConfiguration :=
  if_neg h

theorem takeSubmission_cons {s : State} {sub : Submission} {rest : List Submission}
    (h : s.inbox = sub :: rest) : s.takeSubmission = some (sub, { s with inbox := rest }) := by
  simp [State.takeSubmission, h]

theorem step_of_decode_ok {s : State} {sub : Submission} {rest : List Submission} {i : Instr}
    (hc : s.cfg.wellFormed = true) (hi : s.inbox = sub :: rest) (hd : decode s.cfg sub = .ok i) :
    step s = exec i { s with inbox := rest } := by
  simp only [step, hc, if_true, takeSubmission_cons hi, hd]

/-! ## The three invariants where nothing has been done yet -/

theorem State.busClean_of_bus_nil {s : State} (h : s.bus = []) : s.busClean = true := by
  simp [State.busClean, h]

theorem State.stageOk_of_stage_nil {s : State} (h : s.stage = []) : s.stageOk = true := by
  simp [State.stageOk, h, Memory.wf, Memory.risingFrom, Memory.within]

/-- R305: a state between requests is final where no fault is recorded. -/
theorem State.final_of_quiet {s : State} (h : s.quiet = true) (hf : s.fault = none) :
    s.final = true := by
  simp [State.final, h, hf]

theorem reset_quiet : State.reset.quiet = true := rfl

/-- The values of R8's column "ref" pass every test of the check, each a closed fact. -/
theorem reference_wellFormed : Config.reference.wellFormed = true := by decide

/-! ## The statements -/

/-- Settles O8: a configuration that passes the step's check meets every condition of R9. -/
theorem illFormedConfigurationRefused : Obligations.IllFormedConfigurationRefused := by
  intro s hbroken
  refine step_of_illFormed fun hwf => hbroken ?_
  obtain ⟨-, -, hconditions⟩ := (Config.wellFormed_iff s.cfg).1 hwf
  exact hconditions

/-- Settles O6. -/
theorem stepRunsDecodedInstruction : Obligations.StepRunsDecodedInstruction :=
  fun _ _ _ _ hc hi hd => step_of_decode_ok hc hi hd

/-- Settles O60: the bus and the staging buffer are empty, nothing is in progress, no fault is recorded. -/
theorem powerOnMeetsInvariants : Obligations.PowerOnMeetsInvariants :=
  ⟨reset_quiet, State.busClean_of_bus_nil rfl, State.stageOk_of_stage_nil rfl, reference_wellFormed,
    State.final_of_quiet reset_quiet rfl⟩

end Sys2Proof.Machine
end

section
/-!
PROOFS. 10_state.md: which phase (R22), RX state (R23) and staging buffer (R28) a request may leave behind,
and with it the invariants every step keeps; the marks no step clears (R34, R35); the transactions of one
request (R68, R308).
-/

namespace Sys2Proof.Machine

variable {α β : Type} {op : Op} {s t : State}

/-! ## What a part of a request may change -/

/-- The phases an operation may enter (R22, R190, R250, R256). -/
def phasesEntered : Op → List Phase
  | .reset => [.reset, .unreset]
  | .configure => [.configured]
  | .receive => [.desync]
  | .serviceInterrupts => [.desync]
  | _ => []

/-- What a part of the operation `op` that runs from `s` to `t` keeps within bounds: of the phase, of the RX
state and of the staging buffer. -/
structure Confined (op : Op) (s t : State) : Prop where
  cfg : t.cfg = s.cfg
  phase : t.phase = s.phase ∨ t.phase ∈ phasesEntered op
  rxState : t.rxState = .idle ∨ t.rxState = s.rxState
  stage : s.cfg.wellFormed = true → s.stage.sound s.cfg → t.stage.sound s.cfg

theorem Confined.of_eq (hc : t.cfg = s.cfg) (hp : t.phase = s.phase) (hr : t.rxState = s.rxState)
    (hs : t.stage = s.stage) : Confined op s t :=
  ⟨hc, .inl hp, .inr hr, fun _ h => by rwa [hs]⟩

theorem Keeps.confined (h : Keeps s t) : Confined op s t :=
  .of_eq h.cfg h.phase h.rxState h.stage

/-- A phase is entered, nothing else of what `Confined` speaks of changes. -/
theorem Confined.of_entered (hc : t.cfg = s.cfg) (hp : t.phase ∈ phasesEntered op)
    (hr : t.rxState = .idle ∨ t.rxState = s.rxState) (hs : t.stage = s.stage) : Confined op s t :=
  ⟨hc, .inr hp, hr, fun _ h => by rwa [hs]⟩

theorem Confined.trans {u : State} (h : Confined op s t) (h' : Confined op t u) : Confined op s u where
  cfg := h'.cfg.trans h.cfg
  phase := h'.phase.elim (fun e => by rw [e]; exact h.phase) .inr
  rxState := h'.rxState.elim .inl fun e => by rw [e]; exact h.rxState
  stage := fun hwf hs => by
    have := h'.stage (by rwa [h.cfg]) (by rw [h.cfg]; exact h.stage hwf hs)
    rwa [h.cfg] at this

theorem Confined.andThen {x : Ran α} {f : α → State → Ran β} (h : Confined op s x.state)
    (hf : ∀ a t, Confined op t (f a t).state) : Confined op s (x.andThen f).state := by
  obtain ⟨r, t⟩ := x
  cases r with
  | error e => exact h
  | ok a => exact h.trans (hf a t)

theorem Received.Leaves.confined {r : Received} (h : r.Leaves s) (hop : .desync ∈ phasesEntered op) :
    Confined op s r.state where
  cfg := h.cfg
  phase := h.phase.imp id fun ⟨e, _⟩ => by rwa [e]
  rxState := h.idle
  stage := h.stage

theorem Ran.finish_confined (x : Ran Result) : Confined op x.state x.finish := by
  obtain ⟨r, t⟩ := x
  cases r with
  | ok r => exact .of_eq rfl rfl rfl rfl
  | error e => exact .of_eq rfl rfl rfl rfl

/-! ## RESET and SERVICE_INTERRUPTS -/

theorem State.resetFailed_confined (s : State) : Confined .reset s s.resetFailed :=
  .of_entered rfl (by simp [phasesEntered]) (.inr rfl) rfl

theorem State.polled_keeps (s : State) : Keeps s s.polled := by constructor <;> rfl

theorem pollReady_confined (n : Nat) (last : Word) (s : State) :
    Confined .reset s (pollReady n last s).state := by
  induction n generalizing last s with
  | zero => exact s.advance_keeps.confined.trans (State.resetFailed_confined _)
  | succ n ih =>
    have hread := s.advance_keeps.trans (regRead_keeps s.cfg.readyReg s.advance)
    unfold pollReady
    generalize regRead s.cfg.readyReg s.advance = x at hread ⊢
    obtain ⟨r, t⟩ := x
    have hpolled : Keeps s t.polled := hread.trans t.polled_keeps
    cases r with
    | error e => exact hpolled.confined.trans (State.resetFailed_confined _)
    | ok v =>
      have htested : Keeps s t.polled.advance := hpolled.trans (State.advance_keeps _)
      simp only
      split
      · exact htested.confined
      · exact htested.confined.trans (ih v _)

theorem resetBody_confined (s : State) : Confined .reset s (resetBody s).state := by
  have hwrites : Confined .reset s (writeList s.cfg.resetWrites s.pollBegin).state :=
    (Confined.of_eq (s := s) (t := s.pollBegin) rfl rfl rfl rfl).trans (writeList_keeps _ _).confined
  unfold resetBody
  generalize writeList s.cfg.resetWrites s.pollBegin = x at hwrites ⊢
  obtain ⟨r, t⟩ := x
  cases r with
  | error e => exact hwrites.trans t.resetFailed_confined
  | ok _ =>
    exact hwrites.trans ((pollReady_confined _ _ t).andThen fun _ _ =>
      .of_entered rfl (by simp [phasesEntered]) (.inl rfl) rfl)

theorem State.dispatchLink_confined (s : State) : Confined op s s.dispatchLink := by
  unfold State.dispatchLink
  split <;> exact .of_eq rfl rfl rfl rfl

theorem State.dispatchTx_confined (s : State) : Confined op s s.dispatchTx := by
  unfold State.dispatchTx
  split <;> exact .of_eq rfl rfl rfl rfl

theorem State.dispatchOverrun_confined (s : State) : Confined op s s.dispatchOverrun := by
  unfold State.dispatchOverrun
  split <;> exact .of_eq rfl rfl rfl rfl

theorem acknowledge_confined (out : List Descriptor) (s : State) :
    Confined op s (acknowledge out s).state :=
  (s.advance_keeps.trans ((writeList_keeps ..).andThen fun _ _ => Keeps.refl _)).confined

theorem dispatchAll_confined (s : State) : Confined .serviceInterrupts s (dispatchAll s).state := by
  have hadv : ∀ u : State, Confined .serviceInterrupts u u.advance := fun u => u.advance_keeps.confined
  have hdispatched := (hadv s).trans <| (State.dispatchLink_confined _).trans <| (hadv _).trans <|
    (State.dispatchTx_confined _).trans <| (hadv _).trans <|
    (State.dispatchOverrun_confined _).trans (hadv _)
  unfold dispatchAll
  generalize s.advance.dispatchLink.advance.dispatchTx.advance.dispatchOverrun.advance = t
    at hdispatched ⊢
  have hrx : Confined .serviceInterrupts s (receiveBody t).state :=
    hdispatched.trans ((receiveBody_leaves t).confined (by simp [phasesEntered]))
  simp only
  split
  · split
    · exact hrx.trans (hadv _)
    · refine hrx.trans ((hadv _).trans (Confined.trans ?_ (acknowledge_confined _ _)))
      exact .of_eq rfl rfl rfl rfl
  · exact hdispatched.trans (acknowledge_confined _ _)

/-! ## Every instruction -/

/-- Every instruction is one `perform` of a body that stays within the bounds of its operation. -/
theorem exec_perform_confined (i : Instr) (s : State) : ∃ checks body,
    exec i s = .next (perform i.op checks body s) ∧ ∀ u, Confined i.op u (body u).state := by
  cases i with
  | spiRegRead be window low =>
    exact ⟨_, _, rfl, fun _ => ((spi_keeps ..).andThen fun _ _ => .refl _).confined⟩
  | spiRegWrite be window low data =>
    exact ⟨_, _, rfl, fun _ => ((spi_keeps ..).andThen fun _ _ => .refl _).confined⟩
  | spiRxqRead n => exact ⟨_, _, rfl, fun _ => ((spi_keeps ..).andThen fun _ _ => .refl _).confined⟩
  | spiTxqWrite data => exact ⟨_, _, rfl, fun _ => ((spi_keeps ..).andThen fun _ _ => .refl _).confined⟩
  | regRead a w => exact ⟨_, _, rfl, fun _ => ((regRead_keeps ..).andThen fun _ _ => .refl _).confined⟩
  | regWrite a w v =>
    exact ⟨_, _, rfl, fun _ => ((regWrite_keeps ..).andThen fun _ _ => .refl _).confined⟩
  | regRmw a w clr set =>
    exact ⟨_, _, rfl, fun _ => ((regRead_keeps ..).andThen fun _ _ =>
      (regWrite_keeps ..).andThen fun _ _ => .refl _).confined⟩
  | fifoRead m => exact ⟨_, _, rfl, fun _ => ((rxBurst_keeps ..).andThen fun _ _ => .refl _).confined⟩
  | fifoWrite d =>
    exact ⟨_, _, rfl, fun _ => ((txBurstOpen_keeps ..).andThen fun _ _ =>
      (txBurstClose_keeps _).andThen fun _ _ => .refl _).confined⟩
  | rxHdrParse hdr => exact ⟨_, _, rfl, fun _ => (Keeps.refl _).confined⟩
  | receive =>
    exact ⟨_, _, rfl, fun u => (receiveBody_leaves u).confined (by simp [Instr.op, phasesEntered])⟩
  | txHdrBuild irq csum fid len => exact ⟨_, _, rfl, fun _ => (Keeps.refl _).confined⟩
  | transmit frame irq csum => exact ⟨_, _, rfl, fun _ => (transmitBody_keeps ..).confined⟩
  | reset => exact ⟨_, _, rfl, resetBody_confined⟩
  | configure mac filter imask =>
    exact ⟨_, _, rfl, fun _ => Confined.andThen (writeList_keeps ..).confined fun _ _ =>
      .of_entered rfl (by simp [Instr.op, phasesEntered]) (.inr rfl) rfl⟩
  | linkStatus =>
    exact ⟨_, _, rfl, fun _ => ((regRead_keeps ..).andThen fun _ t => t.advance_keeps).confined⟩
  | serviceInterrupts =>
    exact ⟨_, _, rfl, fun _ => Confined.andThen (regRead_keeps ..).confined fun v u =>
      (Confined.of_eq (s := u) (t := u.snapshot v) rfl rfl rfl rfl).trans (dispatchAll_confined _)⟩

theorem perform_confined (checks : List (Bool × Reason)) {body : State → Ran Result}
    (hbody : ∀ u, Confined op u (body u).state) (s : State) :
    Confined op s (perform op checks body s) := by
  rcases perform_cases op checks body s with
    ⟨_, h⟩ | ⟨_, _, _, h⟩ | ⟨_, _, h⟩ | ⟨_, _, _, _, h⟩ | ⟨_, _, _, h⟩ <;> rw [h]
  · exact .of_eq rfl rfl rfl rfl
  · exact .of_eq rfl rfl rfl rfl
  · exact .of_eq rfl rfl rfl rfl
  · exact .of_eq rfl rfl rfl rfl
  · have hadmitted : Confined op s (s.admitted op checks) := .of_eq rfl rfl rfl rfl
    exact hadmitted.trans ((hbody _).trans (Ran.finish_confined _))

theorem exec_confined {i : Instr} (h : exec i s = .next t) : Confined i.op s t := by
  obtain ⟨checks, body, hexec, hbody⟩ := exec_perform_confined i s
  rw [hexec, Host.Outcome.next.injEq] at h
  exact h ▸ perform_confined checks hbody s

/-- `exec_cases`, its three outcomes that run no body taken as one. -/
theorem exec_cases_begun {i : Instr} (h : exec i s = .next t) :
    (s.occupied = true ∧ t = s.concurrentAccess) ∨
    (s.free ∧ ∃ mark r, t = { s.begun with refused := mark, result := r }) ∨
    (s.free ∧ admission i.op s.phase = .admitted ∧ ∃ x, BodyOk s x ∧ t = x.finish) := by
  rcases exec_cases h with h | ⟨hf, _, _, rfl⟩ | ⟨hf, _, rfl⟩ | ⟨hf, _, _, rfl⟩ | h
  · exact .inl h
  · exact .inr (.inl ⟨hf, _, _, rfl⟩)
  · exact .inr (.inl ⟨hf, _, _, rfl⟩)
  · exact .inr (.inl ⟨hf, _, _, rfl⟩)
  · exact .inr (.inr h)

/-- The transactions of a body, seen from the end of its request. -/
theorem BodyOk.performed {x : Ran Result} (h : BodyOk s x) :
    ∃ xs, Performed (Fit s.cfg) s.begun x.finish xs ∧ ∀ y ∈ xs.dropLast, y.received ≠ none := by
  obtain ⟨xs, hp, hlast⟩ := h.did
  exact ⟨xs, hp.then x.finish_sameTrace, hlast⟩

/-! ## Every step -/

/-- The property survives every outcome of a step that runs no body: the wait, the refusals and the
errors of admission, the single-owner fault (R304 to R307). -/
structure Spared (Q : State → Prop) : Prop where
  taken : ∀ s rest, Q s → Q { s with inbox := rest }
  begun : ∀ s, Q s → Q s.begun
  faulted : ∀ s, Q s → Q s.concurrentAccess
  refused : ∀ s why, Q s → Q { s with refused := true, result := some (.refused why) }
  raised : ∀ s, Q s → Q { s with result := some (.raised (.fifoDesync none)) }

theorem Spared.turning_keeps {Q : State → Prop} (hQ : Spared Q) (e : DecodeError) (h : Q s) :
    Q (s.turning e) := by
  cases e with
  | badFields _ => exact hQ.begun s h
  | _ => exact h

theorem Spared.undecoded_keeps {Q : State → Prop} (hQ : Spared Q) (e : DecodeError) (h : Q s) :
    Q (refuseUndecoded e s) := by
  rcases refuseUndecoded_cases e s with ⟨_, he⟩ | ⟨_, why, he⟩ | ⟨_, he⟩ <;> rw [he]
  · exact hQ.faulted s h
  · exact hQ.refused _ why (hQ.turning_keeps e h)
  · exact hQ.raised _ (hQ.turning_keeps e h)

theorem Spared.exec_keeps {Q : State → Prop} (hQ : Spared Q) {i : Instr}
    (hbody : ∀ x, s.free → BodyOk s x → Confined i.op s x.finish → Q s → Q x.finish)
    (h : Q s) (he : exec i s = .next t) : Q t := by
  have hconfined := exec_confined he
  rcases exec_cases he with
    ⟨_, rfl⟩ | ⟨_, why, _, rfl⟩ | ⟨_, _, rfl⟩ | ⟨_, _, why, rfl⟩ | ⟨hf, _, x, hx, rfl⟩
  · exact hQ.faulted s h
  · exact hQ.refused _ why (hQ.begun s h)
  · exact hQ.raised _ (hQ.begun s h)
  · exact hQ.refused _ why (hQ.begun s h)
  · exact hbody x hf hx hconfined h

theorem step_wellFormed (h : step s = .next t) : s.cfg.wellFormed = true := by
  by_contra hc
  rw [step_of_illFormed hc] at h
  cases h

/-- The induction step of an invariant, reduced to the bodies of the requests. -/
theorem Spared.step_keeps {Q : State → Prop} (hQ : Spared Q)
    (hbody : ∀ (op : Op) (s : State) (x : Ran Result), s.cfg.wellFormed = true → s.free → BodyOk s x →
      Confined op s x.finish → Q s → Q x.finish)
    (h : Q s) (hstep : step s = .next t) : Q t := by
  have hwf := step_wellFormed hstep
  rcases step_cases hstep with ⟨_, rfl⟩ | ⟨sub, rest, _, ⟨i, _, he⟩ | ⟨e, _, rfl⟩⟩
  · exact h
  · refine hQ.exec_keeps (fun x => ?_) (hQ.taken s rest h) he
    exact hbody i.op { s with inbox := rest } x hwf
  · exact hQ.undecoded_keeps e (hQ.taken s rest h)

/-! ## Between two requests (R21, R23 to R25) -/

theorem State.quiet_iff (s : State) : s.quiet = true ↔ s.free ∧ s.rxState = .idle := by
  simp only [State.quiet, State.free, Bool.and_eq_true, beq_iff_eq, Bool.not_eq_true']
  tauto

theorem Ran.finish_pc (x : Ran Result) : x.finish.pc = .ready := by
  obtain ⟨r, t⟩ := x
  cases r <;> rfl

/-- A body leaves nothing in progress. -/
theorem BodyOk.free {x : Ran Result} (h : BodyOk s x) (hf : s.free) : x.finish.free := by
  obtain ⟨xs, hp, -⟩ := h.performed
  obtain ⟨-, hbusy, hopen⟩ := hf
  exact ⟨x.finish_pc, hp.spiBusy.trans hbusy, hp.burstOpen.trans hopen⟩

theorem spared_quiet : Spared fun s => s.quiet = true where
  taken _ _ h := h
  begun _ h := h
  faulted _ h := h
  refused _ _ h := h
  raised _ h := h

/-- Settles O57: a body ends at `Ready` with its last transaction completed, and the RX state it leaves is
Idle or the one it began in. -/
theorem stepKeepsQuiet : Obligations.StepKeepsQuiet := by
  intro s t
  refine spared_quiet.step_keeps fun op s x _ hf hx hconfined hq => ?_
  have hidle : s.rxState = .idle := ((State.quiet_iff s).1 hq).2
  refine (State.quiet_iff _).2 ⟨hx.free hf, ?_⟩
  rcases hconfined.rxState with h | h
  · exact h
  · exact h.trans hidle

/-! ## The staging buffer (R28, R182) -/

theorem State.stageOk_iff (s : State) : s.stageOk = true ↔ s.stage.sound s.cfg := by
  simp [State.stageOk, Memory.sound]

theorem spared_stageOk : Spared fun s => s.stageOk = true where
  taken _ _ h := h
  begun _ h := h
  faulted _ h := h
  refused _ _ h := h
  raised _ h := h

/-- Settles O59: what RECEIVE stores, `classify` accepted, so by R9 it fits. -/
theorem stepKeepsStageInside : Obligations.StepKeepsStageInside := by
  intro s t
  refine spared_stageOk.step_keeps fun op s x hwf _ _ hconfined hs => ?_
  rw [State.stageOk_iff] at hs ⊢
  rw [hconfined.cfg]
  exact hconfined.stage hwf hs

/-! ## The sticky marks (R34, R35) -/

theorem spared_refused : Spared fun s => s.refused = true where
  taken _ _ h := h
  begun _ h := h
  faulted _ h := h
  refused _ _ _ := rfl
  raised _ h := h

/-- There is one fault, so to record it again changes nothing. -/
theorem Fault.eq (f : Fault) : f = .concurrentAccess := by
  cases f
  rfl

theorem State.begun_fault_of_some {f : Fault} (h : s.fault = some f) : s.begun.fault = some f := by
  rw [State.begun_fault]
  split
  · rw [f.eq]
  · exact h

theorem spared_fault (f : Fault) : Spared fun s => s.fault = some f where
  taken _ _ h := h
  begun _ h := State.begun_fault_of_some h
  faulted _ _ := by rw [f.eq]; rfl
  refused _ _ h := h
  raised _ h := h

/-- Settles O13: no transaction touches the two marks, and every other outcome sets them or leaves them. -/
theorem stickyMarksNeverCleared : Obligations.StickyMarksNeverCleared := by
  intro s t hstep
  refine ⟨fun h => ?_, fun f h => ?_⟩
  · refine spared_refused.step_keeps (fun op s x _ _ hx _ hr => ?_) h hstep
    obtain ⟨xs, hp, -⟩ := hx.performed
    exact hp.refused.trans hr
  · refine (spared_fault f).step_keeps (fun op s x _ _ hx _ hs => ?_) h hstep
    obtain ⟨xs, hp, -⟩ := hx.performed
    exact hp.fault.trans (State.begun_fault_of_some hs)

/-! ## The transactions of one request (R36, R68, R308) -/

/-- Settles O16: only a body has transactions. -/
theorem noTransactionAfterFailure : Obligations.NoTransactionAfterFailure := by
  intro i s t h
  rcases exec_cases_begun h with ⟨ho, rfl⟩ | ⟨hf, _, _, rfl⟩ | ⟨hf, _, x, hx, rfl⟩
  · have hnf : ¬ s.free := fun hf => by simp [State.occupied_of_free hf] at ho
    exact ⟨[], by simp, by simp, rfl, rfl, rfl, rfl, fun hf => absurd hf hnf, fun _ => rfl⟩
  · exact ⟨[], by simp, by simp, rfl, rfl, rfl, rfl, fun _ => rfl, fun hnf => absurd hf hnf⟩
  · obtain ⟨xs, hp, hlast⟩ := hx.performed
    exact ⟨xs, hp.bus, hlast, hp.txns, hp.bursts, hp.cfg, hp.inbox, fun _ => hp.rivals,
      fun hnf => absurd hf hnf⟩

/-! ## How the phase moves (R22) -/

theorem admitFifo_admitted {p : Phase} (h : admitFifo p = .admitted) : p = .configured := by
  cases p <;> simp [admitFifo] at h ⊢

theorem admitConfigure_admitted {p : Phase} (h : admitConfigure p = .admitted) : p = .reset := by
  cases p <;> simp [admitConfigure] at h ⊢

/-- A request that is turned away changes no phase. -/
theorem exec_admitted_of_phase_ne {i : Instr} (h : exec i s = .next t) (hne : t.phase ≠ s.phase) :
    admission i.op s.phase = .admitted := by
  rcases exec_cases_begun h with ⟨_, rfl⟩ | ⟨_, _, _, rfl⟩ | ⟨_, ha, _⟩
  · exact absurd rfl hne
  · exact absurd rfl hne
  · exact ha

/-- Settles O46: the operation enters only its own phases, from where the phase table admits it. -/
theorem phaseTransitions : Obligations.PhaseTransitions := by
  intro i s t h hne
  have hentered := (exec_confined h).phase.resolve_left hne
  have hadmitted := exec_admitted_of_phase_ne h hne
  cases i with
  | reset => exact .inl ⟨rfl, by simpa [Instr.op, phasesEntered] using hentered⟩
  | configure mac filter imask =>
    exact .inr (.inl ⟨rfl, admitConfigure_admitted hadmitted,
      by simpa [Instr.op, phasesEntered] using hentered⟩)
  | receive =>
    exact .inr (.inr ⟨.inl rfl, admitFifo_admitted hadmitted,
      by simpa [Instr.op, phasesEntered] using hentered⟩)
  | serviceInterrupts =>
    exact .inr (.inr ⟨.inr rfl, admitFifo_admitted hadmitted,
      by simpa [Instr.op, phasesEntered] using hentered⟩)
  | _ => simp [Instr.op, phasesEntered] at hentered

/-! ## Power-on (R40, R340) -/

/-- R72: with no submission the ENGINE waits (log entry 7). -/
theorem step_of_inbox_nil (hc : s.cfg.wellFormed = true) (hi : s.inbox = []) : step s = .next s := by
  simp only [step, hc, if_true, State.takeSubmission, hi]

/-- Settles O11: each field as `State.reset` gives it; the step waits, its inbox being empty. -/
theorem powerOnState : Obligations.PowerOnState := by
  unfold Obligations.PowerOnState
  exact ⟨rfl, rfl, rfl, rfl, rfl, rfl, rfl, rfl, rfl, rfl, rfl, rfl, rfl, rfl, rfl, rfl, rfl, rfl, rfl,
    rfl, rfl, rfl, rfl, rfl, step_of_inbox_nil reference_wellFormed rfl⟩

end Sys2Proof.Machine
end

section
/-!
PROOFS. 44_lifecycle.md: RESET, its bounded poll read by read (R250, R252), and what it leaves behind
where it succeeds, times out or fails (R40).
-/

namespace Sys2Proof.Machine

variable {s : State}

/-! ## A row of ready reads -/

/-- The state after these ready reads: the bookkeeping of R67 and the poll count of R33. The position is given
apart, since the bound test and the ready test of each read count as well (log entry 14). -/
def State.afterPolls (p : Seq) (xs : List Txn) (s : State) : State :=
  { s.afterTxns xs with pc := p, pollCount := s.pollCount + xs.length }

theorem State.afterPolls_nil (s : State) : State.afterPolls s.pc [] s = s := by
  simp [State.afterPolls]

theorem State.afterPolls_afterPolls (p q : Seq) (xs ys : List Txn) (s : State) :
    State.afterPolls q ys (State.afterPolls p xs s) = State.afterPolls q (xs ++ ys) s := by
  simp [State.afterPolls, State.afterTxns, List.drop_drop, Nat.add_assoc]

/-- A ready read as this RESET issues it. -/
def State.poll (s : State) (got : Option (List Byte)) : Txn :=
  Txn.ofRead s.cfg s.rxState s.cfg.readyReg got

/-- The value of a ready read. -/
def State.pollValue (s : State) (got : List Byte) : Word :=
  readValue s.cfg.dataEndian s.cfg.readyReg.width got

/-- The test of R8 on what a ready read received. -/
def State.pollReadyIn (s : State) (got : List Byte) : Prop :=
  s.pollValue got &&& s.cfg.readyMask = s.cfg.readyValue

theorem readyIndicated_iff (cfg : Config) (v : Word) :
    readyIndicated cfg v = true ↔ v &&& cfg.readyMask = cfg.readyValue := by
  simp [readyIndicated]

/-- The bound is reached (R252). -/
theorem pollReady_zero (last : Word) (s : State) :
    ∃ p, pollReady 0 last s = ⟨.error (.resetTimeout last), (s.afterPolls p []).resetFailed⟩ :=
  ⟨s.pc.next, by simp [pollReady, State.advance, State.afterPolls]⟩

/-- A ready read that fails is counted and ends the poll (log entry 19). -/
theorem pollReady_succ_fail (hb : s.spiBusy = false) (ho : s.burstOpen = false)
    (h : s.answer 0 s.cfg.readyReg.width.bytes = none) (n : Nat) (last : Word) :
    ∃ p, pollReady (n + 1) last s = ⟨.error (.busError (.register s.cfg.readyReg.addr)),
      (s.afterPolls p [s.poll none]).resetFailed⟩ := by
  rw [pollReady, regRead_fail (s := s.advance) hb ho h]
  exact ⟨(s.advance.afterTxns [s.poll none]).pc, rfl⟩

/-- A ready read that shows ready ends the poll. -/
theorem pollReady_succ_ready {got : List Byte} (hb : s.spiBusy = false) (ho : s.burstOpen = false)
    (h : s.answer 0 s.cfg.readyReg.width.bytes = some got) (hr : s.pollReadyIn got) (n : Nat)
    (last : Word) :
    ∃ p, pollReady (n + 1) last s = ⟨.ok (), s.afterPolls p [s.poll (some got)]⟩ := by
  rw [pollReady, regRead_ok (s := s.advance) hb ho h]
  refine ⟨(s.advance.afterTxns [s.poll (some got)]).polled.advance.pc, ?_⟩
  exact if_pos ((readyIndicated_iff _ _).2 hr)

/-- A ready read that does not: the poll goes on with one read fewer. -/
theorem pollReady_succ_wait {got : List Byte} (hb : s.spiBusy = false) (ho : s.burstOpen = false)
    (h : s.answer 0 s.cfg.readyReg.width.bytes = some got) (hr : ¬ s.pollReadyIn got) (n : Nat)
    (last : Word) :
    ∃ p, pollReady (n + 1) last s
      = pollReady n (s.pollValue got) (s.afterPolls p [s.poll (some got)]) := by
  rw [pollReady, regRead_ok (s := s.advance) hb ho h]
  refine ⟨(s.advance.afterTxns [s.poll (some got)]).polled.advance.pc, ?_⟩
  exact if_neg fun h => hr ((readyIndicated_iff _ _).1 h)

theorem State.plays_poll_cons {got : List Byte} {gots : List (List Byte)} {p : Seq}
    (hl : got.length = s.cfg.readyReg.width.bytes)
    (h : s.plays ((got :: gots).map fun g => s.poll (some g))) :
    s.answer 0 s.cfg.readyReg.width.bytes = some got ∧
      (s.afterPolls p [s.poll (some got)]).plays (gots.map fun g => s.poll (some g)) := by
  obtain ⟨hhead, htail⟩ := State.plays_cons.1 h
  exact ⟨hl ▸ hhead, (State.plays_congr rfl rfl).1 (htail (s.poll (some got)))⟩

/-- Reads that do not show ready use up as many of the reads allowed, and the poll goes on after them. -/
theorem pollReady_waits (waits : List (List Byte)) (m : Nat) (last : Word) (hb : s.spiBusy = false)
    (ho : s.burstOpen = false) (hl : ∀ got ∈ waits, got.length = s.cfg.readyReg.width.bytes)
    (hn : ∀ got ∈ waits, ¬ s.pollReadyIn got)
    (h : s.plays (waits.map fun got => s.poll (some got))) :
    ∃ p v, pollReady (waits.length + m) last s
      = pollReady m v (s.afterPolls p (waits.map fun got => s.poll (some got))) := by
  induction waits generalizing s last with
  | nil => exact ⟨s.pc, last, by simp [State.afterPolls_nil]⟩
  | cons got waits ih =>
    have hhead : got ∈ got :: waits := List.mem_cons_self ..
    have hanswer := (State.plays_poll_cons (p := s.pc) (hl got hhead) h).1
    obtain ⟨p, hp⟩ := pollReady_succ_wait hb ho hanswer (hn got hhead) (waits.length + m) last
    obtain ⟨q, v, hq⟩ := ih (s := s.afterPolls p [s.poll (some got)]) (s.pollValue got) hb ho
      (fun g hg => hl g (List.mem_cons_of_mem _ hg)) (fun g hg => hn g (List.mem_cons_of_mem _ hg))
      (State.plays_poll_cons (hl got hhead) h).2
    refine ⟨q, v, ?_⟩
    rw [List.length_cons, Nat.add_right_comm, hp, hq, State.afterPolls_afterPolls]
    rfl

/-- The answers of some ready reads and one more. -/
theorem State.plays_polls_snoc {gots : List (List Byte)} {last : List Byte} {p : Seq}
    (hl : last.length = s.cfg.readyReg.width.bytes)
    (h : s.plays ((gots ++ [last]).map fun g => s.poll (some g))) :
    s.plays (gots.map fun g => s.poll (some g)) ∧
      (s.afterPolls p (gots.map fun g => s.poll (some g))).answer 0 s.cfg.readyReg.width.bytes
        = some last := by
  rw [List.map_append] at h
  obtain ⟨hgots, hlast⟩ := State.plays_append.1 h
  exact ⟨hgots, hl ▸ State.plays_head hlast⟩

/-- The poll that sees ready in its read `last` (R250). -/
theorem pollReady_ready {waits : List (List Byte)} {last : List Byte} (hb : s.spiBusy = false)
    (ho : s.burstOpen = false)
    (hl : ∀ got ∈ waits ++ [last], got.length = s.cfg.readyReg.width.bytes)
    (hn : ∀ got ∈ waits, ¬ s.pollReadyIn got) (hr : s.pollReadyIn last)
    (h : s.plays ((waits ++ [last]).map fun got => s.poll (some got))) (m : Nat) (before : Word) :
    ∃ p, pollReady (waits.length + (m + 1)) before s
      = ⟨.ok (), s.afterPolls p ((waits ++ [last]).map fun got => s.poll (some got))⟩ := by
  have hplays p := State.plays_polls_snoc (p := p) (hl last (by simp)) h
  obtain ⟨p, v, hp⟩ := pollReady_waits waits (m + 1) before hb ho
    (fun g hg => hl g (List.mem_append_left _ hg)) hn (hplays s.pc).1
  obtain ⟨q, hq⟩ := pollReady_succ_ready (s := s.afterPolls p _) hb ho (hplays p).2 hr m v
  exact ⟨q, by rw [hp, hq, State.afterPolls_afterPolls, List.map_append]; rfl⟩

/-- The poll whose last read allowed, `last`, does not show ready either (R252). -/
theorem pollReady_timeout {waits : List (List Byte)} {last : List Byte} (hb : s.spiBusy = false)
    (ho : s.burstOpen = false)
    (hl : ∀ got ∈ waits ++ [last], got.length = s.cfg.readyReg.width.bytes)
    (hn : ∀ got ∈ waits ++ [last], ¬ s.pollReadyIn got)
    (h : s.plays ((waits ++ [last]).map fun got => s.poll (some got))) (before : Word) :
    ∃ p, pollReady (waits.length + 1) before s = ⟨.error (.resetTimeout (s.pollValue last)),
      (s.afterPolls p ((waits ++ [last]).map fun got => s.poll (some got))).resetFailed⟩ := by
  have hplays p := State.plays_polls_snoc (p := p) (hl last (by simp)) h
  obtain ⟨p, v, hp⟩ := pollReady_waits waits 1 before hb ho
    (fun g hg => hl g (List.mem_append_left _ hg)) (fun g hg => hn g (List.mem_append_left _ hg))
    (hplays s.pc).1
  obtain ⟨q, hq⟩ :=
    pollReady_succ_wait (s := s.afterPolls p _) hb ho (hplays p).2 (hn last (by simp)) 0 v
  obtain ⟨r, hz⟩ := pollReady_zero (s.pollValue last)
    (State.afterPolls q [s.poll (some last)]
      (s.afterPolls p (waits.map fun got => s.poll (some got))))
  refine ⟨r, ?_⟩
  rw [hp, hq]
  refine hz.trans ?_
  rw [State.afterPolls_afterPolls, State.afterPolls_afterPolls, List.map_append, List.append_nil]
  rfl

/-- Every way the poll can end with an error: some reads were issued, at most as many as allowed. -/
theorem pollReady_error_state {n : Nat} {last : Word} {e : Error} (hb : s.spiBusy = false)
    (ho : s.burstOpen = false) (h : (pollReady n last s).reply = .error e) :
    ∃ p reads, (pollReady n last s).state = (s.afterPolls p reads).resetFailed ∧ reads.length ≤ n ∧
      ∀ x ∈ reads, ∃ got, x = s.poll got := by
  induction n generalizing s last with
  | zero =>
    obtain ⟨p, hp⟩ := pollReady_zero last s
    exact ⟨p, [], by rw [hp], le_rfl, by simp⟩
  | succ n ih =>
    cases ha : s.answer 0 s.cfg.readyReg.width.bytes with
    | none =>
      obtain ⟨p, hp⟩ := pollReady_succ_fail hb ho ha n last
      exact ⟨p, [s.poll none], by rw [hp], by simp, by simp⟩
    | some got =>
      by_cases hr : s.pollReadyIn got
      · obtain ⟨p, hp⟩ := pollReady_succ_ready hb ho ha hr n last
        simp [hp] at h
      · obtain ⟨p, hp⟩ := pollReady_succ_wait hb ho ha hr n last
        rw [hp] at h ⊢
        obtain ⟨q, reads, hstate, hle, hreads⟩ :=
          ih (s := s.afterPolls p [s.poll (some got)]) hb ho h
        refine ⟨q, s.poll (some got) :: reads, ?_, by simpa using hle, ?_⟩
        · rw [hstate, State.afterPolls_afterPolls]
          rfl
        · exact List.forall_mem_cons.2 ⟨⟨_, rfl⟩, hreads⟩

/-! ## The body of RESET -/

/-- The transactions of the reset writes, all completed (R250). -/
def State.resetTxns (s : State) : List Txn := Txn.ofWrites s.cfg s.rxState s.cfg.resetWrites

/-- The state after the transactions `ws` of the reset writes and the ready reads `reads`. -/
def State.resetting (p : Seq) (ws reads : List Txn) (s : State) : State :=
  State.afterPolls p reads (s.pollBegin.afterTxns ws)

/-- The reset writes completed: what follows is the poll. -/
theorem resetBody_eq_poll (hb : s.spiBusy = false) (ho : s.burstOpen = false)
    (h : s.plays s.resetTxns) :
    resetBody s = (pollReady s.cfg.resetPollMax 0 (s.pollBegin.afterTxns s.resetTxns)).andThen
      fun _ t => .pure .ok t.afterReset := by
  unfold resetBody
  rw [writeList_ok (s := s.pollBegin) s.cfg.resetWrites hb ho h]
  rfl

theorem resetBody_ready {waits : List (List Byte)} {last : List Byte} (hb : s.spiBusy = false)
    (ho : s.burstOpen = false) (hlt : waits.length < s.cfg.resetPollMax)
    (hl : ∀ got ∈ waits ++ [last], got.length = s.cfg.readyReg.width.bytes)
    (hn : ∀ got ∈ waits, ¬ s.pollReadyIn got) (hr : s.pollReadyIn last)
    (h : s.plays (s.resetTxns ++ (waits ++ [last]).map fun got => s.poll (some got))) :
    ∃ p, resetBody s = ⟨.ok .ok, (s.resetting p s.resetTxns
      ((waits ++ [last]).map fun got => s.poll (some got))).afterReset⟩ := by
  obtain ⟨hwrites, hpolls⟩ := State.plays_append.1 h
  obtain ⟨m, hm⟩ := Nat.exists_eq_add_of_lt hlt
  obtain ⟨p, hp⟩ := pollReady_ready (s := s.pollBegin.afterTxns s.resetTxns) hb ho hl hn hr hpolls m 0
  refine ⟨p, ?_⟩
  rw [resetBody_eq_poll hb ho hwrites, hm, Nat.add_assoc, hp]
  rfl

theorem resetBody_timeout {waits : List (List Byte)} {last : List Byte} (hb : s.spiBusy = false)
    (ho : s.burstOpen = false) (hmax : waits.length + 1 = s.cfg.resetPollMax)
    (hl : ∀ got ∈ waits ++ [last], got.length = s.cfg.readyReg.width.bytes)
    (hn : ∀ got ∈ waits ++ [last], ¬ s.pollReadyIn got)
    (h : s.plays (s.resetTxns ++ (waits ++ [last]).map fun got => s.poll (some got))) :
    ∃ p, resetBody s = ⟨.error (.resetTimeout (s.pollValue last)), (s.resetting p s.resetTxns
      ((waits ++ [last]).map fun got => s.poll (some got))).resetFailed⟩ := by
  obtain ⟨hwrites, hpolls⟩ := State.plays_append.1 h
  obtain ⟨p, hp⟩ := pollReady_timeout (s := s.pollBegin.afterTxns s.resetTxns) hb ho hl hn hpolls 0
  refine ⟨p, ?_⟩
  rw [resetBody_eq_poll hb ho hwrites, ← hmax, hp]
  rfl

/-- A reset write fails: nothing is read (log entry 19). -/
theorem resetBody_write_fail {before rest : List RegWrite} {w : RegWrite} (hb : s.spiBusy = false)
    (ho : s.burstOpen = false) (hw : s.cfg.resetWrites = before ++ w :: rest)
    (h : s.plays (Txn.ofWrites s.cfg s.rxState before ++ [Txn.ofWrite s.cfg s.rxState none w])) :
    ∃ p, resetBody s = ⟨.error (.busError (.register w.reg.addr)),
      (s.resetting p (Txn.ofWrites s.cfg s.rxState before ++ [Txn.ofWrite s.cfg s.rxState none w])
        []).resetFailed⟩ := by
  unfold resetBody
  rw [hw, writeList_fail (s := s.pollBegin) before rest w hb ho h]
  exact ⟨_, congrArg _ (congrArg _ (State.afterPolls_nil _).symm)⟩

/-- A part followed by a step that raises nothing: an error is the part's, and so is the state. -/
theorem Ran.andThen_pure_error {α β : Type} {x : Ran α} {b : β} {g : State → State} {e : Error}
    (h : (x.andThen fun _ t => .pure b (g t)).reply = .error e) :
    x.reply = .error e ∧ (x.andThen fun _ t => .pure b (g t)).state = x.state := by
  obtain ⟨r, t⟩ := x
  cases r with
  | error e' => exact ⟨by simpa using h, rfl⟩
  | ok a => simp at h

/-- Every way RESET can end with an error: in its writes, and then nothing was read; or in its poll. -/
theorem resetBody_error_state {e : Error} (hb : s.spiBusy = false) (ho : s.burstOpen = false)
    (h : (resetBody s).reply = .error e) :
    ∃ p ws reads, (resetBody s).state = (s.resetting p ws reads).resetFailed ∧
      (ws ++ reads).drop s.cfg.resetWrites.length = reads ∧ reads.length ≤ s.cfg.resetPollMax ∧
      ∀ x ∈ reads, ∃ got, x = s.poll got := by
  rcases writeList_cases s.cfg.resetWrites hb ho with hwrites | ⟨before, w, rest, hw, hfails⟩
  · rw [resetBody_eq_poll hb ho hwrites] at h ⊢
    obtain ⟨hpoll, hend⟩ := Ran.andThen_pure_error h
    obtain ⟨p, reads, hstate, hle, hreads⟩ :=
      pollReady_error_state (s := s.pollBegin.afterTxns s.resetTxns) hb ho hpoll
    refine ⟨p, s.resetTxns, reads, hend.trans hstate, ?_, hle, hreads⟩
    rw [← Txn.ofWrites_length s.cfg s.rxState, State.resetTxns, List.drop_left]
  · obtain ⟨p, hp⟩ := resetBody_write_fail hb ho hw hfails
    refine ⟨p, _, [], congrArg Ran.state hp, ?_, Nat.zero_le _, by simp⟩
    simp [hw, Txn.ofWrites_length]

theorem resetBody_ok {r : Result} (h : (resetBody s).reply = .ok r) : r = .ok := by
  unfold resetBody at h
  simp only at h
  split at h
  · simp at h
  · obtain ⟨_, _, h⟩ := Ran.andThen_reply_ok h
    simpa using h.symm

/-! ## RESET as a request -/

theorem exec_reset (hs : s.free) :
    exec .reset s = .next (resetBody (s.admitted .reset [])).finish :=
  congrArg Host.Outcome.next (perform_body hs rfl rfl resetBody)

/-- A request that returns an error raised it, where its body returns no error as a value. -/
theorem Ran.finish_raised {x : Ran Result} {e : Error} (h : x.finish.result = some (.raised e))
    (hok : ∀ r, x.reply = .ok r → r ≠ .raised e) :
    x.reply = .error e ∧ x.finish = x.state.raise e := by
  obtain ⟨r, t⟩ := x
  cases r with
  | ok r => exact absurd (Option.some.inj h) (hok r rfl)
  | error e' =>
    obtain rfl : e' = e := by simpa [State.raise] using h
    exact ⟨rfl, rfl⟩

/-- The end of a RESET that raises an error (R40). -/
theorem State.resetFailed_raise (hs : s.free) (p : Seq) (ws reads : List Txn) (e : Error) :
    (State.resetting p ws reads (s.admitted .reset [])).resetFailed.raise e
      = { s.begun.afterTxns (ws ++ reads) with
          phase := .unreset, pollCount := reads.length, result := some (.raised e) } := by
  obtain ⟨hpc, -, -⟩ := hs
  rw [← State.afterTxns_afterTxns, ← Nat.zero_add reads.length]
  cases s
  cases hpc
  rfl

/-- Settles O42: the poll's last read shows ready, and `afterReset` writes the column of R40. -/
theorem resetSucceeds : Obligations.ResetSucceeds := by
  intro s waits last xs hs hlt hl hn hr hxs h
  subst hxs
  obtain ⟨-, hb, ho⟩ := id hs
  obtain ⟨p, hp⟩ := resetBody_ready (s := s.admitted .reset []) hb ho hlt hl hn hr h
  rw [exec_reset hs, hp, ← State.afterTxns_afterTxns]
  rfl

/-- Settles O43: every read allowed is used up, and the bound test after the last raises. -/
theorem resetTimesOut : Obligations.ResetTimesOut := by
  intro s waits last xs hs hmax hwaits hxs h
  subst hxs
  obtain ⟨hl, hn⟩ := forall₂_and.1 hwaits
  obtain ⟨-, hb, ho⟩ := id hs
  obtain ⟨p, hp⟩ := resetBody_timeout (s := s.admitted .reset []) hb ho hmax hl hn h
  rw [exec_reset hs, hp, Ran.finish_error, State.resetFailed_raise hs, List.length_map,
    List.length_append, List.length_singleton, hmax]
  rfl

/-- Settles O44: an error comes from a reset write, a ready read or the bound test. -/
theorem resetFailureLeavesUnreset : Obligations.ResetFailureLeavesUnreset := by
  intro s t e hs hexec hresult
  rw [exec_reset hs, Host.Outcome.next.injEq] at hexec
  subst hexec
  obtain ⟨-, hb, ho⟩ := id hs
  obtain ⟨hreply, hraised⟩ := Ran.finish_raised hresult fun r hr => by simp [resetBody_ok hr]
  obtain ⟨p, ws, reads, hstate, hdrop, hle, hreads⟩ :=
    resetBody_error_state (s := s.admitted .reset []) hb ho hreply
  refine ⟨ws ++ reads, reads, hdrop, hle, hreads, ?_⟩
  rw [hraised, hstate, State.resetFailed_raise hs]

end Sys2Proof.Machine
end

section
/-!
PROOFS. 30_encoding.md: the register frames as instructions of their own (R94; log entry 5).
-/

namespace Sys2Proof

/-- The two command bytes, most significant first, field by field (R90, R94). -/
theorem be16_commandWord (op : BitVec 2) (be : BitVec 4) (window : BitVec 6) (low : BitVec 4) :
    be16 (commandWord op be window low) =
      [(op ++ be ++ window.extractLsb' 4 2 : BitVec 8), (window.extractLsb' 0 4 ++ low : BitVec 8)] := by
  simp only [be16, highByte, lowByte, commandWord, List.cons.injEq, and_true]
  constructor
  · ext i hi
    simp
    grind
  · ext i hi
    simp
    grind

/-- The masks of R92 are the ones that enable a width. -/
theorem enabledWidth_eq_none {be : BitVec 4}
    (h : be ∉ [0b0001#4, 0b0010#4, 0b0100#4, 0b1000#4, 0b0011#4, 0b1100#4]) :
    enabledWidth be = none := by
  revert be
  decide

end Sys2Proof

namespace Sys2Proof.Machine

variable {s : State}

/-! ## The checks of a register frame -/

variable {cfg : Config} {be : BitVec 4} {window : BitVec 6} {n : Nat} {w : Width}

theorem regFrameChecks_reserved_mask (h : enabledWidth be = none) :
    firstRefusal (regFrameChecks cfg be window n) = some .reservedFrame := by
  simp [regFrameChecks, firstRefusal, h]

theorem regFrameChecks_reserved_length (hw : enabledWidth be = some w) (hn : n ≠ w.bytes) :
    firstRefusal (regFrameChecks cfg be window n) = some .reservedFrame := by
  simp [regFrameChecks, firstRefusal, enabledLanes_of_width hw, hn]

theorem regFrameChecks_invalid (hw : enabledWidth be = some w) (hn : n = w.bytes)
    (hv : cfg.validReg.holds (frameAddress window be) w = false) :
    firstRefusal (regFrameChecks cfg be window n) = some .invalidRegister := by
  simp [regFrameChecks, firstRefusal, hw, enabledLanes_of_width hw, hn, hv]

theorem regFrameChecks_passed (hw : enabledWidth be = some w) (hn : n = w.bytes)
    (hv : cfg.validReg.holds (frameAddress window be) w = true) :
    firstRefusal (regFrameChecks cfg be window n) = none := by
  simp [regFrameChecks, firstRefusal, hw, enabledLanes_of_width hw, hn, hv]

/-! ## A request of one transaction -/

section OneTransaction

variable {op : Op} {checks : List (Bool × Reason)} {body : State → Ran Result} {burst : Bool}
  {site : Site} {out : List Byte} {f : List Byte → State → Ran Result}

/-- Its transaction fails: BusError (R68). -/
theorem perform_spi_fail (hs : s.free) (ha : admission op s.phase = .admitted)
    (hc : firstRefusal checks = none)
    (hbody : body (s.admitted op checks) = (spi burst site out n (s.admitted op checks)).andThen f)
    (h : s.answer 0 n = none) :
    perform op checks body s =
      { s.begun.afterTxns [⟨out ++ List.replicate n s.cfg.dummyTx, none, s.rxState, burst⟩] with
        result := some (.raised (.busError site)) } := by
  obtain ⟨hpc, hb, ho⟩ := id hs
  rw [perform_body hs ha hc, hbody, spi_fail (s := s.admitted op checks) hb ho h, Ran.andThen_error,
    Ran.finish_error]
  exact State.leave_afterTxns_enter (s := s.begun) hpc op _ _ _

/-- Its transaction completes: the result computed from what was received. -/
theorem perform_spi_ok {got : List Byte} {r : Result} (hs : s.free)
    (ha : admission op s.phase = .admitted) (hc : firstRefusal checks = none)
    (hbody : body (s.admitted op checks) = (spi burst site out n (s.admitted op checks)).andThen f)
    (h : s.answer 0 n = some got) (hf : ∀ t, f got t = .pure r t) :
    perform op checks body s =
      { s.begun.afterTxns [⟨out ++ List.replicate n s.cfg.dummyTx, some got, s.rxState, burst⟩] with
        result := some r } := by
  obtain ⟨hpc, hb, ho⟩ := id hs
  rw [perform_body hs ha hc, hbody, spi_ok (s := s.admitted op checks) hb ho h, Ran.andThen_ok,
    hf, Ran.pure_eq, Ran.finish_ok]
  exact State.leave_afterTxns_enter (s := s.begun) hpc op _ _ _

end OneTransaction

/-! ## The statements -/

/-- Settles O54: the checks of the frame one by one, then its one transaction. -/
theorem spiRegReadOutcomes : Obligations.SpiRegReadOutcomes := by
  intro s be window low hs
  refine ⟨fun hbe => ?_, ?_⟩
  · exact congrArg Host.Outcome.next
      (perform_refused hs rfl (regFrameChecks_reserved_mask (enabledWidth_eq_none hbe)) _)
  rintro w _ _ hw rfl rfl
  have hlanes : enabledLanes be = w.bytes := enabledLanes_of_width hw
  rw [← be16_commandWord, ← hlanes]
  refine ⟨fun hv => ?_, fun hv ha => ?_, fun got hv ha => ?_⟩
  · exact congrArg Host.Outcome.next (perform_refused hs rfl (regFrameChecks_invalid hw hlanes hv) _)
  · exact congrArg Host.Outcome.next
      (perform_spi_fail hs rfl (regFrameChecks_passed hw hlanes hv) rfl ha)
  · refine congrArg Host.Outcome.next
      (perform_spi_ok hs rfl (regFrameChecks_passed hw hlanes hv) rfl ha fun t => ?_)
    rw [hw]
    rfl

/-- Settles O55: as the read frame, with the length of the data among the checks. -/
theorem spiRegWriteOutcomes : Obligations.SpiRegWriteOutcomes := by
  intro s be window low data hs
  refine ⟨fun hw => ?_, ?_⟩
  · exact congrArg Host.Outcome.next
      (perform_refused hs rfl (regFrameChecks_reserved_mask hw) _)
  rintro w _ _ hw rfl rfl
  rw [← be16_commandWord, ← List.append_nil (be16 _ ++ data)]
  refine ⟨fun hn => ?_, fun hn hv => ?_, fun hn hv ha => ?_, fun hn hv ha => ?_⟩
  · exact congrArg Host.Outcome.next (perform_refused hs rfl (regFrameChecks_reserved_length hw hn) _)
  · exact congrArg Host.Outcome.next (perform_refused hs rfl (regFrameChecks_invalid hw hn hv) _)
  · exact congrArg Host.Outcome.next
      (perform_spi_fail hs rfl (regFrameChecks_passed hw hn hv) rfl ha)
  · exact congrArg Host.Outcome.next
      (perform_spi_ok hs rfl (regFrameChecks_passed hw hn hv) rfl ha fun _ => rfl)

end Sys2Proof.Machine
end

section
/-!
PROOFS. 20_memory.md: the fields of a register command word (R65, R91, R93); the register requests of one
transaction, REG_READ and REG_WRITE (R61 to R63, R130, R132); the mixed-width view (R64).
-/

namespace Sys2Proof

variable {w : Width} {v : Word}

/-! ## The fields of a register command word (R90, R91, R93) -/

/-- An aligned 16-bit access enables the lower or the upper pair of lanes (R91). -/
theorem byteEnable_w16 {a : Byte} (h : a.getLsbD 0 = false) :
    byteEnable a .w16 = 0b0011 ∨ byteEnable a .w16 = 0b1100 := by
  revert a
  decide

/-- R93: with `addr_low` the lane stands in bits 3:2 of the low bits, above two bits that are 0. -/
theorem lowBits_addrLow (a : Byte) : (lowBits a .addrLow).extractLsb' 2 2 = laneOf a ∧
    (lowBits a .addrLow).extractLsb' 0 2 = 0 := by
  simp only [lowBits]
  generalize laneOf a = lane
  revert lane
  decide

/-! ## Widths and data bytes (R62, R63, R94) -/

theorem Width.ofBits?_bits (w : Width) : Width.ofBits? w.bits = some w := by
  cases w <;> rfl

/-- The bytes of a register write, by width and byte order (R63, R94). -/
theorem dataBytes_eq {e : Endian} {data : List Byte} (h8 : w = .w8 → data = [v.extractLsb' 0 8])
    (h16 : w = .w16 → data = if e = .little then [v.extractLsb' 0 8, v.extractLsb' 8 8]
      else [v.extractLsb' 8 8, v.extractLsb' 0 8]) :
    data = dataBytes e w v := by
  cases w with
  | w8 => exact h8 rfl
  | w16 => rw [h16 rfl]; cases e <;> rfl

end Sys2Proof

namespace Sys2Proof.Machine

variable {s t : State} {cfg : Config} {a width : Byte} {w : Width} {v : Word}

/-! ## Chains and rows of transactions -/

theorem Ran.andThen_assoc {α β γ : Type} (x : Ran α) (f : α → State → Ran β) (g : β → State → Ran γ) :
    (x.andThen f).andThen g = x.andThen fun r u => (f r u).andThen g := by
  obtain ⟨reply, u⟩ := x
  cases reply <;> rfl

theorem State.free_afterTxns (hs : s.free) (xs : List Txn) : (s.afterTxns xs).free := by
  obtain ⟨hpc, hb, ho⟩ := hs
  exact ⟨by rw [State.afterTxns_pc, hpc]; rfl, hb, ho⟩

/-! ## The checks of a register request (R130, R132) -/

theorem firstRefusal_append (xs ys : List (Bool × Reason)) :
    firstRefusal (xs ++ ys) = (firstRefusal xs).or (firstRefusal ys) := by
  induction xs with
  | nil => rfl
  | cons x xs ih =>
    obtain ⟨applies, why⟩ := x
    cases applies with
    | true => rfl
    | false => exact ih

theorem regOf_bits (a : Byte) (w : Width) : regOf a w.bits = ⟨a, w⟩ := by
  rw [regOf, Width.ofBits?_bits, Option.getD_some]

theorem regChecks_badWidth (h8 : width ≠ 8) (h16 : width ≠ 16) :
    firstRefusal (regChecks cfg a width) = some .badWidth := by
  have hnone : Width.ofBits? width = none := by rw [Width.ofBits?, if_neg h8, if_neg h16]
  rw [regChecks, hnone]
  rfl

theorem regChecks_misaligned (h : a.getLsbD 0 = true) :
    firstRefusal (regChecks cfg a 16) = some .misalignedRegister := by
  simp [regChecks, firstRefusal, Width.ofBits?, h]

/-- A width of R62 and an aligned address leave one check, P_VALID_REG's. -/
theorem regChecks_aligned (ha : w = .w16 → a.getLsbD 0 = false) :
    firstRefusal (regChecks cfg a w.bits)
      = if cfg.validReg.holds a w then none else some .invalidRegister := by
  have hmisaligned : (w.bits == 16 && a.getLsbD 0) = false := by
    cases w with
    | w8 => rfl
    | w16 => exact ha rfl
  rw [regChecks, hmisaligned, Width.ofBits?_bits, regOf_bits]
  cases cfg.validReg.holds a w <;> rfl

theorem regChecks_invalid (ha : w = .w16 → a.getLsbD 0 = false)
    (hv : cfg.validReg.holds a w = false) :
    firstRefusal (regChecks cfg a w.bits) = some .invalidRegister := by
  rw [regChecks_aligned ha, hv]
  rfl

theorem regChecks_passed (ha : w = .w16 → a.getLsbD 0 = false)
    (hv : cfg.validReg.holds a w = true) : firstRefusal (regChecks cfg a w.bits) = none := by
  rw [regChecks_aligned ha, if_pos hv]

/-- REG_WRITE takes REG_READ's refusals (R132). -/
theorem regWriteChecks_refused {why : Reason} (h : firstRefusal (regChecks cfg a width) = some why) :
    firstRefusal (regWriteChecks cfg a width v) = some why := by
  rw [regWriteChecks, firstRefusal_append, h, Option.some_or]

/-- Bits above bit 7 are checked of an 8-bit access alone. -/
theorem tooWide_bits : tooWide w.bits v = true ↔ w = .w8 ∧ v.extractLsb' 8 8 ≠ 0 := by
  cases w with
  | w8 => simp [tooWide, Width.bits, highByte]
  | w16 => simp [tooWide, Width.bits]

/-- The checks of REG_READ passed, only the value is left to check (R132). -/
theorem regWriteChecks_value (h : firstRefusal (regChecks cfg a w.bits) = none) :
    firstRefusal (regWriteChecks cfg a w.bits v)
      = if w = .w8 ∧ v.extractLsb' 8 8 ≠ 0 then some .valueTooWide else none := by
  rw [regWriteChecks, firstRefusal_append, h, Option.none_or]
  exact if_congr tooWide_bits rfl rfl

theorem regWriteChecks_passed (h : firstRefusal (regChecks cfg a w.bits) = none)
    (hfits : w = .w8 → v.extractLsb' 8 8 = 0) :
    firstRefusal (regWriteChecks cfg a w.bits v) = none := by
  rw [regWriteChecks_value h, if_neg fun ⟨hw, hhigh⟩ => hhigh (hfits hw)]

/-! ## REG_READ and REG_WRITE, outcome by outcome -/

/-- The body of REG_READ is one transaction (R94, R130). -/
theorem regReadBody_eq_spi (a : Byte) (w : Width) (t : State) :
    ((regRead (regOf a w.bits) t).andThen fun v u => (.pure (.value v) u : Ran Result))
      = (spi false (.register a) (regCommand t.cfg t.cfg.opRd a w) w.bytes t).andThen
          fun got u => .pure (.value (readValue t.cfg.dataEndian w got)) u := by
  rw [regOf_bits]
  exact Ran.andThen_assoc ..

/-- The body of REG_WRITE is one transaction (R94, R132). -/
theorem regWriteBody_eq_spi (a : Byte) (w : Width) (v : Word) (t : State) :
    ((regWrite (regOf a w.bits) v t).andThen fun _ u => (.pure .ok u : Ran Result))
      = (spi false (.register a)
          (regCommand t.cfg t.cfg.opWr a w ++ dataBytes t.cfg.dataEndian w v) 0 t).andThen
          fun _ u => .pure .ok u := by
  rw [regOf_bits]
  exact Ran.andThen_assoc ..

section RegisterRequests

variable (hs : s.free)

include hs

theorem exec_regRead_refused {why : Reason}
    (hc : firstRefusal (regChecks s.cfg a width) = some why) :
    exec (.regRead a width) s
      = .next { s.begun with refused := true, result := some (.refused why) } :=
  congrArg Host.Outcome.next (perform_refused hs rfl hc _)

theorem exec_regWrite_refused {why : Reason}
    (hc : firstRefusal (regWriteChecks s.cfg a width v) = some why) :
    exec (.regWrite a width v) s
      = .next { s.begun with refused := true, result := some (.refused why) } :=
  congrArg Host.Outcome.next (perform_refused hs rfl hc _)

theorem exec_regRead_ok {got : List Byte} (hc : firstRefusal (regChecks s.cfg a w.bits) = none)
    (h : s.answer 0 w.bytes = some got) :
    exec (.regRead a w.bits) s
      = .next { s.begun.afterTxns [Txn.ofRead s.cfg s.rxState ⟨a, w⟩ (some got)] with
          result := some (.value (readValue s.cfg.dataEndian w got)) } :=
  congrArg Host.Outcome.next
    (perform_spi_ok hs rfl hc (regReadBody_eq_spi a w _) h fun _ => rfl)

theorem exec_regRead_fail (hc : firstRefusal (regChecks s.cfg a w.bits) = none)
    (h : s.answer 0 w.bytes = none) :
    exec (.regRead a w.bits) s
      = .next { s.begun.afterTxns [Txn.ofRead s.cfg s.rxState ⟨a, w⟩ none] with
          result := some (.raised (.busError (.register a))) } :=
  congrArg Host.Outcome.next (perform_spi_fail hs rfl hc (regReadBody_eq_spi a w _) h)

theorem exec_regWrite_ok (hc : firstRefusal (regWriteChecks s.cfg a w.bits v) = none)
    (h : s.answer 0 0 = some []) :
    exec (.regWrite a w.bits v) s
      = .next { s.begun.afterTxns [Txn.ofWrite s.cfg s.rxState (some []) ⟨⟨a, w⟩, v⟩] with
          result := some .ok } := by
  refine congrArg Host.Outcome.next
    ((perform_spi_ok hs rfl hc (regWriteBody_eq_spi a w v _) h fun _ => rfl).trans ?_)
  rw [List.replicate_zero, List.append_nil]
  rfl

theorem exec_regWrite_fail (hc : firstRefusal (regWriteChecks s.cfg a w.bits v) = none)
    (h : s.answer 0 0 = none) :
    exec (.regWrite a w.bits v) s
      = .next { s.begun.afterTxns [Txn.ofWrite s.cfg s.rxState none ⟨⟨a, w⟩, v⟩] with
          result := some (.raised (.busError (.register a))) } := by
  refine congrArg Host.Outcome.next
    ((perform_spi_fail hs rfl hc (regWriteBody_eq_spi a w v _) h).trans ?_)
  rw [List.replicate_zero, List.append_nil]
  rfl

/-- A REG_WRITE that returns `ok` was one write transaction that completed. -/
theorem exec_regWrite_returns_ok (hc : firstRefusal (regWriteChecks s.cfg a w.bits v) = none)
    (hexec : exec (.regWrite a w.bits v) s = .next t) (hr : t.result = some .ok) :
    t = { s.begun.afterTxns [Txn.ofWrite s.cfg s.rxState (some []) ⟨⟨a, w⟩, v⟩] with
      result := some .ok } := by
  rcases State.answer_zero s 0 with h | h
  · rw [exec_regWrite_fail hs hc h, Host.Outcome.next.injEq] at hexec
    subst hexec
    simp at hr
  · rw [exec_regWrite_ok hs hc h, Host.Outcome.next.injEq] at hexec
    exact hexec.symm

end RegisterRequests

/-! ## The mixed-width view (R64) -/

/-- Each lane holds its byte of the newest 16-bit write that enables it (R61). -/
theorem storedByte_w16 (b b0 b1 : Byte) (older : List PlainWrite) :
    storedByte b (⟨⟨a, .w16⟩, [b0, b1]⟩ :: older)
      = if b = a then b0 else if b = a + 1 then b1 else storedByte b older := by
  change (([(a, b0), (a + 1, b1)] : List (Byte × Byte)).lookup b).getD _ = _
  by_cases hlower : b = a
  · rw [hlower, List.lookup_cons_self, if_pos rfl, Option.getD_some]
  rw [List.lookup, beq_false_of_ne hlower, if_neg hlower]
  by_cases hupper : b = a + 1
  · rw [hupper, List.lookup_cons_self, if_pos rfl, Option.getD_some]
  · rw [List.lookup, beq_false_of_ne hupper, if_neg hupper, List.lookup_nil, Option.getD_none]

/-- With P_DATA_ENDIAN = little, the byte transferred first is the lower lane's (R63, R64). -/
theorem storedByte_half {b : Byte} (hb : b = a ∨ b = a + 1) (older : List PlainWrite) :
    storedByte b (⟨⟨a, .w16⟩, dataBytes .little .w16 v⟩ :: older)
      = if b = a then v.extractLsb' 0 8 else v.extractLsb' 8 8 := by
  refine (storedByte_w16 ..).trans ?_
  by_cases hlower : b = a
  · rw [if_pos hlower, if_pos hlower, lowByte]
  · rw [if_neg hlower, if_neg hlower, if_pos (hb.resolve_left hlower), highByte]

/-- What a plain chip answers to an 8-bit read of either byte, the last transaction being a 16-bit write. -/
theorem plainAnswer_half {b : Byte} (hwf : cfg.wellFormed = true) (he : cfg.dataEndian = .little)
    (ha : a.getLsbD 0 = false) (hb : b = a ∨ b = a + 1) (bus : List Txn) (rx : RxState) :
    plainAnswer cfg (bus ++ [Txn.ofWrite cfg rx (some []) ⟨⟨a, .w16⟩, v⟩]) b .w8
      = [if b = a then v.extractLsb' 0 8 else v.extractLsb' 8 8] := by
  have haligned : Sys2Proof.aligned a .w16 = true := by rw [Sys2Proof.aligned, ha]; rfl
  have hnewest : plainWrites cfg 0 (bus ++ [Txn.ofWrite cfg rx (some []) ⟨⟨a, .w16⟩, v⟩]) []
      = ⟨⟨a, .w16⟩, dataBytes .little .w16 v⟩ :: plainWrites cfg 0 bus [] := by
    rw [plainWrites_snoc, plainWrite?_ofWrite (r := ⟨a, .w16⟩) hwf haligned, he]
    rfl
  simp only [plainAnswer, he, hnewest, registerLanes, List.map_cons, List.map_nil,
    storedByte_half hb]

/-! ## The statements -/

/-- Settles O2: the word is R90's, of the byte enables of R91 and the low bits of R93. -/
theorem registerCommandLayout : Obligations.RegisterCommandLayout := by
  intro cfg op a w ha
  have hlow : (commandWord op (byteEnable a w) (windowOf a) (lowBits a cfg.cmdLowBits)).extractLsb' 0 4
      = lowBits a cfg.cmdLowBits := commandWord_low ..
  refine ⟨_, rfl, commandWord_op .., ?_, ?_, commandWord_window .., fun hz => ?_, fun hl => ?_⟩
  · rintro rfl
    exact commandWord_be ..
  · rintro rfl
    rw [commandWord_be]
    exact ⟨rfl, byteEnable_w16 (ha rfl)⟩
  · rw [hlow, hz]
    rfl
  · obtain ⟨hlane, hzero⟩ := lowBits_addrLow a
    rw [← hl, ← hlow, BitVec.extractLsb'_extractLsb'_of_le (by decide)] at hlane hzero
    exact ⟨hlane, hzero⟩

/-- Settles O7. -/
theorem stepWaitsForRequest : Obligations.StepWaitsForRequest :=
  fun _ => step_of_inbox_nil

/-- Settles O17: the checks of REG_READ one by one, then its one transaction. -/
theorem regReadOutcomes : Obligations.RegReadOutcomes := by
  intro s a width hs
  refine ⟨fun ⟨h8, h16⟩ => exec_regRead_refused hs (regChecks_badWidth h8 h16), ?_, ?_⟩
  · rintro ⟨rfl, hodd⟩
    exact exec_regRead_refused hs (regChecks_misaligned hodd)
  rintro w rfl ha
  refine ⟨fun hv => exec_regRead_refused hs (regChecks_invalid ha hv), fun hv => ?_⟩
  have hc := regChecks_passed ha hv
  refine ⟨exec_regRead_fail hs hc, ?_, ?_⟩
  · rintro b rfl hgot
    exact exec_regRead_ok hs hc hgot
  · rintro b0 b1 rfl hgot
    rw [exec_regRead_ok hs hc hgot]
    cases s.cfg.dataEndian <;> rfl

/-- Settles O18: the checks of REG_READ, then that of the value, then its one transaction. -/
theorem regWriteOutcomes : Obligations.RegWriteOutcomes := by
  intro s a width v hs
  have hrefused {why : Reason} (h : firstRefusal (regChecks s.cfg a width) = some why) :=
    exec_regWrite_refused hs (regWriteChecks_refused (v := v) h)
  refine ⟨fun ⟨h8, h16⟩ => hrefused (regChecks_badWidth h8 h16), ?_, ?_⟩
  · rintro ⟨rfl, hodd⟩
    exact hrefused (regChecks_misaligned hodd)
  rintro w rfl ha
  refine ⟨fun hv => hrefused (regChecks_invalid ha hv), fun hv hw hhigh => ?_, ?_⟩
  · refine exec_regWrite_refused hs ?_
    rw [regWriteChecks_value (regChecks_passed ha hv), if_pos ⟨hw, hhigh⟩]
  · intro data hv h8 h16
    have hc := regWriteChecks_passed (regChecks_passed ha hv) fun hw => (h8 hw).1
    obtain rfl := dataBytes_eq (fun hw => (h8 hw).2) h16
    exact ⟨exec_regWrite_fail hs hc, exec_regWrite_ok hs hc⟩

/-- Settles O23: the write is the bus's last transaction, so the chip answers with its half, which an 8-bit
read zero-extends. -/
theorem mixedWidthView : Obligations.MixedWidthView := by
  intro s t a b v hwf hs he ha hv16 hb hv8 hexec hr hplain
  have hc16 : firstRefusal (regWriteChecks s.cfg a Width.w16.bits v) = none :=
    regWriteChecks_passed (regChecks_passed (fun _ => ha) hv16) nofun
  have ht := exec_regWrite_returns_ok hs hc16 hexec hr
  have hcfg : t.cfg = s.cfg := by rw [ht]; rfl
  have hbus : t.bus = s.bus ++ [Txn.ofWrite s.cfg s.rxState (some []) ⟨⟨a, .w16⟩, v⟩] := by
    rw [ht]; rfl
  have hfree : t.free := by
    rw [ht]
    exact State.free_afterTxns (State.free_begun hs) _
  rw [hbus, plainAnswer_half hwf he ha hb] at hplain
  have hc8 : firstRefusal (regChecks t.cfg b Width.w8.bits) = none :=
    regChecks_passed nofun (hcfg ▸ hv8)
  exact ⟨_, exec_regRead_ok hfree hc8 hplain, rfl⟩

end Sys2Proof.Machine
end

section
/-!
PROOFS. 30_encoding.md: the decoder against the encoder, frame by frame (R90 to R98, R103) and request by
request (R110); what the wire decode makes of the ENGINE's own frames and of the reserved ones (R92, R95, R96,
R103), and that no step drives a reserved one.
-/

namespace Sys2Proof

variable {cfg : Config} {be : BitVec 4} {window : BitVec 6} {low : BitVec 4} {data : List Byte}
  {b0 b1 : Byte} {w : Width}

/-! ## Decoding a frame of the encoder (R94, R97, R98, R103) -/

theorem decodeFrame_readFrame (hd : data.length = enabledLanes be) :
    decodeFrame cfg (be16 (commandWord cfg.opRd be window low) ++ data)
      = .ok (.spiRegRead be window low) := by
  simp [decodeFrame, decodeRegFrame, be16, commandWord_opcode, commandWord_be, commandWord_window,
    commandWord_low, hd]

theorem decodeFrame_writeFrame (hc : cfg.wellFormed = true) (hd : data.length = enabledLanes be) :
    decodeFrame cfg (be16 (commandWord cfg.opWr be window low) ++ data)
      = .ok (.spiRegWrite be window low data) := by
  obtain ⟨hwr, -⟩ := Config.opcodes_ne hc
  simp [decodeFrame, decodeRegFrame, be16, commandWord_opcode, commandWord_be, commandWord_window,
    commandWord_low, hwr, hd]

theorem decodeFrame_rxBurst (hc : cfg.wellFormed = true) (data : List Byte) :
    decodeFrame cfg (fifoCommand cfg.opRxq :: data) = .ok (.spiRxqRead data.length) := by
  obtain ⟨-, hrd, -, hwr, -, -⟩ := Config.opcodes_ne hc
  simp [decodeFrame, fifoCommand_op, fifoCommand_low, hrd, hwr]

theorem decodeFrame_txBurst (hc : cfg.wellFormed = true) (data : List Byte) :
    decodeFrame cfg (fifoCommand cfg.opTxq :: data) = .ok (.spiTxqWrite data) := by
  obtain ⟨-, -, hrd, -, hwr, hrx⟩ := Config.opcodes_ne hc
  simp [decodeFrame, fifoCommand_op, fifoCommand_low, hrd, hwr, hrx]

/-! ## Fields that fix a length (R92, R95, R110) -/

/-- The data of a well-formed write frame are one byte for each lane its mask enables (R95). -/
theorem spiRegWrite_length (h : (Instr.spiRegWrite be window low data).wellFormed cfg = true) :
    data.length = enabledLanes be := by
  simp only [Instr.wellFormed] at h
  cases hw : enabledWidth be with
  | none => simp [hw] at h
  | some w =>
    rw [enabledLanes_of_width hw]
    simpa [hw] using h

/-- The fields of CONFIGURE: six MAC bytes, the interrupt mask, the filter values (log entry 3). -/
theorem fieldsOf?_configureFields {mac : List Byte} (hm : mac.length = 6) (filter : List Word)
    (imask : Word) :
    fieldsOf? .configure (mac ++ le16 imask ++ filter.flatMap le16)
      = some (.configure mac filter imask) := by
  match mac, hm with
  | [m0, m1, m2, m3, m4, m5], _ =>
    refine (fieldsOf?_configure m0 m1 m2 m3 m4 m5 (lowByte imask) (highByte imask) filter).trans ?_
    rw [wordOf_highByte_lowByte]

theorem decode_request_of_tag {tag : Byte} {op : Op} {i : Instr} {fields : List Byte}
    (ht : requestTags.lookup tag = some op) (hf : fieldsOf? op fields = some i) :
    decode cfg (.request (tag :: fields)) = .ok i :=
  decodeRequest_of_tag ht hf

/-! ## Round trip -/

/-- Settles O1, row by row: a frame by its opcode, a request by its tag and then its fields. -/
theorem decodeEncodeRoundTrip : Obligations.DecodeEncodeRoundTrip := by
  intro cfg i hc hi
  cases i with
  | spiRegRead be window low => exact decodeFrame_readFrame List.length_replicate
  | spiRegWrite be window low data => exact decodeFrame_writeFrame hc (spiRegWrite_length hi)
  | spiRxqRead n =>
    refine (decodeFrame_rxBurst hc _).trans ?_
    rw [List.length_replicate]
  | spiTxqWrite data => exact decodeFrame_txBurst hc data
  | regRead a w => exact decode_request_of_tag rfl (fieldsOf?_regRead a w)
  | regWrite a w v =>
    refine decode_request_of_tag rfl ((fieldsOf?_regWrite a w _ _).trans ?_)
    rw [wordOf_highByte_lowByte]
  | regRmw a w clr set =>
    refine decode_request_of_tag rfl ((fieldsOf?_regRmw a w _ _ _ _).trans ?_)
    rw [wordOf_highByte_lowByte, wordOf_highByte_lowByte]
  | fifoRead m =>
    refine decode_request_of_tag rfl ((fieldsOf?_fifoRead _ _).trans ?_)
    rw [wordOf_highByte_lowByte]
  | fifoWrite data => exact decode_request_of_tag rfl rfl
  | rxHdrParse hdr => exact decode_request_of_tag rfl rfl
  | receive => exact decode_request_of_tag rfl rfl
  | txHdrBuild irq csum fid len =>
    refine decode_request_of_tag rfl ((fieldsOf?_txHdrBuild irq csum _ _ _ _).trans ?_)
    rw [wordOf_highByte_lowByte, wordOf_highByte_lowByte]
  | transmit frame irq csum => exact decode_request_of_tag rfl (fieldsOf?_transmit irq csum frame)
  | reset => exact decode_request_of_tag rfl rfl
  | configure mac filter imask =>
    have hm : mac.length = 6 := by
      simp only [Instr.wellFormed, Bool.and_eq_true, beq_iff_eq] at hi
      exact hi.1
    exact decode_request_of_tag rfl (fieldsOf?_configureFields hm filter imask)
  | linkStatus => exact decode_request_of_tag rfl rfl
  | serviceInterrupts => exact decode_request_of_tag rfl rfl

/-- A submission that is the encoding of a well-formed instruction decodes to it. -/
theorem decode_of_encode {i : Instr} {sub : Submission} (he : encode cfg i = sub)
    (hc : cfg.wellFormed = true) (hi : i.wellFormed cfg = true) : decode cfg sub = .ok i :=
  he ▸ decodeEncodeRoundTrip cfg i hc hi

/-- Settles O5: each submission is an encoding under the reference configuration. -/
theorem wordsOfTheSpecDecode : Obligations.WordsOfTheSpecDecode := by
  have hword {i : Instr} {sub : Submission} (he : encode .reference i = sub)
      (hi : i.wellFormed .reference = true) : decode .reference sub = .ok i :=
    decode_of_encode he Machine.reference_wellFormed hi
  exact ⟨hword (by decide) (by decide), hword (by decide) (by decide), hword (by decide) (by decide),
    hword (by decide) (by decide), hword rfl rfl, hword rfl rfl, hword rfl rfl⟩

/-! ## The wire decode (R103) -/

theorem wireDecode_of_error {bytes : List Byte} {e : DecodeError}
    (h : decodeFrame cfg bytes = .error e) : wireDecode cfg bytes = .reserved := by
  simp [wireDecode, h]

theorem wireDecode_of_read {bytes : List Byte} (h : decodeFrame cfg bytes = .ok (.spiRegRead be window low))
    (hw : enabledWidth be = some w) : wireDecode cfg bytes = .regRead (frameAddress window be) w := by
  simp [wireDecode, h, hw]

theorem wireDecode_of_write {bytes : List Byte}
    (h : decodeFrame cfg bytes = .ok (.spiRegWrite be window low data)) (hw : enabledWidth be = some w) :
    wireDecode cfg bytes = .regWrite (frameAddress window be) w data := by
  simp [wireDecode, h, hw]

/-- Settles O3: both frames decode to the mask and the window of the address, from which R103 reads it back. -/
theorem wireDecodeInvertsRegisterFrames : Obligations.WireDecodeInvertsRegisterFrames := by
  intro cfg a w data hc ha hd
  obtain ⟨hw, haddr⟩ := byteEnable_spec a w ha
  have hlanes : data.length = enabledLanes (byteEnable a w) := hd.trans (enabledLanes_of_width hw).symm
  constructor
  · rw [regCommand, wireDecode_of_read (decodeFrame_readFrame hlanes) hw, haddr]
  · rw [regCommand, wireDecode_of_write (decodeFrame_writeFrame hc hlanes) hw, haddr]

/-! ## Reserved frames (R92, R95, R96, R103) -/

theorem decodeFrame_regCommand (hop : b0.extractLsb' 6 2 = cfg.opRd ∨ b0.extractLsb' 6 2 = cfg.opWr)
    (rest : List Byte) : decodeFrame cfg (b0 :: rest) = decodeRegFrame cfg b0 rest :=
  if_pos hop

/-- A register command whose data are not as long as some legal mask says (R92, R95). -/
theorem wireDecode_regCommand_reserved
    (hop : b0.extractLsb' 6 2 = cfg.opRd ∨ b0.extractLsb' 6 2 = cfg.opWr)
    (h : ∀ w, enabledWidth (b0.extractLsb' 2 4) = some w → data.length ≠ w.bytes) :
    wireDecode cfg (b0 :: b1 :: data) = .reserved := by
  rw [wireDecode, decodeFrame_regCommand hop, decodeRegFrame, wordOf_be]
  cases hw : enabledWidth (b0.extractLsb' 2 4) with
  | none => split_ifs <;> simp [hw]
  | some w =>
    have hlanes : data.length ≠ enabledLanes (b0.extractLsb' 2 4) := by
      rw [enabledLanes_of_width hw]
      exact h w hw
    simp only [hlanes, if_false]
    split_ifs <;> rfl

theorem wireDecode_regCommand_short
    (hop : b0.extractLsb' 6 2 = cfg.opRd ∨ b0.extractLsb' 6 2 = cfg.opWr) :
    wireDecode cfg [b0] = .reserved :=
  wireDecode_of_error (decodeFrame_regCommand hop [])

/-- R96: "F[5:0]" is 0 in every FIFO command byte. -/
theorem wireDecode_fifoCommand_reserved (hc : cfg.wellFormed = true)
    (hop : b0.extractLsb' 6 2 = cfg.opRxq ∨ b0.extractLsb' 6 2 = cfg.opTxq)
    (hlow : b0.extractLsb' 0 6 ≠ 0) (rest : List Byte) :
    wireDecode cfg (b0 :: rest) = .reserved := by
  obtain ⟨-, hrx, htx, hrx', htx', hne⟩ := Config.opcodes_ne hc
  refine wireDecode_of_error (e := .reservedFifoByte b0) ?_
  rcases hop with hop | hop
  · simpa [decodeFrame, hop, hrx, hrx'] using hlow
  · simpa [decodeFrame, hop, htx, htx', hne] using hlow

theorem enabledWidth_w8 (h : enabledWidth be = some .w8) :
    be ∈ [0b0001#4, 0b0010#4, 0b0100#4, 0b1000#4] := by
  revert be
  decide

theorem enabledWidth_w16 (h : enabledWidth be = some .w16) : be ∈ [0b0011#4, 0b1100#4] := by
  revert be
  decide

/-- Settles O4: no width's length fits the first two kinds of frame; the decoder refuses the others. -/
theorem reservedFramesClassified : Obligations.ReservedFramesClassified := by
  intro cfg b0 b1 rest hc
  refine ⟨fun hop hmask => ?_, fun hop h8 h16 => ?_, wireDecode_regCommand_short, fun hop hlow => ?_⟩
  · refine wireDecode_regCommand_reserved hop fun w hw => ?_
    rw [enabledWidth_eq_none hmask] at hw
    cases hw
  · refine wireDecode_regCommand_reserved hop fun w hw => ?_
    cases w with
    | w8 => exact h8 (enabledWidth_w8 hw)
    | w16 => exact h16 (enabledWidth_w16 hw)
  · exact wireDecode_fifoCommand_reserved hc hop hlow rest

end Sys2Proof

namespace Sys2Proof.Machine

/-! ## The bus (R92) -/

theorem State.busClean_iff (s : State) :
    s.busClean = true ↔ ∀ x ∈ s.bus, wireDecode s.cfg x.driven ≠ .reserved := by
  simp [State.busClean]

theorem spared_busClean : Spared fun s => s.busClean = true where
  taken _ _ h := h
  begun _ h := h
  faulted _ h := h
  refused _ _ h := h
  raised _ h := h

/-- Settles O58: a body adds to the bus only frames the ENGINE's layers form, which are fit under a well-formed
configuration, and a step runs under no other. -/
theorem stepNeverEmitsReserved : Obligations.StepNeverEmitsReserved := by
  intro s t
  refine spared_busClean.step_keeps fun op s x hwf _ hx _ hclean => ?_
  obtain ⟨xs, hp, -⟩ := hx.performed
  rw [State.busClean_iff] at hclean ⊢
  rw [hp.bus, hp.cfg]
  intro y hy
  rcases List.mem_append.mp hy with hold | hnew
  · exact hclean y hold
  · exact hp.sent y hnew hwf

end Sys2Proof.Machine
end

section
/-!
PROOFS. 30_encoding.md: what becomes of a submission that is no instruction: a tag of no row of R110's table,
fields that are not its request's, a frame that does not decode (R103, R110, R111).
-/

namespace Sys2Proof

variable {cfg : Config} {tag i c : Byte} {op : Op} {fields bytes : List Byte} {e : DecodeError}

/-! ## Fields that are not the request's (R110, R111; log entry 3) -/

theorem fieldsOf?_none_of_ne_nil (hop : op ∈ [.receive, .reset, .linkStatus, .serviceInterrupts])
    (h : fields ≠ []) : fieldsOf? op fields = none := by
  obtain ⟨b, rest, rfl⟩ := List.exists_cons_of_ne_nil h
  simp only [List.mem_cons, List.not_mem_nil, or_false] at hop
  rcases hop with rfl | rfl | rfl | rfl <;> rfl

theorem fieldsOf?_regRead_fifoRead_none : ∀ fields : List Byte, fields.length ≠ 2 →
    fieldsOf? .regRead fields = none ∧ fieldsOf? .fifoRead fields = none
  | [], _ | [_], _ | _ :: _ :: _ :: _, _ => ⟨rfl, rfl⟩
  | [_, _], h => absurd rfl h

theorem fieldsOf?_regWrite_none : ∀ fields : List Byte, fields.length ≠ 4 →
    fieldsOf? .regWrite fields = none
  | [], _ | [_], _ | [_, _], _ | [_, _, _], _ | _ :: _ :: _ :: _ :: _ :: _, _ => rfl
  | [_, _, _, _], h => absurd rfl h

theorem fieldsOf?_regRmw_txHdrBuild_none : ∀ fields : List Byte, fields.length ≠ 6 →
    fieldsOf? .regRmw fields = none ∧ fieldsOf? .txHdrBuild fields = none
  | [], _ | [_], _ | [_, _], _ | [_, _, _], _ | [_, _, _, _], _ | [_, _, _, _, _], _
  | _ :: _ :: _ :: _ :: _ :: _ :: _ :: _, _ => ⟨rfl, rfl⟩
  | [_, _, _, _, _, _], h => absurd rfl h

theorem fieldsOf?_transmit_short : ∀ fields : List Byte, fields.length < 2 →
    fieldsOf? .transmit fields = none
  | [], _ | [_], _ => rfl
  | _ :: _ :: _, h => absurd h (by simp)

/-- A list of 16-bit fields is an even number of bytes. -/
theorem wordsOf?_odd : ∀ bytes : List Byte, bytes.length % 2 = 1 → wordsOf? bytes = none
  | [], h => absurd h (by decide)
  | [_], _ => rfl
  | lo :: hi :: rest, h => by
    have hodd : rest.length % 2 = 1 := by
      simp only [List.length_cons] at h
      omega
    rw [wordsOf?, wordsOf?_odd rest hodd, Option.map_none]

/-- CONFIGURE: six MAC bytes, the interrupt mask in two, then filter values of two bytes each. -/
theorem fieldsOf?_configure_none : ∀ fields : List Byte, fields.length < 8 ∨ fields.length % 2 = 1 →
    fieldsOf? .configure fields = none
  | [], _ | [_], _ | [_, _], _ | [_, _, _], _ | [_, _, _, _], _ | [_, _, _, _, _], _
  | [_, _, _, _, _, _], _ | [_, _, _, _, _, _, _], _ => rfl
  | m0 :: m1 :: m2 :: m3 :: m4 :: m5 :: i0 :: i1 :: rest, h => by
    have hodd : rest.length % 2 = 1 := by
      simp only [List.length_cons] at h
      omega
    change Option.map (Instr.configure [m0, m1, m2, m3, m4, m5] · (wordOf i1 i0)) (wordsOf? rest) = _
    rw [wordsOf?_odd rest hodd, Option.map_none]

/-- The two flags that TX_HDR_BUILD and TRANSMIT begin with. -/
def twoFlags? (i c : Byte) : Option (Bool × Bool) :=
  (flagOf? i).bind fun irq => (flagOf? c).map (irq, ·)

theorem twoFlags?_none (h : ∃ b ∈ [i, c], b ≠ 0 ∧ b ≠ 1) : twoFlags? i c = none := by
  obtain ⟨b, hb, h0, h1⟩ := h
  have hnone : flagOf? b = none := by rw [flagOf?, if_neg h0, if_neg h1]
  simp only [List.mem_cons, List.not_mem_nil, or_false] at hb
  rcases hb with rfl | rfl
  · rw [twoFlags?, hnone, Option.bind_none]
  · cases hi : flagOf? i <;> simp [twoFlags?, hi, hnone]

theorem fieldsOf?_txHdrBuild_eq (i c f0 f1 l0 l1 : Byte) :
    fieldsOf? .txHdrBuild [i, c, f0, f1, l0, l1] = (twoFlags? i c).map
      fun flags => .txHdrBuild flags.1 flags.2 (wordOf f1 f0) (wordOf l1 l0) := by
  unfold fieldsOf? twoFlags?
  dsimp only
  cases flagOf? i <;> cases flagOf? c <;> rfl

theorem fieldsOf?_transmit_eq (i c : Byte) (frame : List Byte) :
    fieldsOf? .transmit (i :: c :: frame)
      = (twoFlags? i c).map fun flags => .transmit frame flags.1 flags.2 := by
  unfold fieldsOf? twoFlags?
  dsimp only
  cases flagOf? i <;> cases flagOf? c <;> rfl

theorem fieldsOf?_txHdrBuild_badFlag (h : ∃ b ∈ fields.take 2, b ≠ 0 ∧ b ≠ 1) :
    fieldsOf? .txHdrBuild fields = none := by
  by_cases hl : fields.length = 6
  · match fields, hl with
    | [i, c, f0, f1, l0, l1], _ => rw [fieldsOf?_txHdrBuild_eq, twoFlags?_none h, Option.map_none]
  · exact (fieldsOf?_regRmw_txHdrBuild_none fields hl).2

theorem fieldsOf?_transmit_badFlag (h : ∃ b ∈ fields.take 2, b ≠ 0 ∧ b ≠ 1) :
    fieldsOf? .transmit fields = none := by
  match fields with
  | [] => rfl
  | [_] => rfl
  | i :: c :: frame => rw [fieldsOf?_transmit_eq, twoFlags?_none h, Option.map_none]

/-! ## Requests that do not decode -/

theorem decodeRequest_unknownTag (h : requestTags.lookup tag = none) (fields : List Byte) :
    decodeRequest (tag :: fields) = .error (.unknownTag tag) := by
  simp [decodeRequest, h]

theorem decodeRequest_badFields (ht : requestTags.lookup tag = some op)
    (hf : fieldsOf? op fields = none) : decodeRequest (tag :: fields) = .error (.badFields op) := by
  simp [decodeRequest, ht, hf]

theorem requestTags_lookup_none (h : tag ∉ [0x01#8, 0x02#8, 0x03#8, 0x10#8, 0x11#8, 0x20#8, 0x21#8,
    0x30#8, 0x31#8, 0x40#8, 0x41#8, 0x42#8, 0x43#8]) : requestTags.lookup tag = none := by
  rw [List.lookup_eq_none_iff]
  intro row hrow
  have htag : row.1 ∈ requestTags.map Prod.fst := List.mem_map_of_mem hrow
  exact bne_iff_ne.mpr fun heq => h (heq ▸ htag)

/-- Wrong fields: the request does not decode; or it is an RX_HDR_PARSE, which takes any bytes and checks their
number itself (R180). -/
theorem decodeRequest_of_wrongFields (h : wrongFields tag op fields) :
    decodeRequest (tag :: fields) = .error (.badFields op) ∨
      (op = .rxHdrParse ∧ decodeRequest (tag :: fields) = .ok (.rxHdrParse fields) ∧
        fields.length ≠ 4) := by
  simp only [wrongFields, List.mem_cons, List.not_mem_nil, or_false, Prod.mk.injEq] at h
  rcases h with ⟨h, hn⟩ | ⟨h, hn⟩ | ⟨h, hn⟩ | ⟨h, hn⟩ | ⟨⟨rfl, rfl⟩, hn⟩ | ⟨⟨rfl, rfl⟩, hn⟩ | ⟨h, hn⟩
  · have hne : fields ≠ [] := fun h0 => hn (by rw [h0]; rfl)
    rcases h with ⟨rfl, rfl⟩ | ⟨rfl, rfl⟩ | ⟨rfl, rfl⟩ | ⟨rfl, rfl⟩ <;>
      exact .inl (decodeRequest_badFields rfl (fieldsOf?_none_of_ne_nil (by simp) hne))
  · obtain ⟨hread, hfifo⟩ := fieldsOf?_regRead_fifoRead_none fields hn
    rcases h with ⟨rfl, rfl⟩ | ⟨rfl, rfl⟩
    · exact .inl (decodeRequest_badFields rfl hread)
    · exact .inl (decodeRequest_badFields rfl hfifo)
  · rcases h with ⟨rfl, rfl⟩ | ⟨rfl, rfl⟩
    · exact .inl (decodeRequest_badFields rfl (fieldsOf?_regWrite_none fields hn))
    · exact .inr ⟨rfl, decodeRequest_of_tag rfl rfl, hn⟩
  · obtain ⟨hrmw, hbuild⟩ := fieldsOf?_regRmw_txHdrBuild_none fields hn
    rcases h with ⟨rfl, rfl⟩ | ⟨rfl, rfl⟩
    · exact .inl (decodeRequest_badFields rfl hrmw)
    · exact .inl (decodeRequest_badFields rfl hbuild)
  · exact .inl (decodeRequest_badFields rfl (fieldsOf?_transmit_short fields hn))
  · exact .inl (decodeRequest_badFields rfl (fieldsOf?_configure_none fields hn))
  · rcases h with ⟨rfl, rfl⟩ | ⟨rfl, rfl⟩
    · exact .inl (decodeRequest_badFields rfl (fieldsOf?_txHdrBuild_badFlag hn))
    · exact .inl (decodeRequest_badFields rfl (fieldsOf?_transmit_badFlag hn))

/-- Why a submission that names no operation is turned away (R111, R103; log entry 5); none where its tag
names one. -/
def DecodeError.turnedAway : DecodeError → Option Machine.Reason
  | .emptyRequest | .unknownTag _ => some .badRequest
  | .badFields _ => none
  | .emptyFrame | .unknownOpcode _ | .frameLength _ | .reservedFifoByte _ => some .reservedFrame

theorem decodeRegFrame_error {b0 : Byte} (h : decodeRegFrame cfg b0 bytes = .error e) :
    e.turnedAway = some .reservedFrame := by
  cases bytes with
  | nil =>
    simp only [decodeRegFrame, Except.error.injEq] at h
    rw [← h, DecodeError.turnedAway]
  | cons b1 data =>
    simp only [decodeRegFrame] at h
    split_ifs at h <;> cases h <;> rfl

/-- What the decoder says of a frame, it says of no request. -/
theorem decodeFrame_error (h : decodeFrame cfg bytes = .error e) :
    e.turnedAway = some .reservedFrame := by
  cases bytes with
  | nil => cases h; rfl
  | cons b0 rest =>
    simp only [decodeFrame] at h
    split_ifs at h
    case pos => exact decodeRegFrame_error h
    all_goals cases h; rfl

end Sys2Proof

namespace Sys2Proof.Machine

variable {s : State} {op : Op} {e : DecodeError} {why : Reason} {tag : Byte} {fields : List Byte}
  {sub : Submission} {rest : List Submission}

/-! ## The step of a submission that is no instruction -/

theorem step_of_decode_error (hc : s.cfg.wellFormed = true) (hi : s.inbox = sub :: rest)
    (hd : decode s.cfg sub = .error e) :
    step s = .next (refuseUndecoded e { s with inbox := rest }) := by
  simp only [step, hc, if_true, takeSubmission_cons hi, hd]

/-- A submission that names no operation begins none: the refusal mark, nothing else (R304, log entry 8). -/
theorem refuseUndecoded_of_turnedAway (hs : s.free) (h : e.turnedAway = some why) :
    refuseUndecoded e s = { s with refused := true, result := some (.refused why) } := by
  have hrefuse (r : Reason) : (if s.occupied then s.concurrentAccess else s.refuse r)
      = { s with refused := true, result := some (.refused r) } := by
    rw [State.occupied_of_free hs, if_neg Bool.false_ne_true, State.refuse, ← hs.1]
  cases e with
  | badFields op => cases h
  | _ => cases h; exact hrefuse _

/-- A request with wrong fields is performed as one that its checks refuse `BadRequest` (R111, R180). -/
theorem step_of_wrongFields (hc : s.cfg.wellFormed = true)
    (hi : s.inbox = .request (tag :: fields) :: rest) (h : wrongFields tag op fields) :
    ∃ checks body, firstRefusal checks = some .badRequest ∧
      step s = .next (perform op checks body { s with inbox := rest }) := by
  rcases decodeRequest_of_wrongFields h with hd | ⟨rfl, hd, hl⟩
  · exact ⟨[(true, .badRequest)], Ran.pure .ok, rfl, step_of_decode_error hc hi hd⟩
  · exact ⟨rxHdrParseChecks fields, _, by simp [rxHdrParseChecks, firstRefusal, hl],
      step_of_decode_ok hc hi hd⟩

/-! ## The phase table (R306) -/

theorem admission_fifoRequest (h : op ∈ fifoRequests) (p : Phase) : admission op p = admitFifo p := by
  simp only [fifoRequests, List.mem_cons, List.not_mem_nil, or_false] at h
  rcases h with rfl | rfl | rfl | rfl | rfl <;> rfl

theorem admission_admitted {p : Phase} (hfifo : op ∈ fifoRequests → p = .configured)
    (hconf : op = .configure → p = .reset) : admission op p = .admitted := by
  by_cases h : op ∈ fifoRequests
  · rw [admission_fifoRequest h, hfifo h, admitFifo]
  · cases op with
    | configure => rw [hconf rfl]; rfl
    | fifoRead | fifoWrite | receive | transmit | serviceInterrupts => simp [fifoRequests] at h
    | _ => rfl

theorem admitFifo_notConfigured {p : Phase} (h : p = .unreset ∨ p = .reset) :
    admitFifo p = .refuse .notConfigured := by
  rcases h with rfl | rfl <;> rfl

theorem admitConfigure_notReset {p : Phase} (h : p ≠ .reset) :
    admitConfigure p = .refuse .notReset := by
  cases p with
  | reset => exact absurd rfl h
  | _ => rfl

/-- Settles O10: only a tag of R110's table begins an operation, and that operation's phase outcome comes before
the refusal of its fields. -/
theorem unknownTagRefused : Obligations.UnknownTagRefused := by
  intro s rest hc hs
  have hs' : State.free { s with inbox := rest } := hs
  refine ⟨fun bytes hi hbytes => ?_, fun tag op fields hi hw => ?_, fun bytes e hi hd => ?_⟩
  · cases bytes with
    | nil =>
      rw [step_of_decode_error (e := .emptyRequest) hc hi rfl, refuseUndecoded_of_turnedAway hs' rfl]
    | cons tag fields =>
      have hlookup : requestTags.lookup tag = none := requestTags_lookup_none (hbytes tag rfl)
      rw [step_of_decode_error hc hi (decodeRequest_unknownTag hlookup fields),
        refuseUndecoded_of_turnedAway hs' rfl]
  · obtain ⟨checks, body, hbad, hstep⟩ := step_of_wrongFields hc hi hw
    rw [hstep]
    refine ⟨fun hop hp => ?_, fun hop hp => ?_, fun hop hp => ?_, fun hfifo hconf => ?_⟩
    · rw [perform_phase_refused hs' ((admission_fifoRequest hop _).trans (admitFifo_notConfigured hp))]
      rfl
    · rw [perform_phase_raised hs' ((admission_fifoRequest hop _).trans (congrArg admitFifo hp))]
      rfl
    · subst hop
      rw [perform_phase_refused (op := .configure) hs' (admitConfigure_notReset hp)]
      rfl
    · rw [perform_refused hs' (admission_admitted hfifo hconf) hbad]
      rfl
  · rw [step_of_decode_error hc hi hd, refuseUndecoded_of_turnedAway hs' (decodeFrame_error hd)]

end Sys2Proof.Machine
end

section
/-!
PROOFS. The requests whose outcomes are bytes and words: the FIFO bursts as instructions (R96 to R98) and as
requests (R150, R160), the two headers (R100 to R102, R180, R220), and setbits and clrbits (R116, R134).
-/

namespace Sys2Proof.Machine

variable {s t : State} {op : Op} {checks : List (Bool × Reason)} {body : State → Ran Result}
  {cfg : Config} {r : Result} {xs : List Txn}

/-! ## How a request ends that returns a value -/

/-- An admitted request whose body returns after the transactions `xs`. -/
theorem perform_returns (hs : s.free) (ha : admission op s.phase = .admitted)
    (hc : firstRefusal checks = none)
    (hbody : body (s.admitted op checks) = ⟨.ok r, (s.admitted op checks).afterTxns xs⟩) :
    perform op checks body s = { s.begun.afterTxns xs with result := some r } := by
  rw [perform_body hs ha hc, hbody, Ran.finish_ok]
  exact State.leave_afterTxns_enter (s := s.begun) hs.1 op _ _ _

/-- An admitted request without a transaction. -/
theorem perform_computes (hs : s.free) (ha : admission op s.phase = .admitted)
    (hc : firstRefusal checks = none)
    (hbody : body (s.admitted op checks) = .pure r (s.admitted op checks)) :
    perform op checks body s = { s.begun with result := some r } := by
  have hreturns := perform_returns (xs := []) hs ha hc
    (hbody.trans (by rw [State.afterTxns_nil, Ran.pure_eq]))
  rwa [State.afterTxns_nil] at hreturns

/-- A request that returns a result raised no error, where that result is no error. -/
theorem Ran.finish_returned {x : Ran Result} (h : x.finish.result = some r)
    (hr : ∀ e, r ≠ .raised e) : x.reply = .ok r := by
  obtain ⟨reply, t⟩ := x
  cases reply with
  | ok a => exact congrArg Except.ok (Option.some.inj h)
  | error e => exact absurd (Option.some.inj h).symm (hr e)

/-- A request that returns a result that is neither an error nor a refusal ran its body to the end. -/
theorem perform_returned (hs : s.free) (h : (perform op checks body s).result = some r)
    (hraised : ∀ e, r ≠ .raised e) (hrefused : ∀ why, r ≠ .refused why) :
    (body (s.admitted op checks)).reply = .ok r := by
  rcases perform_cases op checks body s with
    ⟨ho, _⟩ | ⟨_, why, _, hp⟩ | ⟨_, _, hp⟩ | ⟨_, _, why, _, hp⟩ | ⟨_, _, _, hp⟩
  · rw [State.occupied_of_free hs] at ho
    cases ho
  · rw [hp] at h
    exact absurd (Option.some.inj h).symm (hrefused why)
  · rw [hp] at h
    exact absurd (Option.some.inj h).symm (hraised _)
  · rw [hp] at h
    exact absurd (Option.some.inj h).symm (hrefused why)
  · rw [hp] at h
    exact Ran.finish_returned h hraised

/-! ## The FIFO bursts as instructions (R96 to R98) -/

/-- Settles O56: each is its one transaction, with no check before it. -/
theorem spiBurstOutcomes : Obligations.SpiBurstOutcomes := by
  intro s hs
  refine ⟨?_, ?_⟩
  · intro n driven hdriven
    obtain rfl : driven = [fifoCommand s.cfg.opRxq] ++ List.replicate n s.cfg.dummyTx := hdriven
    refine ⟨fun h => ?_, fun got h => ?_⟩
    · exact congrArg Host.Outcome.next (perform_spi_fail hs rfl rfl rfl h)
    · exact congrArg Host.Outcome.next (perform_spi_ok hs rfl rfl rfl h fun _ => rfl)
  · rintro data _ rfl
    rw [← List.append_nil (_ :: data)]
    refine ⟨fun h => ?_, fun h => ?_⟩
    · exact congrArg Host.Outcome.next (perform_spi_fail hs rfl rfl rfl h)
    · exact congrArg Host.Outcome.next (perform_spi_ok hs rfl rfl rfl h fun _ => rfl)

/-! ## The headers (R180, R220) -/

theorem dec16_eq (e : Endian) (b0 b1 : Byte) (more : List Byte) :
    dec16 e (b0 :: b1 :: more) = if e = .little then b1 ++ b0 else b0 ++ b1 := by
  cases e <;> rfl

/-- Settles O30: the two words of the header by `dec16_eq`, the second masked. -/
theorem rxHdrParseOutcomes : Obligations.RxHdrParseOutcomes := by
  intro s h hs
  refine ⟨fun hl => ?_, ?_⟩
  · refine congrArg Host.Outcome.next (perform_refused hs rfl ?_ _)
    simp [rxHdrParseChecks, firstRefusal, hl]
  · rintro b0 b1 b2 b3 _ _ rfl rfl rfl
    rw [← dec16_eq _ b0 b1 [b2, b3], ← dec16_eq _ b2 b3 []]
    exact congrArg Host.Outcome.next (perform_computes hs rfl rfl rfl)

theorem flagChecks_unsupported {irq csum : Bool}
    (h : (irq = true ∧ cfg.txcwIrqBit = none) ∨ (csum = true ∧ cfg.txcwCsumBit = none)) :
    firstRefusal (flagChecks cfg irq csum) = some .unsupportedFlag := by
  rcases h with ⟨rfl, h⟩ | ⟨rfl, h⟩
  · simp [flagChecks, firstRefusal, h]
  · simp [flagChecks, firstRefusal, h]

/-- The bit a flag contributes to the control word (R102): its own where it is asked for, else none. -/
theorem flagBit_eq {flag : Bool} {bit : Option Word} {v : Word}
    (h : if flag then bit = some v else v = 0) :
    (flag && bit.isNone) = false ∧ (if flag then bit.getD 0 else 0) = v := by
  cases flag with
  | true => simp [show bit = some v from h]
  | false => simp [show v = 0 from h]

theorem txHdrBuildChecks_supported {irq csum : Bool} {len : Word}
    (hi : (irq && cfg.txcwIrqBit.isNone) = false) (hcs : (csum && cfg.txcwCsumBit.isNone) = false) :
    firstRefusal (txHdrBuildChecks cfg irq csum len)
      = if cfg.txBcMask.toNat < len.toNat then some .valueTooWide else none := by
  simp [txHdrBuildChecks, flagChecks, firstRefusal, hi, hcs, BitVec.lt_def]

/-- The header's four bytes (R102): the control word, then the length. -/
theorem txHeader_eq {irq csum : Bool} {fid len ctrl : Word} (h : txControl cfg irq csum fid = ctrl) :
    txHeader cfg irq csum fid len = if cfg.dataEndian = .little then
        [ctrl.extractLsb' 0 8, ctrl.extractLsb' 8 8, len.extractLsb' 0 8, len.extractLsb' 8 8]
      else
        [ctrl.extractLsb' 8 8, ctrl.extractLsb' 0 8, len.extractLsb' 8 8, len.extractLsb' 0 8] := by
  rw [txHeader, h]
  cases cfg.dataEndian <;> rfl

/-- Settles O36: the two flags, then the length, then the header computed. -/
theorem txHdrBuildOutcomes : Obligations.TxHdrBuildOutcomes := by
  intro s irq csum fid len hs
  refine ⟨fun hflag => ?_, ?_⟩
  · refine congrArg Host.Outcome.next (perform_refused hs rfl ?_ _)
    rw [txHdrBuildChecks, firstRefusal_append, flagChecks_unsupported hflag, Option.some_or]
  rintro irqBit csumBit ctrl hirq hcsum rfl
  obtain ⟨hi, hirqBit⟩ := flagBit_eq hirq
  obtain ⟨hcs, hcsumBit⟩ := flagBit_eq hcsum
  refine ⟨fun hlen => ?_, fun hlen => ?_⟩
  · refine congrArg Host.Outcome.next (perform_refused hs rfl ?_ _)
    rw [txHdrBuildChecks_supported hi hcs, if_pos hlen]
  · have hctrl : txControl s.cfg irq csum fid = irqBit ||| csumBit ||| (fid &&& s.cfg.txcwFidMask) := by
      rw [txControl, hirqBit, hcsumBit]
    rw [← txHeader_eq hctrl]
    refine congrArg Host.Outcome.next (perform_computes hs rfl ?_ rfl)
    rw [txHdrBuildChecks_supported hi hcs, if_neg (Nat.not_lt.mpr hlen)]

/-! ## setbits and clrbits (R116, R134) -/

/-- What a REG_RMW returns: beside the value read, R134's new value. -/
theorem exec_regRmw_replaced {a width : Byte} {clr set old new : Word} (hs : s.free)
    (h : exec (.regRmw a width clr set) s = .next t) (hr : t.result = some (.replaced old new)) :
    new = rmwValue (regOf a width).width old clr set := by
  obtain rfl := Host.Outcome.next.inj h
  have hbody := perform_returned hs hr (fun _ => nofun) (fun _ => nofun)
  obtain ⟨_, _, hread⟩ := Ran.andThen_reply_ok hbody
  obtain ⟨_, _, hwrite⟩ := Ran.andThen_reply_ok hread
  obtain ⟨rfl, rfl⟩ := Result.replaced.inj (Except.ok.inj hwrite)
  rfl

/-- Bit by bit (R134): cleared by `clr`, then set by `set`. -/
theorem rmwValue_getLsbD (old clr set : Word) (i : Nat) : (rmwValue .w16 old clr set).getLsbD i
    = ((old.getLsbD i && !clr.getLsbD i) || set.getLsbD i) := by
  have hmask : Width.w16.mask = BitVec.allOnes 16 := rfl
  rw [rmwValue, hmask, BitVec.and_allOnes, BitVec.getLsbD_or, BitVec.getLsbD_and, BitVec.getLsbD_not]
  by_cases hi : i < 16
  · simp [hi]
  · simp [hi, BitVec.getLsbD_of_ge _ _ (Nat.le_of_not_lt hi)]

/-- Settles O24: one of the two masks of the REG_RMW is 0. -/
theorem pseudoRequestsSetAndClear : Obligations.PseudoRequestsSetAndClear := by
  intro s t a mask hs
  refine ⟨fun h old new hr i => ?_, fun h old new hr i => ?_⟩
  · rw [exec_regRmw_replaced hs h hr, regOf_bits, rmwValue_getLsbD]
    simp
  · rw [exec_regRmw_replaced hs h hr, regOf_bits, rmwValue_getLsbD]
    simp

/-! ## FIFO_READ (R150) -/

theorem fifoReadChecks_refusal (cfg : Config) (m : Nat) : firstRefusal (fifoReadChecks cfg m)
    = if m = 0 then some .emptyTransfer
      else if cfg.rxqSize < alignUp m cfg.rxAlign then some .transferTooLong else none := by
  simp [fifoReadChecks, firstRefusal]

/-- Settles O25: the checks of FIFO_READ in their order, then its body. -/
theorem fifoReadOutcomes : Obligations.FifoReadOutcomes := by
  intro s m hs hphase
  have ha : admission .fifoRead s.phase = .admitted := congrArg admitFifo hphase
  have hzero : m ≠ 0 → m.toNat ≠ 0 := fun hm h => hm (BitVec.eq_of_toNat_eq h)
  refine ⟨?_, fun hm hlong => ?_, fun got xs hm hfits hl hxs hplays => ?_⟩
  · rintro rfl
    exact congrArg Host.Outcome.next (perform_refused hs ha (fifoReadChecks_refusal _ _) _)
  · refine congrArg Host.Outcome.next (perform_refused hs ha ?_ _)
    rw [fifoReadChecks_refusal, if_neg (hzero hm), if_pos hlong]
  · subst hxs
    obtain ⟨-, hb, ho⟩ := id hs
    refine congrArg Host.Outcome.next (perform_returns hs ha ?_ ?_)
    · rw [fifoReadChecks_refusal, if_neg (hzero hm), if_neg (Nat.not_lt.mpr hfits)]
    · rw [rxBurst_ok (s := s.admitted .fifoRead _) hb ho hl hplays, Ran.andThen_ok]
      rfl

/-! ## FIFO_WRITE (R160) -/

theorem fifoWriteChecks_refusal (cfg : Config) (d : List Byte) : firstRefusal (fifoWriteChecks cfg d)
    = if d = [] then some .emptyTransfer
      else if cfg.txqSize < alignUp d.length cfg.txAlign then some .transferTooLong else none := by
  simp [fifoWriteChecks, firstRefusal]

theorem txWrittenOf_toNat {n : Nat} (h : n < 65536) : (txWrittenOf n).toNat = n := by
  rw [txWrittenOf, if_pos h, BitVec.toNat_ofNat, Nat.mod_eq_of_lt h]

/-- The transactions of a FIFO_WRITE whose tracked total is `total` (R160, R161). -/
def fifoWriteTxns (s : State) (d : List Byte) (total : Word) : List Txn :=
  Txn.ofWrites s.cfg s.rxState (txOpening s.cfg total)
    ++ Txn.ofTxBurst s.cfg s.rxState d (some [])
      :: Txn.ofWrites s.cfg s.rxState (txClosing s.cfg total)

/-- A burst's total is tracked (R29). -/
def State.tracked (total : Word) (s : State) : State := { s with txWritten := total }

/-- FIFO_WRITE's body whose transactions all complete: they and the tracked total; the frame-length tests are
passed at their places. -/
theorem fifoWriteBody_ok {d : List Byte} {total : Word} (hb : s.spiBusy = false)
    (ho : s.burstOpen = false) (ht : total = txWrittenOf (alignUp d.length s.cfg.txAlign))
    (h : s.plays (fifoWriteTxns s d total)) :
    ((txBurstOpen d s).andThen fun _ u => (txBurstClose u).andThen fun _ v => Ran.pure Result.ok v)
      = ⟨.ok .ok, ((s.pass (frameLengthTests s.cfg .beforeBurst + frameLengthTests s.cfg .afterBurst)
          ).afterTxns (fifoWriteTxns s d total)).tracked total⟩ := by
  rw [fifoWriteTxns, List.append_cons] at h ⊢
  generalize hys : Txn.ofWrites s.cfg s.rxState (txOpening s.cfg total)
    ++ [Txn.ofTxBurst s.cfg s.rxState d (some [])] = ys at h ⊢
  obtain ⟨hopen, hclose⟩ := State.plays_append.mp h
  have hopened : txBurstOpen d s
      = ⟨.ok (), ((s.pass (frameLengthTests s.cfg .beforeBurst)).afterTxns ys).tracked total⟩ := by
    subst hys
    exact txBurstOpen_ok hb ho ht hopen
  rw [hopened, Ran.andThen_ok]
  generalize hu : ((s.pass (frameLengthTests s.cfg .beforeBurst)).afterTxns ys).tracked total = u
  have hclosed : txBurstClose u = ⟨.ok (), (u.pass (frameLengthTests s.cfg .afterBurst)).afterTxns
      (Txn.ofWrites s.cfg s.rxState (txClosing s.cfg total))⟩ := by
    subst hu
    exact writeList_ok (s := State.pass _ _) (txClosing s.cfg total) hb ho hclose
  rw [hclosed, Ran.andThen_ok, Ran.pure_eq, ← State.pass_pass, ← State.afterTxns_afterTxns,
    ← State.pass_afterTxns (s.pass _), ← hu]
  rfl

/-- The end of an admitted request whose burst's total is tracked. -/
theorem State.leave_tracked_admitted (hs : s.free) (k : Nat) (total : Word) :
    ((((s.admitted op checks).pass k).afterTxns xs).tracked total).leave r
      = { s.begun.afterTxns xs with txWritten := total, result := some r } := by
  rw [State.admitted, State.pass_pass]
  exact congrArg (State.tracked total) (State.leave_afterTxns_enter (s := s.begun) hs.1 op _ xs r)

/-- Settles O27: `openingWrites` and `closingWrites` are the writes of the body before and after its burst. -/
theorem fifoWriteOutcomes : Obligations.FifoWriteOutcomes := by
  intro s d hs hphase
  have ha : admission .fifoWrite s.phase = .admitted := congrArg admitFifo hphase
  refine ⟨?_, fun hd hlong => ?_, fun hd hfits => ⟨_, txWrittenOf_toNat, ?_⟩⟩
  · rintro rfl
    exact congrArg Host.Outcome.next (perform_refused hs ha (fifoWriteChecks_refusal _ _) _)
  · refine congrArg Host.Outcome.next (perform_refused hs ha ?_ _)
    rw [fifoWriteChecks_refusal, if_neg hd, if_pos hlong]
  · rintro _ rfl hplays
    obtain ⟨-, hb, ho⟩ := id hs
    have hpassed : firstRefusal (fifoWriteChecks s.cfg d) = none := by
      rw [fifoWriteChecks_refusal, if_neg hd, if_neg (Nat.not_lt.mpr hfits)]
    refine congrArg Host.Outcome.next ((perform_body hs ha hpassed _).trans ?_)
    rw [fifoWriteBody_ok (s := s.admitted .fifoWrite _) hb ho rfl hplays, Ran.finish_ok,
      State.leave_tracked_admitted hs]
    rfl

end Sys2Proof.Machine
end

section
/-!
PROOFS. 40_register_access.md: REG_RMW, outcome by outcome, and the refusals it takes from REG_READ (R134);
the number of transactions of the register requests (R136); the register that reads back what was written (R133).
-/

namespace Sys2Proof

variable {e : Endian} {w : Width} {v : Word}

theorem Width.bits_injective {w' : Width} (h : w.bits = w'.bits) : w = w' := by
  have hwidth := congrArg Width.ofBits? h
  rwa [Width.ofBits?_bits, Width.ofBits?_bits, Option.some.injEq] at hwidth

/-- A value that fits its width is read back from the bytes it is written as, in either byte order (R63, R94). -/
theorem readValue_dataBytes (hfits : w = .w8 → v.extractLsb' 8 8 = 0) :
    readValue e w (dataBytes e w v) = v := by
  have hv : wordOf (highByte v) (lowByte v) = v := wordOf_highByte_lowByte v
  cases w with
  | w8 =>
    rw [highByte, hfits rfl] at hv
    exact (BitVec.setWidth_eq_append (by decide)).trans hv
  | w16 => cases e <;> exact hv

end Sys2Proof

namespace Sys2Proof.Machine

variable {s t : State} {cfg : Config} {a width : Byte} {w : Width} {v clr set new : Word}
  {got : List Byte} {why : Reason} {xs : List Txn}

/-! ## The checks of REG_RMW (R134) -/

/-- REG_RMW takes REG_READ's refusals. -/
theorem regRmwChecks_refused (h : firstRefusal (regChecks cfg a width) = some why) :
    firstRefusal (regRmwChecks cfg a width clr set) = some why := by
  rw [regRmwChecks, firstRefusal_append, h, Option.some_or]

/-- The checks of REG_READ passed, only the masks are left to check. -/
theorem regRmwChecks_masks (h : firstRefusal (regChecks cfg a w.bits) = none) :
    firstRefusal (regRmwChecks cfg a w.bits clr set)
      = if w = .w8 ∧ (clr.extractLsb' 8 8 ≠ 0 ∨ set.extractLsb' 8 8 ≠ 0) then some .valueTooWide
        else none := by
  rw [regRmwChecks, firstRefusal_append, h, Option.none_or]
  refine if_congr ?_ rfl rfl
  rw [Bool.or_eq_true, tooWide_bits, tooWide_bits, and_or_left]

theorem regRmwChecks_passed (h : firstRefusal (regChecks cfg a w.bits) = none)
    (hfits : w = .w8 → clr.extractLsb' 8 8 = 0 ∧ set.extractLsb' 8 8 = 0) :
    firstRefusal (regRmwChecks cfg a w.bits clr set) = none := by
  rw [regRmwChecks_masks h]
  refine if_neg fun ⟨hw, hwide⟩ => ?_
  obtain ⟨hclr, hset⟩ := hfits hw
  exact hwide.elim (absurd hclr) (absurd hset)

/-- A register request that passes its checks names a width of R62. -/
theorem width_of_regChecks_none (h : firstRefusal (regChecks cfg a width) = none) :
    ∃ w : Width, width = w.bits := by
  by_cases h8 : width = 8
  · exact ⟨.w8, h8⟩
  by_cases h16 : width = 16
  · exact ⟨.w16, h16⟩
  rw [regChecks_badWidth h8 h16] at h
  cases h

theorem width_of_checks_none {more : List (Bool × Reason)}
    (h : firstRefusal (regChecks cfg a width ++ more) = none) : ∃ w : Width, width = w.bits := by
  rw [firstRefusal_append, Option.or_eq_none_iff] at h
  exact width_of_regChecks_none h.1

/-! ## REG_RMW, outcome by outcome (R134) -/

/-- The body of REG_RMW: a read, then always a write. -/
def rmwBody (r : Reg) (clr set : Word) (t : State) : Ran Result :=
  (regRead r t).andThen fun old u =>
    (regWrite r (rmwValue r.width old clr set) u).andThen fun _ v =>
      .pure (.replaced old (rmwValue r.width old clr set)) v

theorem exec_regRmw_eq (a : Byte) (w : Width) (clr set : Word) (s : State) :
    exec (.regRmw a w.bits clr set) s = .next (perform .regRmw (regRmwChecks s.cfg a w.bits clr set)
      (rmwBody ⟨a, w⟩ clr set) s) := by
  rw [← regOf_bits a w]
  rfl

/-- The transactions of a REG_RMW whose read received `got`, the write answered so. -/
def regRmwTxns (s : State) (a : Byte) (w : Width) (got : List Byte) (new : Word)
    (ack : Option (List Byte)) : List Txn :=
  [Txn.ofRead s.cfg s.rxState ⟨a, w⟩ (some got), Txn.ofWrite s.cfg s.rxState ack ⟨⟨a, w⟩, new⟩]

/-- R134's new value for what a read of the register received. -/
def State.rmwNewValue (s : State) (w : Width) (got : List Byte) (clr set : Word) : Word :=
  rmwValue w (readValue s.cfg.dataEndian w got) clr set

theorem State.answer_after_one {x : Txn} {n : Nat} : (s.afterTxns [x]).answer 0 n = s.answer 1 n :=
  State.answer_afterTxns ..

section RmwBody

variable (hb : s.spiBusy = false) (ho : s.burstOpen = false)

include hb ho

/-- The value read decides what is written. -/
theorem rmwBody_read (h : s.answer 0 w.bytes = some got) :
    rmwBody ⟨a, w⟩ clr set s = (regWrite ⟨a, w⟩ (s.rmwNewValue w got clr set)
      (s.afterTxns [Txn.ofRead s.cfg s.rxState ⟨a, w⟩ (some got)])).andThen fun _ u =>
        .pure (.replaced (readValue s.cfg.dataEndian w got) (s.rmwNewValue w got clr set)) u := by
  rw [rmwBody, regRead_ok hb ho h, Ran.andThen_ok]
  rfl

theorem rmwBody_ok (h : s.answer 0 w.bytes = some got) (hwrite : s.answer 1 0 = some []) :
    rmwBody ⟨a, w⟩ clr set s
      = ⟨.ok (.replaced (readValue s.cfg.dataEndian w got) (s.rmwNewValue w got clr set)),
          s.afterTxns (regRmwTxns s a w got (s.rmwNewValue w got clr set) (some []))⟩ := by
  rw [rmwBody_read hb ho h, regWrite_ok (s := s.afterTxns _) hb ho
    (State.answer_after_one.trans hwrite), Ran.andThen_ok, State.afterTxns_afterTxns]
  rfl

theorem rmwBody_write_fail (h : s.answer 0 w.bytes = some got) (hwrite : s.answer 1 0 = none) :
    rmwBody ⟨a, w⟩ clr set s = ⟨.error (.busError (.register a)),
      s.afterTxns (regRmwTxns s a w got (s.rmwNewValue w got clr set) none)⟩ := by
  rw [rmwBody_read hb ho h, regWrite_fail (s := s.afterTxns _) hb ho
    (State.answer_after_one.trans hwrite), Ran.andThen_error, State.afterTxns_afterTxns]
  rfl

theorem rmwBody_read_fail (h : s.answer 0 w.bytes = none) :
    rmwBody ⟨a, w⟩ clr set s = ⟨.error (.busError (.register a)),
      s.afterTxns [Txn.ofRead s.cfg s.rxState ⟨a, w⟩ none]⟩ := by
  rw [rmwBody, regRead_fail hb ho h, Ran.andThen_error]

end RmwBody

/-- An admitted request whose body raises an error after the transactions `xs`. -/
theorem perform_raises {op : Op} {checks : List (Bool × Reason)} {body : State → Ran Result} {e : Error}
    (hs : s.free) (ha : admission op s.phase = .admitted) (hc : firstRefusal checks = none)
    (hbody : body (s.admitted op checks) = ⟨.error e, (s.admitted op checks).afterTxns xs⟩) :
    perform op checks body s = { s.begun.afterTxns xs with result := some (.raised e) } := by
  rw [perform_body hs ha hc, hbody, Ran.finish_error]
  exact State.leave_afterTxns_enter (s := s.begun) hs.1 op _ _ _

section ReadModifyWrite

variable (hs : s.free)

include hs

theorem exec_regRmw_refused (hc : firstRefusal (regRmwChecks s.cfg a width clr set) = some why) :
    exec (.regRmw a width clr set) s
      = .next { s.begun with refused := true, result := some (.refused why) } :=
  congrArg Host.Outcome.next (perform_refused hs rfl hc _)

variable (hc : firstRefusal (regRmwChecks s.cfg a w.bits clr set) = none)

include hc

theorem exec_regRmw_read_fail (h : s.answer 0 w.bytes = none) :
    exec (.regRmw a w.bits clr set) s
      = .next { s.begun.afterTxns [Txn.ofRead s.cfg s.rxState ⟨a, w⟩ none] with
          result := some (.raised (.busError (.register a))) } := by
  obtain ⟨-, hb, ho⟩ := id hs
  rw [exec_regRmw_eq, perform_raises hs rfl hc (rmwBody_read_fail (s := s.admitted _ _) hb ho h)]
  rfl

theorem exec_regRmw_write_fail (h : s.answer 0 w.bytes = some got) (hwrite : s.answer 1 0 = none) :
    exec (.regRmw a w.bits clr set) s
      = .next { s.begun.afterTxns (regRmwTxns s a w got (s.rmwNewValue w got clr set) none) with
          result := some (.raised (.busError (.register a))) } := by
  obtain ⟨-, hb, ho⟩ := id hs
  rw [exec_regRmw_eq,
    perform_raises hs rfl hc (rmwBody_write_fail (s := s.admitted _ _) hb ho h hwrite)]
  rfl

theorem exec_regRmw_ok (h : s.answer 0 w.bytes = some got) (hwrite : s.answer 1 0 = some []) :
    exec (.regRmw a w.bits clr set) s
      = .next { s.begun.afterTxns (regRmwTxns s a w got (s.rmwNewValue w got clr set) (some [])) with
          result := some (.replaced (readValue s.cfg.dataEndian w got)
            (s.rmwNewValue w got clr set)) } := by
  obtain ⟨-, hb, ho⟩ := id hs
  rw [exec_regRmw_eq, perform_returns hs rfl hc (rmwBody_ok (s := s.admitted _ _) hb ho h hwrite)]
  rfl

end ReadModifyWrite

/-- The answers of the two transactions of a REG_RMW. -/
theorem State.plays_regRmwTxns {ack : Option (List Byte)} (hl : got.length = w.bytes)
    (hempty : ack.getD [] = []) (h : s.plays (regRmwTxns s a w got new ack)) :
    s.answer 0 w.bytes = some got ∧ s.answer 1 0 = ack := by
  refine ⟨hl ▸ h 0 _ rfl, ?_⟩
  have hanswer := h 1 _ rfl
  cases ack with
  | none => exact hanswer
  | some bytes =>
    obtain rfl : bytes = [] := hempty
    exact hanswer

/-! ## Everything a register request can do (R136) -/

/-- The request from `s` was refused with this reason (R304). -/
def TurnedAway (s t : State) (why : Reason) : Prop :=
  t = { s.begun with refused := true, result := some (.refused why) }

/-- The request from `s` issued the transactions `xs` and returned what is no refusal. -/
def Answered (s t : State) (xs : List Txn) : Prop :=
  ∃ r, (∀ why, r ≠ .refused why) ∧ t = { s.begun.afterTxns xs with result := some r }

theorem TurnedAway.result (h : TurnedAway s t why) : t.result = some (.refused why) := by
  rw [h]

theorem TurnedAway.txns (h : TurnedAway s t why) : t.gSpiTxns = s.gSpiTxns := by
  rw [h]
  rfl

theorem Answered.not_refused (h : Answered s t xs) (why : Reason) :
    t.result ≠ some (.refused why) := by
  obtain ⟨r, hr, rfl⟩ := h
  exact fun heq => hr why (Option.some.inj heq)

theorem Answered.txns (h : Answered s t xs) : t.gSpiTxns = s.gSpiTxns + xs.length := by
  obtain ⟨r, -, rfl⟩ := h
  rfl

theorem Answered.of_next {r : Result} {o : Host.Outcome State Fault Refusal} (ho : o = .next t)
    (h : o = .next { s.begun.afterTxns xs with result := some r })
    (hr : ∀ why, r ≠ .refused why) : Answered s t xs :=
  ⟨r, hr, Host.Outcome.next.inj (ho.symm.trans h)⟩

theorem TurnedAway.of_next {o : Host.Outcome State Fault Refusal} (ho : o = .next t)
    (h : o = .next { s.begun with refused := true, result := some (.refused why) }) :
    TurnedAway s t why :=
  Host.Outcome.next.inj (ho.symm.trans h)

theorem exec_regRead_cases (hs : s.free) (h : exec (.regRead a width) s = .next t) :
    (∃ why, firstRefusal (regChecks s.cfg a width) = some why ∧ TurnedAway s t why) ∨
    ∃ x, Answered s t [x] := by
  cases hc : firstRefusal (regChecks s.cfg a width) with
  | some why => exact .inl ⟨why, rfl, .of_next h (exec_regRead_refused hs hc)⟩
  | none =>
    obtain ⟨w, rfl⟩ := width_of_regChecks_none hc
    cases hread : s.answer 0 w.bytes with
    | none => exact .inr ⟨_, .of_next h (exec_regRead_fail hs hc hread) fun _ => nofun⟩
    | some got => exact .inr ⟨_, .of_next h (exec_regRead_ok hs hc hread) fun _ => nofun⟩

theorem exec_regWrite_cases (hs : s.free) (h : exec (.regWrite a width v) s = .next t) :
    (∃ why, firstRefusal (regWriteChecks s.cfg a width v) = some why ∧ TurnedAway s t why) ∨
    ∃ x, Answered s t [x] := by
  cases hc : firstRefusal (regWriteChecks s.cfg a width v) with
  | some why => exact .inl ⟨why, rfl, .of_next h (exec_regWrite_refused hs hc)⟩
  | none =>
    obtain ⟨w, rfl⟩ := width_of_checks_none hc
    rcases State.answer_zero s 0 with hwrite | hwrite
    · exact .inr ⟨_, .of_next h (exec_regWrite_fail hs hc hwrite) fun _ => nofun⟩
    · exact .inr ⟨_, .of_next h (exec_regWrite_ok hs hc hwrite) fun _ => nofun⟩

theorem exec_regRmw_cases (hs : s.free) (h : exec (.regRmw a width clr set) s = .next t) :
    (∃ why, firstRefusal (regRmwChecks s.cfg a width clr set) = some why ∧ TurnedAway s t why) ∨
    ∃ w : Width, width = w.bits ∧
      ((s.answer 0 w.bytes = none ∧ ∃ x, Answered s t [x]) ∨
        (s.answer 0 w.bytes ≠ none ∧ ∃ x y, Answered s t [x, y])) := by
  cases hc : firstRefusal (regRmwChecks s.cfg a width clr set) with
  | some why => exact .inl ⟨why, rfl, .of_next h (exec_regRmw_refused hs hc)⟩
  | none =>
    obtain ⟨w, rfl⟩ := width_of_checks_none hc
    refine .inr ⟨w, rfl, ?_⟩
    cases hread : s.answer 0 w.bytes with
    | none =>
      exact .inl ⟨rfl, _, .of_next h (exec_regRmw_read_fail hs hc hread) fun _ => nofun⟩
    | some got =>
      refine .inr ⟨nofun, ?_⟩
      rcases State.answer_zero s 1 with hwrite | hwrite
      · exact ⟨_, _, .of_next h (exec_regRmw_write_fail hs hc hread hwrite) fun _ => nofun⟩
      · exact ⟨_, _, .of_next h (exec_regRmw_ok hs hc hread hwrite) fun _ => nofun⟩

/-! ## A chip of plain registers reads back the newest write (R133) -/

/-- After a REG_WRITE that returns `ok` the ENGINE is free again and the bus shows the write last. -/
theorem exec_regWrite_ok_leaves (hs : s.free)
    (hc : firstRefusal (regWriteChecks s.cfg a w.bits v) = none)
    (h : exec (.regWrite a w.bits v) s = .next t) (hr : t.result = some .ok) :
    t.free ∧ t.cfg = s.cfg ∧
      t.bus = s.bus ++ [Txn.ofWrite s.cfg s.rxState (some []) ⟨⟨a, w⟩, v⟩] := by
  rw [exec_regWrite_returns_ok hs hc h hr]
  exact ⟨State.free_afterTxns (State.free_begun hs) _, rfl, rfl⟩

/-- With P_DATA_ENDIAN = little: each lane of the register holds its byte of the write. -/
theorem storedBytes_written (v : Word) (older : List PlainWrite) :
    (registerLanes ⟨a, w⟩).map (storedByte · (⟨⟨a, w⟩, dataBytes .little w v⟩ :: older))
      = dataBytes .little w v := by
  cases w with
  | w8 =>
    change [(([(a, lowByte v)] : List (Byte × Byte)).lookup a).getD _] = [lowByte v]
    rw [List.lookup_cons_self, Option.getD_some]
  | w16 =>
    have hlanes : a + 1 ≠ a := by simp
    change [storedByte a (⟨⟨a, .w16⟩, [lowByte v, highByte v]⟩ :: older),
      storedByte (a + 1) (⟨⟨a, .w16⟩, [lowByte v, highByte v]⟩ :: older)] = [lowByte v, highByte v]
    rw [storedByte_w16, storedByte_w16, if_pos rfl, if_neg hlanes, if_pos rfl]

/-- With P_DATA_ENDIAN = big: the newest write is of the register itself. -/
theorem bigAnswer_written (txns : Nat) (r : Reg) (data : List Byte) (older : List PlainWrite) :
    bigAnswer txns (⟨r, data⟩ :: older) r = data := by
  have henables : (registerLanes r).any (registerLanes r).contains = true := by
    obtain ⟨addr, width⟩ := r
    cases width <;> simp [registerLanes]
  simp [bigAnswer, henables]

/-- What a plain chip answers to a read of the register that the last transaction wrote. -/
theorem plainAnswer_written (hwf : cfg.wellFormed = true) (ha : w = .w16 → a.getLsbD 0 = false)
    (bus : List Txn) (rx : RxState) (v : Word) :
    plainAnswer cfg (bus ++ [Txn.ofWrite cfg rx (some []) ⟨⟨a, w⟩, v⟩]) a w
      = dataBytes cfg.dataEndian w v := by
  have haligned : Reg.aligned ⟨a, w⟩ = true := (Reg.aligned_iff _).2 ha
  have hnewest : plainWrites cfg 0 (bus ++ [Txn.ofWrite cfg rx (some []) ⟨⟨a, w⟩, v⟩]) []
      = ⟨⟨a, w⟩, dataBytes cfg.dataEndian w v⟩ :: plainWrites cfg 0 bus [] := by
    rw [plainWrites_snoc, plainWrite?_ofWrite (r := ⟨a, w⟩) hwf haligned]
    rfl
  rw [plainAnswer, hnewest]
  cases cfg.dataEndian with
  | little => exact storedBytes_written v _
  | big => exact bigAnswer_written ..

/-! ## The statements -/

theorem rmwValue_eq (w : Width) (old clr set : Word) : rmwValue w old clr set
    = ((old &&& ~~~clr) ||| set) &&& (if w = .w8 then 0x00FF else 0xFFFF) := by
  cases w <;> rfl

/-- Settles O19: the masks are checked, then the read, then the write, each of which may fail. -/
theorem regRmwOutcomes : Obligations.RegRmwOutcomes := by
  intro s a w clr set hs ha hv
  have hread := regChecks_passed ha hv
  refine ⟨fun hw hwide => ?_, fun hfits => ?_⟩
  · refine exec_regRmw_refused hs ?_
    rw [regRmwChecks_masks hread, if_pos ⟨hw, hwide⟩]
  have hc := regRmwChecks_passed hread hfits
  refine ⟨exec_regRmw_read_fail hs hc, ?_⟩
  rintro got _ _ hl rfl rfl
  rw [← rmwValue_eq]
  refine ⟨fun hplays => ?_, fun hplays => ?_⟩
  · obtain ⟨hgot, hwrite⟩ := State.plays_regRmwTxns hl rfl hplays
    exact exec_regRmw_write_fail hs hc hgot hwrite
  · obtain ⟨hgot, hwrite⟩ := State.plays_regRmwTxns hl rfl hplays
    exact exec_regRmw_ok hs hc hgot hwrite

/-- Settles O20: REG_READ's refusal is one of its checks, which REG_RMW makes first. -/
theorem regRmwTakesReadRefusals : Obligations.RegRmwTakesReadRefusals := by
  intro s t a width clr set why hs h hr
  rcases exec_regRead_cases hs h with ⟨why', hc, hrefused⟩ | ⟨x, hanswered⟩
  · obtain rfl : why' = why := by simpa [hrefused.result] using hr
    exact exec_regRmw_refused hs (regRmwChecks_refused hc)
  · exact absurd hr (hanswered.not_refused why)

/-- Settles O21: the transactions of each outcome are counted one by one (R36). -/
theorem registerTransferCount : Obligations.RegisterTransferCount := by
  intro s t a width v clr set hs
  refine ⟨fun h => ?_, fun h => ?_⟩
  · have hcases : (∃ why, TurnedAway s t why) ∨ ∃ x, Answered s t [x] := by
      rcases h with h | h
      · exact (exec_regRead_cases hs h).imp_left fun ⟨why, _, hrefused⟩ => ⟨why, hrefused⟩
      · exact (exec_regWrite_cases hs h).imp_left fun ⟨why, _, hrefused⟩ => ⟨why, hrefused⟩
    rcases hcases with ⟨why, hrefused⟩ | ⟨x, hanswered⟩
    · exact .inl ⟨⟨why, hrefused.result⟩, hrefused.txns⟩
    · exact .inr ⟨hanswered.not_refused, hanswered.txns⟩
  · rcases exec_regRmw_cases hs h with
      ⟨why, -, hrefused⟩ | ⟨w, rfl, ⟨hfail, x, hanswered⟩ | ⟨hread, x, y, hanswered⟩⟩
    · exact .inl ⟨⟨why, hrefused.result⟩, hrefused.txns⟩
    · refine .inr ⟨hanswered.not_refused, fun ⟨w', hw, hread⟩ => ?_, fun _ => hanswered.txns⟩
      exact absurd (Width.bits_injective hw ▸ hfail) hread
    · refine .inr ⟨hanswered.not_refused, fun _ => hanswered.txns, fun ⟨w', hw, hfail⟩ => ?_⟩
      exact absurd (Width.bits_injective hw ▸ hfail) hread

/-- Settles O22: the write is the bus's last transaction, so the chip answers with its bytes, from which the
read has the value back. -/
theorem writeThenReadRoundTrip : Obligations.WriteThenReadRoundTrip := by
  intro s t a w v hwf hs ha hv hfits hexec hr hplain
  have hread : firstRefusal (regChecks s.cfg a w.bits) = none := regChecks_passed ha hv
  obtain ⟨hfree, hcfg, hbus⟩ :=
    exec_regWrite_ok_leaves hs (regWriteChecks_passed hread hfits) hexec hr
  rw [hbus, plainAnswer_written hwf ha] at hplain
  refine ⟨_, exec_regRead_ok hfree (hcfg ▸ hread) hplain, ?_⟩
  rw [hcfg, readValue_dataBytes hfits]

end Sys2Proof.Machine
end

section
/-!
PROOFS. 41_fifo_transfer.md: where FIFO_READ (R150) and FIFO_WRITE (R160) fail, and the number of transactions of
those that succeed (R165).
-/

namespace Sys2Proof.Machine

variable {α β : Type} {s : State} {op : Op} {checks : List (Bool × Reason)} {body : State → Ran Result}
  {r : Result} {got d : List Byte} {before after : List RegWrite} {w : RegWrite} {total : Word}
  {xs : List Txn}

/-- The transactions of a write list that stops at the failure of `w`, after the writes `before` (R135). -/
def Txn.ofFailedWrites (cfg : Config) (rx : RxState) (before : List RegWrite) (w : RegWrite) : List Txn :=
  Txn.ofWrites cfg rx before ++ [Txn.ofWrite cfg rx none w]

/-! ## FIFO_READ, failure by failure (R150) -/

section RxBurst

variable {m : Nat} (hb : s.spiBusy = false) (ho : s.burstOpen = false)

include hb ho

theorem rxBurst_pre_fail (hw : s.cfg.rxPre = before ++ w :: after)
    (h : s.plays (Txn.ofFailedWrites s.cfg s.rxState before w)) :
    rxBurst m s = ⟨.error (.busError (.register w.reg.addr)),
      s.afterTxns (Txn.ofFailedWrites s.cfg s.rxState before w)⟩ := by
  rw [rxBurst, hw, writeList_fail before after w hb ho h, Ran.andThen_error, Txn.ofFailedWrites]

theorem rxBurst_burst_fail (h : s.plays (Txn.ofWrites s.cfg s.rxState s.cfg.rxPre
      ++ [Txn.ofRxBurst s.cfg s.rxState m none])) :
    rxBurst m s = ⟨.error (.busError .fifo), s.afterTxns (Txn.ofWrites s.cfg s.rxState s.cfg.rxPre
      ++ [Txn.ofRxBurst s.cfg s.rxState m none])⟩ := by
  obtain ⟨hpre, hburst⟩ := State.plays_append.1 h
  have hfails := State.answer_none _ 0 _ (s.cfg.rxLead + alignUp m s.cfg.rxAlign)
    (State.plays_head hburst)
  rw [rxBurst, writeList_ok _ hb ho hpre, Ran.andThen_ok,
    rxTransfer_fail (s := s.afterTxns _) hb ho hfails, Ran.andThen_error, State.afterTxns_afterTxns]
  rfl

theorem rxBurst_post_fail (hl : got.length = s.cfg.rxLead + alignUp m s.cfg.rxAlign)
    (hw : s.cfg.rxPost = before ++ w :: after)
    (h : s.plays (Txn.ofWrites s.cfg s.rxState s.cfg.rxPre
      ++ Txn.ofRxBurst s.cfg s.rxState m (some got) :: Txn.ofFailedWrites s.cfg s.rxState before w)) :
    rxBurst m s = ⟨.error (.busError (.register w.reg.addr)),
      s.afterTxns (Txn.ofWrites s.cfg s.rxState s.cfg.rxPre
        ++ Txn.ofRxBurst s.cfg s.rxState m (some got)
          :: Txn.ofFailedWrites s.cfg s.rxState before w)⟩ := by
  obtain ⟨hpre, hrest⟩ := State.plays_append.1 h
  obtain ⟨hburst, hpost⟩ := State.plays_cons.1 hrest
  have hanswer : (s.afterTxns (Txn.ofWrites s.cfg s.rxState s.cfg.rxPre)).answer 0
      (s.cfg.rxLead + alignUp m s.cfg.rxAlign) = some got := hl ▸ hburst
  rw [rxBurst, writeList_ok _ hb ho hpre, Ran.andThen_ok,
    rxTransfer_ok (s := s.afterTxns _) hb ho hanswer, Ran.andThen_ok, hw,
    writeList_fail (s := (s.afterTxns _).afterTxns _) before after w hb ho (hpost _),
    Ran.andThen_error, State.afterTxns_afterTxns, State.afterTxns_afterTxns]
  rfl

end RxBurst

theorem fifoReadChecks_passed {m : Word} (hm : m ≠ 0)
    (hfits : alignUp m.toNat s.cfg.rxAlign ≤ s.cfg.rxqSize) :
    firstRefusal (fifoReadChecks s.cfg m.toNat) = none := by
  have hzero : m.toNat ≠ 0 := fun h => hm (BitVec.eq_of_toNat_eq h)
  rw [fifoReadChecks_refusal, if_neg hzero, if_neg (Nat.not_lt.mpr hfits)]

/-- Settles O26: each failure is `rxBurst`'s, which FIFO_READ passes on. -/
theorem fifoReadBusErrors : Obligations.FifoReadBusErrors := by
  intro s m got before after w hs hphase hm hfits hl
  have ha : admission .fifoRead s.phase = .admitted := congrArg admitFifo hphase
  have hc := fifoReadChecks_passed hm hfits
  have hraises {e : Error} {xs : List Txn}
      (h : rxBurst m.toNat (s.admitted .fifoRead (fifoReadChecks s.cfg m.toNat))
        = ⟨.error e, (s.admitted .fifoRead (fifoReadChecks s.cfg m.toNat)).afterTxns xs⟩) :
      exec (.fifoRead m) s = .next { s.begun.afterTxns xs with result := some (.raised e) } :=
    congrArg Host.Outcome.next (perform_raises hs ha hc (by rw [h, Ran.andThen_error]))
  obtain ⟨-, hb, ho⟩ := hs
  refine ⟨?_, ?_, ?_⟩
  · rintro _ hw rfl hplays
    exact hraises (rxBurst_pre_fail (s := s.admitted _ _) hb ho hw hplays)
  · rintro _ rfl hplays
    exact hraises (rxBurst_burst_fail (s := s.admitted _ _) hb ho hplays)
  · rintro _ hw rfl hplays
    exact hraises (rxBurst_post_fail (s := s.admitted _ _) hb ho hl hw hplays)

/-! ## FIFO_WRITE, failure by failure (R160) -/

/-- The body of FIFO_WRITE. -/
def fifoWriteBody (d : List Byte) (t : State) : Ran Result :=
  (txBurstOpen d t).andThen fun _ u => (txBurstClose u).andThen fun _ v => .pure .ok v

theorem exec_fifoWrite_eq (d : List Byte) (s : State) : exec (.fifoWrite d) s
    = .next (perform .fifoWrite (fifoWriteChecks s.cfg d) (fifoWriteBody d) s) := rfl

/-- The transactions up to a TX burst, itself answered so. -/
def txOpenTxns (s : State) (d : List Byte) (total : Word) (ack : Option (List Byte)) : List Txn :=
  Txn.ofWrites s.cfg s.rxState (txOpening s.cfg total) ++ [Txn.ofTxBurst s.cfg s.rxState d ack]

/-- Two rows of transactions, checks passed before each. -/
theorem State.afterTxns_pass_afterTxns (s : State) (j k : Nat) (xs ys : List Txn) :
    (((s.pass j).afterTxns xs).pass k).afterTxns ys = (s.pass (j + k)).afterTxns (xs ++ ys) := by
  rw [State.pass_afterTxns, State.pass_pass, State.afterTxns_afterTxns]

section FifoWriteBody

variable (hb : s.spiBusy = false) (ho : s.burstOpen = false)

include hb ho

/-- A write after the burst fails (R160). -/
theorem txBurstClose_fail (hw : txClosing s.cfg s.txWritten = before ++ w :: after)
    (h : s.plays (Txn.ofFailedWrites s.cfg s.rxState before w)) :
    ∃ k, txBurstClose s = ⟨.error (.busError (.register w.reg.addr)),
      (s.pass k).afterTxns (Txn.ofFailedWrites s.cfg s.rxState before w)⟩ := by
  refine ⟨frameLengthTests s.cfg .afterBurst, ?_⟩
  rw [txBurstClose_eq, hw]
  exact writeList_fail (s := s.pass _) before after w hb ho h

variable (ht : total = txWrittenOf (alignUp d.length s.cfg.txAlign))

include ht

/-- The burst completed: its total is tracked, and the rest of the transfer starts from there. -/
theorem txBurstOpen_tracked (h : s.plays (txOpenTxns s d total (some []))) :
    ∃ k, txBurstOpen d s
      = ⟨.ok (), ((s.pass k).afterTxns (txOpenTxns s d total (some []))).tracked total⟩ :=
  ⟨_, txBurstOpen_ok hb ho ht h⟩

/-- The burst failed: the tracked total is 0. -/
theorem txBurstOpen_untracked (h : s.plays (txOpenTxns s d total none)) :
    ∃ k, txBurstOpen d s
      = ⟨.error (.busError .fifo), ((s.pass k).afterTxns (txOpenTxns s d total none)).tracked 0⟩ :=
  ⟨_, txBurstOpen_burst_fail hb ho ht h⟩

theorem fifoWriteBody_opening_fail (hw : txOpening s.cfg total = before ++ w :: after)
    (h : s.plays (Txn.ofFailedWrites s.cfg s.rxState before w)) :
    ∃ k, fifoWriteBody d s = ⟨.error (.busError (.register w.reg.addr)),
      (s.pass k).afterTxns (Txn.ofFailedWrites s.cfg s.rxState before w)⟩ := by
  obtain ⟨k, hopen⟩ := txBurstOpen_write_fail hb ho ht hw h
  exact ⟨k, by rw [fifoWriteBody, hopen, Ran.andThen_error, Txn.ofFailedWrites]⟩

theorem fifoWriteBody_burst_fail (h : s.plays (txOpenTxns s d total none)) :
    ∃ k, fifoWriteBody d s = ⟨.error (.busError .fifo),
      ((s.pass k).afterTxns (txOpenTxns s d total none)).tracked 0⟩ := by
  obtain ⟨k, hopen⟩ := txBurstOpen_untracked hb ho ht h
  exact ⟨k, by rw [fifoWriteBody, hopen, Ran.andThen_error]⟩

theorem fifoWriteBody_closing_fail (hw : txClosing s.cfg total = before ++ w :: after)
    (h : s.plays (txOpenTxns s d total (some []) ++ Txn.ofFailedWrites s.cfg s.rxState before w)) :
    ∃ k, fifoWriteBody d s = ⟨.error (.busError (.register w.reg.addr)),
      ((s.pass k).afterTxns (txOpenTxns s d total (some [])
        ++ Txn.ofFailedWrites s.cfg s.rxState before w)).tracked total⟩ := by
  obtain ⟨hplays, hrest⟩ := State.plays_append.1 h
  obtain ⟨j, hopen⟩ := txBurstOpen_tracked hb ho ht hplays
  obtain ⟨k, hclose⟩ := txBurstClose_fail (before := before) (w := w)
    (s := ((s.pass j).afterTxns (txOpenTxns s d total (some []))).tracked total) hb ho hw hrest
  refine ⟨j + k, ?_⟩
  rw [fifoWriteBody, hopen, Ran.andThen_ok, hclose, Ran.andThen_error,
    ← State.afterTxns_pass_afterTxns]
  rfl

end FifoWriteBody

/-- The end of an admitted request, whatever checks its body passed. -/
theorem State.leave_passed_admitted (hs : s.free) (k : Nat) :
    (((s.admitted op checks).pass k).afterTxns xs).leave r
      = { s.begun.afterTxns xs with result := some r } := by
  rw [State.admitted, State.pass_pass]
  exact State.leave_afterTxns_enter (s := s.begun) hs.1 op _ xs r

theorem fifoWriteChecks_passed (hd : d ≠ []) (hfits : alignUp d.length s.cfg.txAlign ≤ s.cfg.txqSize) :
    firstRefusal (fifoWriteChecks s.cfg d) = none := by
  rw [fifoWriteChecks_refusal, if_neg hd, if_neg (Nat.not_lt.mpr hfits)]

/-- Settles O28: `openingWrites` and `closingWrites` are the writes of the body before and after its burst, each
failure of which ends the body. -/
theorem fifoWriteBusErrors : Obligations.FifoWriteBusErrors := by
  intro s d hs hphase hd hfits
  refine ⟨_, txWrittenOf_toNat, ?_⟩
  rintro before after w _ xs rfl hplays
  have ha : admission .fifoWrite s.phase = .admitted := congrArg admitFifo hphase
  have hexec : exec (.fifoWrite d) s
      = .next (fifoWriteBody d (s.admitted .fifoWrite (fifoWriteChecks s.cfg d))).finish :=
    congrArg Host.Outcome.next (perform_body hs ha (fifoWriteChecks_passed hd hfits) _)
  obtain ⟨-, hb, ho⟩ := id hs
  refine ⟨?_, ?_, ?_⟩
  · rintro hw rfl
    obtain ⟨k, hbody⟩ := fifoWriteBody_opening_fail (s := s.admitted .fifoWrite _) hb ho rfl hw hplays
    rw [hexec, hbody]
    exact congrArg Host.Outcome.next (State.leave_passed_admitted hs k)
  · rintro rfl
    obtain ⟨k, hbody⟩ := fifoWriteBody_burst_fail (s := s.admitted .fifoWrite _) hb ho rfl hplays
    rw [hexec, hbody]
    exact congrArg Host.Outcome.next (State.leave_tracked_admitted hs k 0)
  · rintro hw rfl
    rw [List.append_cons] at hplays ⊢
    obtain ⟨k, hbody⟩ := fifoWriteBody_closing_fail (s := s.admitted .fifoWrite _) hb ho rfl hw hplays
    rw [hexec, hbody]
    exact congrArg Host.Outcome.next (State.leave_tracked_admitted hs k _)

/-! ## Counting the transactions of a transfer (R36, R165) -/

/-- From `s` to `t`: `n` transactions, `b` of them bursts, under one configuration. -/
structure Counted (n b : Nat) (s t : State) : Prop where
  cfg : t.cfg = s.cfg
  txns : t.gSpiTxns = s.gSpiTxns + n
  bursts : t.gFifoBursts = s.gFifoBursts + b

/-- A part of an operation that, where it ends with a value, took so many transactions and bursts. -/
structure Ran.Counts (n b : Nat) (s : State) (x : Ran α) : Prop where
  counted : ∀ a, x.reply = .ok a → Counted n b s x.state

theorem Ran.counts_pure (a : α) (s : State) : (Ran.pure a s).Counts 0 0 s :=
  ⟨fun _ _ => ⟨rfl, rfl, rfl⟩⟩

/-- A check passed is no transaction. -/
theorem Ran.Counts.of_pass {n b k : Nat} {x : Ran α} (h : x.Counts n b (s.pass k)) :
    x.Counts n b s := by
  refine ⟨fun a ha => ?_⟩
  obtain ⟨hcfg, htxns, hbursts⟩ := h.counted a ha
  exact ⟨hcfg, htxns, hbursts⟩

theorem Ran.Counts.andThen {n b k c : Nat} {x : Ran α} {f : α → State → Ran β} (h : x.Counts n b s)
    (hf : ∀ a t, t.cfg = s.cfg → (f a t).Counts k c t) : (x.andThen f).Counts (n + k) (b + c) s := by
  refine ⟨fun v hv => ?_⟩
  obtain ⟨a, hx, hfa⟩ := Ran.andThen_reply_ok hv
  have hfirst := h.counted a hx
  have hthen := (hf a x.state hfirst.cfg).counted v hfa
  obtain ⟨reply, t⟩ := x
  obtain rfl : reply = .ok a := hx
  exact ⟨hthen.cfg.trans hfirst.cfg, by rw [Ran.andThen_ok, hthen.txns, hfirst.txns, Nat.add_assoc],
    by rw [Ran.andThen_ok, hthen.bursts, hfirst.bursts, Nat.add_assoc]⟩

theorem spi_state (burst : Bool) (site : Site) (out : List Byte) (n : Nat) (s : State) :
    (spi burst site out n s).state = (s.spiTxn burst out n).2 := by
  rcases h : s.spiTxn burst out n with ⟨_ | got, t⟩
  · simp [spi, h]
  · simp [spi, h]

/-- One transaction, failed or not (R67). -/
theorem spi_counts (burst : Bool) (site : Site) (out : List Byte) (n : Nat) (s : State) :
    (spi burst site out n s).Counts 1 burst.toNat s := by
  refine ⟨fun _ _ => ?_⟩
  rw [spi_state]
  cases burst with
  | false => exact ⟨rfl, rfl, rfl⟩
  | true => exact ⟨rfl, rfl, rfl⟩

theorem regWrite_counts (x : Reg) (v : Word) (s : State) : (regWrite x v s).Counts 1 0 s :=
  (spi_counts false ..).andThen fun _ t _ => Ran.counts_pure () t

theorem writeList_counts (ws : List RegWrite) (s : State) : (writeList ws s).Counts ws.length 0 s := by
  induction ws generalizing s with
  | nil => exact Ran.counts_pure () s
  | cons w ws ih =>
    rw [List.length_cons, Nat.add_comm]
    exact (regWrite_counts ..).andThen fun _ t _ => ih t

theorem rxTransfer_counts (m : Nat) (s : State) : (rxTransfer m s).Counts 1 1 s :=
  (spi_counts true ..).andThen fun _ t _ => Ran.counts_pure _ t

theorem txTransfer_counts (d : List Byte) (s : State) : (txTransfer d s).Counts 1 1 s :=
  (spi_counts true ..).andThen fun _ t _ => Ran.counts_pure () t

theorem rxBurst_counts (m : Nat) (s : State) :
    (rxBurst m s).Counts (s.cfg.rxPre.length + (1 + s.cfg.rxPost.length)) 1 s :=
  (writeList_counts ..).andThen fun _ t _ =>
    (rxTransfer_counts m t).andThen fun data _ _ =>
      (writeList_counts ..).andThen fun _ v _ => Ran.counts_pure data v

/-- The number of frame-length writes that stand at this place (log entry 22). -/
def frameLengthCount (cfg : Config) (place : FramelenPlace) : Nat :=
  if cfg.framelenPlace = place then cfg.txFramelenReg.toList.length else 0

theorem frameLengthWrites_length (cfg : Config) (place : FramelenPlace) (v : Word) :
    (frameLengthWrites cfg place v).length = frameLengthCount cfg place := by
  unfold frameLengthWrites frameLengthCount
  split <;> simp

/-- The frame-length register, if there is one, is written at one of the two places. -/
theorem frameLengthCount_add (cfg : Config) :
    frameLengthCount cfg .beforeBurst + frameLengthCount cfg .afterBurst
      = if cfg.txFramelenReg = none then 0 else 1 := by
  unfold frameLengthCount
  cases cfg.framelenPlace with
  | beforeBurst => cases cfg.txFramelenReg <;> rfl
  | afterBurst => cases cfg.txFramelenReg <;> rfl

theorem txBurstOpen_counts (d : List Byte) (s : State) : (txBurstOpen d s).Counts
    (s.cfg.txPre.length + (frameLengthCount s.cfg .beforeBurst + 1)) 1 s := by
  unfold txBurstOpen
  refine (writeList_counts ..).andThen (c := 1) fun _ t _ => ?_
  rw [← frameLengthWrites_length _ _ (txWrittenOf (alignUp d.length s.cfg.txAlign))]
  refine (writeList_counts ..).of_pass.andThen (c := 1) fun _ u _ => ?_
  have hburst := txTransfer_counts d u
  generalize txTransfer d u = x at hburst
  obtain ⟨reply, v⟩ := x
  cases reply with
  | ok a =>
    obtain ⟨hcfg, htxns, hbursts⟩ := hburst.counted a rfl
    exact ⟨fun _ _ => ⟨hcfg, htxns, hbursts⟩⟩
  | error e => exact ⟨fun _ => nofun⟩

theorem txBurstClose_counts (s : State) : (txBurstClose s).Counts
    (frameLengthCount s.cfg .afterBurst + s.cfg.txPost.length) 0 s := by
  rw [← frameLengthWrites_length _ _ s.txWritten, ← List.length_append]
  exact (writeList_counts (txClosing s.cfg s.txWritten) _).of_pass

theorem fifoWriteBody_counts (d : List Byte) (s : State) : (fifoWriteBody d s).Counts
    (s.cfg.txPre.length + 1 + (if s.cfg.txFramelenReg = none then 0 else 1) + s.cfg.txPost.length)
    1 s := by
  have h : (fifoWriteBody d s).Counts _ 1 s :=
    (txBurstOpen_counts d s).andThen fun _ u hcfg =>
      Ran.Counts.andThen (hcfg ▸ txBurstClose_counts u) fun _ v _ => Ran.counts_pure Result.ok v
  convert h using 1
  rw [← frameLengthCount_add]
  omega

/-- A request that returns a result that is neither an error nor a refusal ends where its body does. -/
theorem perform_returned_eq (hs : s.free) (h : (perform op checks body s).result = some r)
    (hraised : ∀ e, r ≠ .raised e) (hrefused : ∀ why, r ≠ .refused why) :
    perform op checks body s = (body (s.admitted op checks)).state.leave r := by
  have hreply := perform_returned hs h hraised hrefused
  rcases perform_cases op checks body s with
    ⟨ho, _⟩ | ⟨_, why, _, hp⟩ | ⟨_, _, hp⟩ | ⟨_, _, why, _, hp⟩ | ⟨_, _, _, hp⟩
  · simp [State.occupied_of_free hs] at ho
  · exact absurd (Option.some.inj (h.symm.trans (congrArg State.result hp))) (hrefused why)
  · exact absurd (Option.some.inj (h.symm.trans (congrArg State.result hp))) (hraised _)
  · exact absurd (Option.some.inj (h.symm.trans (congrArg State.result hp))) (hrefused why)
  · rw [hp, Ran.finish, hreply]

/-- The transactions of a request that returns such a result are its body's. -/
theorem perform_counted {n b : Nat} (hs : s.free) (hbody : ∀ t, t.cfg = s.cfg → (body t).Counts n b t)
    (h : (perform op checks body s).result = some r) (hraised : ∀ e, r ≠ .raised e)
    (hrefused : ∀ why, r ≠ .refused why) :
    (perform op checks body s).gSpiTxns = s.gSpiTxns + n ∧
      (perform op checks body s).gFifoBursts = s.gFifoBursts + b := by
  obtain ⟨-, htxns, hbursts⟩ :=
    (hbody (s.admitted op checks) rfl).counted r (perform_returned hs h hraised hrefused)
  rw [perform_returned_eq hs h hraised hrefused]
  exact ⟨htxns, hbursts⟩

/-- Settles O29: the lists of the configuration are counted part by part, between them the one burst. -/
theorem fifoTransferCount : Obligations.FifoTransferCount := by
  intro s t hs
  refine ⟨fun m data h hr => ?_, fun d h hr => ?_⟩
  · obtain rfl := Host.Outcome.next.inj h
    refine perform_counted hs (fun u hcfg => ?_) hr (fun _ => nofun) (fun _ => nofun)
    rw [← hcfg, Nat.add_assoc]
    exact (rxBurst_counts m.toNat u).andThen fun got v _ => Ran.counts_pure (Result.bytes got) v
  · rw [exec_fifoWrite_eq] at h
    obtain rfl := Host.Outcome.next.inj h
    exact perform_counted hs (fun u hcfg => hcfg ▸ fifoWriteBody_counts d u) hr (fun _ => nofun)
      (fun _ => nofun)

end Sys2Proof.Machine
end

section
/-!
PROOFS. 43_tx_path.md: TRANSMIT of an admitted frame from its space read to its enqueue write, and each of its
failures (R225 to R233).
-/

namespace Sys2Proof.Machine

variable {s : State} {op : Op} {checks : List (Bool × Reason)} {r : Result} {frame got : List Byte}
  {irq csum : Bool} {before after : List RegWrite} {w : RegWrite} {total : Word} {xs : List Txn}

/-! ## Write lists in a row (R135) -/

theorem writeList_append (a b : List RegWrite) (s : State) :
    writeList (a ++ b) s = (writeList a s).andThen fun _ t => writeList b t := by
  induction a generalizing s with
  | nil => rfl
  | cons w a ih =>
    rw [List.cons_append, writeList, writeList, Ran.andThen_assoc]
    congr 1
    funext _ t
    exact ih t

theorem writeList_singleton (w : RegWrite) (s : State) : writeList [w] s = regWrite w.reg w.value s := by
  rw [writeList]
  obtain ⟨reply, t⟩ := regWrite w.reg w.value s
  cases reply <;> rfl

/-- The writes after the burst and the enqueue write are one write list (R229). -/
theorem txBurstClose_enqueue (w : RegWrite) (s : State) :
    ((txBurstClose s).andThen fun _ t => regWrite w.reg w.value t)
      = writeList (txClosing s.cfg s.txWritten ++ [w])
          (s.pass (frameLengthTests s.cfg .afterBurst)) := by
  rw [writeList_append, txBurstClose_eq]
  simp only [writeList_singleton]

/-! ## The transfer of a frame, outcome by outcome (R228 to R233) -/

/-- The state after the transactions `xs`, a completed burst of TRANSMIT among them: its total is tracked, the
frame id has advanced (R231). -/
def State.sent (xs : List Txn) (total : Word) (s : State) : State :=
  ((s.afterTxns xs).tracked total).nextFid

theorem State.sent_append (s : State) (xs ys : List Txn) (total : Word) :
    s.sent (xs ++ ys) total = (s.sent xs total).afterTxns ys := by
  rw [sent, ← afterTxns_afterTxns]
  rfl

/-- What the burst of TRANSMIT carries (R228): the header with the frame id and the length, the frame. -/
def State.txData (s : State) (frame : List Byte) (irq csum : Bool) : List Byte :=
  txHeader s.cfg irq csum s.txFid (BitVec.ofNat 16 frame.length) ++ frame

theorem transmitFrame_eq (frame : List Byte) (irq csum : Bool) (s : State) :
    transmitFrame frame irq csum s = (txBurstOpen (s.txData frame irq csum) s).andThen fun _ t =>
      (writeList (txClosing t.nextFid.cfg t.nextFid.txWritten ++ [s.cfg.txEnqueue])
        (t.nextFid.pass (frameLengthTests t.nextFid.cfg .afterBurst))).andThen fun _ v => .pure .ok v := by
  simp only [← txBurstClose_enqueue s.cfg.txEnqueue (State.nextFid _), Ran.andThen_assoc]
  rfl

section TransmitFrame

variable (hb : s.spiBusy = false) (ho : s.burstOpen = false)
  (ht : total = txWrittenOf (alignUp (s.txData frame irq csum).length s.cfg.txAlign))

include hb ho ht

theorem transmitFrame_opening_fail (hw : txOpening s.cfg total = before ++ w :: after)
    (h : s.plays (Txn.ofFailedWrites s.cfg s.rxState before w)) :
    ∃ k, transmitFrame frame irq csum s = ⟨.error (.busError (.register w.reg.addr)),
      (s.pass k).afterTxns (Txn.ofFailedWrites s.cfg s.rxState before w)⟩ := by
  obtain ⟨k, hopen⟩ := txBurstOpen_write_fail hb ho ht hw h
  exact ⟨k, by rw [transmitFrame_eq, hopen, Ran.andThen_error, Txn.ofFailedWrites]⟩

theorem transmitFrame_burst_fail (h : s.plays (txOpenTxns s (s.txData frame irq csum) total none)) :
    ∃ k, transmitFrame frame irq csum s = ⟨.error (.busError .fifo),
      ((s.pass k).afterTxns (txOpenTxns s (s.txData frame irq csum) total none)).tracked 0⟩ := by
  obtain ⟨k, hopen⟩ := txBurstOpen_untracked hb ho ht h
  exact ⟨k, by rw [transmitFrame_eq, hopen, Ran.andThen_error]⟩

theorem transmitFrame_burst_ok
    (h : s.plays (txOpenTxns s (s.txData frame irq csum) total (some []))) :
    ∃ k, transmitFrame frame irq csum s = (writeList (txClosing s.cfg total ++ [s.cfg.txEnqueue])
      ((s.pass k).sent (txOpenTxns s (s.txData frame irq csum) total (some [])) total)).andThen
        fun _ v => .pure .ok v := by
  obtain ⟨k, hopen⟩ := txBurstOpen_tracked hb ho ht h
  refine ⟨k + frameLengthTests s.cfg .afterBurst, ?_⟩
  rw [transmitFrame_eq, hopen, Ran.andThen_ok, ← State.pass_pass,
    State.sent, ← State.pass_afterTxns (s.pass k)]
  rfl

theorem transmitFrame_ok (h : s.plays (txOpenTxns s (s.txData frame irq csum) total (some [])
      ++ Txn.ofWrites s.cfg s.rxState (txClosing s.cfg total ++ [s.cfg.txEnqueue]))) :
    ∃ k, transmitFrame frame irq csum s = ⟨.ok .ok, (s.pass k).sent
      (txOpenTxns s (s.txData frame irq csum) total (some [])
        ++ Txn.ofWrites s.cfg s.rxState (txClosing s.cfg total ++ [s.cfg.txEnqueue])) total⟩ := by
  obtain ⟨hopen, hclose⟩ := State.plays_append.1 h
  obtain ⟨k, hburst⟩ := transmitFrame_burst_ok hb ho ht hopen
  refine ⟨k, ?_⟩
  rw [hburst, writeList_ok (s := (s.pass k).sent _ _) _ hb ho hclose, Ran.andThen_ok,
    State.sent_append]
  rfl

theorem transmitFrame_closing_fail
    (hw : txClosing s.cfg total ++ [s.cfg.txEnqueue] = before ++ w :: after)
    (h : s.plays (txOpenTxns s (s.txData frame irq csum) total (some [])
      ++ Txn.ofFailedWrites s.cfg s.rxState before w)) :
    ∃ k, transmitFrame frame irq csum s = ⟨.error (.busError (.register w.reg.addr)),
      (s.pass k).sent (txOpenTxns s (s.txData frame irq csum) total (some [])
        ++ Txn.ofFailedWrites s.cfg s.rxState before w) total⟩ := by
  obtain ⟨hopen, hclose⟩ := State.plays_append.1 h
  obtain ⟨k, hburst⟩ := transmitFrame_burst_ok hb ho ht hopen
  refine ⟨k, ?_⟩
  rw [hburst, hw, writeList_fail (s := (s.pass k).sent _ _) before after w hb ho hclose,
    Ran.andThen_error, State.sent_append]
  rfl

end TransmitFrame

/-! ## TRANSMIT up to its space check (R225 to R227) -/

theorem flagChecks_supported {cfg : Config} (h : flagsSupported cfg irq csum) :
    firstRefusal (flagChecks cfg irq csum) = none := by
  obtain ⟨hirq, hcsum⟩ := h
  have hi : (irq && cfg.txcwIrqBit.isNone) = false := by simpa [Option.isSome_iff_ne_none] using hirq
  have hc : (csum && cfg.txcwCsumBit.isNone) = false := by simpa [Option.isSome_iff_ne_none] using hcsum
  simp [flagChecks, firstRefusal, hi, hc]

section SpaceCheck

variable (hb : s.spiBusy = false) (ho : s.burstOpen = false)
  (hmin : s.cfg.txMinFrame ≤ frame.length) (hmax : frame.length ≤ s.cfg.txMaxFrame)

include hb ho hmin hmax

theorem transmitBody_space_fail (h : s.answer 0 s.cfg.txSpaceReg.width.bytes = none) :
    transmitBody frame irq csum s = ⟨.error (.busError (.register s.cfg.txSpaceReg.addr)),
      (s.pass 2).afterTxns [Txn.ofRead s.cfg s.rxState s.cfg.txSpaceReg none]⟩ := by
  rw [transmitBody, if_neg (Nat.not_lt.2 hmin), if_neg (Nat.not_lt.2 hmax),
    regRead_fail (s := s.pass 2) hb ho h, Ran.andThen_error]
  rfl

/-- Space enough (R227): what follows is the transfer. -/
theorem transmitBody_space_ok (h : s.answer 0 s.cfg.txSpaceReg.width.bytes = some got)
    (hspace : txNeed s.cfg frame.length
      ≤ (readValue s.cfg.dataEndian s.cfg.txSpaceReg.width got &&& s.cfg.txSpaceMask).toNat) :
    transmitBody frame irq csum s = transmitFrame frame irq csum
      ((s.pass 3).afterTxns [Txn.ofRead s.cfg s.rxState s.cfg.txSpaceReg (some got)]) := by
  rw [transmitBody, if_neg (Nat.not_lt.2 hmin), if_neg (Nat.not_lt.2 hmax),
    regRead_ok (s := s.pass 2) hb ho h, Ran.andThen_ok]
  refine (if_neg (Nat.not_lt.2 hspace)).trans ?_
  rw [State.advance_eq_pass, State.pass_afterTxns, State.pass_pass]
  rfl

end SpaceCheck

/-- The bytes of the burst before padding (R102, R228). -/
theorem State.txData_length (hwf : s.cfg.wellFormed = true) :
    (s.txData frame irq csum).length = s.cfg.txHdrLen + frame.length := by
  obtain ⟨-, hhdr, -⟩ := (Config.wellFormed_iff s.cfg).1 hwf
  rw [txData, List.length_append, hhdr, txHeader_eq rfl]
  split <;> rfl

theorem txWrittenOf_eq {v : Word} {n : Nat} (h : v.toNat = n) : v = txWrittenOf n := by
  have hlt : n < 65536 := h ▸ v.isLt
  exact BitVec.eq_of_toNat_eq (h.trans (txWrittenOf_toNat hlt).symm)

/-- The end of an admitted TRANSMIT whose burst completed. -/
theorem State.leave_sent_admitted (hs : s.free) (k : Nat) (total : Word) :
    (((s.admitted op checks).pass k).sent xs total).leave r
      = { s.begun.afterTxns xs with
          txWritten := total, txFid := fidAfter s.cfg s.txFid, result := some r } :=
  congrArg (fun t : State => { t with txFid := fidAfter s.cfg s.txFid })
    (State.leave_tracked_admitted hs k total)

/-! ## TRANSMIT from its space read on -/

/-- The state TRANSMIT's transfer starts in: the request admitted, its length checked, the space read (R225). -/
def State.spaceRead (s : State) (irq csum : Bool) (got : List Byte) : State :=
  ((s.admitted .transmit (flagChecks s.cfg irq csum)).pass 3).afterTxns
    [Txn.ofRead s.cfg s.rxState s.cfg.txSpaceReg (some got)]

theorem State.spaceRead_pass_afterTxns (s : State) (k : Nat) (ys : List Txn) :
    ((s.spaceRead irq csum got).pass k).afterTxns ys
      = ((s.admitted .transmit (flagChecks s.cfg irq csum)).pass (3 + k)).afterTxns
          (Txn.ofRead s.cfg s.rxState s.cfg.txSpaceReg (some got) :: ys) :=
  State.afterTxns_pass_afterTxns ..

theorem State.spaceRead_pass_sent (s : State) (k : Nat) (ys : List Txn) (total : Word) :
    ((s.spaceRead irq csum got).pass k).sent ys total
      = ((s.admitted .transmit (flagChecks s.cfg irq csum)).pass (3 + k)).sent
          (Txn.ofRead s.cfg s.rxState s.cfg.txSpaceReg (some got) :: ys) total := by
  rw [sent, spaceRead_pass_afterTxns, sent]

section Transmit

variable (hs : s.free) (hphase : s.phase = .configured) (hflags : flagsSupported s.cfg irq csum)
  (hmin : s.cfg.txMinFrame ≤ frame.length) (hmax : frame.length ≤ s.cfg.txMaxFrame)

include hs hphase hflags

theorem exec_transmit_eq (frame : List Byte) : exec (.transmit frame irq csum) s = .next
    (transmitBody frame irq csum (s.admitted .transmit (flagChecks s.cfg irq csum))).finish :=
  have ha : admission .transmit s.phase = .admitted := congrArg admitFifo hphase
  congrArg Host.Outcome.next (perform_body hs ha (flagChecks_supported hflags) _)

include hmin hmax

theorem exec_transmit_space_fail
    (h : s.plays [Txn.ofRead s.cfg s.rxState s.cfg.txSpaceReg none]) :
    exec (.transmit frame irq csum) s
      = .next { s.begun.afterTxns [Txn.ofRead s.cfg s.rxState s.cfg.txSpaceReg none] with
          result := some (.raised (.busError (.register s.cfg.txSpaceReg.addr))) } := by
  obtain ⟨-, hb, ho⟩ := id hs
  have hfails := State.answer_none _ 0 _ s.cfg.txSpaceReg.width.bytes (State.plays_head h)
  rw [exec_transmit_eq hs hphase hflags,
    transmitBody_space_fail (s := s.admitted _ _) hb ho hmin hmax hfails]
  exact congrArg Host.Outcome.next (State.leave_passed_admitted hs 2)

/-- Space enough (R227): TRANSMIT ends as the transfer does, which sees the answers after the first. -/
theorem exec_transmit_space_ok (hl : got.length = s.cfg.txSpaceReg.width.bytes)
    (hspace : txNeed s.cfg frame.length
      ≤ (readValue s.cfg.dataEndian s.cfg.txSpaceReg.width got &&& s.cfg.txSpaceMask).toNat)
    (h : s.plays (Txn.ofRead s.cfg s.rxState s.cfg.txSpaceReg (some got) :: xs)) :
    exec (.transmit frame irq csum) s
        = .next (transmitFrame frame irq csum (s.spaceRead irq csum got)).finish ∧
      (s.spaceRead irq csum got).plays xs := by
  obtain ⟨-, hb, ho⟩ := id hs
  obtain ⟨hread, hrest⟩ := State.plays_cons.1 h
  refine ⟨?_, hrest _⟩
  rw [exec_transmit_eq hs hphase hflags,
    transmitBody_space_ok (s := s.admitted _ _) hb ho hmin hmax (hl ▸ hread) hspace]
  rfl

end Transmit

/-- Settles O37: the space read, then the transfer from the state it leaves. -/
theorem transmitSendsFrame : Obligations.TransmitSendsFrame := by
  rintro s frame got irq csum _ _ total _ before after w _ _ xs hwf hs hphase hflags hmin hmax hl rfl
    rfl hspace htotal rfl rfl rfl hplays
  obtain ⟨-, hb, ho⟩ := id hs
  have hsent {ys} := exec_transmit_space_ok (xs := ys) hs hphase hflags hmin hmax hl hspace
  have ht : total = txWrittenOf
      (alignUp ((s.spaceRead irq csum got).txData frame irq csum).length s.cfg.txAlign) :=
    txWrittenOf_eq (by rw [htotal, State.txData_length (s := s.spaceRead ..) hwf]; rfl)
  refine ⟨?_, ?_, ?_, ?_, ?_⟩
  · rintro rfl
    rw [List.append_cons] at hplays ⊢
    obtain ⟨hexec, hrest⟩ := hsent hplays
    obtain ⟨k, hframe⟩ := transmitFrame_ok (s := s.spaceRead ..) hb ho ht hrest
    rw [hexec, hframe, State.spaceRead_pass_sent]
    exact congrArg Host.Outcome.next (State.leave_sent_admitted hs _ total)
  · rintro rfl
    exact exec_transmit_space_fail hs hphase hflags hmin hmax hplays
  · rintro hw rfl
    obtain ⟨hexec, hrest⟩ := hsent hplays
    obtain ⟨k, hframe⟩ := transmitFrame_opening_fail (s := s.spaceRead ..) hb ho ht hw hrest
    rw [hexec, hframe, State.spaceRead_pass_afterTxns]
    exact congrArg Host.Outcome.next (State.leave_passed_admitted hs _)
  · rintro rfl
    obtain ⟨hexec, hrest⟩ := hsent hplays
    obtain ⟨k, hframe⟩ := transmitFrame_burst_fail (s := s.spaceRead ..) hb ho ht hrest
    rw [hexec, hframe, State.spaceRead_pass_afterTxns]
    exact congrArg Host.Outcome.next (State.leave_tracked_admitted hs _ 0)
  · rintro hw rfl
    rw [List.append_cons] at hplays ⊢
    obtain ⟨hexec, hrest⟩ := hsent hplays
    obtain ⟨k, hframe⟩ := transmitFrame_closing_fail (s := s.spaceRead ..) hb ho ht hw hrest
    rw [hexec, hframe, State.spaceRead_pass_sent]
    exact congrArg Host.Outcome.next (State.leave_sent_admitted hs _ total)

end Sys2Proof.Machine
end

section
/-!
PROOFS. 42_rx_path.md: the verdict on a header (R182); RECEIVE from its frame-count read over a row of
plausible frames (R195 to R204).
-/

namespace Sys2Proof.Machine

variable {s u : State} {got : List Byte} {fs : List SeenFrame} {n : Nat} {xs : List Txn}
  {out : List Descriptor} {err : Option Error}

/-! ## The verdict on a header (R182) -/

theorem anySet_eq_true_iff {v mask : Word} : anySet v mask = true ↔ v &&& mask ≠ 0 := by
  simp [anySet]

/-- Settles O31: the tests of `classify` in their order, one case for each verdict. -/
theorem classifyVerdicts : Obligations.ClassifyVerdicts := by
  intro cfg status count
  simp only [classify, Bool.not_eq_true', ← Bool.not_eq_true, anySet_eq_true_iff, ne_eq, not_not,
    BitVec.ofNat_eq_ofNat]
  split_ifs with hlong hinvalid hgood hshort
  · have hnot : count.toNat ≤ cfg.rxMaxFrame → ¬ count.toNat ≤ cfg.rxqSize := by omega
    simp +contextual [hlong, hnot]
  all_goals
    obtain ⟨hmax, hqueue⟩ : count.toNat ≤ cfg.rxMaxFrame ∧ count.toNat ≤ cfg.rxqSize := by omega
  · simp [hlong, hmax, hqueue, hinvalid]
  · simp [hlong, hmax, hqueue, hinvalid, hgood, hshort]
  · simp [hlong, hmax, hqueue, hinvalid, hgood, hshort, Nat.lt_of_not_le hshort, eq_comm]
  · simp [hlong, hmax, hqueue, hinvalid, hgood]

/-! ## The position inside an operation (R21) -/

/-- The state with the sequencer at another position: what an operation does besides does not depend on it. -/
def State.placedAt (p : Seq) (s : State) : State := { s with pc := p }

theorem State.leave_placedAt (p : Seq) (r : Result) (s : State) : (s.placedAt p).leave r = s.leave r := rfl

theorem State.leave_of_ready (h : s.pc = .ready) (r : Result) : s.leave r = { s with result := some r } := by
  rw [State.leave, ← h]

/-! ## The frame-count read (R195) -/

/-- The state in which RECEIVE's loop starts with `n` frames to process, the count register answering
`got`. -/
def State.rxStarted (got : List Byte) (n : Nat) (s : State) : State :=
  { s.afterTxns [Txn.ofRead s.cfg .idle s.cfg.rxCountReg (some got)] with
    rxLeft := BitVec.ofNat 8 n, rxDone := 0 }

/-- The number of frames a count register's answer has RECEIVE process: `min(fc, P_RX_MAX_PER_CALL)`. -/
def State.pendingFrames (got : List Byte) (s : State) : Nat :=
  min (readValue s.cfg.dataEndian s.cfg.rxCountReg.width got).toNat s.cfg.rxMaxPerCall

theorem rxLeftOf_eq (h : n < 256) : rxLeftOf n = BitVec.ofNat 8 n := if_pos h

theorem readValue_zeros (e : Endian) (w : Width) (h : ∀ b ∈ got, b = 0) : readValue e w got = 0 := by
  have hget : ∀ i : Nat, got[i]?.getD 0#8 = 0#8 := fun i => by
    cases hi : got[i]? with
    | none => rfl
    | some b => exact h b (List.mem_of_getElem? hi)
  cases w with
  | w8 => simp [readValue, hget]
  | w16 => cases e <;> simp [readValue, dec16, wordOf, hget]

section CountRead

variable (hb : s.spiBusy = false) (ho : s.burstOpen = false)

include hb ho

theorem receiveBody_count_fail (h : s.answer 0 s.cfg.rxCountReg.width.bytes = none) :
    receiveBody s = ⟨[], some (.busError (.register s.cfg.rxCountReg.addr)),
      (s.afterTxns [Txn.ofRead s.cfg s.rxState s.cfg.rxCountReg none]).rxCleanup⟩ := by
  rw [receiveBody, regRead_fail hb ho h]

theorem receiveBody_count_ok (hi : s.rxState = .idle)
    (h : s.answer 0 s.cfg.rxCountReg.width.bytes = some got)
    (hn : s.pendingFrames got = n) (hlt : n < 256) :
    receiveBody s = receiveLoop n [] (s.rxStarted got n) := by
  have hleft : rxLeftOf (min (readValue s.cfg.dataEndian s.cfg.rxCountReg.width got).toNat
      s.cfg.rxMaxPerCall) = BitVec.ofNat 8 n := (congrArg rxLeftOf hn).trans (rxLeftOf_eq hlt)
  have hcount : (BitVec.ofNat 8 n).toNat = n := Nat.mod_eq_of_lt hlt
  rw [receiveBody, regRead_ok hb ho h, hi]
  simp only [State.rxBegin, State.afterTxns_cfg, hleft, hcount]
  rfl

end CountRead

/-! ## RECEIVE as a request -/

theorem exec_receive_eq (hs : s.free) (hphase : s.phase = .configured) :
    exec .receive s = .next ((receiveBody (s.admitted .receive [])).state.leave
      (.frames (receiveBody (s.admitted .receive [])).out (receiveBody (s.admitted .receive [])).err)) :=
  have ha : admission .receive s.phase = .admitted := congrArg admitFifo hphase
  congrArg Host.Outcome.next (perform_body hs ha rfl _)

/-- The end of RECEIVE, wherever in its body (log entry 14). -/
theorem exec_receive_of_body (hs : s.free) (hphase : s.phase = .configured) {p : Seq}
    (h : receiveBody (s.admitted .receive []) = ⟨out, err, u.placedAt p⟩) (hu : u.pc = .ready) :
    exec .receive s = .next { u with result := some (.frames out err) } := by
  rw [exec_receive_eq hs hphase, h, State.leave_placedAt, State.leave_of_ready hu]

/-- Settles O32: a count of zero leaves the loop no pass. -/
theorem receiveWithoutFrame : Obligations.ReceiveWithoutFrame := by
  intro s got hq hphase hanswer hzero
  obtain ⟨hs, hidle⟩ := (State.quiet_iff s).1 hq
  obtain ⟨-, hb, ho⟩ := id hs
  have hn : (s.admitted .receive []).pendingFrames got = 0 := by
    rw [State.pendingFrames, readValue_zeros _ _ hzero]
    exact Nat.zero_min _
  have hbody := receiveBody_count_ok (s := s.admitted .receive []) hb ho hidle hanswer hn (by decide)
  obtain ⟨hready, -⟩ := State.free_afterTxns (State.free_begun hs)
    [Txn.ofRead s.cfg .idle s.cfg.rxCountReg (some got)]
  exact exec_receive_of_body (u := s.begun.rxStarted got 0) hs hphase hbody hready

/-! ## A row of plausible frames (R195 to R203) -/

/-- The state in which RECEIVE's loop has processed the frames `fs`, of `n` pending. -/
def State.rxProcessed (got : List Byte) (n : Nat) (fs : List SeenFrame) (s : State) : State :=
  State.afterFrames fs (s.rxStarted got n)

theorem State.free_rxProcessed (hs : s.free) (got : List Byte) (n : Nat) (fs : List SeenFrame) :
    (s.rxProcessed got n fs).free :=
  State.free_afterTxns (State.free_afterTxns hs _) _

/-- RECEIVE's body over plausible frames: the count read, a pass for each of them, the `n` passes left; and
the transactions answered after those. -/
theorem receiveBody_frames (hb : s.spiBusy = false) (ho : s.burstOpen = false) (hi : s.rxState = .idle)
    (hl : got.length = s.cfg.rxCountReg.width.bytes) (hn : s.pendingFrames got = fs.length + n)
    (hlt : fs.length + n < 256) (hf : ∀ f ∈ fs, f.plausible s.cfg)
    (h : s.plays (Txn.ofRead s.cfg .idle s.cfg.rxCountReg (some got)
      :: (SeenFrame.allTxns s.cfg fs ++ xs))) :
    (∃ p, receiveBody s = receiveLoop n (SeenFrame.descriptors s.cfg fs)
      ((s.rxProcessed got (fs.length + n) fs).placedAt p)) ∧
    (s.rxProcessed got (fs.length + n) fs).plays xs := by
  obtain ⟨hcount, hrest⟩ := State.plays_cons.1 h
  obtain ⟨hframes, hxs⟩ :=
    State.plays_append.1 (hrest (Txn.ofRead s.cfg .idle s.cfg.rxCountReg (some got)))
  refine ⟨?_, hxs⟩
  rw [receiveBody_count_ok hb ho hi (hl ▸ hcount) hn hlt]
  exact receiveLoop_plausible (s := s.rxStarted got (fs.length + n)) n fs [] hb ho hi hf hframes

/-- The body of RECEIVE where every pending frame is plausible (R200). -/
theorem receiveBody_plausible (hb : s.spiBusy = false) (ho : s.burstOpen = false)
    (hi : s.rxState = .idle) (hl : got.length = s.cfg.rxCountReg.width.bytes)
    (hn : s.pendingFrames got = fs.length) (hlt : fs.length < 256) (hf : ∀ f ∈ fs, f.plausible s.cfg)
    (h : s.plays (Txn.ofRead s.cfg .idle s.cfg.rxCountReg (some got)
      :: (SeenFrame.allTxns s.cfg fs ++ xs))) :
    (∃ p, receiveBody s = ⟨SeenFrame.descriptors s.cfg fs, none,
      (s.rxProcessed got fs.length fs).placedAt p⟩) ∧
    (s.rxProcessed got fs.length fs).plays xs := by
  obtain ⟨⟨p, hbody⟩, hxs⟩ := receiveBody_frames (n := 0) hb ho hi hl hn hlt hf h
  exact ⟨⟨p.next, hbody⟩, hxs⟩

/-- Settles O33: the body passes over the frames, and RECEIVE ends where its loop does. -/
theorem receiveProcessesFrames : Obligations.ReceiveProcessesFrames := by
  intro s got fs hq hphase hl hlt hn hf hplays
  obtain ⟨hs, hidle⟩ := (State.quiet_iff s).1 hq
  obtain ⟨-, hb, ho⟩ := id hs
  rw [← List.append_nil (SeenFrame.allTxns s.cfg fs)] at hplays
  obtain ⟨⟨p, hbody⟩, -⟩ :=
    receiveBody_plausible (s := s.admitted .receive []) hb ho hidle hl hn hlt hf hplays
  obtain ⟨hready, -⟩ := State.free_rxProcessed (State.free_begun hs) got fs.length fs
  exact exec_receive_of_body (u := s.begun.rxProcessed got fs.length fs) hs hphase hbody hready

end Sys2Proof.Machine
end

section
/-!
PROOFS. 42_rx_path.md, 92_eei_decisions.md D46: RECEIVE that ends with an error: an implausible count (R190),
a burst or a release that fails (R201), and what every BusError leaves.
-/

namespace Sys2Proof.Machine

variable {s t u : State} {got : List Byte} {fs : List SeenFrame} {f : SeenFrame} {n : Nat} {xs : List Txn}
  {out : List Descriptor} {err : Option Error} {before after : List RegWrite} {w : RegWrite}

/-! ## One frame, step by step (R196 to R199) -/

/-- The header of a frame was read and latched (R196). -/
def State.rxHeaderRead (f : SeenFrame) (s : State) : State :=
  State.rxLatch (f.statusWord s.cfg) (f.declared s.cfg) (s.rxAwaitHeader.afterTxns (f.headerTxns s.cfg))

/-- The transactions `xs` of a frame's burst were performed, after the test of its verdict (R197). -/
def State.rxBurstDone (xs : List Txn) (s : State) : State := s.advance.rxAwaitPayload.afterTxns xs

/-- The frame was delivered or dropped (R195, R198), the RX state showing which. -/
def State.rxSettled (f : SeenFrame) (s : State) : State :=
  { s with
    stage := ((f.descriptor? s.cfg).map fun d => Memory.cellsFrom 0 d.payload).getD s.stage
    rxDelivered := s.rxDelivered + (if (f.accepted s.cfg).isSome then 1 else 0)
    rxDropped := s.rxDropped + (if (f.accepted s.cfg).isSome then 0 else 1)
    rxState := if (f.accepted s.cfg).isSome then .delivered else .payloadPending }

/-- The state in which the release of a frame begins (R199). -/
def State.rxReleasing (f : SeenFrame) (s : State) : State :=
  ((s.rxHeaderRead f).rxBurstDone (f.burstTxns s.cfg)).rxConsume.advance.rxSettled f

theorem judgeFrame_desync (h : classify s.cfg s.rxStatus s.rxCount = .desync) :
    judgeFrame s = ⟨[], some (.fifoDesync (some (s.rxStatus, s.rxCount))), s.advance.rxDesync⟩ := by
  rw [judgeFrame, h]

theorem judgeFrame_seen (hstatus : s.rxStatus = f.statusWord s.cfg) (hcount : s.rxCount = f.declared s.cfg)
    (h : classify s.cfg (f.statusWord s.cfg) (f.declared s.cfg) ≠ .desync) :
    judgeFrame s = consumeFrame (f.accepted s.cfg) s.advance := by
  rw [judgeFrame, SeenFrame.accepted, hstatus, hcount]
  cases hverdict : classify s.cfg (f.statusWord s.cfg) (f.declared s.cfg) with
  | desync => exact absurd hverdict h
  | reject cause => rfl
  | accept len => rfl

theorem consumeFrame_of_error {accepted : Option Nat} {e : Error}
    (h : rxBurst (s.cfg.rxFifoHdr + s.rxCount.toNat) s.rxAwaitPayload = ⟨.error e, t⟩) :
    consumeFrame accepted s = ⟨[], some e, t.rxCleanup⟩ := by
  rw [consumeFrame, h]

theorem consumeFrame_of_data {accepted : Option Nat} {data : List Byte}
    (h : rxBurst (s.cfg.rxFifoHdr + s.rxCount.toNat) s.rxAwaitPayload = ⟨.ok data, t⟩) :
    consumeFrame accepted s = releaseFrame (settleFrame accepted data t.rxConsume.advance).1
      (settleFrame accepted data t.rxConsume.advance).2 := by
  rw [consumeFrame, h]

theorem settleFrame_eq (hstatus : s.rxStatus = f.statusWord s.cfg)
    (hcount : s.rxCount = f.declared s.cfg) (hrx : s.rxState = .payloadPending) :
    settleFrame (f.accepted s.cfg)
      ((f.data.drop s.cfg.rxLead).take (s.cfg.rxFifoHdr + (f.declared s.cfg).toNat)) s
      = ((f.descriptor? s.cfg).toList, s.rxSettled f) := by
  rw [State.rxSettled, SeenFrame.descriptor?]
  cases hacc : f.accepted s.cfg with
  | none => simp [settleFrame, State.rxDrop, ← hrx]
  | some p =>
    simp [settleFrame, SeenFrame.payload_eq hacc, State.rxDeliver, State.descriptor,
      Memory.readRange_cellsFrom, Memory.store, hstatus, hcount]

section OneFrame

variable (hb : s.spiBusy = false) (ho : s.burstOpen = false)

include hb ho

theorem releaseFrame_fail (hw : s.cfg.rxRelease = before ++ w :: after)
    (h : s.plays (Txn.ofFailedWrites s.cfg s.rxState before w)) :
    releaseFrame out s = ⟨out, some (.busError (.register w.reg.addr)),
      (s.afterTxns (Txn.ofFailedWrites s.cfg s.rxState before w)).rxCleanup⟩ := by
  rw [releaseFrame, hw, writeList_fail before after w hb ho h]
  rfl

variable (hh : f.headerShaped s.cfg)

include hh

theorem receiveFrame_desync
    (hlong : s.cfg.rxMaxFrame < (f.declared s.cfg).toNat ∨ s.cfg.rxqSize < (f.declared s.cfg).toNat)
    (h : s.plays (f.headerTxns s.cfg)) :
    receiveFrame s = ⟨[], some (.fifoDesync (some (f.statusWord s.cfg, f.declared s.cfg))),
      (s.rxHeaderRead f).advance.rxDesync⟩ :=
  (receiveFrame_header hb ho hh h).trans (judgeFrame_desync (s := s.rxHeaderRead f) (if_pos hlong))

variable (hc : classify s.cfg (f.statusWord s.cfg) (f.declared s.cfg) ≠ .desync)

include hc

theorem receiveFrame_consumes (h : s.plays (f.headerTxns s.cfg)) :
    receiveFrame s = consumeFrame (f.accepted s.cfg) (s.rxHeaderRead f).advance :=
  (receiveFrame_header hb ho hh h).trans (judgeFrame_seen (s := s.rxHeaderRead f) rfl rfl hc)

/-- The burst of a frame fails, of its transactions `xs` the last (R201). -/
theorem receiveFrame_burst_fail
    (hxs : xs = Txn.ofWrites s.cfg .payloadPending s.cfg.rxPre
      ++ [Txn.ofRxBurst s.cfg .payloadPending (s.cfg.rxFifoHdr + (f.declared s.cfg).toNat) none])
    (h : s.plays (f.headerTxns s.cfg ++ xs)) :
    receiveFrame s = ⟨[], some (.busError .fifo), ((s.rxHeaderRead f).rxBurstDone xs).rxCleanup⟩ := by
  subst hxs
  obtain ⟨hheader, hburst⟩ := State.plays_append.1 h
  rw [receiveFrame_consumes hb ho hh hc hheader]
  exact consumeFrame_of_error
    (rxBurst_burst_fail (s := (s.rxHeaderRead f).advance.rxAwaitPayload) hb ho hburst)

/-- The burst of a frame completes: it counts as consumed, is delivered or dropped, and its release begins
(R195, R198). -/
theorem receiveFrame_settles
    (hl : f.data.length = s.cfg.rxLead + alignUp (s.cfg.rxFifoHdr + (f.declared s.cfg).toNat) s.cfg.rxAlign)
    (h : s.plays (f.headerTxns s.cfg ++ f.burstTxns s.cfg)) :
    receiveFrame s = releaseFrame (f.descriptor? s.cfg).toList (s.rxReleasing f) := by
  obtain ⟨hheader, hburst⟩ := State.plays_append.1 h
  rw [receiveFrame_consumes hb ho hh hc hheader, consumeFrame_of_data
    (rxBurst_ok (s := (s.rxHeaderRead f).advance.rxAwaitPayload) hb ho hl hburst)]
  exact congrArg (fun x => releaseFrame x.1 x.2)
    (settleFrame_eq (s := ((s.rxHeaderRead f).rxBurstDone (f.burstTxns s.cfg)).rxConsume.advance) rfl rfl rfl)

/-- The release of a frame fails at the write `w` (R201). -/
theorem receiveFrame_release_fail {rx : RxState}
    (hl : f.data.length = s.cfg.rxLead + alignUp (s.cfg.rxFifoHdr + (f.declared s.cfg).toNat) s.cfg.rxAlign)
    (hrx : rx = if (f.accepted s.cfg).isSome then .delivered else .payloadPending)
    (hw : s.cfg.rxRelease = before ++ w :: after)
    (h : s.plays (f.headerTxns s.cfg ++ f.burstTxns s.cfg ++ Txn.ofFailedWrites s.cfg rx before w)) :
    receiveFrame s = ⟨(f.descriptor? s.cfg).toList, some (.busError (.register w.reg.addr)),
      ((s.rxReleasing f).afterTxns (Txn.ofFailedWrites s.cfg rx before w)).rxCleanup⟩ := by
  subst hrx
  obtain ⟨hburst, hrelease⟩ := State.plays_append.1 h
  rw [receiveFrame_settles hb ho hh hc hl hburst]
  refine releaseFrame_fail (s := s.rxReleasing f) hb ho hw ?_
  rw [← State.afterTxns_afterTxns] at hrelease
  exact hrelease

end OneFrame

/-! ## RECEIVE that a frame ends with an error -/

/-- The frame met in `a` ends its request with the error `e`, yielding `o`; the request ends in `u`. The pass
begins at whatever position of the operation (log entry 14). -/
def FrameEnds (a : State) (o : List Descriptor) (e : Error) (u : State) : Prop :=
  ∀ p, ∃ t, receiveFrame (a.placedAt p) = ⟨o, some e, t⟩ ∧
    ∀ r, t.leave r = { u with result := some r }

section FrameEnds

variable (hs : s.free) (hi : s.rxState = .idle) (hh : f.headerShaped s.cfg)

include hs hi hh

theorem frameEnds_desync
    (hlong : s.cfg.rxMaxFrame < (f.declared s.cfg).toNat ∨ s.cfg.rxqSize < (f.declared s.cfg).toNat)
    (h : s.plays (f.headerTxns s.cfg)) :
    FrameEnds s [] (.fifoDesync (some (f.statusWord s.cfg, f.declared s.cfg)))
      { s.afterTxns (f.headerTxns s.cfg) with
        phase := .desync, rxLeft := 0, rxStatus := f.statusWord s.cfg, rxCount := f.declared s.cfg } := by
  obtain ⟨hpc, hb, ho⟩ := hs
  refine fun p => ⟨_, receiveFrame_desync (s := s.placedAt p) hb ho hh hlong h, fun r => ?_⟩
  cases s
  cases hpc
  cases hi
  rfl

variable (hc : classify s.cfg (f.statusWord s.cfg) (f.declared s.cfg) ≠ .desync)

include hc

theorem frameEnds_burst_fail
    (hxs : xs = Txn.ofWrites s.cfg .payloadPending s.cfg.rxPre
      ++ [Txn.ofRxBurst s.cfg .payloadPending (s.cfg.rxFifoHdr + (f.declared s.cfg).toNat) none])
    (h : s.plays (f.headerTxns s.cfg ++ xs)) :
    FrameEnds s [] (.busError .fifo) { s.afterTxns (f.headerTxns s.cfg ++ xs) with
      rxStatus := f.statusWord s.cfg, rxCount := f.declared s.cfg, rxLeft := 0 } := by
  obtain ⟨hpc, hb, ho⟩ := hs
  refine fun p => ⟨_, receiveFrame_burst_fail (s := s.placedAt p) hb ho hh hc hxs h, fun r => ?_⟩
  rw [← State.afterTxns_afterTxns]
  cases s
  cases hpc
  cases hi
  rfl

theorem frameEnds_release_fail {rx : RxState}
    (hl : f.data.length = s.cfg.rxLead + alignUp (s.cfg.rxFifoHdr + (f.declared s.cfg).toNat) s.cfg.rxAlign)
    (hrx : rx = if (f.accepted s.cfg).isSome then .delivered else .payloadPending)
    (hw : s.cfg.rxRelease = before ++ w :: after)
    (h : s.plays (f.headerTxns s.cfg ++ f.burstTxns s.cfg ++ Txn.ofFailedWrites s.cfg rx before w)) :
    FrameEnds s (f.descriptor? s.cfg).toList (.busError (.register w.reg.addr))
      { s.afterTxns (f.headerTxns s.cfg ++ f.burstTxns s.cfg ++ Txn.ofFailedWrites s.cfg rx before w) with
        rxStatus := f.statusWord s.cfg, rxCount := f.declared s.cfg, rxLeft := 0,
        stage := ((f.descriptor? s.cfg).map fun d => Memory.cellsFrom 0 d.payload).getD s.stage,
        rxDelivered := s.rxDelivered + (if (f.accepted s.cfg).isSome then 1 else 0),
        rxDropped := s.rxDropped + (if (f.accepted s.cfg).isSome then 0 else 1),
        gRxConsumed := s.gRxConsumed + (f.declared s.cfg).toNat } := by
  obtain ⟨hpc, hb, ho⟩ := hs
  refine fun p => ⟨_, receiveFrame_release_fail (s := s.placedAt p) hb ho hh hc hl hrx hw h, fun r => ?_⟩
  rw [← State.afterTxns_afterTxns, ← State.afterTxns_afterTxns]
  cases s
  cases hpc
  cases hi
  rfl

end FrameEnds

theorem receiveLoop_error {o : List Descriptor} {e : Error}
    (h : receiveFrame s.advance = ⟨o, some e, t⟩) :
    receiveLoop (n + 1) out s = ⟨out ++ o, some e, t⟩ := by
  rw [receiveLoop, h]

/-- After plausible frames processed whole, the next frame ends RECEIVE with its error. -/
theorem exec_receive_frame_error {o : List Descriptor} {e : Error} (hq : s.quiet = true)
    (hphase : s.phase = .configured)
    (hl : got.length = s.cfg.rxCountReg.width.bytes) (hlt : n < 256) (hfs : fs.length < n)
    (hn : s.pendingFrames got = n) (hf : ∀ g ∈ fs, g.plausible s.cfg)
    (h : s.plays (Txn.ofRead s.cfg .idle s.cfg.rxCountReg (some got)
      :: (SeenFrame.allTxns s.cfg fs ++ xs)))
    (hframe : (s.begun.rxProcessed got n fs).free → (s.begun.rxProcessed got n fs).rxState = .idle →
      (s.begun.rxProcessed got n fs).plays xs → FrameEnds (s.begun.rxProcessed got n fs) o e u) :
    exec .receive s
      = .next { u with result := some (.frames (SeenFrame.descriptors s.cfg fs ++ o) (some e)) } := by
  obtain ⟨hs, hidle⟩ := (State.quiet_iff s).1 hq
  obtain ⟨-, hb, ho⟩ := id hs
  obtain ⟨m, rfl⟩ : ∃ m, n = fs.length + (m + 1) := ⟨n - fs.length - 1, by omega⟩
  obtain ⟨⟨p, hbody⟩, hxs⟩ :=
    receiveBody_frames (s := s.admitted .receive []) hb ho hidle hl hn hlt hf h
  have hfree := State.free_rxProcessed (State.free_begun hs) got (fs.length + (m + 1)) fs
  obtain ⟨t, ht, hleave⟩ := hframe hfree hidle hxs p.next
  have herror : receiveBody (s.admitted .receive []) = ⟨SeenFrame.descriptors s.cfg fs ++ o, some e, t⟩ :=
    hbody.trans (receiveLoop_error (s := State.placedAt p _) ht)
  rw [exec_receive_eq hs hphase, herror, hleave]

/-- Settles O34: the two header reads of the frame after the plausible ones are the last transactions. -/
theorem receiveDetectsDesync : Obligations.ReceiveDetectsDesync := by
  intro s got fs f n hq hphase hl hlt hfs hn hf hh hlong hplays
  have hexec := exec_receive_frame_error hq hphase hl hlt hfs hn hf hplays
    fun hfree hidle h => frameEnds_desync hfree hidle hh hlong h
  rw [List.append_nil] at hexec
  exact hexec

/-! ## What every BusError of RECEIVE leaves (R201) -/

/-- As many frames are yielded as are counted delivered (R198). -/
def Received.Delivers (s : State) (r : Received) : Prop :=
  r.state.rxDelivered = s.rxDelivered + BitVec.ofNat 32 r.out.length

/-- No transfer counts a frame delivered. -/
def Ran.SparesDelivered {α : Type} (s : State) (x : Ran α) : Prop := x.state.rxDelivered = s.rxDelivered

section SparesDelivered

variable {α β : Type} {x : Ran α} {g : α → State → Ran β}

theorem Ran.SparesDelivered.andThen (h : x.SparesDelivered s) (hg : ∀ a t, (g a t).SparesDelivered t) :
    (x.andThen g).SparesDelivered s := by
  obtain ⟨reply, t⟩ := x
  cases reply with
  | error e => exact h
  | ok a => exact (hg a t).trans h

theorem spi_sparesDelivered (burst : Bool) (site : Site) (out : List Byte) (n : Nat) (s : State) :
    (spi burst site out n s).SparesDelivered s :=
  (congrArg State.rxDelivered (spi_state burst site out n s)).trans rfl

theorem regRead_sparesDelivered (r : Reg) (s : State) : (regRead r s).SparesDelivered s :=
  (spi_sparesDelivered ..).andThen fun _ _ => rfl

theorem writeList_sparesDelivered (ws : List RegWrite) (s : State) : (writeList ws s).SparesDelivered s := by
  induction ws generalizing s with
  | nil => rfl
  | cons w ws ih =>
    exact Ran.SparesDelivered.andThen ((spi_sparesDelivered ..).andThen fun _ _ => rfl) fun _ t => ih t

theorem rxBurst_sparesDelivered (m : Nat) (s : State) : (rxBurst m s).SparesDelivered s :=
  (writeList_sparesDelivered ..).andThen fun _ _ =>
    Ran.SparesDelivered.andThen ((spi_sparesDelivered ..).andThen fun _ _ => rfl) fun _ u =>
      (writeList_sparesDelivered _ u).andThen fun _ _ => rfl

end SparesDelivered

theorem Received.Delivers.of_eq (h : u.rxDelivered = s.rxDelivered) : Received.Delivers s ⟨[], err, u⟩ :=
  h.trans (BitVec.add_zero _).symm

theorem releaseFrame_rxDelivered (out : List Descriptor) (s : State) :
    (releaseFrame out s).out = out ∧ (releaseFrame out s).state.rxDelivered = s.rxDelivered := by
  have hwrites := writeList_sparesDelivered s.cfg.rxRelease s
  rw [releaseFrame]
  generalize writeList s.cfg.rxRelease s = x at hwrites
  obtain ⟨reply, t⟩ := x
  cases reply with
  | error e => exact ⟨rfl, hwrites⟩
  | ok _ => exact ⟨rfl, hwrites⟩

theorem settleFrame_rxDelivered (accepted : Option Nat) (data : List Byte) (s : State) :
    (settleFrame accepted data s).2.rxDelivered
      = s.rxDelivered + BitVec.ofNat 32 (settleFrame accepted data s).1.length := by
  cases accepted with
  | none => exact (BitVec.add_zero _).symm
  | some p => rfl

theorem consumeFrame_delivers (accepted : Option Nat) (s : State) :
    (consumeFrame accepted s).Delivers s := by
  have hburst : (rxBurst (s.cfg.rxFifoHdr + s.rxCount.toNat) s.rxAwaitPayload).SparesDelivered s :=
    rxBurst_sparesDelivered _ s.rxAwaitPayload
  rw [consumeFrame]
  generalize rxBurst (s.cfg.rxFifoHdr + s.rxCount.toNat) s.rxAwaitPayload = x at hburst
  obtain ⟨reply, t⟩ := x
  cases reply with
  | error e => exact .of_eq hburst
  | ok data =>
    obtain ⟨hout, hrelease⟩ := releaseFrame_rxDelivered (settleFrame accepted data t.rxConsume.advance).1
      (settleFrame accepted data t.rxConsume.advance).2
    have hsettle := settleFrame_rxDelivered accepted data t.rxConsume.advance
    rw [Received.Delivers, hrelease, hout, hsettle]
    exact congrArg (· + _) hburst

theorem judgeFrame_delivers (s : State) : (judgeFrame s).Delivers s := by
  rw [judgeFrame]
  split
  · exact .of_eq rfl
  · exact consumeFrame_delivers _ s.advance
  · exact consumeFrame_delivers _ s.advance

theorem receiveFrame_delivers (s : State) : (receiveFrame s).Delivers s := by
  have hheader : ((regRead s.cfg.rxHdrStatusReg s.rxAwaitHeader).andThen fun st t =>
      (regRead s.cfg.rxHdrCountReg t).andThen fun bc u =>
        Ran.pure () (u.rxLatch st (bc &&& s.cfg.rxBcMask))).SparesDelivered s :=
    Ran.SparesDelivered.andThen (regRead_sparesDelivered _ s.rxAwaitHeader) fun _ _ =>
      (regRead_sparesDelivered ..).andThen fun _ _ => rfl
  rw [receiveFrame]
  generalize Ran.andThen _ _ = x at hheader
  obtain ⟨reply, t⟩ := x
  cases reply with
  | error e => exact .of_eq hheader
  | ok _ => exact (judgeFrame_delivers t).trans (congrArg (· + _) hheader)

/-- The frames the loop adds to those of earlier passes. -/
theorem receiveLoop_delivers (n : Nat) (out : List Descriptor) (s : State) :
    ∃ more, (receiveLoop n out s).out = out ++ more ∧
      (receiveLoop n out s).state.rxDelivered = s.rxDelivered + BitVec.ofNat 32 more.length := by
  induction n generalizing out s with
  | zero => exact ⟨[], (List.append_nil out).symm, (BitVec.add_zero _).symm⟩
  | succ n ih =>
    have hone : (receiveFrame s.advance).Delivers s := receiveFrame_delivers s.advance
    rw [receiveLoop]
    generalize receiveFrame s.advance = one at hone
    obtain ⟨o, err, t⟩ := one
    replace hone : t.rxDelivered = s.rxDelivered + BitVec.ofNat 32 o.length := hone
    cases err with
    | some e => exact ⟨o, rfl, hone⟩
    | none =>
      obtain ⟨more, hout, hrest⟩ := ih (out ++ o) t
      refine ⟨o ++ more, hout.trans (List.append_assoc ..), hrest.trans ?_⟩
      rw [hone, List.length_append, BitVec.ofNat_add, BitVec.add_assoc]

theorem receiveBody_delivers (s : State) : (receiveBody s).Delivers s := by
  have hcount := regRead_sparesDelivered s.cfg.rxCountReg s
  rw [receiveBody]
  generalize regRead s.cfg.rxCountReg s = x at hcount
  obtain ⟨reply, t⟩ := x
  cases reply with
  | error e => exact .of_eq hcount
  | ok fc =>
    obtain ⟨more, hout, hloop⟩ := receiveLoop_delivers (t.rxBegin fc).rxLeft.toNat [] (t.rxBegin fc)
    rw [List.nil_append] at hout
    subst hout
    exact hloop.trans (congrArg (· + _) hcount)

theorem SeenFrame.descriptors_snoc (cfg : Config) (fs : List SeenFrame) (f : SeenFrame) :
    SeenFrame.descriptors cfg (fs ++ [f]) = SeenFrame.descriptors cfg fs ++ (f.descriptor? cfg).toList := by
  rw [SeenFrame.descriptors, List.filterMap_append]
  exact congrArg _ ((SeenFrame.descriptors_cons cfg f []).trans (List.append_nil _))

/-- A RECEIVE that returns frames ran its body, which yielded them. -/
theorem exec_receive_returned (hs : s.free) (h : exec .receive s = .next t)
    (hr : t.result = some (.frames out err)) :
    ∃ v, receiveBody (s.admitted .receive []) = ⟨out, err, v⟩ ∧ t = v.leave (.frames out err) := by
  obtain rfl := Host.Outcome.next.inj h
  have hreply := perform_returned hs hr (fun _ => nofun) fun _ => nofun
  obtain ⟨rfl, rfl⟩ := Result.frames.inj (Except.ok.inj hreply)
  exact ⟨_, rfl, perform_returned_eq hs hr (fun _ => nofun) fun _ => nofun⟩

/-- Settles O35: what every error leaves, by the laws of RECEIVE's body; the two frames that fail, by their
last transactions. -/
theorem receiveCleansUpAfterBusError : Obligations.ReceiveCleansUpAfterBusError := by
  refine ⟨fun s t out site hs h hr => ?_, ?_⟩
  · obtain ⟨v, hbody, rfl⟩ := exec_receive_returned hs h hr
    obtain ⟨-, hb, ho⟩ := id hs
    have hdelivers := receiveBody_delivers (s.admitted .receive [])
    obtain ⟨xs, hp, -, -, hlast⟩ :=
      receiveBody_did (s := s.admitted .receive []) (P := fun _ => True) hb ho (Sends.trivial _)
    have herr := (receiveBody_leaves (s.admitted .receive [])).err (.busError site)
    rw [hbody] at hdelivers hp hlast herr
    obtain ⟨hidle, hleft, ⟨-, hphase⟩ | ⟨_, hdesync⟩⟩ := herr rfl
    · obtain ⟨x, hx, hfailed⟩ := hlast site rfl
      refine ⟨hidle, hleft, hphase, hdelivers, x, ?_, hfailed⟩
      exact (congrArg List.getLast? hp.bus).trans (by rw [List.getLast?_append, hx]; rfl)
    · cases hdesync
  · rintro s _ got fs f n _ xs hq hphase hl hlt hfs hn hf ⟨hh, hdata, hc⟩ rfl hplays rfl
    refine ⟨fun hxs => ?_, fun before after w rx hw hrx hxs => ?_⟩
    · rw [List.append_assoc] at hxs
      subst hxs
      have hexec := exec_receive_frame_error hq hphase hl hlt hfs hn hf hplays
        fun hfree hidle h => frameEnds_burst_fail hfree hidle hh hc rfl h
      rw [List.append_nil] at hexec
      exact hexec
    · rw [List.append_assoc] at hxs
      subst hxs
      rw [SeenFrame.descriptors_snoc]
      exact exec_receive_frame_error hq hphase hl hlt hfs hn hf hplays
        fun hfree hidle h => frameEnds_release_fail hfree hidle hh hc hdata hrx hw h

end Sys2Proof.Machine
end

section
/-!
PROOFS. 44_lifecycle.md: SERVICE_INTERRUPTS whose snapshot has the RX bit: the bookkeeping, the RX path, the
acknowledge (R270 to R274), and the RX path that ends with an error (R275).
-/

namespace Sys2Proof.Machine

variable {s t u : State} {got : List Byte} {fs : List SeenFrame} {n : Nat} {v : Word}
  {out : List Descriptor} {e : Error}

/-! ## The dispatches (R270, R273) -/

theorem State.dispatchLink_eq (s : State) : s.dispatchLink = { s with
    linkEvents := s.linkEvents + (if s.snap &&& s.cfg.isrLink ≠ 0 then 1 else 0)
    handled := s.handled ||| (if s.snap &&& s.cfg.isrLink ≠ 0 then s.cfg.isrLink else 0) } := by
  by_cases h : s.snap &&& s.cfg.isrLink = 0#16
  · simp [State.dispatchLink, anySet, h]
  · simp [State.dispatchLink, anySet, h]

theorem State.dispatchTx_eq (s : State) : s.dispatchTx = { s with
    txDoneEvents := s.txDoneEvents + (if s.snap &&& s.cfg.isrTx ≠ 0 then 1 else 0)
    handled := s.handled ||| (if s.snap &&& s.cfg.isrTx ≠ 0 then s.cfg.isrTx else 0) } := by
  by_cases h : s.snap &&& s.cfg.isrTx = 0#16
  · simp [State.dispatchTx, anySet, h]
  · simp [State.dispatchTx, anySet, h]

theorem State.dispatchOverrun_eq (s : State) : s.dispatchOverrun = { s with
    rxovrEvents := s.rxovrEvents + (if s.snap &&& s.cfg.isrRxovr ≠ 0 then 1 else 0)
    handled := s.handled ||| (if s.snap &&& s.cfg.isrRxovr ≠ 0 then s.cfg.isrRxovr else 0) } := by
  by_cases h : s.snap &&& s.cfg.isrRxovr = 0#16
  · simp [State.dispatchOverrun, anySet, h]
  · simp [State.dispatchOverrun, anySet, h]

/-- The three dispatches before the RX path, each after its test, and the test of the RX bit. -/
theorem dispatch_eq_bookkept (v : Word) (u : State) :
    (u.snapshot v).advance.dispatchLink.advance.dispatchTx.advance.dispatchOverrun.advance
      = (bookkept v u).pass 4 := by
  simp [State.dispatchLink_eq, State.dispatchTx_eq, State.dispatchOverrun_eq, State.advance_eq_pass,
    State.pass, State.snapshot, Seq.skip_skip, bookkept, bookkeepingBits]

theorem dispatchAll_rx_error (hv : v &&& u.cfg.isrRx ≠ 0)
    (h : receiveBody ((bookkept v u).pass 4) = ⟨out, some e, t⟩) :
    dispatchAll (u.snapshot v) = ⟨.ok (.service t.snap t.handled out (some e)), t.advance⟩ := by
  rw [dispatchAll, dispatch_eq_bookkept]
  refine (if_pos (anySet_eq_true_iff.2 hv)).trans ?_
  rw [h]
  rfl

theorem dispatchAll_rx_ok (hv : v &&& u.cfg.isrRx ≠ 0)
    (h : receiveBody ((bookkept v u).pass 4) = ⟨out, none, t⟩) :
    dispatchAll (u.snapshot v) = acknowledge out t.advance.handledRx := by
  rw [dispatchAll, dispatch_eq_bookkept]
  refine (if_pos (anySet_eq_true_iff.2 hv)).trans ?_
  rw [h]

/-! ## The acknowledge (R274) -/

section Acknowledge

variable (hb : s.spiBusy = false) (ho : s.burstOpen = false)

include hb ho

theorem acknowledge_ok (h : s.plays (ackTxns s.cfg s.rxState s.handled)) :
    acknowledge out s = ⟨.ok (.service s.snap s.handled out none),
      s.advance.afterTxns (ackTxns s.cfg s.rxState s.handled)⟩ := by
  by_cases hack : s.handled ≠ 0 ∧ s.cfg.isrClear = .w1c
  · have hwrite : (s.handled != 0 && s.cfg.isrClear == .w1c) = true := by simpa using hack
    rw [ackTxns, if_pos hack] at h ⊢
    rw [acknowledge, if_pos hwrite, writeList_ok (s := s.advance) [⟨s.cfg.isrReg, s.handled⟩] hb ho h]
    rfl
  · have hwrite : ¬ (s.handled != 0 && s.cfg.isrClear == .w1c) = true := by simpa using hack
    rw [ackTxns, if_neg hack, acknowledge, if_neg hwrite, State.afterTxns_nil]
    rfl

theorem acknowledge_fail (hhandled : s.handled ≠ 0) (hw1c : s.cfg.isrClear = .w1c)
    (h : s.plays [Txn.ofWrite s.cfg s.rxState none ⟨s.cfg.isrReg, s.handled⟩]) : acknowledge out s
    = ⟨.error (.busError (.register s.cfg.isrReg.addr)),
        s.advance.afterTxns [Txn.ofWrite s.cfg s.rxState none ⟨s.cfg.isrReg, s.handled⟩]⟩ := by
  have hwrite : (s.handled != 0 && s.cfg.isrClear == .w1c) = true := by simpa using ⟨hhandled, hw1c⟩
  rw [acknowledge, if_pos hwrite]
  exact congrArg (Ran.andThen · _) (writeList_fail (s := s.advance) [] [] _ hb ho h)

end Acknowledge

/-! ## SERVICE_INTERRUPTS from its status read on -/

/-- The state SERVICE_INTERRUPTS's dispatches start in, its status read having received `got`. -/
def State.statusRead (got : List Byte) (s : State) : State :=
  (s.admitted .serviceInterrupts []).afterTxns [Txn.ofRead s.cfg s.rxState s.cfg.isrReg (some got)]

/-- The state its RX path starts in, the snapshot `v` taken and the bookkeeping done. -/
def State.rxDispatch (got : List Byte) (v : Word) (s : State) : State :=
  (bookkept v (s.statusRead got)).pass 4

theorem exec_service_read_ok (hs : s.free) (hphase : s.phase = .configured)
    (hv : v = readValue s.cfg.dataEndian s.cfg.isrReg.width got)
    (h : s.answer 0 s.cfg.isrReg.width.bytes = some got) :
    exec .serviceInterrupts s = .next (dispatchAll ((s.statusRead got).snapshot v)).finish := by
  obtain ⟨-, hb, ho⟩ := id hs
  have ha : admission .serviceInterrupts s.phase = .admitted := congrArg admitFifo hphase
  refine congrArg Host.Outcome.next ((perform_body hs ha rfl _).trans ?_)
  have hread := regRead_ok (s := s.admitted .serviceInterrupts []) (r := s.cfg.isrReg) hb ho h
  refine (congrArg (fun x => (x.andThen fun v u => dispatchAll (u.snapshot v)).finish) hread).trans ?_
  rw [Ran.andThen_ok, hv]
  rfl

section Finish

variable (hs : s.free)

include hs

/-- The end of a SERVICE_INTERRUPTS whose acknowledge, if any, completes (log entry 14 for the position). -/
theorem finish_acknowledge_ok (h : s.plays (ackTxns s.cfg s.rxState s.handled)) (p : Seq) :
    (acknowledge out (s.placedAt p)).finish = { s.afterTxns (ackTxns s.cfg s.rxState s.handled) with
      result := some (.service s.snap s.handled out none) } := by
  obtain ⟨hpc, hb, ho⟩ := hs
  rw [acknowledge_ok (s := s.placedAt p) hb ho h]
  cases s
  cases hpc
  rfl

theorem finish_acknowledge_fail (hhandled : s.handled ≠ 0) (hw1c : s.cfg.isrClear = .w1c)
    (h : s.plays [Txn.ofWrite s.cfg s.rxState none ⟨s.cfg.isrReg, s.handled⟩]) (p : Seq) :
    (acknowledge out (s.placedAt p)).finish
      = { s.afterTxns [Txn.ofWrite s.cfg s.rxState none ⟨s.cfg.isrReg, s.handled⟩] with
          result := some (.raised (.busError (.register s.cfg.isrReg.addr))) } := by
  obtain ⟨hpc, hb, ho⟩ := hs
  rw [acknowledge_fail (s := s.placedAt p) hb ho hhandled hw1c h]
  cases s
  cases hpc
  rfl

end Finish

/-- The state of SERVICE_INTERRUPTS in which its RX path has processed the frames `fs` (R270). -/
def State.serviced (v : Word) (read : Txn) (fc : List Byte) (fs : List SeenFrame) (s : State) : State :=
  ((bookkept v (s.begun.afterTxns [read])).rxProcessed fc fs.length fs).handledRx

section Serviced

variable (v : Word) (read : Txn) (fc : List Byte) (fs : List SeenFrame) (s : State)

theorem State.serviced_cfg : (s.serviced v read fc fs).cfg = s.cfg := rfl

theorem State.serviced_rxState : (s.serviced v read fc fs).rxState = s.rxState := rfl

theorem State.serviced_snap : (s.serviced v read fc fs).snap = v := rfl

theorem State.serviced_handled :
    (s.serviced v read fc fs).handled = bookkeepingBits s.cfg v ||| s.cfg.isrRx := rfl

end Serviced

theorem State.rxStarted_bookkept (v : Word) (x : Txn) (fc : List Byte) (n : Nat) (s : State) :
    (bookkept v (s.afterTxns [x])).rxStarted fc n
      = { bookkept v (s.afterTxns [x, Txn.ofRead s.cfg .idle s.cfg.rxCountReg (some fc)]) with
          rxLeft := BitVec.ofNat 8 n, rxDone := 0 } :=
  congrArg (fun t => { bookkept v t with rxLeft := BitVec.ofNat 8 n, rxDone := 0 })
    (State.afterTxns_afterTxns s [x] [_])

/-- SERVICE_INTERRUPTS up to its acknowledge, where the RX path meets plausible frames only; and the
transactions answered from there. -/
theorem exec_service_frames {fc : List Byte} {read : Txn} {ys : List Txn} (hq : s.quiet = true)
    (hphase : s.phase = .configured) (hl : got.length = s.cfg.isrReg.width.bytes)
    (hv : v = readValue s.cfg.dataEndian s.cfg.isrReg.width got) (hrx : v &&& s.cfg.isrRx ≠ 0)
    (hfc : fc.length = s.cfg.rxCountReg.width.bytes) (hlt : fs.length < 256)
    (hn : s.pendingFrames fc = fs.length) (hf : ∀ f ∈ fs, f.plausible s.cfg)
    (hread : read = Txn.ofRead s.cfg .idle s.cfg.isrReg (some got))
    (h : s.plays (read :: Txn.ofRead s.cfg .idle s.cfg.rxCountReg (some fc)
      :: (SeenFrame.allTxns s.cfg fs ++ ys))) :
    (∃ p, exec .serviceInterrupts s = .next (acknowledge (SeenFrame.descriptors s.cfg fs)
      ((s.serviced v read fc fs).placedAt p)).finish) ∧
    (s.serviced v read fc fs).free ∧ (s.serviced v read fc fs).plays ys := by
  subst hread
  obtain ⟨hs, hidle⟩ := (State.quiet_iff s).1 hq
  obtain ⟨-, hb, ho⟩ := id hs
  obtain ⟨hanswer, hrest⟩ := State.plays_cons.1 h
  obtain ⟨⟨p, hbody⟩, hys⟩ := receiveBody_plausible (s := s.rxDispatch got v) hb ho hidle hfc hn hlt
    hf (hrest (Txn.ofRead s.cfg .idle s.cfg.isrReg (some got)))
  refine ⟨⟨p.next, ?_⟩, ?_, hys⟩
  · rw [exec_service_read_ok hs hphase hv (hl ▸ hanswer),
      dispatchAll_rx_ok (u := s.statusRead got) hrx hbody, State.rxDispatch,
      State.statusRead, hidle]
    rfl
  · exact State.free_rxProcessed (s := bookkept v (s.begun.afterTxns _))
      (State.free_afterTxns (s := s.begun) hs _) ..

/-- Settles O51: the acknowledge from the state the RX path leaves, where it completes and where it fails. -/
theorem serviceWithRx : Obligations.ServiceWithRx := by
  rintro s done got fc fs v handled xs hq hphase hl hv hrx rfl hfc hlt hn hf rfl hdone
  have hidle := ((State.quiet_iff s).1 hq).2
  obtain rfl : done = s.serviced v (Txn.ofRead s.cfg .idle s.cfg.isrReg (some got)) fc fs :=
    hdone.trans (by rw [State.serviced, State.rxProcessed, State.rxStarted_bookkept]; rfl)
  refine ⟨fun h => ?_, ?_⟩
  · rw [List.append_assoc] at h
    obtain ⟨⟨p, hexec⟩, hfree, hack⟩ := exec_service_frames hq hphase hl hv hrx hfc hlt hn hf rfl h
    rw [hexec, finish_acknowledge_ok hfree]
    · rw [State.serviced_cfg, State.serviced_rxState, State.serviced_handled, State.serviced_snap, hidle]
    · rwa [State.serviced_cfg, State.serviced_rxState, State.serviced_handled, hidle]
  · rintro _ rfl hhandled hw1c h
    rw [List.append_assoc] at h
    obtain ⟨⟨p, hexec⟩, hfree, hack⟩ := exec_service_frames hq hphase hl hv hrx hfc hlt hn hf rfl h
    rw [hexec, finish_acknowledge_fail hfree hhandled hw1c]
    · rw [State.serviced_cfg, State.serviced_rxState, State.serviced_handled, hidle]
    · rwa [State.serviced_cfg, State.serviced_rxState, State.serviced_handled, hidle]

/-! ## The RX path that ends with an error (R275) -/

/-- SERVICE_INTERRUPTS ends where its RX path does, with the bits handled before it. -/
theorem exec_service_rx_error (hs : s.free) (hphase : s.phase = .configured)
    (hv : v = readValue s.cfg.dataEndian s.cfg.isrReg.width got) (hrx : v &&& s.cfg.isrRx ≠ 0)
    (hanswer : s.answer 0 s.cfg.isrReg.width.bytes = some got)
    (h : receiveBody (s.rxDispatch got v) = ⟨out, some e, t⟩) : exec .serviceInterrupts s
      = .next (t.leave (.service v (bookkeepingBits s.cfg v) out (some e))) := by
  have hleaves := receiveBody_leaves (s.rxDispatch got v)
  have hsnap : t.snap = v := (congrArg (·.state.snap) h).symm.trans hleaves.snap
  have hhandled : t.handled = bookkeepingBits s.cfg v :=
    (congrArg (·.state.handled) h).symm.trans hleaves.handled
  rw [exec_service_read_ok hs hphase hv hanswer, dispatchAll_rx_error (u := s.statusRead got) hrx h, hsnap,
    hhandled]
  rfl

/-- The end of a SERVICE_INTERRUPTS whose RX path failed at its first transaction, `x`. -/
theorem State.leave_rxDispatch_cleanup (hpc : s.pc = .ready) (hidle : s.rxState = .idle) (x : Txn)
    (r : Result) : ((s.rxDispatch got v).afterTxns [x]).rxCleanup.leave r
      = { bookkept v (s.begun.afterTxns ([Txn.ofRead s.cfg .idle s.cfg.isrReg (some got)] ++ [x])) with
          rxLeft := 0, result := some r } := by
  rw [← State.afterTxns_afterTxns]
  cases s
  cases hpc
  cases hidle
  rfl

/-- The state after the status read of a SERVICE_INTERRUPTS and its bookkeeping, as RECEIVE would take it, no
other request arriving. -/
def receivesFrom (v : Word) (read : Txn) (s : State) : State :=
  { bookkept v (s.afterTxns [read]) with rivals := [] }

/-- RECEIVE run on its own and SERVICE_INTERRUPTS's RX path see the same state but for the position, the other
call site's requests and the fault record (log entries 8 and 14). -/
theorem rxDispatch_eq_veil (hidle : s.rxState = .idle) : s.rxDispatch got v
    = ((receivesFrom v (Txn.ofRead s.cfg .idle s.cfg.isrReg (some got)) s).admitted .receive []).veil
        (s.rxDispatch got v).pc s.begun.rivals s.begun.fault := by
  rw [← hidle]
  rfl

/-- Settles O52: the RX path of SERVICE_INTERRUPTS is that of RECEIVE seen from behind the veil. -/
theorem serviceRxFailureKeepsBits : Obligations.ServiceRxFailureKeepsBits := by
  rintro s got v _ hq hphase hl hv hrx rfl
  obtain ⟨hs, hidle⟩ := (State.quiet_iff s).1 hq
  obtain ⟨hpc, hb, ho⟩ := id hs
  refine ⟨fun u out e h hexec hr => ?_, ?_⟩
  · have hfree : (receivesFrom v (Txn.ofRead s.cfg .idle s.cfg.isrReg (some got)) s).free :=
      State.free_afterTxns hs _
    obtain ⟨w, hbody, rfl⟩ := exec_receive_returned hfree hexec hr
    obtain ⟨p, r, f, hblind⟩ := receiveBody_blind
      ((receivesFrom v (Txn.ofRead s.cfg .idle s.cfg.isrReg (some got)) s).admitted .receive [])
      (s.rxDispatch got v).pc s.begun.rivals s.begun.fault
    rw [← rxDispatch_eq_veil hidle, hbody] at hblind
    obtain ⟨xs, hp, -⟩ :=
      receiveBody_did (s := s.rxDispatch got v) (P := fun _ => True) hb ho (Sends.trivial _)
    rw [hblind] at hp
    obtain rfl : r = s.begun.rivals := hp.rivals
    obtain rfl : f = s.begun.fault := hp.fault
    exact exec_service_rx_error hs hphase hv hrx (hl ▸ State.plays_head h) hblind
  · rintro xs rfl h
    obtain ⟨hread, hrest⟩ := State.plays_cons.1 h
    have hfails := State.answer_none _ 0 _ s.cfg.rxCountReg.width.bytes
      (State.plays_head (hrest (Txn.ofRead s.cfg .idle s.cfg.isrReg (some got))))
    have hbody := receiveBody_count_fail (s := s.rxDispatch got v) hb ho hfails
    have hcount : (s.rxDispatch got v).rxState = .idle := hidle
    rw [hcount] at hbody
    rw [exec_service_rx_error hs hphase hv hrx (hl ▸ hread) hbody]
    exact congrArg Host.Outcome.next (State.leave_rxDispatch_cleanup hpc hidle _ _)

end Sys2Proof.Machine
end

section
/-!
PROOFS. 43_tx_path.md: TRANSMIT that ends before its transfer (R225 to R227), and the frame id against the burst
(R231, 92 D18).
-/

namespace Sys2Proof.Machine

variable {s t : State} {op : Op} {checks : List (Bool × Reason)} {r : Result} {frame got : List Byte}
  {irq csum : Bool} {xs : List Txn}

/-! ## TRANSMIT that ends before its transfer (R225 to R227) -/

/-- The end of an admitted request that issued no transaction, whatever checks its body passed. -/
theorem State.leave_passed_admitted_idle (hs : s.free) (k : Nat) :
    ((s.admitted op checks).pass k).leave r = { s.begun with result := some r } := by
  rw [← State.afterTxns_nil ((s.admitted op checks).pass k), leave_passed_admitted hs k,
    State.afterTxns_nil]

theorem transmitBody_tooSmall (h : frame.length < s.cfg.txMinFrame) :
    transmitBody frame irq csum s = ⟨.error (.frameTooSmall frame.length), s.pass 1⟩ := by
  rw [transmitBody, if_pos h, Ran.throw_eq]

theorem transmitBody_tooLarge (hmin : s.cfg.txMinFrame ≤ frame.length)
    (h : s.cfg.txMaxFrame < frame.length) :
    transmitBody frame irq csum s = ⟨.error (.frameTooLarge frame.length), s.pass 2⟩ := by
  rw [transmitBody, if_neg (Nat.not_lt.2 hmin), if_pos h, Ran.throw_eq]

/-- Too little space (R227): the space read is the only transaction. -/
theorem transmitBody_space_short (hb : s.spiBusy = false) (ho : s.burstOpen = false)
    (hmin : s.cfg.txMinFrame ≤ frame.length) (hmax : frame.length ≤ s.cfg.txMaxFrame)
    (h : s.answer 0 s.cfg.txSpaceReg.width.bytes = some got) {space : Word}
    (hspace : space = readValue s.cfg.dataEndian s.cfg.txSpaceReg.width got &&& s.cfg.txSpaceMask)
    (hshort : space.toNat < txNeed s.cfg frame.length) :
    transmitBody frame irq csum s
      = ⟨.error (.txBufferFull space.toNat (txNeed s.cfg frame.length)),
        (s.pass 3).afterTxns [Txn.ofRead s.cfg s.rxState s.cfg.txSpaceReg (some got)]⟩ := by
  subst hspace
  rw [transmitBody, if_neg (Nat.not_lt.2 hmin), if_neg (Nat.not_lt.2 hmax),
    regRead_ok (s := s.pass 2) hb ho h, Ran.andThen_ok]
  refine (if_pos hshort).trans ?_
  rw [Ran.throw_eq, State.advance_eq_pass, State.pass_afterTxns, State.pass_pass]
  rfl

theorem not_flagsSupported_iff {cfg : Config} : ¬ flagsSupported cfg irq csum ↔
    (irq = true ∧ cfg.txcwIrqBit = none) ∨ (csum = true ∧ cfg.txcwCsumBit = none) := by
  rw [flagsSupported]
  tauto

/-- Settles O40: the flags are TRANSMIT's refusal checks, made before its body. -/
theorem transmitUnsupportedFlag : Obligations.TransmitUnsupportedFlag := by
  intro s frame irq csum hs hphase hflags
  have ha : admission .transmit s.phase = .admitted := congrArg admitFifo hphase
  exact congrArg Host.Outcome.next
    (perform_refused hs ha (flagChecks_unsupported (not_flagsSupported_iff.1 hflags)) _)

/-- Settles O38: the two length checks; under R9 a frame above the maximum is not below the minimum. -/
theorem transmitLengthErrors : Obligations.TransmitLengthErrors := by
  intro s frame irq csum hwf hs hphase hflags
  rw [exec_transmit_eq hs hphase hflags]
  refine ⟨fun hsmall => ?_, fun hlarge => ?_⟩
  · rw [transmitBody_tooSmall (s := s.admitted _ _) hsmall]
    exact congrArg Host.Outcome.next (State.leave_passed_admitted_idle hs 1)
  · obtain ⟨-, -, -, -, -, -, -, -, hlimits, -⟩ := (Config.wellFormed_iff s.cfg).1 hwf
    have hmin : s.cfg.txMinFrame ≤ frame.length := hlimits.trans hlarge.le
    rw [transmitBody_tooLarge (s := s.admitted _ _) hmin hlarge]
    exact congrArg Host.Outcome.next (State.leave_passed_admitted_idle hs 2)

/-- Settles O39: the body ends at its space check, after the read. -/
theorem transmitBufferFull : Obligations.TransmitBufferFull := by
  rintro s frame got irq csum space _ hs hphase hflags hmin hmax hread hspace rfl hshort
  obtain ⟨-, hb, ho⟩ := id hs
  rw [exec_transmit_eq hs hphase hflags,
    transmitBody_space_short (s := s.admitted _ _) hb ho hmin hmax hread hspace hshort]
  exact congrArg Host.Outcome.next (State.leave_passed_admitted hs 3)

/-! ## Bursts among the transactions of TRANSMIT -/

/-- A burst among these transactions completed. -/
def burstCompleted (xs : List Txn) : Bool := xs.any fun x => x.burst && x.received.isSome

theorem burstCompleted_append (xs ys : List Txn) :
    burstCompleted (xs ++ ys) = (burstCompleted xs || burstCompleted ys) := List.any_append

theorem burstCompleted_ofRead (cfg : Config) (rx : RxState) (x : Reg) (got : Option (List Byte)) :
    burstCompleted [Txn.ofRead cfg rx x got] = false := rfl

theorem burstCompleted_ofWrites (cfg : Config) (rx : RxState) (ws : List RegWrite) :
    burstCompleted (Txn.ofWrites cfg rx ws) = false := by
  simp [burstCompleted, Txn.ofWrites, Txn.ofWrite]

theorem burstCompleted_ofFailedWrites (cfg : Config) (rx : RxState) (before : List RegWrite)
    (w : RegWrite) : burstCompleted (Txn.ofFailedWrites cfg rx before w) = false := by
  rw [Txn.ofFailedWrites, burstCompleted_append, burstCompleted_ofWrites]
  rfl

theorem burstCompleted_txOpenTxns (s : State) (d : List Byte) (total : Word)
    (ack : Option (List Byte)) : burstCompleted (txOpenTxns s d total ack) = ack.isSome := by
  rw [txOpenTxns, burstCompleted_append, burstCompleted_ofWrites]
  simp [burstCompleted, Txn.ofTxBurst]

theorem burstCompleted_txOpenTxns_append (s : State) (d : List Byte) (total : Word) (xs : List Txn) :
    burstCompleted (txOpenTxns s d total (some []) ++ xs) = true := by
  rw [burstCompleted_append, burstCompleted_txOpenTxns, Option.isSome_some, Bool.true_or]

/-- Everything a transfer's transactions can do (R160, R228, R229): a write before the burst fails, the burst
fails, a write after it fails, or all complete. -/
theorem transfer_plays_cases (hb : s.spiBusy = false) (ho : s.burstOpen = false) (d : List Byte)
    (total : Word) (closing : List RegWrite) :
    (∃ before w after, txOpening s.cfg total = before ++ w :: after ∧
      s.plays (Txn.ofFailedWrites s.cfg s.rxState before w)) ∨
    s.plays (txOpenTxns s d total none) ∨
    (∃ before w after, closing = before ++ w :: after ∧
      s.plays (txOpenTxns s d total (some []) ++ Txn.ofFailedWrites s.cfg s.rxState before w)) ∨
    s.plays (txOpenTxns s d total (some []) ++ Txn.ofWrites s.cfg s.rxState closing) := by
  refine (writeList_cases (txOpening s.cfg total) hb ho).symm.imp_right fun hopening => ?_
  have hopen {ack : Option (List Byte)} (h : (s.afterTxns (Txn.ofWrites s.cfg s.rxState
      (txOpening s.cfg total))).answer 0 (Txn.ofTxBurst s.cfg s.rxState d ack).readLength = ack) :
      s.plays (txOpenTxns s d total ack) :=
    State.plays_append.2 ⟨hopening, State.plays_cons.2 ⟨h, fun _ => State.plays_nil _⟩⟩
  rcases State.answer_zero (s.afterTxns _) 0 with hburst | hburst
  · exact .inl (hopen hburst)
  rcases writeList_cases (s := s.afterTxns (txOpenTxns s d total (some []))) closing hb ho with
    hclosing | ⟨before, w, after, hw, hclosing⟩
  · exact .inr (.inr (State.plays_append.2 ⟨hopen hburst, hclosing⟩))
  · exact .inr (.inl ⟨before, w, after, hw, State.plays_append.2 ⟨hopen hburst, hclosing⟩⟩)

/-! ## The frame id follows the burst (R231, 92 D18) -/

/-- From `s` to `t` the frame id has advanced once if a burst completed in between, else it is unchanged. -/
def FidFollowsBurst (s t : State) : Prop :=
  ∃ xs, t.bus = s.bus ++ xs ∧
    t.txFid = if burstCompleted xs then fidAfter s.cfg s.txFid else s.txFid

theorem FidFollowsBurst.of_txns {b : Bool} (hbus : t.bus = s.bus ++ xs) (hb : burstCompleted xs = b)
    (hfid : t.txFid = if b then fidAfter s.cfg s.txFid else s.txFid) : FidFollowsBurst s t :=
  ⟨xs, hbus, hb ▸ hfid⟩

/-- Nothing was issued and the frame id is as it was. -/
theorem FidFollowsBurst.of_idle (hbus : t.bus = s.bus) (hfid : t.txFid = s.txFid) :
    FidFollowsBurst s t :=
  .of_txns (xs := []) (hbus.trans (List.append_nil _).symm) rfl hfid

/-- Transactions before the transfer, none a completed burst. -/
theorem FidFollowsBurst.of_afterTxns (hxs : burstCompleted xs = false)
    (h : FidFollowsBurst (s.afterTxns xs) t) : FidFollowsBurst s t := by
  obtain ⟨ys, hbus, hfid⟩ := h
  refine .of_txns (xs := xs ++ ys) (hbus.trans (List.append_assoc ..)) ?_ hfid
  rw [burstCompleted_append, hxs, Bool.false_or]

/-- The transfer, outcome by outcome: the frame id advances where the burst completed, whatever fails later. -/
theorem transmitFrame_fidFollowsBurst (hb : s.spiBusy = false) (ho : s.burstOpen = false) :
    FidFollowsBurst s (transmitFrame frame irq csum s).state := by
  obtain ⟨total, htotal⟩ : ∃ total,
    total = txWrittenOf (alignUp (s.txData frame irq csum).length s.cfg.txAlign) := ⟨_, rfl⟩
  rcases transfer_plays_cases hb ho (s.txData frame irq csum) total
      (txClosing s.cfg total ++ [s.cfg.txEnqueue]) with
    ⟨before, w, after, hw, hplays⟩ | hplays | ⟨before, w, after, hw, hplays⟩ | hplays
  · obtain ⟨k, hframe⟩ := transmitFrame_opening_fail hb ho htotal hw hplays
    rw [hframe]
    exact .of_txns rfl (burstCompleted_ofFailedWrites ..) rfl
  · obtain ⟨k, hframe⟩ := transmitFrame_burst_fail hb ho htotal hplays
    rw [hframe]
    exact .of_txns rfl (burstCompleted_txOpenTxns ..) rfl
  · obtain ⟨k, hframe⟩ := transmitFrame_closing_fail hb ho htotal hw hplays
    rw [hframe]
    exact .of_txns rfl (burstCompleted_txOpenTxns_append ..) rfl
  · obtain ⟨k, hframe⟩ := transmitFrame_ok hb ho htotal hplays
    rw [hframe]
    exact .of_txns rfl (burstCompleted_txOpenTxns_append ..) rfl

/-- The body of TRANSMIT: before the transfer there is at most the space read. -/
theorem transmitBody_fidFollowsBurst (hb : s.spiBusy = false) (ho : s.burstOpen = false) :
    FidFollowsBurst s (transmitBody frame irq csum s).state := by
  rcases Nat.lt_or_ge frame.length s.cfg.txMinFrame with hsmall | hmin
  · rw [transmitBody_tooSmall hsmall]
    exact .of_idle rfl rfl
  rcases Nat.lt_or_ge s.cfg.txMaxFrame frame.length with hlarge | hmax
  · rw [transmitBody_tooLarge hmin hlarge]
    exact .of_idle rfl rfl
  cases hread : s.answer 0 s.cfg.txSpaceReg.width.bytes with
  | none =>
    rw [transmitBody_space_fail hb ho hmin hmax hread]
    exact .of_txns rfl (burstCompleted_ofRead ..) rfl
  | some got =>
    rcases Nat.lt_or_ge (readValue s.cfg.dataEndian s.cfg.txSpaceReg.width got
      &&& s.cfg.txSpaceMask).toNat (txNeed s.cfg frame.length) with hshort | hspace
    · rw [transmitBody_space_short hb ho hmin hmax hread rfl hshort]
      exact .of_txns rfl (burstCompleted_ofRead ..) rfl
    · rw [transmitBody_space_ok hb ho hmin hmax hread hspace]
      exact .of_afterTxns (s := s.pass 3) (burstCompleted_ofRead ..)
        (transmitFrame_fidFollowsBurst (s := (s.pass 3).afterTxns _) hb ho)

/-- The end of a request changes neither the bus nor the frame id. -/
theorem FidFollowsBurst.finish {x : Ran Result} (h : FidFollowsBurst s x.state) :
    FidFollowsBurst s x.finish := by
  obtain ⟨reply, t⟩ := x
  cases reply with
  | ok r => exact h
  | error e => exact h

/-- TRANSMIT, whatever it ends with: a request that is refused or that its phase raises issues nothing. -/
theorem exec_transmit_fidFollowsBurst (hs : s.free)
    (h : exec (.transmit frame irq csum) s = .next t) : FidFollowsBurst s t := by
  obtain rfl := Host.Outcome.next.inj h
  rcases perform_cases .transmit (flagChecks s.cfg irq csum) (transmitBody frame irq csum) s with
    ⟨hoccupied, -⟩ | ⟨-, why, -, hend⟩ | ⟨-, -, hend⟩ | ⟨-, -, why, -, hend⟩ | ⟨-, -, -, hend⟩
  · rw [State.occupied_of_free hs] at hoccupied
    cases hoccupied
  · exact hend ▸ .of_idle rfl rfl
  · exact hend ▸ .of_idle rfl rfl
  · exact hend ▸ .of_idle rfl rfl
  · obtain ⟨-, hb, ho⟩ := hs
    rw [hend]
    exact FidFollowsBurst.finish (s := s)
      (transmitBody_fidFollowsBurst (s := s.admitted .transmit _) hb ho)

/-- Settles O41: `FidFollowsBurst` read off at a completed burst and at none. -/
theorem frameIdAdvancesWithBurst : Obligations.FrameIdAdvancesWithBurst := by
  intro s t frame irq csum hs h
  obtain ⟨xs, hbus, hfid⟩ := exec_transmit_fidFollowsBurst hs h
  refine ⟨xs, hbus, fun hburst => ?_, fun hburst => ?_⟩
  · exact hfid.trans (if_pos hburst)
  · exact hfid.trans (if_neg (ne_true_of_eq_false hburst))

end Sys2Proof.Machine
end

section
/-!
PROOFS. 44_lifecycle.md: the operation that leaves phase Desync (R253); CONFIGURE, its checks, its writes and its
failures (R256, R257); LINK_STATUS (R262).
-/

namespace Sys2Proof.Machine

variable {s t : State} {op : Op} {checks : List (Bool × Reason)} {cfg : Config} {mac : List Byte}
  {filter : List Word} {imask : Word} {before after : List RegWrite} {w : RegWrite}

/-! ## Leaving phase Desync (R253) -/

/-- Settles O45: of the ways a phase changes, RESET's alone starts in phase Desync. -/
theorem onlyResetLeavesDesync : Obligations.OnlyResetLeavesDesync := by
  intro i s t hdesync hexec hleft
  rcases phaseTransitions i s t hexec (hdesync ▸ hleft) with
    ⟨hreset, -⟩ | ⟨-, hphase, -⟩ | ⟨-, hphase, -⟩
  · exact hreset
  · cases hdesync.symm.trans hphase
  · cases hdesync.symm.trans hphase

/-! ## CONFIGURE (R256, R257) -/

theorem configureChecks_refusal (cfg : Config) (mac : List Byte) (filter : List Word) :
    firstRefusal (configureChecks cfg mac filter)
      = if mac.length ≠ 6 ∨ filter.length ≠ cfg.filterRegs.length then some .badRequest else none := by
  simp [configureChecks, firstRefusal]

theorem configureChecks_passed (hmac : mac.length = 6)
    (hfilter : filter.length = cfg.filterRegs.length) :
    firstRefusal (configureChecks cfg mac filter) = none := by
  simp [configureChecks_refusal, hmac, hfilter]

/-- The writes of CONFIGURE in the terms of R257: MAC byte 0 is the upper byte of the first register. -/
theorem configureWrites_eq (cfg : Config) (m0 m1 m2 m3 m4 m5 : Byte) (filter : List Word)
    (imask : Word) : configureWrites cfg [m0, m1, m2, m3, m4, m5] filter imask
      = [⟨cfg.macReg01, m0 ++ m1⟩, ⟨cfg.macReg23, m2 ++ m3⟩, ⟨cfg.macReg45, m4 ++ m5⟩]
        ++ (cfg.filterRegs.zip filter).map (fun rv => ⟨rv.1, rv.2⟩)
        ++ [⟨cfg.ierReg, imask⟩] ++ cfg.threshWrites ++ cfg.configTail := by
  rw [List.map_zip_eq_zipWith]
  rfl

/-- CONFIGURE has succeeded (R256). -/
def State.configured (s : State) : State := { s with phase := .configured }

/-- The body of CONFIGURE. -/
def configureBody (mac : List Byte) (filter : List Word) (imask : Word) (t : State) : Ran Result :=
  (writeList (configureWrites t.cfg mac filter imask) t).andThen fun _ u => .pure .ok u.configured

theorem exec_configure_eq (mac : List Byte) (filter : List Word) (imask : Word) (s : State) :
    exec (.configure mac filter imask) s = .next (perform .configure (configureChecks s.cfg mac filter)
      (configureBody mac filter imask) s) := rfl

theorem admission_configure (hphase : s.phase = .reset) :
    admission .configure s.phase = .admitted := congrArg admitConfigure hphase

theorem exec_configure_refused (hs : s.free) (hphase : s.phase = .reset)
    (h : mac.length ≠ 6 ∨ filter.length ≠ s.cfg.filterRegs.length) :
    exec (.configure mac filter imask) s
      = .next { s.begun with refused := true, result := some (.refused .badRequest) } := by
  have hrefusal := (configureChecks_refusal s.cfg mac filter).trans (if_pos h)
  exact congrArg Host.Outcome.next (perform_refused hs (admission_configure hphase) hrefusal _)

section ConfigureBody

variable (hb : s.spiBusy = false) (ho : s.burstOpen = false)

include hb ho

theorem configureBody_ok
    (h : s.plays (Txn.ofWrites s.cfg s.rxState (configureWrites s.cfg mac filter imask))) :
    configureBody mac filter imask s = ⟨.ok .ok, (s.afterTxns (Txn.ofWrites s.cfg s.rxState
      (configureWrites s.cfg mac filter imask))).configured⟩ := by
  rw [configureBody, writeList_ok _ hb ho h, Ran.andThen_ok, Ran.pure_eq]

theorem configureBody_fail (hw : configureWrites s.cfg mac filter imask = before ++ w :: after)
    (h : s.plays (Txn.ofFailedWrites s.cfg s.rxState before w)) :
    configureBody mac filter imask s = ⟨.error (.busError (.register w.reg.addr)),
      s.afterTxns (Txn.ofFailedWrites s.cfg s.rxState before w)⟩ := by
  rw [configureBody, hw, writeList_fail before after w hb ho h, Ran.andThen_error, Txn.ofFailedWrites]

end ConfigureBody

section Configure

variable (hs : s.free) (hphase : s.phase = .reset) (hmac : mac.length = 6)
  (hfilter : filter.length = s.cfg.filterRegs.length)

include hs hphase hmac hfilter

theorem exec_configure_ok
    (h : s.plays (Txn.ofWrites s.cfg s.rxState (configureWrites s.cfg mac filter imask))) :
    exec (.configure mac filter imask) s = .next { s.begun.afterTxns (Txn.ofWrites s.cfg s.rxState
      (configureWrites s.cfg mac filter imask)) with phase := .configured, result := some .ok } := by
  have hpassed := configureChecks_passed hmac hfilter
  obtain ⟨hpc, hb, ho⟩ := id hs
  rw [exec_configure_eq, perform_body hs (admission_configure hphase) hpassed,
    configureBody_ok (s := s.admitted _ _) hb ho h, Ran.finish_ok]
  exact congrArg (fun t => Host.Outcome.next (State.configured t))
    (State.leave_afterTxns_enter (s := s.begun) hpc .configure _ _ .ok)

theorem exec_configure_fail (hw : configureWrites s.cfg mac filter imask = before ++ w :: after)
    (h : s.plays (Txn.ofFailedWrites s.cfg s.rxState before w)) :
    exec (.configure mac filter imask) s
      = .next { s.begun.afterTxns (Txn.ofFailedWrites s.cfg s.rxState before w) with
          result := some (.raised (.busError (.register w.reg.addr))) } := by
  have hpassed := configureChecks_passed hmac hfilter
  obtain ⟨-, hb, ho⟩ := id hs
  rw [exec_configure_eq, perform_raises hs (admission_configure hphase) hpassed
    (configureBody_fail (s := s.admitted _ _) hb ho hw h)]
  rfl

end Configure

/-- Settles O47: the lengths are CONFIGURE's checks, then its write list runs. -/
theorem configureOutcomes : Obligations.ConfigureOutcomes := by
  intro s mac filter imask hs hphase
  refine ⟨exec_configure_refused hs hphase, ?_⟩
  rintro m0 m1 m2 m3 m4 m5 _ rfl hfilter rfl hplays
  rw [← configureWrites_eq] at hplays ⊢
  exact exec_configure_ok hs hphase rfl hfilter hplays

/-- Settles O48: CONFIGURE is refused, completes its writes, or stops at the write that failed. -/
theorem configureFailureKeepsReset : Obligations.ConfigureFailureKeepsReset := by
  intro s t mac filter imask e hs hphase hexec hraised
  by_cases hlengths : mac.length ≠ 6 ∨ filter.length ≠ s.cfg.filterRegs.length
  · rw [exec_configure_refused hs hphase hlengths] at hexec
    obtain rfl := Host.Outcome.next.inj hexec
    cases hraised
  obtain ⟨hmac, hfilter⟩ : mac.length = 6 ∧ filter.length = s.cfg.filterRegs.length := by
    simpa using hlengths
  obtain ⟨-, hb, ho⟩ := id hs
  rcases writeList_cases (configureWrites s.cfg mac filter imask) hb ho with
    hplays | ⟨before, w, after, hw, hplays⟩
  · rw [exec_configure_ok hs hphase hmac hfilter hplays] at hexec
    obtain rfl := Host.Outcome.next.inj hexec
    cases hraised
  · rw [exec_configure_fail hs hphase hmac hfilter hw hplays] at hexec
    obtain rfl := Host.Outcome.next.inj hexec
    obtain rfl := Result.raised.inj (Option.some.inj hraised)
    exact ⟨_, rfl, Txn.ofWrite s.cfg s.rxState none w, List.getLast?_concat, rfl⟩

/-! ## LINK_STATUS (R262) -/

/-- The link state a status value says, bit by bit (R262). -/
theorem linkOf_eq (cfg : Config) (v : Word) : linkOf cfg v
    = if v &&& cfg.linkUpBit = 0 then .down
      else .up (if v &&& cfg.link100Bit ≠ 0 then .mb100 else .mb10)
        (if v &&& cfg.linkFdxBit ≠ 0 then .full else .half) := by
  simp [linkOf, anySet]

/-- A request whose body begins with a register read that fails: BusError (R68). -/
theorem perform_regRead_fail {r : Reg} {body : State → Ran Result} {f : Word → State → Ran Result}
    (hs : s.free) (ha : admission op s.phase = .admitted) (hc : firstRefusal checks = none)
    (hbody : body (s.admitted op checks) = (regRead r (s.admitted op checks)).andThen f)
    (h : s.answer 0 r.width.bytes = none) :
    perform op checks body s = { s.begun.afterTxns [Txn.ofRead s.cfg s.rxState r none] with
      result := some (.raised (.busError (.register r.addr))) } := by
  obtain ⟨-, hb, ho⟩ := id hs
  refine perform_raises hs ha hc ?_
  rw [hbody, regRead_fail (s := s.admitted op checks) hb ho h, Ran.andThen_error]
  rfl

theorem exec_linkStatus_ok {got : List Byte} (hs : s.free)
    (h : s.answer 0 s.cfg.linkReg.width.bytes = some got) : exec .linkStatus s
      = .next { s.begun.afterTxns [Txn.ofRead s.cfg s.rxState s.cfg.linkReg (some got)] with
          result := some (.link (linkOf s.cfg
            (readValue s.cfg.dataEndian s.cfg.linkReg.width got))) } := by
  obtain ⟨-, hb, ho⟩ := id hs
  have hread := regRead_ok (s := s.admitted .linkStatus []) hb ho h
  have hbody : exec .linkStatus s = .next (((regRead s.cfg.linkReg (s.admitted .linkStatus [])).andThen
      fun v u => .pure (.link (linkOf s.cfg v)) u.advance).finish) :=
    congrArg Host.Outcome.next (perform_body hs rfl rfl _)
  rw [hbody, hread, Ran.andThen_ok, Ran.pure_eq, Ran.finish_ok, State.advance_eq_pass,
    State.pass_afterTxns]
  exact congrArg Host.Outcome.next (State.leave_passed_admitted hs 1)

/-- Settles O49: the one read fails, or its value is `linkOf`'s. -/
theorem linkStatusOutcomes : Obligations.LinkStatusOutcomes := by
  intro s hs
  refine ⟨fun h => congrArg Host.Outcome.next (perform_regRead_fail hs rfl rfl rfl h), ?_⟩
  rintro got _ h rfl
  rw [exec_linkStatus_ok hs h, linkOf_eq]

end Sys2Proof.Machine
end

section
/-!
PROOFS. 44_lifecycle.md: SERVICE_INTERRUPTS whose status read fails or whose snapshot has the RX bit clear (R270 to
R274); what every SERVICE_INTERRUPTS that ends without error has handled and acknowledged (R274, R316).
-/

namespace Sys2Proof

/-! ## Single bits (R9) -/

variable {m v : Word}

theorem exists_eq_twoPow_of_single (hm : m ≠ 0) (h : m &&& (m - 1) = 0) :
    ∃ i, m = BitVec.twoPow 16 i := by
  have hpos : m.toNat ≠ 0 := fun h0 => hm (BitVec.eq_of_toNat_eq h0)
  have hle : (1 : Word) ≤ m := BitVec.le_def.2 (Nat.one_le_iff_ne_zero.2 hpos)
  have hland : m.toNat &&& (m.toNat - 1) = 0 := by
    have htoNat := congrArg BitVec.toNat h
    rwa [BitVec.toNat_and, BitVec.toNat_sub_of_le hle] at htoNat
  obtain ⟨i, hi⟩ := (Nat.and_sub_one_eq_zero_iff_isPowerOfTwo hpos).1 hland
  refine ⟨i, BitVec.eq_of_toNat_eq ?_⟩
  rw [BitVec.toNat_twoPow, ← hi, Nat.mod_eq_of_lt m.isLt]

/-- A single bit is set in a word wholly or not at all. -/
theorem ite_and_ne_zero_of_single (hm : m ≠ 0) (h : m &&& (m - 1) = 0) :
    (if v &&& m ≠ 0 then m else 0) = v &&& m := by
  obtain ⟨i, rfl⟩ := exists_eq_twoPow_of_single hm h
  rw [BitVec.and_twoPow]
  cases v.getLsbD i with
  | false => rfl
  | true => exact if_pos hm

end Sys2Proof

namespace Sys2Proof.Machine

variable {s t u w : State} {cfg : Config} {v : Word} {got : List Byte} {out : List Descriptor}
  {r : Result}

/-! ## The RX bit clear -/

/-- With the RX bit clear the acknowledge follows the bookkeeping (R270). -/
theorem dispatchAll_without_rx (hv : v &&& u.cfg.isrRx = 0) :
    dispatchAll (u.snapshot v) = acknowledge [] ((bookkept v u).pass 4) := by
  rw [dispatchAll, dispatch_eq_bookkept]
  exact if_neg fun h => anySet_eq_true_iff.1 h hv

theorem exec_service_read_fail (hs : s.free) (hphase : s.phase = .configured)
    (h : s.answer 0 s.cfg.isrReg.width.bytes = none) : exec .serviceInterrupts s
      = .next { s.begun.afterTxns [Txn.ofRead s.cfg s.rxState s.cfg.isrReg none] with
          result := some (.raised (.busError (.register s.cfg.isrReg.addr))) } :=
  have ha : admission .serviceInterrupts s.phase = .admitted := congrArg admitFifo hphase
  congrArg Host.Outcome.next (perform_regRead_fail hs ha rfl rfl h)

/-- The state of SERVICE_INTERRUPTS after its status read and its bookkeeping, seen from between requests. -/
def State.bookkeptAfter (got : List Byte) (v : Word) (s : State) : State :=
  bookkept v (s.begun.afterTxns [Txn.ofRead s.cfg s.rxState s.cfg.isrReg (some got)])

theorem State.free_bookkeptAfter (hs : s.free) (got : List Byte) (v : Word) :
    (s.bookkeptAfter got v).free :=
  State.free_afterTxns (State.free_begun hs) _

theorem State.bookkeptAfter_afterTxns (got : List Byte) (v : Word) (s : State) (xs : List Txn) :
    (s.bookkeptAfter got v).afterTxns xs = bookkept v
      (s.begun.afterTxns (Txn.ofRead s.cfg s.rxState s.cfg.isrReg (some got) :: xs)) :=
  congrArg (bookkept v) (State.afterTxns_afterTxns s.begun [_] xs)

/-- SERVICE_INTERRUPTS with the RX bit clear, up to its acknowledge. -/
theorem exec_service_without_rx (hs : s.free) (hphase : s.phase = .configured)
    (hv : v = readValue s.cfg.dataEndian s.cfg.isrReg.width got) (hrx : v &&& s.cfg.isrRx = 0)
    (h : s.answer 0 s.cfg.isrReg.width.bytes = some got) :
    ∃ p, exec .serviceInterrupts s
      = .next (acknowledge [] ((s.bookkeptAfter got v).placedAt p)).finish := by
  refine ⟨((bookkept v (s.statusRead got)).pass 4).pc, ?_⟩
  rw [exec_service_read_ok hs hphase hv h, dispatchAll_without_rx (u := s.statusRead got) hrx]
  rfl

/-- Settles O50: the status read, then the acknowledge from the state the bookkeeping leaves. -/
theorem serviceWithoutRx : Obligations.ServiceWithoutRx := by
  rintro s got v handled _ hs hphase hl hv rfl rfl
  refine ⟨fun h => ?_, ?_, ?_⟩
  · exact exec_service_read_fail hs hphase (State.answer_none _ _ 0 _ (State.plays_head h))
  · rintro _ hrx rfl h
    obtain ⟨hread, hack⟩ := State.plays_cons.1 h
    obtain ⟨p, hexec⟩ := exec_service_without_rx hs hphase hv hrx (hl ▸ hread)
    rw [hexec, finish_acknowledge_ok (State.free_bookkeptAfter hs got v) (hack _) p,
      State.bookkeptAfter_afterTxns]
    rfl
  · rintro _ hrx hhandled hw1c rfl h
    obtain ⟨hread, hack⟩ := State.plays_cons.1 h
    obtain ⟨p, hexec⟩ := exec_service_without_rx hs hphase hv hrx (hl ▸ hread)
    rw [hexec, finish_acknowledge_fail (State.free_bookkeptAfter hs got v) hhandled hw1c (hack _) p,
      State.bookkeptAfter_afterTxns]
    rfl

/-! ## The bits handled (R270, R273) -/

/-- The bits a SERVICE_INTERRUPTS that read `v` has handled where its RX path raised no error. -/
def handledBits (cfg : Config) (v : Word) : Word :=
  bookkeepingBits cfg v ||| (if v &&& cfg.isrRx ≠ 0 then cfg.isrRx else 0)

/-- The status bits being single bits (R9), they are the snapshot's part in the four. -/
theorem handledBits_eq (hwf : cfg.wellFormed = true) (v : Word) : handledBits cfg v
    = v &&& (cfg.isrLink ||| cfg.isrTx ||| cfg.isrRxovr ||| cfg.isrRx) := by
  obtain ⟨-, -, -, -, -, -, -, -, -, -, -, hsingle, -⟩ := (Config.wellFormed_iff cfg).1 hwf
  have hbit : ∀ m ∈ [cfg.isrLink, cfg.isrTx, cfg.isrRx, cfg.isrRxovr],
      (if v &&& m ≠ 0 then m else 0) = v &&& m := fun m hm =>
    ite_and_ne_zero_of_single (hsingle m hm).1 (hsingle m hm).2
  simp only [List.forall_mem_cons] at hbit
  obtain ⟨hlink, htx, hrx, hrxovr, -⟩ := hbit
  rw [handledBits, bookkeepingBits, hlink, htx, hrx, hrxovr, BitVec.and_or_distrib_left,
    BitVec.and_or_distrib_left, BitVec.and_or_distrib_left]

theorem rx_clear_of_handledBits_eq_zero (hwf : cfg.wellFormed = true) (h : handledBits cfg v = 0) :
    v &&& cfg.isrRx = 0 := by
  rw [handledBits_eq hwf, BitVec.and_or_distrib_left] at h
  exact (BitVec.or_eq_zero_iff.1 h).2

/-! ## A SERVICE_INTERRUPTS that ends without error -/

/-- An acknowledge that returns was written where it had to be. -/
theorem acknowledge_returned (hb : s.spiBusy = false) (ho : s.burstOpen = false)
    (h : (acknowledge out s).reply = .ok r) :
    acknowledge out s = ⟨.ok (.service s.snap s.handled out none),
      s.advance.afterTxns (ackTxns s.cfg s.rxState s.handled)⟩ := by
  by_cases hack : s.handled ≠ 0 ∧ s.cfg.isrClear = .w1c
  · obtain ⟨hhandled, hw1c⟩ := hack
    rcases s.answer_zero 0 with hanswer | hanswer
    · have hfails := acknowledge_fail (out := out) hb ho hhandled hw1c
        (State.plays_cons.2 ⟨hanswer, fun _ => State.plays_nil _⟩)
      rw [hfails] at h
      cases h
    · refine acknowledge_ok hb ho ?_
      rw [ackTxns, if_pos ⟨hhandled, hw1c⟩]
      exact State.plays_cons.2 ⟨hanswer, fun _ => State.plays_nil _⟩
  · refine acknowledge_ok hb ho ?_
    rw [ackTxns, if_neg hack]
    exact State.plays_nil _

/-- From the state `u` after the status read to the state `w` before the acknowledge, every dispatch done: the
snapshot and the bits handled, nothing in progress; only the RX path issues transactions. -/
structure Dispatched (v : Word) (u w : State) : Prop where
  cfg : w.cfg = u.cfg
  snap : w.snap = v
  handled : w.handled = handledBits u.cfg v
  spiBusy : w.spiBusy = false
  burstOpen : w.burstOpen = false
  bus : v &&& u.cfg.isrRx = 0 → w.bus = u.bus

theorem dispatched_without_rx (hb : u.spiBusy = false) (ho : u.burstOpen = false)
    (hrx : v &&& u.cfg.isrRx = 0) : Dispatched v u ((bookkept v u).pass 4) where
  cfg := rfl
  snap := rfl
  handled := by
    rw [handledBits, if_neg (not_not_intro hrx)]
    exact BitVec.or_zero.symm
  spiBusy := hb
  burstOpen := ho
  bus _ := rfl

theorem dispatched_with_rx (hb : u.spiBusy = false) (ho : u.burstOpen = false)
    (hrx : v &&& u.cfg.isrRx ≠ 0) :
    Dispatched v u (receiveBody ((bookkept v u).pass 4)).state.advance.handledRx := by
  have hleaves := receiveBody_leaves ((bookkept v u).pass 4)
  obtain ⟨xs, hp, -⟩ :=
    receiveBody_did (s := (bookkept v u).pass 4) (P := fun _ => True) hb ho (Sends.trivial _)
  refine ⟨hleaves.cfg, hleaves.snap, ?_, hp.spiBusy.trans hb, hp.burstOpen.trans ho,
    fun h => absurd h hrx⟩
  rw [handledBits, if_pos hrx, State.handledRx_handled, State.advance_handled, State.advance_cfg,
    hleaves.handled, hleaves.cfg]
  rfl

/-- Dispatches that return no error end in an acknowledge. -/
theorem dispatchAll_returned {snap handled : Word} (hb : u.spiBusy = false) (ho : u.burstOpen = false)
    (h : (dispatchAll (u.snapshot v)).reply = .ok (.service snap handled out none)) :
    ∃ frames w, Dispatched v u w ∧ dispatchAll (u.snapshot v) = acknowledge frames w := by
  by_cases hrx : v &&& u.cfg.isrRx = 0
  · exact ⟨_, _, dispatched_without_rx hb ho hrx, dispatchAll_without_rx hrx⟩
  have hdispatched := dispatched_with_rx hb ho hrx
  rcases hbody : receiveBody ((bookkept v u).pass 4) with ⟨frames, err, w⟩
  cases err with
  | none =>
    rw [hbody] at hdispatched
    exact ⟨_, _, hdispatched, dispatchAll_rx_ok hrx hbody⟩
  | some e =>
    rw [dispatchAll_rx_error hrx hbody] at h
    cases h

/-- The body of SERVICE_INTERRUPTS. -/
def serviceBody (t : State) : Ran Result :=
  (regRead t.cfg.isrReg t).andThen fun v u => dispatchAll (u.snapshot v)

theorem exec_service_eq (s : State) :
    exec .serviceInterrupts s = .next (perform .serviceInterrupts [] serviceBody s) := rfl

/-- A body that returns has read the status: what follows are the dispatches. -/
theorem serviceBody_returned (hb : s.spiBusy = false) (ho : s.burstOpen = false)
    (h : (serviceBody s).reply = .ok r) : ∃ got v, serviceBody s = dispatchAll
      ((s.afterTxns [Txn.ofRead s.cfg s.rxState s.cfg.isrReg (some got)]).snapshot v) := by
  cases hanswer : s.answer 0 s.cfg.isrReg.width.bytes with
  | none =>
    rw [serviceBody, regRead_fail hb ho hanswer] at h
    cases h
  | some got =>
    refine ⟨got, readValue s.cfg.dataEndian s.cfg.isrReg.width got, ?_⟩
    rw [serviceBody, regRead_ok hb ho hanswer, Ran.andThen_ok]

/-- A SERVICE_INTERRUPTS that ends without error read the status, dispatched, and acknowledged. -/
theorem exec_service_returned {snap handled : Word} (hs : s.free)
    (hexec : exec .serviceInterrupts s = .next t)
    (hr : t.result = some (.service snap handled out none)) :
    ∃ got w, Dispatched snap (s.statusRead got) w ∧ w.handled = handled ∧
      t = (w.advance.afterTxns (ackTxns w.cfg w.rxState w.handled)).leave
        (.service snap handled out none) := by
  rw [exec_service_eq] at hexec
  obtain rfl := Host.Outcome.next.inj hexec
  have hreply := perform_returned hs hr (fun _ => nofun) fun _ => nofun
  have hend := perform_returned_eq hs hr (fun _ => nofun) fun _ => nofun
  obtain ⟨-, hb, ho⟩ := id hs
  obtain ⟨got, v, hbody⟩ := serviceBody_returned (s := s.admitted .serviceInterrupts []) hb ho hreply
  rw [hbody] at hreply hend
  obtain ⟨frames, w, hw, hack⟩ := dispatchAll_returned (u := s.statusRead got) hb ho hreply
  have hfinal := hack.trans (acknowledge_returned hw.spiBusy hw.burstOpen (hack ▸ hreply))
  obtain ⟨hsnap, hhandled, -, -⟩ := Result.service.inj
    (Except.ok.inj ((congrArg Ran.reply hfinal).symm.trans hreply))
  obtain rfl : v = snap := hw.snap.symm.trans hsnap
  exact ⟨got, w, hw, hhandled, hend.trans (congrArg (State.leave _ ·.state) hfinal)⟩

/-- Settles O53: the bits handled by `handledBits_eq`; the bus ends with the acknowledge, or with the status
read where there is nothing to acknowledge. -/
theorem serviceAcknowledgesHandled : Obligations.ServiceAcknowledgesHandled := by
  intro s t snap handled out hwf hs hexec hr
  obtain ⟨got, w, hw, rfl, rfl⟩ := exec_service_returned hs hexec hr
  have hcfg : w.cfg = s.cfg := hw.cfg
  refine ⟨hw.handled.trans (handledBits_eq hwf snap), hw.snap, rfl, fun hhandled hw1c => ?_,
    fun hzero => ?_⟩
  · refine ⟨w.rxState, ?_⟩
    rw [hcfg, ackTxns, if_pos ⟨hhandled, hw1c⟩]
    exact List.getLast?_concat
  · have hrx : snap &&& s.cfg.isrRx = 0 :=
      rx_clear_of_handledBits_eq_zero hwf (hw.handled.symm.trans hzero)
    rw [hzero, ackTxns, if_neg (fun h => h.1 rfl), State.afterTxns_nil]
    exact (congrArg List.length (hw.bus hrx)).trans List.length_append

end Sys2Proof.Machine
end

section
/-!
PROOFS. 60_exceptions.md: every step answers (R304, R305, R308); what a refusal leaves as it was (R304); the request
that arrives during an operation (R305); the phase table (R306).
-/

namespace Sys2Proof.Machine

variable {s t : State} {i : Instr} {x : Ran Result} {why : Reason}

/-! ## Every step answers -/

theorem exec_answers (i : Instr) (s : State) : ∃ t, exec i s = .next t := by
  obtain ⟨checks, body, hexec, -⟩ := exec_perform i s
  exact ⟨_, hexec⟩

/-- Settles O9: the step waits, runs the instruction decoded, or turns the submission away. -/
theorem everyStepAnswers : Obligations.EveryStepAnswers := by
  intro s hwf
  cases hinbox : s.inbox with
  | nil => exact ⟨s, step_of_inbox_nil hwf hinbox⟩
  | cons sub rest =>
    cases hdecode : decode s.cfg sub with
    | ok i =>
      rw [step_of_decode_ok hwf hinbox hdecode]
      exact exec_answers i _
    | error e => exact ⟨_, step_of_decode_error hwf hinbox hdecode⟩

/-! ## What a body returns -/

/-- No body refuses (R307: the refusal checks come before it). -/
theorem BodyOk.result_ne_refused (hx : BodyOk s x) (why : Reason) :
    x.finish.result ≠ some (.refused why) := by
  have hok := hx.ok
  obtain ⟨r | r, u⟩ := x
  · simp [State.raise, State.leave]
  · obtain ⟨hrefused, -⟩ := hok r rfl
    simpa [State.leave] using hrefused why

/-- The error of the phase table is no body's (R306, log entry 28). -/
theorem BodyOk.result_ne_raised_desync (hx : BodyOk s x) :
    x.finish.result ≠ some (.raised (.fifoDesync none)) := by
  have hok := hx.ok
  have herror := hx.error
  obtain ⟨r | r, u⟩ := x
  · simpa [State.raise, State.leave] using herror r rfl
  · obtain ⟨-, hraised⟩ := hok r rfl
    simpa [State.leave] using hraised _

/-! ## A refusal changes nothing (R304) -/

/-- A refusal is the phase table's or a check's: no body ran. -/
theorem exec_refused_eq (hs : s.free) (hexec : exec i s = .next t)
    (hrefused : t.result = some (.refused why)) :
    t = { s.begun with refused := true, result := some (.refused why) } := by
  rcases exec_cases hexec with
    ⟨hoccupied, -⟩ | ⟨-, why', -, rfl⟩ | ⟨-, -, rfl⟩ | ⟨-, -, why', rfl⟩ | ⟨-, -, x, hx, rfl⟩
  · simp [State.occupied_of_free hs] at hoccupied
  · cases hrefused
    rfl
  · cases hrefused
  · cases hrefused
    rfl
  · exact absurd hrefused (hx.result_ne_refused why)

theorem State.turning_eq (e : DecodeError) (s : State) : s.turning e = s ∨ s.turning e = s.begun := by
  cases e with
  | badFields op => exact .inr rfl
  | _ => exact .inl rfl

theorem refuseUndecoded_refused_eq {e : DecodeError} (hs : s.free)
    (hrefused : (refuseUndecoded e s).result = some (.refused why)) : refuseUndecoded e s
      = { s.turning e with refused := true, result := some (.refused why) } := by
  rcases refuseUndecoded_cases e s with ⟨hoccupied, -⟩ | ⟨-, why', h⟩ | ⟨-, h⟩
  · simp [State.occupied_of_free hs] at hoccupied
  · rw [h] at hrefused ⊢
    cases hrefused
    rfl
  · rw [h] at hrefused
    cases hrefused

/-- Settles O15: a step refuses in the instruction it runs or in the submission it turns away. -/
theorem refusalChangesNothing : Obligations.RefusalChangesNothing := by
  refine ⟨fun _ _ _ _ => exec_refused_eq,
    fun s t sub rest why hs hinbox hstep hrefused => ?_⟩
  have hs' : State.free { s with inbox := rest } := hs
  rcases step_cases hstep with ⟨hnil, -⟩ | ⟨sub', rest', hinbox', hrun⟩
  · cases hinbox.symm.trans hnil
  obtain ⟨rfl, rfl⟩ := List.cons.inj (hinbox.symm.trans hinbox')
  rcases hrun with ⟨i, -, hexec⟩ | ⟨e, -, rfl⟩
  · exact ⟨s.begun, .inr rfl, exec_refused_eq hs' hexec hrefused⟩
  · have heq := refuseUndecoded_refused_eq hs' hrefused
    rcases State.turning_eq e { s with inbox := rest } with hturning | hturning <;> rw [hturning] at heq
    · exact ⟨s, .inl rfl, heq⟩
    · exact ⟨s.begun, .inr rfl, heq⟩

/-! ## A request during an operation (R305) -/

theorem State.occupied_iff (s : State) :
    s.occupied = true ↔ s.pc ≠ .ready ∨ s.spiBusy = true ∨ s.burstOpen = true := by
  simp [State.occupied, or_assoc]

theorem exec_of_occupied (h : s.occupied = true) (i : Instr) : exec i s = .next s.concurrentAccess := by
  obtain ⟨checks, body, hexec, -⟩ := exec_perform i s
  rw [hexec, perform_occupied h]

/-- The two fields of R305 are settled when the operation begins: nothing it does touches them. -/
theorem exec_rivals_fault (hs : s.free) (hexec : exec i s = .next t) :
    t.rivals = s.begun.rivals ∧ t.fault = s.begun.fault := by
  rcases exec_cases_begun hexec with ⟨hoccupied, -⟩ | ⟨-, mark, r, rfl⟩ | ⟨-, -, x, hx, rfl⟩
  · simp [State.occupied_of_free hs] at hoccupied
  · exact ⟨rfl, rfl⟩
  · obtain ⟨xs, hp, -⟩ := hx.performed
    exact ⟨hp.rivals, hp.fault⟩

theorem State.begun_fault_of_rival (h : s.rivals.head? = some true) :
    s.begun.fault = some .concurrentAccess := by
  simp [List.headD_eq_head?_getD, h]

/-- The run with a rival is the run without it but for the two fields of R305. -/
theorem exec_with_rival (hs : s.free) (hrival : s.rivals.head? = some true)
    (hexec : exec i { s with rivals := [] } = .next t) :
    exec i s = .next { t with rivals := s.rivals.drop 1, fault := some .concurrentAccess } := by
  have hs' : State.free { s with rivals := [] } := hs
  obtain ⟨r, f, hrun⟩ : ∃ r f, exec i s = .next { t with rivals := r, fault := f } :=
    exec_blind i hs' s.rivals s.fault hexec
  obtain ⟨hrivals, hfault⟩ := exec_rivals_fault hs hrun
  obtain rfl : r = s.rivals.drop 1 := hrivals
  obtain rfl : f = some .concurrentAccess := hfault.trans (State.begun_fault_of_rival hrival)
  exact hrun

theorem State.final_of_fault {f : Fault} (h : s.fault = some f) : s.final = false := by
  simp [State.final, h]

/-- Settles O12: the single-owner rule comes first; an operation is blind to its rivals; the fault is sticky. -/
theorem requestDuringOperationFaults : Obligations.RequestDuringOperationFaults := by
  refine ⟨fun i s h => exec_of_occupied (s.occupied_iff.2 h) i,
    fun _ _ _ => exec_with_rival, fun s t hfault hstep => ?_⟩
  obtain ⟨f, hf⟩ := Option.ne_none_iff_exists'.1 hfault
  obtain ⟨-, hsticky⟩ := stickyMarksNeverCleared s t hstep
  exact ⟨(hsticky f hf).trans hf.symm, State.final_of_fault (hsticky f hf)⟩

/-! ## The phase table (R306) -/

theorem exec_phase_refused (hs : s.free) (h : admission i.op s.phase = .refuse why) :
    exec i s = .next { s.begun with refused := true, result := some (.refused why) } := by
  obtain ⟨checks, body, hexec, -⟩ := exec_perform i s
  rw [hexec, perform_phase_refused hs h]

theorem exec_phase_raised (hs : s.free) (h : admission i.op s.phase = .raise) :
    exec i s = .next { s.begun with result := some (.raised (.fifoDesync none)) } := by
  obtain ⟨checks, body, hexec, -⟩ := exec_perform i s
  rw [hexec, perform_phase_raised hs h]

/-- A request that is admitted is refused by its checks, for none of the table's reasons, or runs its body. -/
theorem exec_admitted_result (hs : s.free) (h : admission i.op s.phase = .admitted) :
    ∃ t, exec i s = .next t ∧ t.result ≠ some (.refused .notConfigured) ∧
      t.result ≠ some (.refused .notReset) ∧ t.result ≠ some (.raised (.fifoDesync none)) := by
  obtain ⟨checks, body, hexec, hreasons, hbody⟩ := exec_perform i s
  refine ⟨_, hexec, ?_⟩
  cases hchecks : firstRefusal checks with
  | some why =>
    rw [perform_refused hs h hchecks]
    obtain ⟨hconfigured, hreset⟩ := hreasons why hchecks
    simp [hconfigured, hreset]
  | none =>
    rw [perform_body hs h hchecks]
    have hx := hbody hchecks hs
    exact ⟨hx.result_ne_refused _, hx.result_ne_refused _, hx.result_ne_raised_desync⟩

/-- Settles O14: a row of the table each, then every pair that is admitted. -/
theorem phaseAdmission : Obligations.PhaseAdmission := by
  intro i s hs
  refine ⟨fun hop hp => ?_, fun hop hp => ?_, fun hop hp => ?_, fun hfifo hconf => ?_⟩
  · exact exec_phase_refused hs ((admission_fifoRequest hop _).trans (admitFifo_notConfigured hp))
  · exact exec_phase_raised hs ((admission_fifoRequest hop _).trans (congrArg admitFifo hp))
  · exact exec_phase_refused hs (by rw [hop]; exact admitConfigure_notReset hp)
  · exact exec_admitted_result hs (admission_admitted hfifo hconf)

end Sys2Proof.Machine
end
